-- ==== Sys2Proof/Word.lean ====
section
/-! DEFINITION. The word types of the Zhoica 960 (spec 00, R4; 03, R46). -/

namespace Sys2Proof

/-- Eight bits, the unit of memory (R98). -/
abbrev Byte := BitVec 8
/-- Sixteen bits. -/
abbrev Half := BitVec 16
/-- A vector register (R46). -/
abbrev Word := BitVec 32
/-- A register pair or a lead register (R46, R131). -/
abbrev Dword := BitVec 64
/-- A program counter or other 52-bit address register (R19). -/
abbrev Addr := BitVec 52
/-- A set of lanes of one warp, bit `ℓ` for lane `ℓ` (R20). -/
abbrev Mask := BitVec 64

end Sys2Proof
end

