-- ==== Sys2Proof/Syntax.lean ====
section
/-! DEFINITION. The instructions and steps of the Zhoica 960: one constructor per row of the opcode table.
Register numbers and codes are turned into fields and constructors here, so the machine never sees raw encodings. -/

namespace Sys2Proof

/-- Integer type codes (R154, Table 7-2). -/
inductive IntTy where
  | i32 | n32 | i64 | n64 | i16 | n16 | i8 | n8 | b32 | b64
deriving DecidableEq, Repr

/-- Rounding modes (R50, Table 3-3). -/
inductive Rm where
  | rn | rz | rd | ru | ra
deriving DecidableEq, Repr

/-- Condition codes (R156, Table 7-3). -/
inductive Cond where
  | eq | ne | lt | le | gt | ge | num | nan
deriving DecidableEq, Repr

/-- Float formats of conversions (R166, Table 7-6). -/
inductive FFmt where
  | f32 | f16 | bf16 | e4m3 | e5m2
deriving DecidableEq, Repr

/-- Log formats as QNT, AQNT and CPYQ code them (R153, R230). -/
inductive LgFmt where
  | lg7 | lg6 | lg4
deriving DecidableEq, Repr

/-- Cache hints (R85, Table 4-6). -/
inductive CacheHint where
  | normal | stream | keep | noalloc
deriving DecidableEq, Repr

/-- Ordering codes (R107, Table 5-3). -/
inductive MemOrd where
  | plain | acq | rel | ar
deriving DecidableEq, Repr

/-- Scopes (R99, Table 5-1). -/
inductive Scope where
  | core | block | slice | fabric | system
deriving DecidableEq, Repr

/-- Access sizes (R194, Table 8-6). -/
inductive Size where
  | b32 | b64 | b128 | n8 | i8 | n16 | i16
deriving DecidableEq, Repr

/-- Atomic operations (R193, R199). -/
inductive AtOp where
  | add | min | max | and | or | xor | exch
deriving DecidableEq, Repr

/-- Atomic kinds (R193). -/
inductive AtKind where
  | i32 | n32 | f32 | i64
deriving DecidableEq, Repr

/-- Kinds of a cross-lane value (R153, layout XL, field KT). -/
inductive XlKind where
  | i32 | n32 | f32 | b64
deriving DecidableEq, Repr

/-- Operations of RSTEP, WRED and SCAN (R172, Table 7-8). -/
inductive RedOp where
  | add | min | max | and | or | xor
deriving DecidableEq, Repr

/-- Modes of SHFL (R173). -/
inductive ShflMode where
  | idx | up | down | xor
deriving DecidableEq, Repr

/-- Forms of VOTE (R177). -/
inductive VoteOp where
  | ballot | any | all | uni
deriving DecidableEq, Repr

/-- Engines with a chain; the ring index of R274 is the order written here. -/
inductive Engine where
  | cube | cpy0 | cpy1 | fab
deriving DecidableEq, Repr

/-- Operand formats of the cube (R217, Table 9-2). -/
inductive CubeFmt where
  | e4m3 | e5m2 | i8 | bf16 | f16 | f32 | log
deriving DecidableEq, Repr

/-- Orientation of the third operand (R216). -/
inductive Ori where
  | cj | ci | ck
deriving DecidableEq, Repr

/-- Kinds of an index map (R216). -/
inductive MapKind where
  | identity | modN | divN
deriving DecidableEq, Repr

/-- Ports of a tile register (R228, R229). -/
inductive Port where
  | row | col | sc
deriving DecidableEq, Repr

/-- Operations of AMAP (R230). -/
inductive AmapOp where
  | mul | add | max | min | mov
deriving DecidableEq, Repr

/-- What the M-form and the L-form carry beside operands (R125 to R127). -/
structure Hdr where
  gp : BitVec 3
  gn : Bool
  la : BitVec 4
  rh : Bool
  yh : Bool
  ch : CacheHint
deriving DecidableEq, Repr

/-- Layout IT (Table 7-1): type, .SAT, SUB, the four operand fields, and the literal of an L-form. -/
structure IOp where
  ty : IntTy
  sat : Bool
  sub : BitVec 3
  d : Byte
  a : Byte
  b : Byte
  c : Byte
  lit : Option Word
deriving DecidableEq, Repr

/-- Layout LT (Table 7-1). -/
structure TabOp where
  tab : Byte
  wide : Bool
  d : Byte
  a : Byte
  b : Byte
  c : Byte
  lit : Option Word
deriving DecidableEq, Repr

/-- Layout FP (Table 7-1). -/
structure FOp where
  hb : Bool
  rm : Rm
  sat : Bool
  ftz : Bool
  sub : BitVec 3
  d : Byte
  a : Byte
  b : Byte
  c : Byte
  lit : Option Word
deriving DecidableEq, Repr

/-- Layout CI (Table 7-1). -/
structure CiOp where
  rm : Rm
  ff : FFmt
  ty : IntTy
  d : Byte
  a : Byte
deriving DecidableEq, Repr

/-- Layout CF as CVTFF uses it (Table 7-1). -/
structure CffOp where
  rm : Rm
  sat : Bool
  fd : FFmt
  fs : FFmt
  d : Byte
  a : Byte
deriving DecidableEq, Repr

/-- Layout CF as CVTPK uses it (Table 7-1, R168). -/
structure CpkOp where
  rm : Rm
  sat : Bool
  fd : FFmt
  h : Bool
  d : Byte
  a : Byte
  b : Byte
deriving DecidableEq, Repr

/-- Layout QN (Table 7-1); also AQNT (Table 9-9). -/
structure QnOp where
  fmt : LgFmt
  d : Byte
  a : Byte
deriving DecidableEq, Repr

/-- A destination and one source, and nothing else. -/
structure DaOp where
  d : Byte
  a : Byte
deriving DecidableEq, Repr

/-- SFU functions: .FTZ is the only MOD field (R171). -/
structure SfuOp where
  ftz : Bool
  d : Byte
  a : Byte
deriving DecidableEq, Repr

/-- SHFL (layout XL). -/
structure ShflOp where
  seg : BitVec 3
  mode : ShflMode
  kt : XlKind
  d : Byte
  a : Byte
  b : Byte
  c : Byte
  lit : Option Word
deriving DecidableEq, Repr

/-- RSTEP (layout XL). -/
structure RstepOp where
  op : RedOp
  kt : XlKind
  d : Byte
  a : Byte
  b : Byte
  c : Byte
  lit : Option Word
deriving DecidableEq, Repr

/-- WRED and SCAN (layout XL); EXCL is SCAN's. -/
structure RedLaneOp where
  op : RedOp
  kt : XlKind
  excl : Bool
  d : Byte
  a : Byte
deriving DecidableEq, Repr

/-- VOTE (layout XL). -/
structure VoteLaneOp where
  op : VoteOp
  d : Byte
  a : Byte
deriving DecidableEq, Repr

/-- MATCH (layout XL). -/
structure MatchOp where
  kt : XlKind
  d : Byte
  a : Byte
deriving DecidableEq, Repr

/-- BCAST (layout XL). -/
structure BcastOp where
  kt : XlKind
  d : Byte
  a : Byte
  b : Byte
  c : Byte
  lit : Option Word
deriving DecidableEq, Repr

/-- Layout MM (Table 8-5). `part` is the logical part of LDSR and STSR and the bank of LDC. -/
structure MemOp where
  sz : Size
  part : BitVec 2
  ord : MemOrd
  sc : Scope
  d : Byte
  a : Byte
  b : Byte
  c : Byte
  lit : Option Word
deriving DecidableEq, Repr

/-- Layout AT (Table 8-5). -/
structure AtomOp where
  aop : AtOp
  ak : AtKind
  ord : MemOrd
  sc : Scope
  d : Byte
  a : Byte
  b : Byte
  c : Byte
  lit : Option Word
deriving DecidableEq, Repr

/-- PREF and IPREF. -/
structure PrefOp where
  a : Byte
  b : Byte
  lit : Option Word
deriving DecidableEq, Repr

/-- One index map of the cube framing literal (Table 9-3). -/
structure IdxMap where
  kind : MapKind
  ln : BitVec 3
deriving DecidableEq, Repr

/-- The cube framing literal (Table 9-3). -/
structure Frame where
  ori : Ori
  beta : IdxMap
  kappa : IdxMap
  af : CubeFmt
  bf : CubeFmt
  cf : CubeFmt
  bh : Bool
  chalf : Bool
  crow : BitVec 6
  za : Bool
deriving DecidableEq, Repr

/-- TMAC, MMAC and CSPMAC (Table 9-4); `lform` false only in an M-form, whose LIT is 0. -/
structure CubeOp where
  lform : Bool
  fr : Frame
  d : Byte
  a : Byte
  b : Byte
  c : Byte
deriving DecidableEq, Repr

/-- TMACV and MMACV (Table 9-4). -/
structure CubeVOp where
  fr : Frame
  acc : BitVec 6
  d : Byte
  a : Byte
  b : Byte
  c : Byte
deriving DecidableEq, Repr

/-- TLD and TST (Table 9-8). -/
structure TileMemOp where
  rstr : Byte
  log : Bool
  d : Byte
  a : Byte
  b : Byte
deriving DecidableEq, Repr

/-- TWRV and TRDV (Table 9-8). -/
structure TilePortOp where
  port : Port
  idx : BitVec 4
  d : Byte
  a : Byte
deriving DecidableEq, Repr

/-- TFILL (Table 9-8). -/
structure TfillOp where
  scale : Byte
  d : Byte
  a : Byte
  lit : Option Word
deriving DecidableEq, Repr

/-- ALD and AST (Table 9-9). -/
structure AccMemOp where
  rstr : Byte
  d : Byte
  a : Byte
  b : Byte
deriving DecidableEq, Repr

/-- ARDV and AWRV (Table 9-9). -/
structure AccColOp where
  col : BitVec 5
  d : Byte
  a : Byte
deriving DecidableEq, Repr

/-- AMAP (Table 9-9). -/
structure AmapLaneOp where
  op : AmapOp
  d : Byte
  a : Byte
  b : Byte
  lit : Option Word
deriving DecidableEq, Repr

/-- Copy commands (Table 9-13). `ext` is MOD [63:58]: part mask, peer or format. `eng1` is MOD [54]. -/
structure CpyOp where
  eng1 : Bool
  ds : Bool
  ss : Bool
  ext : BitVec 6
  d : Byte
  a : Byte
  b : Byte
  c : Byte
  lit : Option Word
deriving DecidableEq, Repr

/-- CHLINK (R242). -/
structure ChlinkOp where
  eng : Engine
  d : Byte
  a : Byte
  b : Byte
deriving DecidableEq, Repr

/-- CHMARK (R243). -/
structure ChmarkOp where
  eng : Engine
  ds : Bool
  peer : BitVec 6
  d : Byte
  a : Byte
  lit : Option Word
deriving DecidableEq, Repr

/-- How an access uses an address, for translation (R76). -/
inductive Access where
  | load | store | fetch
deriving DecidableEq, Repr

/-- The register space that a host write names. -/
inductive Bar where
  | pf0 | vf0 (vf : Nat) | vf2 (vf : Nat)
deriving DecidableEq, Repr

/-- Where a soft error arises (R357, Table 17-7). -/
inductive Site where
  /-- L0, L1, TLB or constant cache of a core. -/
  | coreCache (core : Nat)
  /-- Data of a sector in L2, or in the memory-side cache. -/
  | cacheData (sector : Nat) (l2 : Bool)
  /-- The tag of a line in L2, or in the memory-side cache. -/
  | cacheTag (line : Nat) (l2 : Bool)
  /-- The 8 bytes that hold register `r` of a lane. -/
  | register (warp lane r : Nat)
  /-- Eight bytes of a part's scratchpad at an offset. -/
  | scratch (part off : Nat)
  /-- Eight bytes of a tile row, by their place in it; place 8 is its sidecar. -/
  | tile (part t row at' : Nat)
  /-- Eight bytes of an accumulator row, by their place in it. -/
  | accum (part t row at' : Nat)
  /-- A decision-queue entry of a part. -/
  | dqueue (part i : Nat)
  /-- Eight bytes of a store-queue entry of a warp or lead: its lane, and their place in the lane's data. -/
  | squeue (warp i lane at' : Nat)
  /-- Scheduler, bundle or issue state of a core (R374). -/
  | issueState (core : Nat)
deriving DecidableEq, Repr

/-- ARG of a mailbox command that a lock may refuse (Table 11-1), with PFCMD [31:12], which the command does not use and the lock log
keeps as they were written (R385). -/
structure PfArg where
  arg : Word
  unused : BitVec 20
deriving DecidableEq, Repr

/-- One constructor per row of the opcode table. Rows that are steps of the device or requests of the host carry the
numbers of the agents they act on. Instructions stand first, then the steps that the machine takes by itself, then what
reaches it from outside. -/
inductive Instr where
  | nop (h : Hdr)
  | iadd (h : Hdr) (o : IOp)
  | isub (h : Hdr) (o : IOp)
  | iaddc (h : Hdr) (o : IOp)
  | isubb (h : Hdr) (o : IOp)
  | imul (h : Hdr) (o : IOp)
  | imulh (h : Hdr) (o : IOp)
  | imad (h : Hdr) (o : IOp)
  | imadw (h : Hdr) (o : IOp)
  | idiv (h : Hdr) (o : IOp)
  | irem (h : Hdr) (o : IOp)
  | ineg (h : Hdr) (o : IOp)
  | iabs (h : Hdr) (o : IOp)
  | imin (h : Hdr) (o : IOp)
  | imax (h : Hdr) (o : IOp)
  | iclamp (h : Hdr) (o : IOp)
  | and (h : Hdr) (o : IOp)
  | or (h : Hdr) (o : IOp)
  | xor (h : Hdr) (o : IOp)
  | not (h : Hdr) (o : IOp)
  | btab3 (h : Hdr) (o : TabOp)
  | shl (h : Hdr) (o : IOp)
  | shr (h : Hdr) (o : IOp)
  | sar (h : Hdr) (o : IOp)
  | shf (h : Hdr) (o : IOp)
  | rotl (h : Hdr) (o : IOp)
  | bfe (h : Hdr) (o : IOp)
  | bfi (h : Hdr) (o : IOp)
  | popc (h : Hdr) (o : IOp)
  | clz (h : Hdr) (o : IOp)
  | ctz (h : Hdr) (o : IOp)
  | brev (h : Hdr) (o : IOp)
  | icmp (h : Hdr) (o : IOp)
  | iset (h : Hdr) (o : IOp)
  | sel (h : Hdr) (o : IOp)
  | mov (h : Hdr) (o : IOp)
  | movi (h : Hdr) (o : IOp)
  | lea (h : Hdr) (o : IOp)
  | idot4 (h : Hdr) (o : IOp)
  | idot2 (h : Hdr) (o : IOp)
  | pmov (h : Hdr) (o : IOp)
  | ptab3 (h : Hdr) (o : TabOp)
  | fadd (h : Hdr) (o : FOp)
  | fsub (h : Hdr) (o : FOp)
  | fmul (h : Hdr) (o : FOp)
  | ffma (h : Hdr) (o : FOp)
  | fmin (h : Hdr) (o : FOp)
  | fmax (h : Hdr) (o : FOp)
  | fcmp (h : Hdr) (o : FOp)
  | fset (h : Hdr) (o : FOp)
  | fclass (h : Hdr) (o : FOp)
  | frnd (h : Hdr) (o : FOp)
  | fscale (h : Hdr) (o : FOp)
  | fexp (h : Hdr) (o : FOp)
  | hadd2 (h : Hdr) (o : FOp)
  | hmul2 (h : Hdr) (o : FOp)
  | hfma2 (h : Hdr) (o : FOp)
  | hmnx2 (h : Hdr) (o : FOp)
  | fdot2 (h : Hdr) (o : FOp)
  | fdot4 (h : Hdr) (o : FOp)
  | cvti (h : Hdr) (o : CiOp)
  | cvtf (h : Hdr) (o : CiOp)
  | cvtff (h : Hdr) (o : CffOp)
  | cvtpk (h : Hdr) (o : CpkOp)
  | qnt (h : Hdr) (o : QnOp)
  | dqnt (h : Hdr) (o : DaOp)
  | ex2 (h : Hdr) (o : SfuOp)
  | lg2 (h : Hdr) (o : SfuOp)
  | rcp (h : Hdr) (o : SfuOp)
  | rsq (h : Hdr) (o : SfuOp)
  | sqt (h : Hdr) (o : SfuOp)
  | sin (h : Hdr) (o : SfuOp)
  | cos (h : Hdr) (o : SfuOp)
  | tanh (h : Hdr) (o : SfuOp)
  | shfl (h : Hdr) (o : ShflOp)
  | rstep (h : Hdr) (o : RstepOp)
  | wred (h : Hdr) (o : RedLaneOp)
  | scan (h : Hdr) (o : RedLaneOp)
  | vote (h : Hdr) (o : VoteLaneOp)
  | matchLanes (h : Hdr) (o : MatchOp)
  | bcast (h : Hdr) (o : BcastOp)
  | first (h : Hdr) (o : DaOp)
  | bra (h : Hdr) (off : Word)
  | brx (h : Hdr) (a : Byte)
  | call (h : Hdr) (off : Word)
  | callx (h : Hdr) (a : Byte)
  | ret (h : Hdr)
  | exit (h : Hdr)
  | meet (h : Hdr) (save : BitVec 7) (off : Word)
  | mtres (h : Hdr) (a : Byte)
  | yieldHint (h : Hdr)
  | xissue (h : Hdr) (w : Byte) (n1 : BitVec 3)
  | bkpt (h : Hdr) (code : BitVec 10)
  | trap (h : Hdr) (code : BitVec 10)
  | sleep (h : Hdr) (a : Byte) (lit : Option Word)
  | ld (h : Hdr) (o : MemOp)
  | st (h : Hdr) (o : MemOp)
  | lds (h : Hdr) (o : MemOp)
  | sts (h : Hdr) (o : MemOp)
  | ldsr (h : Hdr) (o : MemOp)
  | stsr (h : Hdr) (o : MemOp)
  | ldc (h : Hdr) (o : MemOp)
  | atom (h : Hdr) (o : AtomOp)
  | atoms (h : Hdr) (o : AtomOp)
  | acas (h : Hdr) (o : AtomOp)
  | acass (h : Hdr) (o : AtomOp)
  | redm (h : Hdr) (o : AtomOp)
  | pref (h : Hdr) (o : PrefOp)
  | ipref (h : Hdr) (o : PrefOp)
  | fence (h : Hdr) (ord : MemOrd) (sc : Scope)
  | fencesc (h : Hdr)
  | bar (h : Hdr) (g : Byte)
  | bara (h : Hdr) (g : Byte) (d : Byte)
  | barw (h : Hdr) (g : Byte) (a : Byte)
  | swarm (h : Hdr) (rearm : Bool) (a b : Byte) (lit : Option Word)
  | syncw (h : Hdr) (a b : Byte)
  | waitseq (h : Hdr) (eng : Engine) (a : Byte)
  | dqpost (h : Hdr) (tagged : Bool) (a b : Byte)
  | dqtake (h : Hdr) (d : Byte)
  | cacq (h : Hdr) (pri : BitVec 2)
  | crel (h : Hdr)
  | tmac (h : Hdr) (o : CubeOp)
  | mmac (h : Hdr) (o : CubeOp)
  | tmacv (h : Hdr) (o : CubeVOp)
  | mmacv (h : Hdr) (o : CubeVOp)
  | tld (h : Hdr) (o : TileMemOp)
  | tst (h : Hdr) (o : TileMemOp)
  | twrv (h : Hdr) (o : TilePortOp)
  | trdv (h : Hdr) (o : TilePortOp)
  | tfill (h : Hdr) (o : TfillOp)
  | aclr (h : Hdr) (d : Byte)
  | ald (h : Hdr) (o : AccMemOp)
  | ast (h : Hdr) (o : AccMemOp)
  | ardv (h : Hdr) (o : AccColOp)
  | awrv (h : Hdr) (o : AccColOp)
  | aqnt (h : Hdr) (o : QnOp)
  | amap (h : Hdr) (o : AmapLaneOp)
  | cpy (h : Hdr) (o : CpyOp)
  | cpy2 (h : Hdr) (o : CpyOp)
  | cpyg (h : Hdr) (o : CpyOp)
  | cpys (h : Hdr) (o : CpyOp)
  | cpyb (h : Hdr) (o : CpyOp)
  | cpyf (h : Hdr) (o : CpyOp)
  | cpyfl (h : Hdr) (o : CpyOp)
  | cpyq (h : Hdr) (o : CpyOp)
  | chlink (h : Hdr) (o : ChlinkOp)
  | chmark (h : Hdr) (o : ChmarkOp)
  | getsr (h : Hdr) (d n : Byte)
  | setsr (h : Hdr) (n a : Byte)
  | evt (h : Hdr) (g a : Byte) (lit : Option Word)
  | cntrd (h : Hdr) (d a : Byte)
  | cntsel (h : Hdr) (d a : Byte)
  | cspmac (h : Hdr) (o : CubeOp)
  | iaddS (g : Bool) (d a b : Byte)
  | isubS (g : Bool) (d a b : Byte)
  | imulS (g : Bool) (d a b : Byte)
  | iminS (g : Bool) (d a b : Byte)
  | imaxS (g : Bool) (d a b : Byte)
  | andS (g : Bool) (d a b : Byte)
  | orS (g : Bool) (d a b : Byte)
  | xorS (g : Bool) (d a b : Byte)
  | shlS (g : Bool) (d a b : Byte)
  | shrS (g : Bool) (d a b : Byte)
  | sarS (g : Bool) (d a b : Byte)
  | rotlS (g : Bool) (d a b : Byte)
  | movS (g : Bool) (d a : Byte)
  | notS (g : Bool) (d a : Byte)
  | inegS (g : Bool) (d a : Byte)
  | popcS (g : Bool) (d a : Byte)
  | clzS (g : Bool) (d a : Byte)
  | brevS (g : Bool) (d a : Byte)
  | isetltS (g : Bool) (d a b : Byte)
  | iseteqS (g : Bool) (d a b : Byte)
  | nminS (g : Bool) (d a b : Byte)
  | nmaxS (g : Bool) (d a b : Byte)
  | faddS (g : Bool) (d a b : Byte)
  | fsubS (g : Bool) (d a b : Byte)
  | fmulS (g : Bool) (d a b : Byte)
  | fminS (g : Bool) (d a b : Byte)
  | fmaxS (g : Bool) (d a b : Byte)
  | fsetltS (g : Bool) (d a b : Byte)
  | fnegS (g : Bool) (d a : Byte)
  | fabsS (g : Bool) (d a : Byte)
  | hadd2S (g : Bool) (d a b : Byte)
  | hmul2S (g : Bool) (d a b : Byte)
  | cvtfS (g : Bool) (d a : Byte)
  | cvtiS (g : Bool) (d a : Byte)
  | ex2S (g : Bool) (d a : Byte)
  | lg2S (g : Bool) (d a : Byte)
  | rcpS (g : Bool) (d a : Byte)
  | rsqS (g : Bool) (d a : Byte)
  | ldsS (g : Bool) (d a b : Byte)
  | stsS (g : Bool) (a b : Byte)
  | nopS (g : Bool)
  /-- R102. -/
  | storeCoreVisible (warp : Nat)
  /-- R103. -/
  | storePerformedAtHome (id : Nat)
  /-- R202. -/
  | loadDataReturn (id : Nat)
  /-- R92. -/
  | remoteLoadReturn (id : Nat)
  /-- R178. -/
  | resultWriteback (warp : Nat)
  /-- R204. -/
  | barrierPhaseComplete (blk g : Nat)
  /-- R184. -/
  | sleepExpiry (warp bundle : Nat)
  /-- R214. -/
  | cubeOwnershipGrant (core : Nat)
  /-- R117. -/
  | engineRecordStart (core : Nat) (eng : Engine)
  /-- R240. -/
  | copyUnitTransfer (core : Nat) (eng : Engine)
  /-- R227. -/
  | cubeChunk (core : Nat)
  /-- R222. -/
  | cubeTileOperation (core : Nat)
  /-- R222. -/
  | cubeAccumulatorWrite (core : Nat)
  /-- R117. -/
  | engineOperationComplete (core : Nat) (eng : Engine)
  /-- R243. -/
  | chainMarkerWrite (core : Nat) (eng : Engine)
  /-- R242. -/
  | segmentRecordRead (core : Nat) (eng : Engine)
  /-- R281. -/
  | fabricFlitSend (core : Nat)
  /-- R278. -/
  | fabricRunClose (vf peer : Nat)
  /-- R105. -/
  | l1SectorExpiry (core : Nat)
  /-- R400. -/
  | l0LineFill (core line : Nat)
  /-- R26. -/
  | fairnessWindowGrant (warp : Nat)
  /-- R22. -/
  | bundleRegrouping (core : Nat)
  /-- R257. -/
  | schedulerSelection (core : Nat)
  /-- R248. -/
  | launchPacketRead (vf : Nat)
  /-- R250. -/
  | blockPlacementAttempt (vf : Nat)
  /-- R253. -/
  | priorityVictimMark (vf : Nat)
  /-- R260. -/
  | blockEvict (blk : Nat)
  /-- R38. -/
  | replStart (launch : Nat)
  /-- R39. -/
  | replTimeout (launch : Nat)
  /-- R80. -/
  | translationWalk (core vf ctx : Nat) (va : Dword) (acc : Access)
  /-- R270. -/
  | midnightScrubEnd (ch : Nat)
  /-- R317. -/
  | blockHaltWarpStop (warp : Nat)
  /-- R318. -/
  | blockDiscard (blk : Nat)
  /-- R32. -/
  | blockRetire (blk : Nat)
  /-- R314. -/
  | faultRecordWrite (vf ctx : Nat)
  /-- R297. -/
  | traceRecordWrite (vf unit : Nat)
  /-- R298. -/
  | pcSample (core sched vf unit : Nat)
  /-- R366. -/
  | starvationRecord (warp bundle : Nat)
  /-- R367. -/
  | blockIdleRecord (blk : Nat)
  /-- R283. -/
  | quiesceSave (vf : Nat)
  /-- R370. -/
  | quiesceTimeout (vf : Nat)
  /-- R303. -/
  | breakpointStop (warp bundle : Nat)
  /-- R303. -/
  | debugStopDump (blk : Nat)
  /-- R394. -/
  | stepEnd (blk : Nat)
  /-- R360. -/
  | twinCheckpointCompare (warp : Nat)
  /-- R187. -/
  | xissueGroupIssue (warp : Nat)
  /-- R352: a 256-byte line by its number PA / 256. -/
  | patrolScrubRead (line : Nat)
  /-- R18. -/
  | throttleWithhold (core : Nat)
  /-- R278. -/
  | pairKeyRenewal (vf peer : Nat)
  /-- R352. -/
  | neighbourRefresh (ch bank row : Nat)
  /-- R14: power is applied and PERST# released. -/
  | coldPowerUp
  /-- R14. -/
  | dawnStage
  /-- R14, R15. -/
  | noonStage
  /-- R383. -/
  | warmReset
  /-- R383. -/
  | powerLoss
  /-- R376. -/
  | pfFlr
  /-- R379. -/
  | vfFlr (vf : Nat)
  /-- R381. -/
  | internalUncorrectableError
  /-- R14, R2: function 0 is the PF, n is VF n. -/
  | pcieConfigRequest (fn off : Nat)
  /-- R4. -/
  | registerWrite (bar : Bar) (off : Nat) (val : Dword)
  /-- R114. -/
  | heartbeatTick
  /-- R248. -/
  | lqDoorbell (vf ctx : Nat) (tail : Word)
  /-- R38. -/
  | replPacketReceive (vf ctx : Nat) (gen : Dword) (pkt : List Byte)
  /-- R38. -/
  | replReadyReport (launch dev : Nat) (time : Dword)
  /-- R38. -/
  | replT0Receive (launch : Nat) (t0 : Dword)
  /-- R81. -/
  | tlbinv (vf : Nat) (val : Dword)
  /-- R386. -/
  | fabricRunReceive (vf peer seq : Nat) (tagOk : Bool) (ia : Dword) (bytes : List Byte)
  /-- R386. -/
  | fabricRetryNotice (vf peer seq : Nat)
  /-- R271. -/
  | linkRekey (link : Nat)
  /-- R79. -/
  | peerRequestReceive (vf : Nat) (ia : Dword) (wr : Option (List Byte)) (len : Nat)
  /-- R199. -/
  | hostCompletion (id : Nat) (ok : Bool) (bytes : List Byte)
  /-- R354. -/
  | hostMemoryWrite (pa : Nat) (bytes : List Byte)
  /-- R267. -/
  | ideOutsideStreamRequest (vf off : Nat) (data : Dword)
  /-- R390, R376: none is the link stream of the PF. -/
  | ideStreamFailure (vf : Option Nat)
  /-- R374. -/
  | coreSelfTest (core : Nat) (pass : Bool)
  /-- R399. -/
  | multiplexRotation
  /-- R301. -/
  | ptpMessage (time : Dword) (lock : Bool)
  /-- R301. -/
  | ptmResponse (time : Dword) (lock : Bool)
  /-- R262, R263. -/
  | assign (vfa : Nat) (qmask : Half)
  /-- R379. -/
  | release (vfa : Nat)
  /-- R283. -/
  | quiesce (vfa : Nat) (arg : Word)
  /-- R283. -/
  | resume (vfa : Nat) (arg : Word)
  /-- R290. -/
  | merge (vfa vfb : Nat)
  /-- R291. -/
  | split (vfa : Nat) (qmask : Half) (vfb : Nat)
  /-- R292: EXPORT. -/
  | sealImage (vfa : Nat) (arg : Word)
  /-- R292: IMPORT. -/
  | unsealImage (vfa : Nat) (arg : Word)
  /-- R281. -/
  | setallow (vfa : Nat) (arg : PfArg)
  /-- R280. -/
  | setroute (vfa : Nat) (arg : PfArg)
  /-- R77. -/
  | setmap (vfa : Nat) (arg : Word)
  /-- R279. -/
  | setpeer (vfa : Nat) (arg : PfArg)
  /-- R278. -/
  | setrun (vfa : Nat) (arg : PfArg)
  /-- R263. -/
  | pfcmdReserved (op : Byte)
  /-- R275. -/
  | create (vf ctx : Nat)
  /-- R275. -/
  | destroy (vf ctx : Nat)
  /-- R276. -/
  | codeLoad (vf ctx : Nat)
  /-- R384. -/
  | lockedRegisterWrite (vf off : Nat) (data : Dword) (hyp : Bool)
  /-- R265. -/
  | getTdispVersion (vf : Nat)
  /-- R265. -/
  | getTdispCapabilities (vf : Nat)
  /-- R266. -/
  | lockInterfaceRequest (vf : Nat)
  /-- R265. -/
  | getDeviceInterfaceReport (vf : Nat)
  /-- R265. -/
  | getDeviceInterfaceState (vf : Nat)
  /-- R390. -/
  | startInterfaceRequest (vf : Nat)
  /-- R379. -/
  | stopInterfaceRequest (vf : Nat)
  /-- R267. -/
  | ideKm (fn : Nat)
  /-- R268. -/
  | getVersion (fn : Nat)
  /-- R268. -/
  | getCapabilities (fn : Nat)
  /-- R268. -/
  | negotiateAlgorithms (fn : Nat)
  /-- R268. -/
  | getDigests (fn : Nat)
  /-- R268. -/
  | getCertificate (fn : Nat)
  /-- R268. -/
  | challenge (fn : Nat)
  /-- R388. -/
  | getMeasurements (fn idx : Nat)
  /-- R268. -/
  | keyExchange (fn : Nat)
  /-- R268. -/
  | finish (fn : Nat)
  /-- R268. -/
  | endSession (fn : Nat)
  /-- R296. -/
  | trcctlWrite (vf unit : Nat) (val : Dword)
  /-- R313. -/
  | fqrdWrite (vf ctx : Nat) (val : Dword)
  /-- R346. -/
  | fqreplay (vf ctx : Nat) (val : Dword)
  /-- R320. -/
  | asumWrite (vf ctx : Nat) (val : Dword)
  /-- R395. -/
  | replstatWrite (vf ctx : Nat) (val : Dword)
  /-- R300. -/
  | counterPageSelect (vf ctx : Nat) (val : Dword)
  /-- R303. -/
  | dbgStop (vf ctx : Nat)
  /-- R303. -/
  | dbgResume (vf ctx : Nat)
  /-- R394. -/
  | dbgStep (vf ctx : Nat)
  /-- R394. -/
  | dbgBstep (vf ctx : Nat)
  /-- R357, R374. -/
  | softError (site : Site) (double : Bool)
  /-- R351: codeword number PA / 64 and the error in its 80 symbols. -/
  | codewordError (cw : Nat) (syms : List Byte)
  /-- R386. -/
  | fabricRunAcknowledged (vf peer seq : Nat)
  /-- R39. -/
  | replRejection (launch : Nat)
deriving DecidableEq, Repr

end Sys2Proof
end

