-- ==== Sys2Proof/WellFormed.lean ====
section
/-! DEFINITION. Well-formedness: what check 3 (FIELD), check 4 (OPERAND) and check 5 (RANGE) of Table 6-11 accept, and
the operands that each instruction names (R130, R131, R137, R138). -/

namespace Sys2Proof

/-- The header of an M- or L-form instruction. -/
def Instr.hdr? : Instr → Option Hdr
  | .nop h | .iadd h _ | .isub h _ | .iaddc h _ | .isubb h _ | .imul h _ | .imulh h _ | .imad h _ | .imadw h _
  | .idiv h _ | .irem h _ | .ineg h _ | .iabs h _ | .imin h _ | .imax h _ | .iclamp h _ | .and h _ | .or h _
  | .xor h _ | .not h _ | .btab3 h _ | .shl h _ | .shr h _ | .sar h _ | .shf h _ | .rotl h _ | .bfe h _ | .bfi h _
  | .popc h _ | .clz h _ | .ctz h _ | .brev h _ | .icmp h _ | .iset h _ | .sel h _ | .mov h _ | .movi h _ | .lea h _
  | .idot4 h _ | .idot2 h _ | .pmov h _ | .ptab3 h _ | .fadd h _ | .fsub h _ | .fmul h _ | .ffma h _ | .fmin h _
  | .fmax h _ | .fcmp h _ | .fset h _ | .fclass h _ | .frnd h _ | .fscale h _ | .fexp h _ | .hadd2 h _ | .hmul2 h _
  | .hfma2 h _ | .hmnx2 h _ | .fdot2 h _ | .fdot4 h _ | .cvti h _ | .cvtf h _ | .cvtff h _ | .cvtpk h _ | .qnt h _
  | .dqnt h _ | .ex2 h _ | .lg2 h _ | .rcp h _ | .rsq h _ | .sqt h _ | .sin h _ | .cos h _ | .tanh h _ | .shfl h _
  | .rstep h _ | .wred h _ | .scan h _ | .vote h _ | .matchLanes h _ | .bcast h _ | .first h _ | .bra h _ | .brx h _
  | .call h _ | .callx h _ | .ret h | .exit h | .meet h _ _ | .mtres h _ | .yieldHint h | .xissue h _ _ | .bkpt h _
  | .trap h _ | .sleep h _ _ | .ld h _ | .st h _ | .lds h _ | .sts h _ | .ldsr h _ | .stsr h _ | .ldc h _ | .atom h _
  | .atoms h _ | .acas h _ | .acass h _ | .redm h _ | .pref h _ | .ipref h _ | .fence h _ _ | .fencesc h | .bar h _
  | .bara h _ _ | .barw h _ _ | .swarm h _ _ _ _ | .syncw h _ _ | .waitseq h _ _ | .dqpost h _ _ _ | .dqtake h _
  | .cacq h _ | .crel h | .tmac h _ | .mmac h _ | .tmacv h _ | .mmacv h _ | .tld h _ | .tst h _ | .twrv h _
  | .trdv h _ | .tfill h _ | .aclr h _ | .ald h _ | .ast h _ | .ardv h _ | .awrv h _ | .aqnt h _ | .amap h _
  | .cpy h _ | .cpy2 h _ | .cpyg h _ | .cpys h _ | .cpyb h _ | .cpyf h _ | .cpyfl h _ | .cpyq h _ | .chlink h _
  | .chmark h _ | .getsr h _ _ | .setsr h _ _ | .evt h _ _ _ | .cntrd h _ _ | .cntsel h _ _ | .cspmac h _ => some h
  | _ => none

/-- The guard bit of an S-form (R122). -/
def Instr.sGuard? : Instr → Option Bool
  | .iaddS g _ _ _ | .isubS g _ _ _ | .imulS g _ _ _ | .iminS g _ _ _ | .imaxS g _ _ _ | .andS g _ _ _ | .orS g _ _ _
  | .xorS g _ _ _ | .shlS g _ _ _ | .shrS g _ _ _ | .sarS g _ _ _ | .rotlS g _ _ _ | .movS g _ _ | .notS g _ _
  | .inegS g _ _ | .popcS g _ _ | .clzS g _ _ | .brevS g _ _ | .isetltS g _ _ _ | .iseteqS g _ _ _ | .nminS g _ _ _
  | .nmaxS g _ _ _ | .faddS g _ _ _ | .fsubS g _ _ _ | .fmulS g _ _ _ | .fminS g _ _ _ | .fmaxS g _ _ _
  | .fsetltS g _ _ _ | .fnegS g _ _ | .fabsS g _ _ | .hadd2S g _ _ _ | .hmul2S g _ _ _ | .cvtfS g _ _ | .cvtiS g _ _
  | .ex2S g _ _ | .lg2S g _ _ | .rcpS g _ _ | .rsqS g _ _ | .ldsS g _ _ _ | .stsS g _ _ | .nopS g => some g
  | _ => none

/-- What an operand field names (R130, R131). `grp n al` is `n` consecutive registers from a multiple of `al`. -/
inductive UseKind where
  | v | d | grp (n al : Nat) | p | t | a
deriving DecidableEq, Repr

/-- One operand of an instruction: what it names, the field's value, and whether the instruction writes it. -/
structure Use where
  kind : UseKind
  field : Byte
  write : Bool
deriving DecidableEq, Repr

/-- Width in bits of an integer type (R45). -/
def IntTy.width : IntTy → Nat
  | .i32 | .n32 | .b32 => 32
  | .i64 | .n64 | .b64 => 64
  | .i16 | .n16 => 16
  | .i8 | .n8 => 8

/-- The type is read signed (R45). -/
def IntTy.signed : IntTy → Bool
  | .i32 | .i64 | .i16 | .i8 => true
  | _ => false

/-- A value of the type occupies a pair in warp code (R46). -/
def IntTy.wide (t : IntTy) : Bool := t.width == 64

/-- Codes 0 to 7 (R154, "all"). -/
def IntTy.isAll : IntTy → Bool
  | .b32 | .b64 => false
  | _ => true

/-- Codes 0 to 3 (R154, "32/64"). -/
def IntTy.is3264 (t : IntTy) : Bool := t == .i32 || t == .n32 || t == .i64 || t == .n64

/-- Codes 0 to 3, 8 and 9 (R154, "bits"). -/
def IntTy.isBits (t : IntTy) : Bool := t.is3264 || t == .b32 || t == .b64

/-- .I32, .N32 and .B32. -/
def IntTy.is32 (t : IntTy) : Bool := t == .i32 || t == .n32 || t == .b32

/-- A value of the kind occupies a pair (R172). -/
def XlKind.wide (k : XlKind) : Bool := k == .b64

/-- Bytes moved by an access size (Table 8-6). -/
def Size.bytes : Size → Nat
  | .b32 => 4 | .b64 => 8 | .b128 => 16 | .n8 => 1 | .i8 => 1 | .n16 => 2 | .i16 => 2

/-- A value of the atomic kind is 64 bits wide. -/
def AtKind.wide (k : AtKind) : Bool := k == .i64

/-- A status register of Table 8-10: 64-bit, readable in warp code, in lead code, writable in warp code, in lead code. -/
structure SrInfo where
  wide : Bool
  readWarp : Bool
  readLead : Bool
  writeWarp : Bool
  writeLead : Bool
deriving DecidableEq, Repr

/-- Table 8-10. -/
def srInfo (n : Nat) : Option SrInfo :=
  let warpOnly : SrInfo := ⟨false, true, false, false, false⟩
  let both : SrInfo := ⟨false, true, true, false, false⟩
  let both64 : SrInfo := ⟨true, true, true, false, false⟩
  let rw : SrInfo := ⟨false, true, true, true, true⟩
  if n == 0x00 || n == 0x02 || n == 0x1C then some warpOnly
  else if n == 0x16 then some ⟨false, true, false, true, false⟩
  else if n == 0x15 || (0x1D ≤ n && n ≤ 0x20) then some rw
  else if (0x11 ≤ n && n ≤ 0x13) || (0x18 ≤ n && n ≤ 0x1B) then some both64
  else if n ≤ 0x17 then some both
  else none

/-- A register operand of one register or one pair. -/
def regUse (wide : Bool) (f : Byte) (w : Bool) : Use := ⟨if wide then .d else .v, f, w⟩

/-- The source B of a form that a literal can replace: no register is read when a literal stands for it. -/
def litUse (lit : Option Word) (u : Use) : List Use := if lit.isSome then [] else [u]

/-- The uses of a two-source integer instruction: D, A and B of the type. -/
def IOp.uses2 (o : IOp) : List Use :=
  [regUse o.ty.wide o.d true, regUse o.ty.wide o.a false] ++ litUse o.lit (regUse o.ty.wide o.b false)

/-- The same with a 32-bit B (shift counts, R157). -/
def IOp.usesShift (o : IOp) : List Use :=
  [regUse o.ty.wide o.d true, regUse o.ty.wide o.a false] ++ litUse o.lit (regUse false o.b false)

/-- The uses of a one-source integer instruction whose result has the type. -/
def IOp.uses1 (o : IOp) : List Use := [regUse o.ty.wide o.d true, regUse o.ty.wide o.a false]

/-- The uses of a two-source F32 or packed instruction. -/
def FOp.uses2 (o : FOp) : List Use :=
  [regUse false o.d true, regUse false o.a false] ++ litUse o.lit (regUse false o.b false)

/-- Address operands in warp code: a pair or a register, and an index register. -/
def memUses (lead glob : Bool) (a b : Byte) : List Use :=
  if lead then [⟨.v, a, false⟩] else [⟨if glob then .d else .v, a, false⟩, ⟨.v, b, false⟩]

/-- The data operand of an access of a size (R194). -/
def Size.use (lead : Bool) (sz : Size) (f : Byte) (w : Bool) : Use :=
  match sz with
  | .b128 => ⟨.grp 4 4, f, w⟩
  | .b64 => if lead then ⟨.v, f, w⟩ else ⟨.d, f, w⟩
  | _ => ⟨.v, f, w⟩

/-- The compare and new values of ACAS and ACASS (R194). -/
def casUse (lead : Bool) (ak : AtKind) (f : Byte) : Use :=
  if lead then ⟨.grp 2 1, f, false⟩ else if ak.wide then ⟨.grp 4 4, f, false⟩ else ⟨.grp 2 1, f, false⟩

/-- The shape words of a copy command (R239). -/
def shapeUse (lead two : Bool) (f : Byte) : Use :=
  if two then (if lead then ⟨.grp 2 1, f, false⟩ else ⟨.grp 4 4, f, false⟩) else ⟨.d, f, false⟩

/-- The uses of a copy command: D, A, B when it has a source, and its shape words. -/
def CpyOp.uses (lead src two : Bool) (o : CpyOp) : List Use :=
  [⟨.d, o.d, true⟩, ⟨.d, o.a, false⟩] ++ (if src then [⟨.d, o.b, false⟩] else []) ++ [shapeUse lead two o.c]

/-- The register that MEET saves the old mt in (R183). -/
def meetPair (save : BitVec 7) : Byte := if save = 127#7 then 255#8 else BitVec.ofNat 8 (2 * save.toNat)

/-- The operands that each instruction names (R130): field by field, with what the field names. -/
def Instr.uses (lead : Bool) : Instr → List Use
  | .iadd _ o | .isub _ o | .imul _ o | .imulh _ o | .idiv _ o | .irem _ o | .imin _ o | .imax _ o
  | .and _ o | .or _ o | .xor _ o => o.uses2
  | .iaddc _ o | .isubb _ o => o.uses2 ++ [⟨.p, o.c, true⟩]
  | .imad _ o | .iclamp _ o => o.uses2 ++ [regUse o.ty.wide o.c false]
  | .imadw _ o => [⟨.d, o.d, true⟩, ⟨.v, o.a, false⟩] ++ litUse o.lit ⟨.v, o.b, false⟩ ++ [⟨.d, o.c, false⟩]
  | .ineg _ o | .iabs _ o | .not _ o | .brev _ o => o.uses1
  | .btab3 _ o => [regUse o.wide o.d true, regUse o.wide o.a false] ++ litUse o.lit (regUse o.wide o.b false) ++
      [regUse o.wide o.c false]
  | .shl _ o | .shr _ o | .sar _ o | .rotl _ o | .bfe _ o => o.usesShift
  | .shf _ o | .bfi _ o => o.usesShift ++ [⟨.v, o.c, false⟩]
  | .popc _ o | .clz _ o | .ctz _ o => [⟨.v, o.d, true⟩, regUse o.ty.wide o.a false]
  | .icmp _ o => [⟨.p, o.d, true⟩, regUse o.ty.wide o.a false] ++ litUse o.lit (regUse o.ty.wide o.b false)
  | .iset _ o => [⟨.v, o.d, true⟩, regUse o.ty.wide o.a false] ++ litUse o.lit (regUse o.ty.wide o.b false)
  | .sel _ o => o.uses2 ++ [⟨.p, o.c, false⟩]
  | .mov _ o => [regUse o.ty.wide o.d true] ++ litUse o.lit (regUse o.ty.wide o.a false)
  | .movi _ o => [⟨.d, o.d, true⟩]
  | .lea _ o => o.usesShift
  | .idot4 _ o | .idot2 _ o => [⟨.v, o.d, true⟩, ⟨.v, o.a, false⟩, ⟨.v, o.b, false⟩, ⟨.v, o.c, false⟩]
  | .pmov _ o => if o.sub = 0 then [⟨.v, o.d, true⟩] else [⟨.v, o.a, false⟩]
  | .ptab3 _ o => [⟨.p, o.d, true⟩, ⟨.p, o.a, false⟩, ⟨.p, o.b, false⟩, ⟨.p, o.c, false⟩]
  | .fadd _ o | .fsub _ o | .fmul _ o | .fmin _ o | .fmax _ o | .fset _ o | .fscale _ o
  | .hadd2 _ o | .hmul2 _ o | .hmnx2 _ o => o.uses2
  | .ffma _ o | .hfma2 _ o | .fdot2 _ o | .fdot4 _ o => o.uses2 ++ [⟨.v, o.c, false⟩]
  | .fcmp _ o => [⟨.p, o.d, true⟩, ⟨.v, o.a, false⟩] ++ litUse o.lit ⟨.v, o.b, false⟩
  | .fclass _ o | .frnd _ o | .fexp _ o => [⟨.v, o.d, true⟩, ⟨.v, o.a, false⟩]
  | .cvti _ o => [regUse o.ty.wide o.d true, ⟨.v, o.a, false⟩]
  | .cvtf _ o => [⟨.v, o.d, true⟩, regUse o.ty.wide o.a false]
  | .cvtff _ o => [⟨.v, o.d, true⟩, ⟨.v, o.a, false⟩]
  | .cvtpk _ o => [⟨.v, o.d, true⟩, ⟨.v, o.a, false⟩, ⟨.v, o.b, false⟩]
  | .qnt _ o => [⟨.v, o.d, true⟩, ⟨.v, o.a, false⟩]
  | .dqnt _ o => [⟨.v, o.d, true⟩, ⟨.v, o.a, false⟩]
  | .ex2 _ o | .lg2 _ o | .rcp _ o | .rsq _ o | .sqt _ o | .sin _ o | .cos _ o | .tanh _ o =>
      [⟨.v, o.d, true⟩, ⟨.v, o.a, false⟩]
  | .shfl _ o => [regUse o.kt.wide o.d true, regUse o.kt.wide o.a false] ++ litUse o.lit ⟨.v, o.b, false⟩ ++
      [⟨.p, o.c, true⟩]
  | .rstep _ o => [⟨.v, o.d, true⟩, ⟨.v, o.a, false⟩] ++ litUse o.lit ⟨.v, o.b, false⟩ ++ [⟨.p, o.c, true⟩]
  | .wred _ o | .scan _ o => [⟨.v, o.d, true⟩, ⟨.v, o.a, false⟩]
  | .vote _ o => [if o.op == .ballot then ⟨.d, o.d, true⟩ else ⟨.p, o.d, true⟩, ⟨.p, o.a, false⟩]
  | .matchLanes _ o => [⟨.d, o.d, true⟩, regUse o.kt.wide o.a false]
  | .bcast _ o => [regUse o.kt.wide o.d true, regUse o.kt.wide o.a false] ++ litUse o.lit ⟨.v, o.b, false⟩ ++
      [⟨.p, o.c, true⟩]
  | .first _ o => [⟨.v, o.d, true⟩, ⟨.p, o.a, false⟩]
  | .brx _ a | .callx _ a | .mtres _ a => [⟨.d, a, false⟩]
  | .meet _ save _ => [⟨.d, meetPair save, true⟩]
  | .xissue _ w n1 => [⟨.grp (n1.toNat + 1) 1, w, false⟩]
  | .sleep _ a lit => litUse lit ⟨.v, a, false⟩
  | .ld _ o => o.sz.use lead o.d true :: memUses lead true o.a o.b
  | .st _ o => o.sz.use lead o.d false :: memUses lead true o.a o.b
  | .lds _ o | .ldsr _ o | .ldc _ o => o.sz.use lead o.d true :: memUses lead false o.a o.b
  | .sts _ o | .stsr _ o => o.sz.use lead o.d false :: memUses lead false o.a o.b
  | .atom _ o => [regUse o.ak.wide o.d true, regUse o.ak.wide o.c false] ++ memUses lead true o.a o.b
  | .atoms _ o => [regUse o.ak.wide o.d true, regUse o.ak.wide o.c false] ++ memUses lead false o.a o.b
  | .acas _ o => [regUse o.ak.wide o.d true, casUse lead o.ak o.c] ++ memUses lead true o.a o.b
  | .acass _ o => [regUse o.ak.wide o.d true, casUse lead o.ak o.c] ++ memUses lead false o.a o.b
  | .redm _ o => regUse o.ak.wide o.c false :: memUses lead true o.a o.b
  | .pref _ o => memUses lead true o.a o.b
  | .ipref _ o => memUses lead true o.a o.b
  | .bara _ _ d => [⟨.v, d, true⟩]
  | .barw _ _ a => [⟨.v, a, false⟩]
  | .swarm _ _ a b lit => ⟨.v, a, false⟩ :: litUse lit ⟨.v, b, false⟩
  | .syncw _ a b => [⟨.v, a, false⟩, ⟨.v, b, false⟩]
  | .waitseq _ _ a => [⟨.d, a, false⟩]
  | .dqpost _ tagged a b => ⟨.d, a, false⟩ :: if tagged then [⟨.v, b, false⟩] else []
  | .dqtake _ d => [⟨.d, d, true⟩]
  | .tmac _ o => [⟨.a, o.d, true⟩, ⟨.t, o.a, false⟩, ⟨.t, o.b, false⟩, ⟨.t, o.c, false⟩]
  | .mmac _ o => [⟨.a, o.d, true⟩, ⟨.t, o.a, false⟩, ⟨.t, o.b, false⟩]
  | .cspmac _ o => [⟨.a, o.d, true⟩, ⟨.t, o.a, false⟩, ⟨.t, o.b, false⟩, ⟨.t, o.b + 1, false⟩, ⟨.t, o.c, false⟩]
  | .tmacv _ o => [⟨.d, o.d, true⟩, ⟨.a, o.acc.zeroExtend 8, true⟩, ⟨.grp 4 4, o.a, false⟩, ⟨.grp 4 4, o.b, false⟩,
      ⟨.grp 4 4, o.c, false⟩]
  | .mmacv _ o => [⟨.d, o.d, true⟩, ⟨.a, o.acc.zeroExtend 8, true⟩, ⟨.grp 4 4, o.a, false⟩, ⟨.grp 4 4, o.b, false⟩]
  | .tld _ o => [⟨.t, o.d, true⟩, ⟨.v, o.a, false⟩, ⟨.v, o.b, false⟩]
  | .tst _ o => [⟨.t, o.d, false⟩, ⟨.v, o.a, false⟩, ⟨.v, o.b, false⟩]
  | .twrv _ o => [⟨.t, o.d, true⟩, ⟨.v, o.a, false⟩]
  | .trdv _ o => [⟨.v, o.d, true⟩, ⟨.t, o.a, false⟩]
  | .tfill _ o => ⟨.t, o.d, true⟩ :: litUse o.lit ⟨.v, o.a, false⟩
  | .aclr _ d => [⟨.a, d, true⟩]
  | .ald _ o => [⟨.a, o.d, true⟩, ⟨.v, o.a, false⟩, ⟨.v, o.b, false⟩]
  | .ast _ o => [⟨.a, o.d, false⟩, ⟨.v, o.a, false⟩, ⟨.v, o.b, false⟩]
  | .ardv _ o => [⟨.v, o.d, true⟩, ⟨.a, o.a, false⟩]
  | .awrv _ o => [⟨.a, o.d, true⟩, ⟨.v, o.a, false⟩]
  | .aqnt _ o => [⟨.t, o.d, true⟩, ⟨.a, o.a, false⟩, ⟨.a, o.a + 1, false⟩]
  | .amap _ o => [⟨.a, o.d, true⟩, ⟨.a, o.a, false⟩] ++
      (if o.op == .mov then [] else litUse o.lit ⟨.v, o.b, false⟩)
  | .cpy _ o | .cpyb _ o | .cpyf _ o | .cpyq _ o => o.uses lead true false
  | .cpy2 _ o | .cpyg _ o | .cpys _ o => o.uses lead true true
  | .cpyfl _ o => o.uses lead false false
  | .chlink _ o => [⟨.d, o.d, true⟩, ⟨.d, o.a, false⟩, ⟨.v, o.b, false⟩]
  | .chmark _ o => [⟨.d, o.d, true⟩, ⟨.d, o.a, false⟩]
  | .getsr _ d n => [regUse (((srInfo n.toNat).map (·.wide)).getD false) d true]
  | .setsr _ n a => [regUse (((srInfo n.toNat).map (·.wide)).getD false) a false]
  | .evt _ _ a lit => litUse lit ⟨.v, a, false⟩
  | .cntrd _ d a => [⟨.d, d, true⟩, ⟨.v, a, false⟩]
  | .cntsel _ d a => [⟨.v, d, true⟩, ⟨.v, a, false⟩]
  | .iaddS _ d a b | .isubS _ d a b | .imulS _ d a b | .iminS _ d a b | .imaxS _ d a b | .andS _ d a b | .orS _ d a b
  | .xorS _ d a b | .shlS _ d a b | .shrS _ d a b | .sarS _ d a b | .rotlS _ d a b | .isetltS _ d a b
  | .iseteqS _ d a b | .nminS _ d a b | .nmaxS _ d a b | .faddS _ d a b | .fsubS _ d a b | .fmulS _ d a b
  | .fminS _ d a b | .fmaxS _ d a b | .fsetltS _ d a b | .hadd2S _ d a b | .hmul2S _ d a b | .ldsS _ d a b =>
      [⟨.v, d, true⟩, ⟨.v, a, false⟩, ⟨.v, b, false⟩]
  | .movS _ d a | .notS _ d a | .inegS _ d a | .popcS _ d a | .clzS _ d a | .brevS _ d a | .fnegS _ d a
  | .fabsS _ d a | .cvtfS _ d a | .cvtiS _ d a | .ex2S _ d a | .lg2S _ d a | .rcpS _ d a | .rsqS _ d a =>
      [⟨.v, d, true⟩, ⟨.v, a, false⟩]
  | .stsS _ a b => [⟨.v, a, false⟩, ⟨.v, b, false⟩]
  | _ => []

/-- No literal, and the fields that a one-source form does not read are zero. -/
def IOp.noBC (o : IOp) : Bool := o.b == 0 && o.c == 0 && o.lit.isNone
/-- A literal replaces B (R128). -/
def IOp.litOk (o : IOp) : Bool := o.lit.isNone || o.b == 0
/-- A literal replaces B (R128). -/
def FOp.litOk (o : FOp) : Bool := o.lit.isNone || o.b == 0
/-- A packed form reads LIT[15:0]; LIT[31:16] is zero (R165). -/
def FOp.litHalf (o : FOp) : Bool := match o.lit with | none => true | some x => x.toNat < 65536 && o.b == 0
/-- Check 3 of an FP entry: which of RM, SAT, FTZ and HB it accepts, and whether it reads C. -/
def FOp.ok (rm sat ftz hb c : Bool) (o : FOp) : Bool :=
  o.rm != .ra && (rm || o.rm == .rn) && (sat || !o.sat) && (ftz || !o.ftz) && (hb || !o.hb) && (c || o.c == 0)
/-- Check 3 of an IT entry without SUB: the types and .SAT that it accepts, and whether it reads C. -/
def IOp.ok (ty sat c : Bool) (o : IOp) : Bool :=
  ty && (sat || !o.sat) && o.sub == 0 && (c || o.c == 0) && o.litOk
/-- A predicate field: bits [7:3] zero (R130). -/
def predOk (f : Byte) : Bool := f.toNat < 8
/-- A tile field: bits [7:5] zero (R130). -/
def tileOk (f : Byte) : Bool := f.toNat < 32
/-- An accumulator field: bits [7:6] zero (R130). -/
def accOk (f : Byte) : Bool := f.toNat < 64
/-- A scope stands only beside an ordering code (R193). -/
def ordOk (o : MemOrd) (sc : Scope) : Bool := o != .plain || sc == .core
/-- Check 3 of a memory access of layout MM; `skew` when field C is a skew selector, `part` when PART is read. -/
def MemOp.ok (lead skew part : Bool) (o : MemOp) : Bool :=
  (part || o.part == 0) && (if skew then o.c.toNat < 8 else o.c == 0) && ordOk o.ord o.sc &&
  (!lead || (o.b == 0 && o.sz != .b128))
/-- A load accepts plain and .ACQ (Table 5-3). -/
def loadOrd (o : MemOrd) : Bool := o == .plain || o == .acq
/-- A store accepts plain and .REL (Table 5-3). -/
def storeOrd (o : MemOrd) : Bool := o == .plain || o == .rel
/-- A store with code 4 or 6 is reserved (R194). -/
def storeSize (s : Size) : Bool := s != .i8 && s != .i16
/-- The atomic combinations of R194. -/
def AtomOp.ok (lead cas : Bool) (o : AtomOp) : Bool :=
  ordOk o.ord o.sc && (!lead || o.b == 0) &&
  (if cas then o.aop == .add && (o.ak == .i32 || o.ak == .i64)
   else o.ak != .f32 || (o.aop == .add || o.aop == .min || o.aop == .max || o.aop == .exch))
/-- An index map: LN 6 and 7 are reserved (Table 9-3). -/
def IdxMap.ok (m : IdxMap) : Bool := m.ln.toNat ≤ 5
/-- The identity map. -/
def IdxMap.id : IdxMap := ⟨.identity, 0⟩
/-- The framing literal of an M-form: LIT = 0 (R220). -/
def Frame.zero : Frame := ⟨.cj, IdxMap.id, IdxMap.id, .e4m3, .e4m3, .e4m3, false, false, 0, false⟩
/-- Table 9-3 for TMAC. -/
def Frame.okTmac (f : Frame) : Bool :=
  f.beta.ok && f.kappa.ok && (f.ori == .cj || !f.chalf) && (f.ori == .ck || f.crow == 0)
/-- Table 9-3 for MMAC. -/
def Frame.okMmac (f : Frame) : Bool :=
  f.beta.ok && f.ori == .cj && f.kappa == IdxMap.id && f.cf == .e4m3 && !f.chalf && f.crow == 0
/-- Table 9-3 for TMACV. -/
def Frame.okTmacv (f : Frame) : Bool :=
  f.beta.ok && f.kappa.ok && f.af == .e4m3 && f.bf == .e4m3 && f.cf == .e4m3 && !f.bh && !f.chalf && f.crow == 0
/-- Table 9-3 for MMACV. -/
def Frame.okMmacv (f : Frame) : Bool := f.okMmac && f.af == .e4m3 && f.bf == .e4m3 && !f.bh
/-- Table 9-3 for CSPMAC: only AF, BF and ZA may be nonzero (R245). -/
def Frame.okCsp (f : Frame) : Bool := f.okMmac && f.beta == IdxMap.id && !f.bh
/-- The fields of the cube tile forms. -/
def CubeOp.ok (fr : Bool) (o : CubeOp) : Bool :=
  fr && (o.lform || o.fr == Frame.zero) && accOk o.d && tileOk o.a && tileOk o.b && tileOk o.c
/-- The sync word of a copy or marker: LIT under R239. -/
def syncLitOk (ds : Bool) : Option Word → Bool
  | none => true
  | some x => x == 0 || (x.getLsbD 0 && x.toNat % 16 == 1 && ds)
/-- MOD of a copy command with an engine (Table 9-13). -/
def CpyOp.ok (ext : Bool) (o : CpyOp) : Bool := ext && syncLitOk o.ds o.lit

/-- Check 3 of Table 6-11 beyond the codes that have no name: which fields each entry accepts (R130, R138, R153). -/
def Instr.fieldOk (lead : Bool) : Instr → Bool
  | .iadd _ o | .isub _ o | .imul _ o => o.ok o.ty.isAll true false
  | .iaddc _ o | .isubb _ o => o.ok o.ty.is3264 false true && predOk o.c
  | .imulh _ o | .irem _ o => o.ok o.ty.is3264 false false
  | .idiv _ o => o.ok o.ty.is3264 true false
  | .imad _ o => o.ok o.ty.isAll true true
  | .imadw _ o => o.ok (o.ty == .i32 || o.ty == .n32) true true
  | .ineg _ o | .iabs _ o => o.ok o.ty.isAll true false && o.noBC
  | .imin _ o | .imax _ o => o.ok o.ty.isAll false false
  | .iclamp _ o => o.ok o.ty.isAll false true
  | .and _ o | .or _ o | .xor _ o => o.ok o.ty.isBits false false
  | .not _ o => o.ok o.ty.isBits false false && o.noBC
  | .btab3 _ o => o.lit.isNone || o.b == 0
  | .shl _ o | .shr _ o | .sar _ o | .rotl _ o => o.ok o.ty.isBits false false
  | .shf _ o => o.ty.is32 && !o.sat && o.sub.toNat ≤ 1 && o.litOk
  | .bfe _ o => o.ok o.ty.is32 false false
  | .bfi _ o => o.ok o.ty.is32 false true
  | .popc _ o | .clz _ o | .ctz _ o | .brev _ o => o.ok o.ty.isBits false false && o.noBC
  | .icmp _ o => o.ty.isAll && !o.sat && o.sub.toNat ≤ 5 && o.c == 0 && o.litOk && predOk o.d
  | .iset _ o => o.ty.isAll && !o.sat && o.sub.toNat ≤ 5 && o.c == 0 && o.litOk
  | .sel _ o => o.ok o.ty.isBits false true && predOk o.c
  | .mov _ o => o.ok o.ty.isBits false false && o.b == 0 && (o.lit.isNone || o.a == 0)
  | .movi _ o => o.ty == .i32 && !o.sat && o.sub.toNat ≤ 1 && o.a == 0 && o.b == 0 && o.c == 0 && o.lit.isSome
  | .lea _ o => o.ty.is3264 && !o.sat && o.c == 0 && o.litOk
  | .idot4 _ o => o.ok (o.ty == .i8 || o.ty == .n8) true true && o.lit.isNone
  | .idot2 _ o => o.ok (o.ty == .i16 || o.ty == .n16) true true && o.lit.isNone
  | .pmov _ o => o.ty == .i32 && !o.sat && o.noBC && (if o.sub == 0 then o.a == 0 else o.sub == 1 && o.d == 0)
  | .ptab3 _ o => !o.wide && predOk o.d && predOk o.a && predOk o.b && predOk o.c && o.lit.isNone
  | .fadd _ o | .fsub _ o | .fmul _ o | .fscale _ o => o.ok true true true false false && o.sub == 0 && o.litOk
  | .ffma _ o => o.ok true true true false true && o.sub == 0 && o.litOk
  | .fmin _ o | .fmax _ o => o.ok false false true false false && o.sub == 0 && o.litOk
  | .fcmp _ o => o.ok false false true false false && o.litOk && predOk o.d
  | .fset _ o => o.ok false false true false false && o.litOk
  | .fclass _ o | .fexp _ o => o.ok false false false false false && o.sub == 0 && o.b == 0 && o.lit.isNone
  | .frnd _ o => o.ok true false true false false && o.sub == 0 && o.b == 0 && o.lit.isNone
  | .hadd2 _ o | .hmul2 _ o => o.ok true true true true false && o.sub == 0 && o.litHalf
  | .hfma2 _ o => o.ok true true true true true && o.sub == 0 && o.litHalf
  | .hmnx2 _ o => o.ok false false true true false && o.sub.toNat ≤ 1 && o.litHalf
  | .fdot2 _ o | .fdot4 _ o => o.ok true true true true true && o.sub == 0 && o.lit.isNone
  | .cvti _ o => o.ty.isAll
  | .cvtf _ o => o.ty.isAll && (o.ff == .f32 || o.ff == .f16 || o.ff == .bf16)
  | .cvtpk _ o => o.fd != .f32 && (!o.h || o.fd == .e4m3 || o.fd == .e5m2)
  | .shfl _ o => o.seg.toNat ≤ 6 && (o.kt == .i32 || o.kt == .b64) && predOk o.c && (o.lit.isNone || o.b == 0)
  | .rstep _ o => o.kt != .b64 && !(o.kt == .f32 && (o.op == .and || o.op == .or || o.op == .xor)) && predOk o.c &&
      (o.lit.isNone || o.b == 0)
  | .wred _ o => o.kt != .b64 && !(o.kt == .f32 && (o.op == .and || o.op == .or || o.op == .xor)) && !o.excl
  | .scan _ o => o.kt != .b64 && !(o.kt == .f32 && (o.op == .and || o.op == .or || o.op == .xor))
  | .vote _ o => predOk o.a && (o.op == .ballot || predOk o.d)
  | .matchLanes _ o => o.kt == .i32 || o.kt == .b64
  | .bcast _ o => (o.kt == .i32 || o.kt == .b64) && predOk o.c && (o.lit.isNone || o.b == 0)
  | .first _ o => predOk o.a
  | .sleep _ a lit => lit.isNone || a == 0
  | .ld _ o => o.ok lead false false && loadOrd o.ord
  | .st _ o => o.ok lead false false && storeOrd o.ord && storeSize o.sz
  | .lds _ o => o.ok lead true false && loadOrd o.ord
  | .sts _ o => o.ok lead true false && storeOrd o.ord && storeSize o.sz
  | .ldsr _ o => o.ok lead true true && loadOrd o.ord
  | .stsr _ o => o.ok lead true true && storeOrd o.ord && storeSize o.sz
  | .ldc _ o => o.ok lead false true && o.ord == .plain && o.part.toNat < 2
  | .atom _ o | .atoms _ o => o.ok lead false
  | .acas _ o | .acass _ o => o.ok lead true
  | .redm _ o => o.ok lead false && storeOrd o.ord && o.d == 0
  | .pref _ o | .ipref _ o => !lead || o.b == 0
  | .fence _ ord _ => ord != .plain
  | .swarm _ _ _ b lit => lit.isNone || b == 0
  | .dqpost _ tagged _ b => tagged || b == 0
  | .tmac _ o => o.ok o.fr.okTmac && o.lform
  | .mmac _ o => o.ok o.fr.okMmac && o.c == 0
  | .cspmac _ o => o.ok o.fr.okCsp
  | .tmacv _ o => o.fr.okTmacv
  | .mmacv _ o => o.fr.okMmacv && o.c == 0
  | .tld _ o | .tst _ o => tileOk o.d
  | .twrv _ o => tileOk o.d && (o.port != .sc || o.idx == 0)
  | .trdv _ o => tileOk o.a && (o.port != .sc || o.idx == 0)
  | .tfill _ o => tileOk o.d && o.scale != 0x80 && (o.lit.isNone || o.a == 0)
  | .aclr _ d => accOk d
  | .ald _ o | .ast _ o => accOk o.d
  | .ardv _ o => accOk o.a
  | .awrv _ o => accOk o.d
  | .aqnt _ o => tileOk o.d && accOk o.a
  | .amap _ o => accOk o.d && accOk o.a && (o.lit.isNone || o.b == 0) &&
      (o.op != .mov || (o.b == 0 && (o.lit.getD 0 == 0)))
  | .cpy _ o | .cpy2 _ o | .cpyg _ o | .cpys _ o => o.ok (o.ext == 0)
  | .cpyb _ o => o.ok (o.ext.toNat < 16 && o.ds)
  | .cpyf _ o => !o.eng1 && !o.ds && o.lit.isNone
  | .cpyfl _ o => !o.ds && !o.ss && o.ext == 0 && o.b == 0 && o.lit.isNone
  | .cpyq _ o => o.ok (o.ext.toNat < 3)
  | .chlink _ o => o.eng != .cube
  | .chmark _ o => syncLitOk o.ds o.lit && (o.eng == .fab || o.peer == 0)
  | .evt _ _ a lit => lit.isNone || a == 0
  | _ => true

/-- RH and YH are zero in lead code, and CH is zero outside the instructions of Table 6-5 (R127). -/
def Instr.hintOk (lead : Bool) (i : Instr) : Bool :=
  match i.hdr? with
  | none => true
  | some h => (!lead || (!h.rh && !h.yh)) && (h.ch == .normal ||
      match i with
      | .ld .. | .st .. | .atom .. | .acas .. | .redm .. | .pref .. | .ipref .. | .ldc .. => true
      | _ => false)

/-- Check 4 of Table 6-11 for one operand (R130, R131, R194). -/
def Use.operandOk (lead : Bool) (u : Use) : Bool :=
  match u.kind with
  | .v => !lead || u.field.toNat < 64
  | .d => if lead then u.field.toNat < 64
          else u.field == 255 || (u.field.toNat % 2 == 0 && u.field != 254)
  | .grp _ al => if lead then u.field.toNat < 64 else u.field.toNat % al == 0
  | _ => true

/-- Check 4 of Table 6-11 (OPERAND), with the cases that an entry adds: XISSUE (R186), GETSR and SETSR (R209). -/
def Instr.operandOk (lead : Bool) (i : Instr) : Bool :=
  (i.uses lead).all (·.operandOk lead) &&
  match i with
  | .xissue _ w n1 => w.toNat + n1.toNat ≤ 254
  | .getsr _ _ n => match srInfo n.toNat with | none => false | some r => if lead then r.readLead else r.readWarp
  | .setsr _ n _ => match srInfo n.toNat with | none => false | some r => if lead then r.writeLead else r.writeWarp
  | _ => true

/-- What a launch allots: the figures that check 5 tests against (R130, R131). -/
structure Allot where
  vregs : Nat
  lregs : Nat
  tiles : Nat
  accs : Nat
deriving DecidableEq, Repr

/-- Check 5 of Table 6-11 for one operand (R130, R131). -/
def Use.rangeOk (lead : Bool) (al : Allot) (u : Use) : Bool :=
  let f := u.field.toNat
  match u.kind with
  | .v => if lead then f < al.lregs else u.field == 255 || f < al.vregs
  | .d => if lead then f < al.lregs else u.field == 255 || f + 1 < al.vregs
  | .grp n _ => if lead then f + n ≤ al.lregs else f + n ≤ al.vregs
  | .p => true
  | .t => f < al.tiles
  | .a => f < al.accs

/-- Check 5 of Table 6-11 (RANGE). -/
def Instr.rangeOk (lead : Bool) (al : Allot) (i : Instr) : Bool := (i.uses lead).all (·.rangeOk lead al)

/-- What checks 3 and 4 accept of an instruction in code of a kind. -/
def Instr.wellFormed (lead : Bool) (i : Instr) : Bool := i.fieldOk lead && i.hintOk lead && i.operandOk lead

/-- A site names storage that a core or a slice has. -/
def Site.ok : Site → Bool
  | .coreCache c | .issueState c => c < 64
  | .cacheData sector _ => sector < 768 * 2 ^ 25
  | .cacheTag line _ => line < 768 * 2 ^ 22
  | .register _ lane r => lane < 64 && r < 256
  | .scratch _ off => off < 768 * 1024
  | .tile _ t row u => t < 32 && row < 64 && u < 9
  | .accum _ t row u => t < 64 && row < 64 && u < 16
  | .dqueue _ i => i < 64
  | .squeue _ i l k => i < 16 && l < 64 && k < 16
def Bar.ok : Bar → Bool
  | .pf0 => true
  | .vf0 vf | .vf2 vf => 1 ≤ vf && vf ≤ 16
/-- A VF that a slice can have, a context of it, a core, a fabric peer. -/
def vfOk (vf : Nat) : Bool := 1 ≤ vf && vf ≤ 16
def peerOk (p : Nat) : Bool := 1 ≤ p && p ≤ 63
/-- The agents that a step or request names exist (R8, R10, R97, R262, R265, R296). -/
def Instr.agentsOk : Instr → Bool
  | .throttleWithhold c | .bundleRegrouping c | .l1SectorExpiry c | .cubeOwnershipGrant c | .schedulerSelection c
  | .cubeChunk c | .cubeTileOperation c | .cubeAccumulatorWrite c | .coreSelfTest c _ | .engineRecordStart c _ | .copyUnitTransfer c _
  | .engineOperationComplete c _ | .chainMarkerWrite c _ | .segmentRecordRead c _ | .fabricFlitSend c | .l0LineFill c _ => c < 64
  | .pcSample c sched vf u => c < 64 && sched < 4 && vfOk vf && u < 4
  | .translationWalk c vf x _ _ => c < 64 && vfOk vf && x < 64
  | .vfFlr vf | .launchPacketRead vf | .blockPlacementAttempt vf | .priorityVictimMark vf | .quiesceSave vf | .quiesceTimeout vf
  | .release vf | .lockInterfaceRequest vf | .startInterfaceRequest vf | .stopInterfaceRequest vf | .getTdispVersion vf
  | .getTdispCapabilities vf | .getDeviceInterfaceReport vf | .getDeviceInterfaceState vf | .assign vf _ | .quiesce vf _ | .resume vf _
  | .sealImage vf _ | .unsealImage vf _ | .setallow vf _ | .setroute vf _ | .setmap vf _ | .setpeer vf _ | .setrun vf _ | .tlbinv vf _
  | .peerRequestReceive vf _ _ _ | .ideOutsideStreamRequest vf _ _ | .lockedRegisterWrite vf _ _ _ => vfOk vf
  | .merge a b | .split a _ b => vfOk a && vfOk b
  | .lqDoorbell vf c _ | .create vf c | .destroy vf c | .codeLoad vf c | .faultRecordWrite vf c | .fqrdWrite vf c _ | .fqreplay vf c _
  | .asumWrite vf c _ | .replstatWrite vf c _ | .counterPageSelect vf c _ | .dbgStop vf c | .dbgResume vf c | .dbgStep vf c | .dbgBstep vf c
  | .replPacketReceive vf c _ _ => vfOk vf && c < 64
  | .trcctlWrite vf u _ | .traceRecordWrite vf u => vfOk vf && u < 4
  | .fabricRunClose vf p | .pairKeyRenewal vf p | .fabricRunReceive vf p _ _ _ _ | .fabricRetryNotice vf p _ | .fabricRunAcknowledged vf p _ =>
      vfOk vf && peerOk p
  | .pcieConfigRequest fn _ | .ideKm fn | .getVersion fn | .getCapabilities fn | .negotiateAlgorithms fn | .getDigests fn | .getCertificate fn
  | .challenge fn | .getMeasurements fn _ | .keyExchange fn | .finish fn | .endSession fn => fn ≤ 16
  | .ideStreamFailure v => (match v with | some vf => vfOk vf | none => true)
  | .registerWrite r _ _ => r.ok
  | .midnightScrubEnd ch | .neighbourRefresh ch _ _ => ch < 384
  | .linkRekey l => l < 12
  | .patrolScrubRead line => line < 768 * 2 ^ 22
  | .codewordError cw syms => cw < 768 * 2 ^ 24 && syms.length == 80
  | .softError site _ => site.ok
  | .pfcmdReserved op => op == 0 || 0x0E ≤ op.toNat
  | .barrierPhaseComplete _ g => g < 256
  | _ => true

end Sys2Proof
end

