-- ==== Sys2Proof/Decode.lean ====
section
/-! DEFINITION. The decoder (R120 to R138), total on any bits and rejecting by name, and after it the encoder, written
from the same tables of spec 06 to 09. -/

namespace Sys2Proof

/-- Why an encoding is no instruction: the causes of Table 6-11 that depend on the encoding alone. -/
inductive Reject where
  | opcode | form | field | operand
deriving DecidableEq, Repr

/-- What a decoder answers. -/
inductive Decoded where
  | ok (i : Instr)
  | bad (r : Reject)
deriving DecidableEq, Repr

/-- What the encoding checks depend on beside the encoding (R136 to R138): the kind of code, and whether CSPMAC is an
opcode (stepping B1 and bit 0 of EXPMASK). -/
structure DecCtx where
  lead : Bool
  exp : Bool
deriving DecidableEq, Repr

/-- The fields of an M- or L-form (Table 6-4); `lit` is 0 in an M-form. -/
structure Raw where
  lform : Bool
  h : Hdr
  opc : Byte
  d : Byte
  a : Byte
  b : Byte
  c : Byte
  mod : BitVec 10
  lit : Word
deriving DecidableEq, Repr

/-- The fields of an S-form (Table 6-2). -/
structure SRaw where
  g : Bool
  sop : BitVec 6
  d : Byte
  a : Byte
  b : Byte
deriving DecidableEq, Repr

/-! ### Codes -/

/-- Table 7-2. -/
def IntTy.code : IntTy → BitVec 4
  | .i32 => 0 | .n32 => 1 | .i64 => 2 | .n64 => 3 | .i16 => 4 | .n16 => 5 | .i8 => 6 | .n8 => 7 | .b32 => 8 | .b64 => 9
/-- Table 7-2. -/
def IntTy.ofCode (x : BitVec 4) : Option IntTy :=
  match x.toNat with
  | 0 => some .i32 | 1 => some .n32 | 2 => some .i64 | 3 => some .n64 | 4 => some .i16 | 5 => some .n16 | 6 => some .i8 | 7 => some .n8 | 8 => some .b32 | 9 => some .b64 | _ => none

/-- Table 3-3. -/
def Rm.code : Rm → BitVec 3
  | .rn => 0 | .rz => 1 | .rd => 2 | .ru => 3 | .ra => 4
/-- Table 3-3. -/
def Rm.ofCode (x : BitVec 3) : Option Rm :=
  match x.toNat with
  | 0 => some .rn | 1 => some .rz | 2 => some .rd | 3 => some .ru | 4 => some .ra | _ => none

/-- Table 7-6. -/
def FFmt.code : FFmt → BitVec 3
  | .f32 => 0 | .f16 => 1 | .bf16 => 2 | .e4m3 => 3 | .e5m2 => 4
/-- Table 7-6. -/
def FFmt.ofCode (x : BitVec 3) : Option FFmt :=
  match x.toNat with
  | 0 => some .f32 | 1 => some .f16 | 2 => some .bf16 | 3 => some .e4m3 | 4 => some .e5m2 | _ => none

/-- Layout QN of Table 7-1. -/
def LgFmt.code : LgFmt → BitVec 2
  | .lg7 => 0 | .lg6 => 1 | .lg4 => 2
/-- Layout QN of Table 7-1. -/
def LgFmt.ofCode (x : BitVec 2) : Option LgFmt :=
  match x.toNat with
  | 0 => some .lg7 | 1 => some .lg6 | 2 => some .lg4 | _ => none

/-- Table 4-6. -/
def CacheHint.code : CacheHint → BitVec 2
  | .normal => 0 | .stream => 1 | .keep => 2 | .noalloc => 3
/-- Table 4-6. -/
def CacheHint.ofCode (x : BitVec 2) : Option CacheHint :=
  match x.toNat with
  | 0 => some .normal | 1 => some .stream | 2 => some .keep | 3 => some .noalloc | _ => none

/-- Table 5-3. -/
def MemOrd.code : MemOrd → BitVec 2
  | .plain => 0 | .acq => 1 | .rel => 2 | .ar => 3
/-- Table 5-3. -/
def MemOrd.ofCode (x : BitVec 2) : Option MemOrd :=
  match x.toNat with
  | 0 => some .plain | 1 => some .acq | 2 => some .rel | 3 => some .ar | _ => none

/-- Table 5-1. -/
def Scope.code : Scope → BitVec 3
  | .core => 0 | .block => 1 | .slice => 2 | .fabric => 3 | .system => 4
/-- Table 5-1. -/
def Scope.ofCode (x : BitVec 3) : Option Scope :=
  match x.toNat with
  | 0 => some .core | 1 => some .block | 2 => some .slice | 3 => some .fabric | 4 => some .system | _ => none

/-- Table 8-6. -/
def Size.code : Size → BitVec 3
  | .b32 => 0 | .b64 => 1 | .b128 => 2 | .n8 => 3 | .i8 => 4 | .n16 => 5 | .i16 => 6
/-- Table 8-6. -/
def Size.ofCode (x : BitVec 3) : Option Size :=
  match x.toNat with
  | 0 => some .b32 | 1 => some .b64 | 2 => some .b128 | 3 => some .n8 | 4 => some .i8 | 5 => some .n16 | 6 => some .i16 | _ => none

/-- Field AOP of Table 8-5. -/
def AtOp.code : AtOp → BitVec 3
  | .add => 0 | .min => 1 | .max => 2 | .and => 3 | .or => 4 | .xor => 5 | .exch => 6
/-- Field AOP of Table 8-5. -/
def AtOp.ofCode (x : BitVec 3) : Option AtOp :=
  match x.toNat with
  | 0 => some .add | 1 => some .min | 2 => some .max | 3 => some .and | 4 => some .or | 5 => some .xor | 6 => some .exch | _ => none

/-- Field AK of Table 8-5. -/
def AtKind.code : AtKind → BitVec 2
  | .i32 => 0 | .n32 => 1 | .f32 => 2 | .i64 => 3
/-- Field AK of Table 8-5. -/
def AtKind.ofCode (x : BitVec 2) : Option AtKind :=
  match x.toNat with
  | 0 => some .i32 | 1 => some .n32 | 2 => some .f32 | 3 => some .i64 | _ => none

/-- Field KT of Table 7-1. -/
def XlKind.code : XlKind → BitVec 2
  | .i32 => 0 | .n32 => 1 | .f32 => 2 | .b64 => 3
/-- Field KT of Table 7-1. -/
def XlKind.ofCode (x : BitVec 2) : Option XlKind :=
  match x.toNat with
  | 0 => some .i32 | 1 => some .n32 | 2 => some .f32 | 3 => some .b64 | _ => none

/-- Table 7-8. -/
def RedOp.code : RedOp → BitVec 3
  | .add => 0 | .min => 1 | .max => 2 | .and => 3 | .or => 4 | .xor => 5
/-- Table 7-8. -/
def RedOp.ofCode (x : BitVec 3) : Option RedOp :=
  match x.toNat with
  | 0 => some .add | 1 => some .min | 2 => some .max | 3 => some .and | 4 => some .or | 5 => some .xor | _ => none

/-- Table 7-8. -/
def ShflMode.code : ShflMode → BitVec 3
  | .idx => 0 | .up => 1 | .down => 2 | .xor => 3
/-- Table 7-8. -/
def ShflMode.ofCode (x : BitVec 3) : Option ShflMode :=
  match x.toNat with
  | 0 => some .idx | 1 => some .up | 2 => some .down | 3 => some .xor | _ => none

/-- Table 7-8. -/
def VoteOp.code : VoteOp → BitVec 3
  | .ballot => 0 | .any => 1 | .all => 2 | .uni => 3
/-- Table 7-8. -/
def VoteOp.ofCode (x : BitVec 3) : Option VoteOp :=
  match x.toNat with
  | 0 => some .ballot | 1 => some .any | 2 => some .all | 3 => some .uni | _ => none

/-- Table 9-2. -/
def CubeFmt.code : CubeFmt → BitVec 3
  | .e4m3 => 0 | .e5m2 => 1 | .i8 => 2 | .bf16 => 3 | .f16 => 4 | .f32 => 5 | .log => 6
/-- Table 9-2. -/
def CubeFmt.ofCode (x : BitVec 3) : Option CubeFmt :=
  match x.toNat with
  | 0 => some .e4m3 | 1 => some .e5m2 | 2 => some .i8 | 3 => some .bf16 | 4 => some .f16 | 5 => some .f32 | 6 => some .log | _ => none

/-- Field ORI of Table 9-3. -/
def Ori.code : Ori → BitVec 2
  | .cj => 0 | .ci => 1 | .ck => 2
/-- Field ORI of Table 9-3. -/
def Ori.ofCode (x : BitVec 2) : Option Ori :=
  match x.toNat with
  | 0 => some .cj | 1 => some .ci | 2 => some .ck | _ => none

/-- Fields BK and KK of Table 9-3. -/
def MapKind.code : MapKind → BitVec 2
  | .identity => 0 | .modN => 1 | .divN => 2
/-- Fields BK and KK of Table 9-3. -/
def MapKind.ofCode (x : BitVec 2) : Option MapKind :=
  match x.toNat with
  | 0 => some .identity | 1 => some .modN | 2 => some .divN | _ => none

/-- Field PORT of Table 9-8. -/
def Port.code : Port → BitVec 2
  | .row => 0 | .col => 1 | .sc => 2
/-- Field PORT of Table 9-8. -/
def Port.ofCode (x : BitVec 2) : Option Port :=
  match x.toNat with
  | 0 => some .row | 1 => some .col | 2 => some .sc | _ => none

/-- Field OP of AMAP, Table 9-9. -/
def AmapOp.code : AmapOp → BitVec 3
  | .mul => 0 | .add => 1 | .max => 2 | .min => 3 | .mov => 4
/-- Field OP of AMAP, Table 9-9. -/
def AmapOp.ofCode (x : BitVec 3) : Option AmapOp :=
  match x.toNat with
  | 0 => some .mul | 1 => some .add | 2 => some .max | 3 => some .min | 4 => some .mov | _ => none

/-- Engine codes of WAITSEQ (R207). -/
def Engine.seqCode : Engine → BitVec 2
  | .cube => 0 | .cpy0 => 1 | .cpy1 => 2 | .fab => 3
/-- Engine codes of WAITSEQ (R207). -/
def Engine.ofSeqCode (x : BitVec 2) : Option Engine :=
  match x.toNat with
  | 0 => some .cube | 1 => some .cpy0 | 2 => some .cpy1 | 3 => some .fab | _ => none

/-- Engine codes of CHLINK and CHMARK (R242, R243). -/
def Engine.chainCode : Engine → BitVec 2
  | .cpy0 => 0 | .cpy1 => 1 | .fab => 2 | .cube => 3
/-- Engine codes of CHLINK and CHMARK (R242, R243). -/
def Engine.ofChainCode (x : BitVec 2) : Option Engine :=
  match x.toNat with
  | 0 => some .cpy0 | 1 => some .cpy1 | 2 => some .fab | 3 => some .cube | _ => none

/-! ### Framing -/

/-- The fields of the first two words, and the literal (Table 6-4), of 96 bits. -/
def Raw.ofBits (x : BitVec 96) : Raw :=
  let l := x.getLsbD 0
  { lform := l
    h := { gp := x.extractLsb' 10 3, gn := x.getLsbD 13, la := x.extractLsb' 14 4, rh := x.getLsbD 18,
           yh := x.getLsbD 19, ch := (CacheHint.ofCode (x.extractLsb' 20 2)).getD .normal }
    opc := x.extractLsb' 2 8, d := x.extractLsb' 22 8, a := x.extractLsb' 30 8, b := x.extractLsb' 38 8
    c := x.extractLsb' 46 8, mod := x.extractLsb' 54 10, lit := if l then x.extractLsb' 64 32 else 0 }

/-- The words of an M- or L-form (Table 6-4). -/
def Raw.toBits (r : Raw) : BitVec 96 :=
  r.lit ++ r.mod ++ r.c ++ r.b ++ r.a ++ r.d ++ r.h.ch.code ++ BitVec.ofBool r.h.yh ++ BitVec.ofBool r.h.rh ++ r.h.la ++
    BitVec.ofBool r.h.gn ++ r.h.gp ++ r.opc ++ 1#1 ++ BitVec.ofBool r.lform

/-- The fields of an S-form (Table 6-2). -/
def SRaw.ofBits (x : BitVec 96) : SRaw :=
  { g := x.getLsbD 0, sop := x.extractLsb' 2 6, d := x.extractLsb' 8 8, a := x.extractLsb' 16 8
    b := x.extractLsb' 24 8 }

/-- The word of an S-form (Table 6-2), the bits above it 0. -/
def SRaw.toBits (r : SRaw) : BitVec 96 :=
  0#64 ++ r.b ++ r.a ++ r.d ++ r.sop ++ 0#1 ++ BitVec.ofBool r.g

/-- Length in bytes of the instruction whose first word starts with these bits (Table 6-1). -/
def formLength (x : BitVec 96) : Nat := if !x.getLsbD 1 then 4 else if !x.getLsbD 0 then 8 else 12

/-- The form classes of Table 6-6. -/
inductive FormClass where
  | mOrL | lOnly | mOnly
deriving DecidableEq, Repr

/-- The class of an opcode of Table 6-9 (Table 6-6), or none where the table holds none. Code 0xF0 counts only where
CSPMAC is an opcode (R136). -/
def opClass (exp : Bool) (opc : Byte) : Option FormClass :=
  let n := opc.toNat
  if n == 0x24 || n == 0xA2 || n == 0xA4 || n == 0xA5 then some .lOnly
  else if (0x01 ≤ n && n ≤ 0x0A) || (0x0D ≤ n && n ≤ 0x12) || (0x14 ≤ n && n ≤ 0x1B) || (0x20 ≤ n && n ≤ 0x23) ||
    n == 0x25 || (0x30 ≤ n && n ≤ 0x37) || n == 0x3A || (0x3C ≤ n && n ≤ 0x3F) then some .mOrL
  else if (0x80 ≤ n && n ≤ 0x8D) then some .mOrL
  else if n == 0x60 || n == 0x61 || n == 0x66 || n == 0x7C || n == 0x93 || n == 0xA3 || n == 0xAA || n == 0xB1 ||
    (0xC0 ≤ n && n ≤ 0xC7) || n == 0xC9 || n == 0xE2 then some .mOrL
  else if n == 0xF0 then (if exp then some .mOrL else none)
  else if n ≤ 0x29 || (0x30 ≤ n && n ≤ 0x4F) || (0x60 ≤ n && n ≤ 0x67) || (0x70 ≤ n && n ≤ 0x7C) ||
    (0x80 ≤ n && n ≤ 0x97) || (0xA0 ≤ n && n ≤ 0xB1) || (0xC0 ≤ n && n ≤ 0xC9) || (0xE0 ≤ n && n ≤ 0xE4) then some .mOnly
  else none

/-- The class permits an M-form (`false`) or an L-form (`true`). -/
def FormClass.permits (c : FormClass) (lform : Bool) : Bool :=
  match c with | .mOrL => true | .lOnly => lform | .mOnly => !lform

/-- Table 6-10: the opcode is legal in lead code. -/
def leadLegal (opc : Byte) : Bool :=
  let n := opc.toNat
  n ≤ 0x25 || n == 0x28 || n == 0x29 || (0x70 ≤ n && n ≤ 0x75) || (0x7A ≤ n && n ≤ 0x7C) || (0x80 ≤ n && n ≤ 0x83) ||
  (0x86 ≤ n && n ≤ 0x8C) || n == 0x8E || (0x93 ≤ n && n ≤ 0x96) || (0xC0 ≤ n && n ≤ 0xC9) || (0xE0 ≤ n && n ≤ 0xE4)

/-- Table 6-10: the opcode is legal in warp code. -/
def warpLegal (opc : Byte) : Bool := opc.toNat != 0x96

/-- Table 6-3 holds the S opcode. -/
def sopKnown (sop : BitVec 6) : Bool := sop.toNat ≤ 0x27 || sop.toNat == 0x3F

/-! ### Operand and modifier layouts, to words -/

/-- A raw instruction with the operand fields given and the rest 0. -/
def Raw.mk0 (h : Hdr) (opc : Nat) (lit : Option Word) (d a b c : Byte) (mod : BitVec 10) : Raw :=
  { lform := lit.isSome, h, opc := BitVec.ofNat 8 opc, d, a, b, c, mod, lit := lit.getD 0 }
/-- The literal of an L-form, none in an M-form. -/
def Raw.litOpt (r : Raw) : Option Word := if r.lform then some r.lit else none

/-- Layout IT. -/
def IOp.raw (h : Hdr) (opc : Nat) (o : IOp) : Raw :=
  .mk0 h opc o.lit o.d o.a o.b o.c (0#2 ++ o.sub ++ BitVec.ofBool o.sat ++ o.ty.code)
/-- Layout IT. -/
def IOp.ofRaw (r : Raw) : Option IOp :=
  match IntTy.ofCode (r.mod.extractLsb' 0 4) with
  | none => none
  | some ty =>
  some { ty, sat := r.mod.getLsbD 4, sub := r.mod.extractLsb' 5 3, d := r.d, a := r.a, b := r.b, c := r.c, lit := r.litOpt }

/-- Layout LT. -/
def TabOp.raw (h : Hdr) (opc : Nat) (o : TabOp) : Raw :=
  .mk0 h opc o.lit o.d o.a o.b o.c (0#1 ++ BitVec.ofBool o.wide ++ o.tab)
/-- Layout LT. -/
def TabOp.ofRaw (r : Raw) : Option TabOp :=
  some { tab := r.mod.extractLsb' 0 8, wide := r.mod.getLsbD 8, d := r.d, a := r.a, b := r.b, c := r.c, lit := r.litOpt }

/-- Layout FP. -/
def FOp.raw (h : Hdr) (opc : Nat) (o : FOp) : Raw :=
  .mk0 h opc o.lit o.d o.a o.b o.c (0#1 ++ o.sub ++ BitVec.ofBool o.ftz ++ BitVec.ofBool o.sat ++ o.rm.code ++ BitVec.ofBool o.hb)
/-- Layout FP. -/
def FOp.ofRaw (r : Raw) : Option FOp :=
  match Rm.ofCode (r.mod.extractLsb' 1 3) with
  | none => none
  | some rm =>
  some { hb := r.mod.getLsbD 0, rm, sat := r.mod.getLsbD 4, ftz := r.mod.getLsbD 5, sub := r.mod.extractLsb' 6 3, d := r.d, a := r.a, b := r.b, c := r.c, lit := r.litOpt }

/-- Layout CI. -/
def CiOp.raw (h : Hdr) (opc : Nat) (o : CiOp) : Raw :=
  .mk0 h opc none o.d o.a 0 0 (o.ty.code ++ o.ff.code ++ o.rm.code)
/-- Layout CI. -/
def CiOp.ofRaw (r : Raw) : Option CiOp :=
  match Rm.ofCode (r.mod.extractLsb' 0 3) with
  | none => none
  | some rm =>
  match FFmt.ofCode (r.mod.extractLsb' 3 3) with
  | none => none
  | some ff =>
  match IntTy.ofCode (r.mod.extractLsb' 6 4) with
  | none => none
  | some ty =>
  some { rm, ff, ty, d := r.d, a := r.a }

/-- Layout CF of CVTFF. -/
def CffOp.raw (h : Hdr) (opc : Nat) (o : CffOp) : Raw :=
  .mk0 h opc none o.d o.a 0 0 (o.fs.code ++ o.fd.code ++ BitVec.ofBool o.sat ++ o.rm.code)
/-- Layout CF of CVTFF. -/
def CffOp.ofRaw (r : Raw) : Option CffOp :=
  match Rm.ofCode (r.mod.extractLsb' 0 3) with
  | none => none
  | some rm =>
  match FFmt.ofCode (r.mod.extractLsb' 4 3) with
  | none => none
  | some fd =>
  match FFmt.ofCode (r.mod.extractLsb' 7 3) with
  | none => none
  | some fs =>
  some { rm, sat := r.mod.getLsbD 3, fd, fs, d := r.d, a := r.a }

/-- Layout CF of CVTPK. -/
def CpkOp.raw (h : Hdr) (opc : Nat) (o : CpkOp) : Raw :=
  .mk0 h opc none o.d o.a o.b 0 (0#2 ++ BitVec.ofBool o.h ++ o.fd.code ++ BitVec.ofBool o.sat ++ o.rm.code)
/-- Layout CF of CVTPK. -/
def CpkOp.ofRaw (r : Raw) : Option CpkOp :=
  match Rm.ofCode (r.mod.extractLsb' 0 3) with
  | none => none
  | some rm =>
  match FFmt.ofCode (r.mod.extractLsb' 4 3) with
  | none => none
  | some fd =>
  some { rm, sat := r.mod.getLsbD 3, fd, h := r.mod.getLsbD 7, d := r.d, a := r.a, b := r.b }

/-- Layout QN. -/
def QnOp.raw (h : Hdr) (opc : Nat) (o : QnOp) : Raw :=
  .mk0 h opc none o.d o.a 0 0 (0#8 ++ o.fmt.code)
/-- Layout QN. -/
def QnOp.ofRaw (r : Raw) : Option QnOp :=
  match LgFmt.ofCode (r.mod.extractLsb' 0 2) with
  | none => none
  | some fmt =>
  some { fmt, d := r.d, a := r.a }

/-- Fields D and A alone. -/
def DaOp.raw (h : Hdr) (opc : Nat) (o : DaOp) : Raw :=
  .mk0 h opc none o.d o.a 0 0 (0#10)
/-- Fields D and A alone. -/
def DaOp.ofRaw (r : Raw) : Option DaOp :=
  some { d := r.d, a := r.a }

/-- Layout FP of an SFU function. -/
def SfuOp.raw (h : Hdr) (opc : Nat) (o : SfuOp) : Raw :=
  .mk0 h opc none o.d o.a 0 0 (0#4 ++ BitVec.ofBool o.ftz ++ 0#5)
/-- Layout FP of an SFU function. -/
def SfuOp.ofRaw (r : Raw) : Option SfuOp :=
  some { ftz := r.mod.getLsbD 5, d := r.d, a := r.a }

/-- Layout XL of SHFL. -/
def ShflOp.raw (h : Hdr) (opc : Nat) (o : ShflOp) : Raw :=
  .mk0 h opc o.lit o.d o.a o.b o.c (0#2 ++ o.kt.code ++ o.mode.code ++ o.seg)
/-- Layout XL of SHFL. -/
def ShflOp.ofRaw (r : Raw) : Option ShflOp :=
  match ShflMode.ofCode (r.mod.extractLsb' 3 3) with
  | none => none
  | some mode =>
  match XlKind.ofCode (r.mod.extractLsb' 6 2) with
  | none => none
  | some kt =>
  some { seg := r.mod.extractLsb' 0 3, mode, kt, d := r.d, a := r.a, b := r.b, c := r.c, lit := r.litOpt }

/-- Layout XL of RSTEP. -/
def RstepOp.raw (h : Hdr) (opc : Nat) (o : RstepOp) : Raw :=
  .mk0 h opc o.lit o.d o.a o.b o.c (0#2 ++ o.kt.code ++ o.op.code ++ 0#3)
/-- Layout XL of RSTEP. -/
def RstepOp.ofRaw (r : Raw) : Option RstepOp :=
  match RedOp.ofCode (r.mod.extractLsb' 3 3) with
  | none => none
  | some op =>
  match XlKind.ofCode (r.mod.extractLsb' 6 2) with
  | none => none
  | some kt =>
  some { op, kt, d := r.d, a := r.a, b := r.b, c := r.c, lit := r.litOpt }

/-- Layout XL of WRED and SCAN. -/
def RedLaneOp.raw (h : Hdr) (opc : Nat) (o : RedLaneOp) : Raw :=
  .mk0 h opc none o.d o.a 0 0 (0#1 ++ BitVec.ofBool o.excl ++ o.kt.code ++ o.op.code ++ 0#3)
/-- Layout XL of WRED and SCAN. -/
def RedLaneOp.ofRaw (r : Raw) : Option RedLaneOp :=
  match RedOp.ofCode (r.mod.extractLsb' 3 3) with
  | none => none
  | some op =>
  match XlKind.ofCode (r.mod.extractLsb' 6 2) with
  | none => none
  | some kt =>
  some { op, kt, excl := r.mod.getLsbD 8, d := r.d, a := r.a }

/-- Layout XL of VOTE. -/
def VoteLaneOp.raw (h : Hdr) (opc : Nat) (o : VoteLaneOp) : Raw :=
  .mk0 h opc none o.d o.a 0 0 (0#4 ++ o.op.code ++ 0#3)
/-- Layout XL of VOTE. -/
def VoteLaneOp.ofRaw (r : Raw) : Option VoteLaneOp :=
  match VoteOp.ofCode (r.mod.extractLsb' 3 3) with
  | none => none
  | some op =>
  some { op, d := r.d, a := r.a }

/-- Layout XL of MATCH. -/
def MatchOp.raw (h : Hdr) (opc : Nat) (o : MatchOp) : Raw :=
  .mk0 h opc none o.d o.a 0 0 (0#2 ++ o.kt.code ++ 0#6)
/-- Layout XL of MATCH. -/
def MatchOp.ofRaw (r : Raw) : Option MatchOp :=
  match XlKind.ofCode (r.mod.extractLsb' 6 2) with
  | none => none
  | some kt =>
  some { kt, d := r.d, a := r.a }

/-- Layout XL of BCAST. -/
def BcastOp.raw (h : Hdr) (opc : Nat) (o : BcastOp) : Raw :=
  .mk0 h opc o.lit o.d o.a o.b o.c (0#2 ++ o.kt.code ++ 0#6)
/-- Layout XL of BCAST. -/
def BcastOp.ofRaw (r : Raw) : Option BcastOp :=
  match XlKind.ofCode (r.mod.extractLsb' 6 2) with
  | none => none
  | some kt =>
  some { kt, d := r.d, a := r.a, b := r.b, c := r.c, lit := r.litOpt }

/-- Layout MM. -/
def MemOp.raw (h : Hdr) (opc : Nat) (o : MemOp) : Raw :=
  .mk0 h opc o.lit o.d o.a o.b o.c (o.sc.code ++ o.ord.code ++ o.part ++ o.sz.code)
/-- Layout MM. -/
def MemOp.ofRaw (r : Raw) : Option MemOp :=
  match Size.ofCode (r.mod.extractLsb' 0 3) with
  | none => none
  | some sz =>
  match MemOrd.ofCode (r.mod.extractLsb' 5 2) with
  | none => none
  | some ord =>
  match Scope.ofCode (r.mod.extractLsb' 7 3) with
  | none => none
  | some sc =>
  some { sz, part := r.mod.extractLsb' 3 2, ord, sc, d := r.d, a := r.a, b := r.b, c := r.c, lit := r.litOpt }

/-- Layout AT. -/
def AtomOp.raw (h : Hdr) (opc : Nat) (o : AtomOp) : Raw :=
  .mk0 h opc o.lit o.d o.a o.b o.c (o.sc.code ++ o.ord.code ++ o.ak.code ++ o.aop.code)
/-- Layout AT. -/
def AtomOp.ofRaw (r : Raw) : Option AtomOp :=
  match AtOp.ofCode (r.mod.extractLsb' 0 3) with
  | none => none
  | some aop =>
  match AtKind.ofCode (r.mod.extractLsb' 3 2) with
  | none => none
  | some ak =>
  match MemOrd.ofCode (r.mod.extractLsb' 5 2) with
  | none => none
  | some ord =>
  match Scope.ofCode (r.mod.extractLsb' 7 3) with
  | none => none
  | some sc =>
  some { aop, ak, ord, sc, d := r.d, a := r.a, b := r.b, c := r.c, lit := r.litOpt }

/-- Fields A and B, and a literal. -/
def PrefOp.raw (h : Hdr) (opc : Nat) (o : PrefOp) : Raw :=
  .mk0 h opc o.lit 0 o.a o.b 0 (0#10)
/-- Fields A and B, and a literal. -/
def PrefOp.ofRaw (r : Raw) : Option PrefOp :=
  some { a := r.a, b := r.b, lit := r.litOpt }

/-- MOD of TLD and TST. -/
def TileMemOp.raw (h : Hdr) (opc : Nat) (o : TileMemOp) : Raw :=
  .mk0 h opc none o.d o.a o.b 0 (0#1 ++ BitVec.ofBool o.log ++ o.rstr)
/-- MOD of TLD and TST. -/
def TileMemOp.ofRaw (r : Raw) : Option TileMemOp :=
  some { rstr := r.mod.extractLsb' 0 8, log := r.mod.getLsbD 8, d := r.d, a := r.a, b := r.b }

/-- MOD of TWRV and TRDV. -/
def TilePortOp.raw (h : Hdr) (opc : Nat) (o : TilePortOp) : Raw :=
  .mk0 h opc none o.d o.a 0 0 (0#4 ++ o.port.code ++ o.idx)
/-- MOD of TWRV and TRDV. -/
def TilePortOp.ofRaw (r : Raw) : Option TilePortOp :=
  match Port.ofCode (r.mod.extractLsb' 4 2) with
  | none => none
  | some port =>
  some { idx := r.mod.extractLsb' 0 4, port, d := r.d, a := r.a }

/-- MOD of TFILL. -/
def TfillOp.raw (h : Hdr) (opc : Nat) (o : TfillOp) : Raw :=
  .mk0 h opc o.lit o.d o.a 0 0 (0#2 ++ o.scale)
/-- MOD of TFILL. -/
def TfillOp.ofRaw (r : Raw) : Option TfillOp :=
  some { scale := r.mod.extractLsb' 0 8, d := r.d, a := r.a, lit := r.litOpt }

/-- MOD of ALD and AST. -/
def AccMemOp.raw (h : Hdr) (opc : Nat) (o : AccMemOp) : Raw :=
  .mk0 h opc none o.d o.a o.b 0 (0#2 ++ o.rstr)
/-- MOD of ALD and AST. -/
def AccMemOp.ofRaw (r : Raw) : Option AccMemOp :=
  some { rstr := r.mod.extractLsb' 0 8, d := r.d, a := r.a, b := r.b }

/-- MOD of ARDV and AWRV. -/
def AccColOp.raw (h : Hdr) (opc : Nat) (o : AccColOp) : Raw :=
  .mk0 h opc none o.d o.a 0 0 (0#5 ++ o.col)
/-- MOD of ARDV and AWRV. -/
def AccColOp.ofRaw (r : Raw) : Option AccColOp :=
  some { col := r.mod.extractLsb' 0 5, d := r.d, a := r.a }

/-- MOD of AMAP. -/
def AmapLaneOp.raw (h : Hdr) (opc : Nat) (o : AmapLaneOp) : Raw :=
  .mk0 h opc o.lit o.d o.a o.b 0 (0#7 ++ o.op.code)
/-- MOD of AMAP. -/
def AmapLaneOp.ofRaw (r : Raw) : Option AmapLaneOp :=
  match AmapOp.ofCode (r.mod.extractLsb' 0 3) with
  | none => none
  | some op =>
  some { op, d := r.d, a := r.a, b := r.b, lit := r.litOpt }

/-- MOD of Table 9-13. -/
def CpyOp.raw (h : Hdr) (opc : Nat) (o : CpyOp) : Raw :=
  .mk0 h opc o.lit o.d o.a o.b o.c (o.ext ++ 0#1 ++ BitVec.ofBool o.ss ++ BitVec.ofBool o.ds ++ BitVec.ofBool o.eng1)
/-- MOD of Table 9-13. -/
def CpyOp.ofRaw (r : Raw) : Option CpyOp :=
  some { eng1 := r.mod.getLsbD 0, ds := r.mod.getLsbD 1, ss := r.mod.getLsbD 2, ext := r.mod.extractLsb' 4 6, d := r.d, a := r.a, b := r.b, c := r.c, lit := r.litOpt }

/-- MOD of CHLINK. -/
def ChlinkOp.raw (h : Hdr) (opc : Nat) (o : ChlinkOp) : Raw :=
  .mk0 h opc none o.d o.a o.b 0 (0#8 ++ o.eng.chainCode)
/-- MOD of CHLINK. -/
def ChlinkOp.ofRaw (r : Raw) : Option ChlinkOp :=
  match Engine.ofChainCode (r.mod.extractLsb' 0 2) with
  | none => none
  | some eng =>
  some { eng, d := r.d, a := r.a, b := r.b }

/-- MOD of CHMARK. -/
def ChmarkOp.raw (h : Hdr) (opc : Nat) (o : ChmarkOp) : Raw :=
  .mk0 h opc o.lit o.d o.a 0 0 (o.peer ++ 0#1 ++ BitVec.ofBool o.ds ++ o.eng.chainCode)
/-- MOD of CHMARK. -/
def ChmarkOp.ofRaw (r : Raw) : Option ChmarkOp :=
  match Engine.ofChainCode (r.mod.extractLsb' 0 2) with
  | none => none
  | some eng =>
  some { eng, ds := r.mod.getLsbD 2, peer := r.mod.extractLsb' 4 6, d := r.d, a := r.a, lit := r.litOpt }

/-- An index map of Table 9-3. -/
def IdxMap.toBits (m : IdxMap) : BitVec 5 := m.ln ++ m.kind.code
/-- An index map of Table 9-3. -/
def IdxMap.ofBits (x : BitVec 5) : Option IdxMap :=
  match MapKind.ofCode (x.extractLsb' 0 2) with
  | none => none
  | some k => some { kind := k, ln := x.extractLsb' 2 3 }

/-- The framing literal of Table 9-3. -/
def Frame.toBits (f : Frame) : Word :=
  0#2 ++ BitVec.ofBool f.za ++ f.crow ++ BitVec.ofBool f.chalf ++ BitVec.ofBool f.bh ++ f.cf.code ++ f.bf.code ++
    f.af.code ++ f.kappa.toBits ++ f.beta.toBits ++ f.ori.code
/-- The framing literal of Table 9-3; the two zero bits are checked by writing the instruction back. -/
def Frame.ofBits (x : Word) : Option Frame :=
  match Ori.ofCode (x.extractLsb' 0 2), IdxMap.ofBits (x.extractLsb' 2 5), IdxMap.ofBits (x.extractLsb' 7 5),
    CubeFmt.ofCode (x.extractLsb' 12 3), CubeFmt.ofCode (x.extractLsb' 15 3), CubeFmt.ofCode (x.extractLsb' 18 3) with
  | some ori, some beta, some kappa, some af, some bf, some cf =>
    some { ori, beta, kappa, af, bf, cf, bh := x.getLsbD 21, chalf := x.getLsbD 22, crow := x.extractLsb' 23 6,
           za := x.getLsbD 29 }
  | _, _, _, _, _, _ => none

/-- The tile forms of Table 9-4; an M-form has LIT = 0 (R220). -/
def CubeOp.raw (h : Hdr) (opc : Nat) (o : CubeOp) : Raw :=
  { lform := o.lform, h, opc := BitVec.ofNat 8 opc, d := o.d, a := o.a, b := o.b, c := o.c, mod := 0,
    lit := o.fr.toBits }
/-- The tile forms of Table 9-4. -/
def CubeOp.ofRaw (r : Raw) : Option CubeOp :=
  match Frame.ofBits r.lit with
  | none => none
  | some fr => some { lform := r.lform, fr, d := r.d, a := r.a, b := r.b, c := r.c }

/-- The forms with operand records of Table 9-4. -/
def CubeVOp.raw (h : Hdr) (opc : Nat) (o : CubeVOp) : Raw :=
  .mk0 h opc (some o.fr.toBits) o.d o.a o.b o.c (0#4 ++ o.acc)
/-- The forms with operand records of Table 9-4. -/
def CubeVOp.ofRaw (r : Raw) : Option CubeVOp :=
  match Frame.ofBits r.lit with
  | none => none
  | some fr => some { fr, acc := r.mod.extractLsb' 0 6, d := r.d, a := r.a, b := r.b, c := r.c }

/-- A code offset in bits [53:22] (R133). -/
def Raw.ofOffset (h : Hdr) (opc : Nat) (mod : BitVec 10) (off : Word) : Raw :=
  .mk0 h opc none (off.extractLsb' 0 8) (off.extractLsb' 8 8) (off.extractLsb' 16 8) (off.extractLsb' 24 8) mod
/-- A code offset in bits [53:22] (R133). -/
def Raw.offset (r : Raw) : Word := r.c ++ r.b ++ r.a ++ r.d

/-- The fields of an M- or L-form instruction: the encodings of spec 06 to 09. -/
def Instr.toRaw : Instr → Option Raw
  | .nop h => some (.mk0 h 0x00 none 0 0 0 0 0)
  | .iadd h o => some (o.raw h 0x01)
  | .isub h o => some (o.raw h 0x02)
  | .iaddc h o => some (o.raw h 0x03)
  | .isubb h o => some (o.raw h 0x04)
  | .imul h o => some (o.raw h 0x05)
  | .imulh h o => some (o.raw h 0x06)
  | .imad h o => some (o.raw h 0x07)
  | .imadw h o => some (o.raw h 0x08)
  | .idiv h o => some (o.raw h 0x09)
  | .irem h o => some (o.raw h 0x0a)
  | .ineg h o => some (o.raw h 0x0b)
  | .iabs h o => some (o.raw h 0x0c)
  | .imin h o => some (o.raw h 0x0d)
  | .imax h o => some (o.raw h 0x0e)
  | .iclamp h o => some (o.raw h 0x0f)
  | .and h o => some (o.raw h 0x10)
  | .or h o => some (o.raw h 0x11)
  | .xor h o => some (o.raw h 0x12)
  | .not h o => some (o.raw h 0x13)
  | .btab3 h o => some (o.raw h 0x14)
  | .shl h o => some (o.raw h 0x15)
  | .shr h o => some (o.raw h 0x16)
  | .sar h o => some (o.raw h 0x17)
  | .shf h o => some (o.raw h 0x18)
  | .rotl h o => some (o.raw h 0x19)
  | .bfe h o => some (o.raw h 0x1a)
  | .bfi h o => some (o.raw h 0x1b)
  | .popc h o => some (o.raw h 0x1c)
  | .clz h o => some (o.raw h 0x1d)
  | .ctz h o => some (o.raw h 0x1e)
  | .brev h o => some (o.raw h 0x1f)
  | .icmp h o => some (o.raw h 0x20)
  | .iset h o => some (o.raw h 0x21)
  | .sel h o => some (o.raw h 0x22)
  | .mov h o => some (o.raw h 0x23)
  | .movi h o => some (o.raw h 0x24)
  | .lea h o => some (o.raw h 0x25)
  | .idot4 h o => some (o.raw h 0x26)
  | .idot2 h o => some (o.raw h 0x27)
  | .pmov h o => some (o.raw h 0x28)
  | .ptab3 h o => some (o.raw h 0x29)
  | .fadd h o => some (o.raw h 0x30)
  | .fsub h o => some (o.raw h 0x31)
  | .fmul h o => some (o.raw h 0x32)
  | .ffma h o => some (o.raw h 0x33)
  | .fmin h o => some (o.raw h 0x34)
  | .fmax h o => some (o.raw h 0x35)
  | .fcmp h o => some (o.raw h 0x36)
  | .fset h o => some (o.raw h 0x37)
  | .fclass h o => some (o.raw h 0x38)
  | .frnd h o => some (o.raw h 0x39)
  | .fscale h o => some (o.raw h 0x3a)
  | .fexp h o => some (o.raw h 0x3b)
  | .hadd2 h o => some (o.raw h 0x3c)
  | .hmul2 h o => some (o.raw h 0x3d)
  | .hfma2 h o => some (o.raw h 0x3e)
  | .hmnx2 h o => some (o.raw h 0x3f)
  | .fdot2 h o => some (o.raw h 0x40)
  | .fdot4 h o => some (o.raw h 0x41)
  | .cvti h o => some (o.raw h 0x42)
  | .cvtf h o => some (o.raw h 0x43)
  | .cvtff h o => some (o.raw h 0x44)
  | .cvtpk h o => some (o.raw h 0x45)
  | .qnt h o => some (o.raw h 0x46)
  | .dqnt h o => some (o.raw h 0x47)
  | .ex2 h o => some (o.raw h 0x48)
  | .lg2 h o => some (o.raw h 0x49)
  | .rcp h o => some (o.raw h 0x4a)
  | .rsq h o => some (o.raw h 0x4b)
  | .sqt h o => some (o.raw h 0x4c)
  | .sin h o => some (o.raw h 0x4d)
  | .cos h o => some (o.raw h 0x4e)
  | .tanh h o => some (o.raw h 0x4f)
  | .shfl h o => some (o.raw h 0x60)
  | .rstep h o => some (o.raw h 0x61)
  | .wred h o => some (o.raw h 0x62)
  | .scan h o => some (o.raw h 0x63)
  | .vote h o => some (o.raw h 0x64)
  | .matchLanes h o => some (o.raw h 0x65)
  | .bcast h o => some (o.raw h 0x66)
  | .first h o => some (o.raw h 0x67)
  | .bra h off => some (.ofOffset h 0x70 0 off)
  | .brx h a => some (.mk0 h 0x71 none 0 a 0 0 0)
  | .call h off => some (.ofOffset h 0x72 0 off)
  | .callx h a => some (.mk0 h 0x73 none 0 a 0 0 0)
  | .ret h => some (.mk0 h 0x74 none 0 0 0 0 0)
  | .exit h => some (.mk0 h 0x75 none 0 0 0 0 0)
  | .meet h save off => some (.ofOffset h 0x76 (0#3 ++ save) off)
  | .mtres h a => some (.mk0 h 0x77 none 0 a 0 0 0)
  | .yieldHint h => some (.mk0 h 0x78 none 0 0 0 0 0)
  | .xissue h v n1 => some (.mk0 h 0x79 none 0 v 0 0 (0#7 ++ n1))
  | .bkpt h code => some (.mk0 h 0x7a none 0 0 0 0 code)
  | .trap h code => some (.mk0 h 0x7b none 0 0 0 0 code)
  | .sleep h a lit => some (.mk0 h 0x7c lit 0 a 0 0 0)
  | .ld h o => some (o.raw h 0x80)
  | .st h o => some (o.raw h 0x81)
  | .lds h o => some (o.raw h 0x82)
  | .sts h o => some (o.raw h 0x83)
  | .ldsr h o => some (o.raw h 0x84)
  | .stsr h o => some (o.raw h 0x85)
  | .ldc h o => some (o.raw h 0x86)
  | .atom h o => some (o.raw h 0x87)
  | .atoms h o => some (o.raw h 0x88)
  | .acas h o => some (o.raw h 0x89)
  | .acass h o => some (o.raw h 0x8a)
  | .redm h o => some (o.raw h 0x8b)
  | .pref h o => some (o.raw h 0x8c)
  | .ipref h o => some (o.raw h 0x8d)
  | .fence h ord sc => some (.mk0 h 0x8e none 0 0 0 0 (sc.code ++ ord.code ++ 0#5))
  | .fencesc h => some (.mk0 h 0x8f none 0 0 0 0 0)
  | .bar h g => some (.mk0 h 0x90 none 0 0 0 0 (0#2 ++ g))
  | .bara h g d => some (.mk0 h 0x91 none d 0 0 0 (0#2 ++ g))
  | .barw h g a => some (.mk0 h 0x92 none 0 a 0 0 (0#2 ++ g))
  | .swarm h rearm a b lit => some (.mk0 h 0x93 lit 0 a b 0 (0#9 ++ BitVec.ofBool rearm))
  | .syncw h a b => some (.mk0 h 0x94 none 0 a b 0 0)
  | .waitseq h eng a => some (.mk0 h 0x95 none 0 a 0 0 (0#8 ++ eng.seqCode))
  | .dqpost h tagged a b => some (.mk0 h 0x96 none 0 a b 0 (0#9 ++ BitVec.ofBool tagged))
  | .dqtake h d => some (.mk0 h 0x97 none d 0 0 0 0)
  | .cacq h pri => some (.mk0 h 0xa0 none 0 0 0 0 (0#8 ++ pri))
  | .crel h => some (.mk0 h 0xa1 none 0 0 0 0 0)
  | .tmac h o => some (o.raw h 0xa2)
  | .mmac h o => some (o.raw h 0xa3)
  | .tmacv h o => some (o.raw h 0xa4)
  | .mmacv h o => some (o.raw h 0xa5)
  | .tld h o => some (o.raw h 0xa6)
  | .tst h o => some (o.raw h 0xa7)
  | .twrv h o => some (o.raw h 0xa8)
  | .trdv h o => some (o.raw h 0xa9)
  | .tfill h o => some (o.raw h 0xaa)
  | .aclr h d => some (.mk0 h 0xab none d 0 0 0 0)
  | .ald h o => some (o.raw h 0xac)
  | .ast h o => some (o.raw h 0xad)
  | .ardv h o => some (o.raw h 0xae)
  | .awrv h o => some (o.raw h 0xaf)
  | .aqnt h o => some (o.raw h 0xb0)
  | .amap h o => some (o.raw h 0xb1)
  | .cpy h o => some (o.raw h 0xc0)
  | .cpy2 h o => some (o.raw h 0xc1)
  | .cpyg h o => some (o.raw h 0xc2)
  | .cpys h o => some (o.raw h 0xc3)
  | .cpyb h o => some (o.raw h 0xc4)
  | .cpyf h o => some (o.raw h 0xc5)
  | .cpyfl h o => some (o.raw h 0xc6)
  | .cpyq h o => some (o.raw h 0xc7)
  | .chlink h o => some (o.raw h 0xc8)
  | .chmark h o => some (o.raw h 0xc9)
  | .getsr h d n => some (.mk0 h 0xe0 none d n 0 0 0)
  | .setsr h n a => some (.mk0 h 0xe1 none n a 0 0 0)
  | .evt h g a lit => some (.mk0 h 0xe2 lit 0 a 0 0 (0#2 ++ g))
  | .cntrd h d a => some (.mk0 h 0xe3 none d a 0 0 0)
  | .cntsel h d a => some (.mk0 h 0xe4 none d a 0 0 0)
  | .cspmac h o => some (o.raw h 0xf0)
  | _ => none

/-- The fields of an S-form instruction (Table 6-3). -/
def Instr.toSRaw : Instr → Option SRaw
  | .iaddS g d a b => some ⟨g, 0x00, d, a, b⟩
  | .isubS g d a b => some ⟨g, 0x01, d, a, b⟩
  | .imulS g d a b => some ⟨g, 0x02, d, a, b⟩
  | .iminS g d a b => some ⟨g, 0x03, d, a, b⟩
  | .imaxS g d a b => some ⟨g, 0x04, d, a, b⟩
  | .andS g d a b => some ⟨g, 0x05, d, a, b⟩
  | .orS g d a b => some ⟨g, 0x06, d, a, b⟩
  | .xorS g d a b => some ⟨g, 0x07, d, a, b⟩
  | .shlS g d a b => some ⟨g, 0x08, d, a, b⟩
  | .shrS g d a b => some ⟨g, 0x09, d, a, b⟩
  | .sarS g d a b => some ⟨g, 0x0a, d, a, b⟩
  | .rotlS g d a b => some ⟨g, 0x0b, d, a, b⟩
  | .movS g d a => some ⟨g, 0x0c, d, a, 0⟩
  | .notS g d a => some ⟨g, 0x0d, d, a, 0⟩
  | .inegS g d a => some ⟨g, 0x0e, d, a, 0⟩
  | .popcS g d a => some ⟨g, 0x0f, d, a, 0⟩
  | .clzS g d a => some ⟨g, 0x10, d, a, 0⟩
  | .brevS g d a => some ⟨g, 0x11, d, a, 0⟩
  | .isetltS g d a b => some ⟨g, 0x12, d, a, b⟩
  | .iseteqS g d a b => some ⟨g, 0x13, d, a, b⟩
  | .nminS g d a b => some ⟨g, 0x14, d, a, b⟩
  | .nmaxS g d a b => some ⟨g, 0x15, d, a, b⟩
  | .faddS g d a b => some ⟨g, 0x16, d, a, b⟩
  | .fsubS g d a b => some ⟨g, 0x17, d, a, b⟩
  | .fmulS g d a b => some ⟨g, 0x18, d, a, b⟩
  | .fminS g d a b => some ⟨g, 0x19, d, a, b⟩
  | .fmaxS g d a b => some ⟨g, 0x1a, d, a, b⟩
  | .fsetltS g d a b => some ⟨g, 0x1b, d, a, b⟩
  | .fnegS g d a => some ⟨g, 0x1c, d, a, 0⟩
  | .fabsS g d a => some ⟨g, 0x1d, d, a, 0⟩
  | .hadd2S g d a b => some ⟨g, 0x1e, d, a, b⟩
  | .hmul2S g d a b => some ⟨g, 0x1f, d, a, b⟩
  | .cvtfS g d a => some ⟨g, 0x20, d, a, 0⟩
  | .cvtiS g d a => some ⟨g, 0x21, d, a, 0⟩
  | .ex2S g d a => some ⟨g, 0x22, d, a, 0⟩
  | .lg2S g d a => some ⟨g, 0x23, d, a, 0⟩
  | .rcpS g d a => some ⟨g, 0x24, d, a, 0⟩
  | .rsqS g d a => some ⟨g, 0x25, d, a, 0⟩
  | .ldsS g d a b => some ⟨g, 0x26, d, a, b⟩
  | .stsS g a b => some ⟨g, 0x27, 0, a, b⟩
  | .nopS g => some ⟨g, 0x3F, 0, 0, 0⟩
  | _ => none

/-- The instruction of an opcode of rows 0x00 to 0x28 of Table 6-9, its fields taken apart. -/
def decInt (r : Raw) : Option Instr :=
  match r.opc.toNat with
  | 0x00 => some (.nop r.h)
  | 0x01 => (IOp.ofRaw r).map (.iadd r.h)
  | 0x02 => (IOp.ofRaw r).map (.isub r.h)
  | 0x03 => (IOp.ofRaw r).map (.iaddc r.h)
  | 0x04 => (IOp.ofRaw r).map (.isubb r.h)
  | 0x05 => (IOp.ofRaw r).map (.imul r.h)
  | 0x06 => (IOp.ofRaw r).map (.imulh r.h)
  | 0x07 => (IOp.ofRaw r).map (.imad r.h)
  | 0x08 => (IOp.ofRaw r).map (.imadw r.h)
  | 0x09 => (IOp.ofRaw r).map (.idiv r.h)
  | 0x0a => (IOp.ofRaw r).map (.irem r.h)
  | 0x0b => (IOp.ofRaw r).map (.ineg r.h)
  | 0x0c => (IOp.ofRaw r).map (.iabs r.h)
  | 0x0d => (IOp.ofRaw r).map (.imin r.h)
  | 0x0e => (IOp.ofRaw r).map (.imax r.h)
  | 0x0f => (IOp.ofRaw r).map (.iclamp r.h)
  | 0x10 => (IOp.ofRaw r).map (.and r.h)
  | 0x11 => (IOp.ofRaw r).map (.or r.h)
  | 0x12 => (IOp.ofRaw r).map (.xor r.h)
  | 0x13 => (IOp.ofRaw r).map (.not r.h)
  | 0x14 => (TabOp.ofRaw r).map (.btab3 r.h)
  | 0x15 => (IOp.ofRaw r).map (.shl r.h)
  | 0x16 => (IOp.ofRaw r).map (.shr r.h)
  | 0x17 => (IOp.ofRaw r).map (.sar r.h)
  | 0x18 => (IOp.ofRaw r).map (.shf r.h)
  | 0x19 => (IOp.ofRaw r).map (.rotl r.h)
  | 0x1a => (IOp.ofRaw r).map (.bfe r.h)
  | 0x1b => (IOp.ofRaw r).map (.bfi r.h)
  | 0x1c => (IOp.ofRaw r).map (.popc r.h)
  | 0x1d => (IOp.ofRaw r).map (.clz r.h)
  | 0x1e => (IOp.ofRaw r).map (.ctz r.h)
  | 0x1f => (IOp.ofRaw r).map (.brev r.h)
  | 0x20 => (IOp.ofRaw r).map (.icmp r.h)
  | 0x21 => (IOp.ofRaw r).map (.iset r.h)
  | 0x22 => (IOp.ofRaw r).map (.sel r.h)
  | 0x23 => (IOp.ofRaw r).map (.mov r.h)
  | 0x24 => (IOp.ofRaw r).map (.movi r.h)
  | 0x25 => (IOp.ofRaw r).map (.lea r.h)
  | 0x26 => (IOp.ofRaw r).map (.idot4 r.h)
  | 0x27 => (IOp.ofRaw r).map (.idot2 r.h)
  | 0x28 => (IOp.ofRaw r).map (.pmov r.h)
  | 0x29 => (TabOp.ofRaw r).map (.ptab3 r.h)
  | _ => none

/-- The instruction of an opcode of rows 0x30 to 0x48 of Table 6-9, its fields taken apart. -/
def decFloat (r : Raw) : Option Instr :=
  match r.opc.toNat with
  | 0x30 => (FOp.ofRaw r).map (.fadd r.h)
  | 0x31 => (FOp.ofRaw r).map (.fsub r.h)
  | 0x32 => (FOp.ofRaw r).map (.fmul r.h)
  | 0x33 => (FOp.ofRaw r).map (.ffma r.h)
  | 0x34 => (FOp.ofRaw r).map (.fmin r.h)
  | 0x35 => (FOp.ofRaw r).map (.fmax r.h)
  | 0x36 => (FOp.ofRaw r).map (.fcmp r.h)
  | 0x37 => (FOp.ofRaw r).map (.fset r.h)
  | 0x38 => (FOp.ofRaw r).map (.fclass r.h)
  | 0x39 => (FOp.ofRaw r).map (.frnd r.h)
  | 0x3a => (FOp.ofRaw r).map (.fscale r.h)
  | 0x3b => (FOp.ofRaw r).map (.fexp r.h)
  | 0x3c => (FOp.ofRaw r).map (.hadd2 r.h)
  | 0x3d => (FOp.ofRaw r).map (.hmul2 r.h)
  | 0x3e => (FOp.ofRaw r).map (.hfma2 r.h)
  | 0x3f => (FOp.ofRaw r).map (.hmnx2 r.h)
  | 0x40 => (FOp.ofRaw r).map (.fdot2 r.h)
  | 0x41 => (FOp.ofRaw r).map (.fdot4 r.h)
  | 0x42 => (CiOp.ofRaw r).map (.cvti r.h)
  | 0x43 => (CiOp.ofRaw r).map (.cvtf r.h)
  | 0x44 => (CffOp.ofRaw r).map (.cvtff r.h)
  | 0x45 => (CpkOp.ofRaw r).map (.cvtpk r.h)
  | 0x46 => (QnOp.ofRaw r).map (.qnt r.h)
  | 0x47 => (DaOp.ofRaw r).map (.dqnt r.h)
  | 0x48 => (SfuOp.ofRaw r).map (.ex2 r.h)
  | 0x49 => (SfuOp.ofRaw r).map (.lg2 r.h)
  | 0x4a => (SfuOp.ofRaw r).map (.rcp r.h)
  | 0x4b => (SfuOp.ofRaw r).map (.rsq r.h)
  | 0x4c => (SfuOp.ofRaw r).map (.sqt r.h)
  | 0x4d => (SfuOp.ofRaw r).map (.sin r.h)
  | 0x4e => (SfuOp.ofRaw r).map (.cos r.h)
  | 0x4f => (SfuOp.ofRaw r).map (.tanh r.h)
  | _ => none

/-- The instruction of an opcode of row 0x60 of Table 6-9, its fields taken apart. -/
def decLane (r : Raw) : Option Instr :=
  match r.opc.toNat with
  | 0x60 => (ShflOp.ofRaw r).map (.shfl r.h)
  | 0x61 => (RstepOp.ofRaw r).map (.rstep r.h)
  | 0x62 => (RedLaneOp.ofRaw r).map (.wred r.h)
  | 0x63 => (RedLaneOp.ofRaw r).map (.scan r.h)
  | 0x64 => (VoteLaneOp.ofRaw r).map (.vote r.h)
  | 0x65 => (MatchOp.ofRaw r).map (.matchLanes r.h)
  | 0x66 => (BcastOp.ofRaw r).map (.bcast r.h)
  | 0x67 => (DaOp.ofRaw r).map (.first r.h)
  | _ => none

/-- The instruction of an opcode of rows 0x70 and 0x78 of Table 6-9, its fields taken apart. -/
def decFlow (r : Raw) : Option Instr :=
  match r.opc.toNat with
  | 0x70 => some (.bra r.h r.offset)
  | 0x71 => some (.brx r.h r.a)
  | 0x72 => some (.call r.h r.offset)
  | 0x73 => some (.callx r.h r.a)
  | 0x74 => some (.ret r.h)
  | 0x75 => some (.exit r.h)
  | 0x76 => some (.meet r.h (r.mod.extractLsb' 0 7) r.offset)
  | 0x77 => some (.mtres r.h r.a)
  | 0x78 => some (.yieldHint r.h)
  | 0x79 => some (.xissue r.h r.a (r.mod.extractLsb' 0 3))
  | 0x7a => some (.bkpt r.h r.mod)
  | 0x7b => some (.trap r.h r.mod)
  | 0x7c => some (.sleep r.h r.a r.litOpt)
  | _ => none

/-- The instruction of an opcode of rows 0x80 to 0x90 of Table 6-9, its fields taken apart. -/
def decMem (r : Raw) : Option Instr :=
  match r.opc.toNat with
  | 0x80 => (MemOp.ofRaw r).map (.ld r.h)
  | 0x81 => (MemOp.ofRaw r).map (.st r.h)
  | 0x82 => (MemOp.ofRaw r).map (.lds r.h)
  | 0x83 => (MemOp.ofRaw r).map (.sts r.h)
  | 0x84 => (MemOp.ofRaw r).map (.ldsr r.h)
  | 0x85 => (MemOp.ofRaw r).map (.stsr r.h)
  | 0x86 => (MemOp.ofRaw r).map (.ldc r.h)
  | 0x87 => (AtomOp.ofRaw r).map (.atom r.h)
  | 0x88 => (AtomOp.ofRaw r).map (.atoms r.h)
  | 0x89 => (AtomOp.ofRaw r).map (.acas r.h)
  | 0x8a => (AtomOp.ofRaw r).map (.acass r.h)
  | 0x8b => (AtomOp.ofRaw r).map (.redm r.h)
  | 0x8c => (PrefOp.ofRaw r).map (.pref r.h)
  | 0x8d => (PrefOp.ofRaw r).map (.ipref r.h)
  | 0x8e => match MemOrd.ofCode (r.mod.extractLsb' 5 2), Scope.ofCode (r.mod.extractLsb' 7 3) with
      | some ord, some sc => some (.fence r.h ord sc)
      | _, _ => none
  | 0x8f => some (.fencesc r.h)
  | 0x90 => some (.bar r.h (r.mod.extractLsb' 0 8))
  | 0x91 => some (.bara r.h (r.mod.extractLsb' 0 8) r.d)
  | 0x92 => some (.barw r.h (r.mod.extractLsb' 0 8) r.a)
  | 0x93 => some (.swarm r.h (r.mod.getLsbD 0) r.a r.b r.litOpt)
  | 0x94 => some (.syncw r.h r.a r.b)
  | 0x95 => (Engine.ofSeqCode (r.mod.extractLsb' 0 2)).map (.waitseq r.h · r.a)
  | 0x96 => some (.dqpost r.h (r.mod.getLsbD 0) r.a r.b)
  | 0x97 => some (.dqtake r.h r.d)
  | _ => none

/-- The instruction of an opcode of rows 0xA0 to 0xB0 of Table 6-9, its fields taken apart. -/
def decCube (r : Raw) : Option Instr :=
  match r.opc.toNat with
  | 0xa0 => some (.cacq r.h (r.mod.extractLsb' 0 2))
  | 0xa1 => some (.crel r.h)
  | 0xa2 => (CubeOp.ofRaw r).map (.tmac r.h)
  | 0xa3 => (CubeOp.ofRaw r).map (.mmac r.h)
  | 0xa4 => (CubeVOp.ofRaw r).map (.tmacv r.h)
  | 0xa5 => (CubeVOp.ofRaw r).map (.mmacv r.h)
  | 0xa6 => (TileMemOp.ofRaw r).map (.tld r.h)
  | 0xa7 => (TileMemOp.ofRaw r).map (.tst r.h)
  | 0xa8 => (TilePortOp.ofRaw r).map (.twrv r.h)
  | 0xa9 => (TilePortOp.ofRaw r).map (.trdv r.h)
  | 0xaa => (TfillOp.ofRaw r).map (.tfill r.h)
  | 0xab => some (.aclr r.h r.d)
  | 0xac => (AccMemOp.ofRaw r).map (.ald r.h)
  | 0xad => (AccMemOp.ofRaw r).map (.ast r.h)
  | 0xae => (AccColOp.ofRaw r).map (.ardv r.h)
  | 0xaf => (AccColOp.ofRaw r).map (.awrv r.h)
  | 0xb0 => (QnOp.ofRaw r).map (.aqnt r.h)
  | 0xb1 => (AmapLaneOp.ofRaw r).map (.amap r.h)
  | _ => none

/-- The instruction of an opcode of rows 0xC0 and 0xC8 of Table 6-9, its fields taken apart. -/
def decCopy (r : Raw) : Option Instr :=
  match r.opc.toNat with
  | 0xc0 => (CpyOp.ofRaw r).map (.cpy r.h)
  | 0xc1 => (CpyOp.ofRaw r).map (.cpy2 r.h)
  | 0xc2 => (CpyOp.ofRaw r).map (.cpyg r.h)
  | 0xc3 => (CpyOp.ofRaw r).map (.cpys r.h)
  | 0xc4 => (CpyOp.ofRaw r).map (.cpyb r.h)
  | 0xc5 => (CpyOp.ofRaw r).map (.cpyf r.h)
  | 0xc6 => (CpyOp.ofRaw r).map (.cpyfl r.h)
  | 0xc7 => (CpyOp.ofRaw r).map (.cpyq r.h)
  | 0xc8 => (ChlinkOp.ofRaw r).map (.chlink r.h)
  | 0xc9 => (ChmarkOp.ofRaw r).map (.chmark r.h)
  | _ => none

/-- The instruction of an opcode of rows 0xE0 and 0xF0 of Table 6-9, its fields taken apart. -/
def decSys (r : Raw) : Option Instr :=
  match r.opc.toNat with
  | 0xe0 => some (.getsr r.h r.d r.a)
  | 0xe1 => some (.setsr r.h r.d r.a)
  | 0xe2 => some (.evt r.h (r.mod.extractLsb' 0 8) r.a r.litOpt)
  | 0xe3 => some (.cntrd r.h r.d r.a)
  | 0xe4 => some (.cntsel r.h r.d r.a)
  | 0xf0 => (CubeOp.ofRaw r).map (.cspmac r.h)
  | _ => none

/-- The instruction of an M- or L-form, its fields taken apart; none where a code has no name (check 3, FIELD). -/
def ofRaw (r : Raw) : Option Instr :=
  let n := r.opc.toNat
  if n < 0x30 then decInt r
  else if n < 0x50 then decFloat r
  else if n < 0x68 then decLane r
  else if n < 0x80 then decFlow r
  else if n < 0x98 then decMem r
  else if n < 0xb8 then decCube r
  else if n < 0xd0 then decCopy r
  else decSys r

/-- The instruction of an S-form (Table 6-3). -/
def ofSRaw (r : SRaw) : Option Instr :=
  match r.sop.toNat with
  | 0x00 => some (.iaddS r.g r.d r.a r.b)
  | 0x01 => some (.isubS r.g r.d r.a r.b)
  | 0x02 => some (.imulS r.g r.d r.a r.b)
  | 0x03 => some (.iminS r.g r.d r.a r.b)
  | 0x04 => some (.imaxS r.g r.d r.a r.b)
  | 0x05 => some (.andS r.g r.d r.a r.b)
  | 0x06 => some (.orS r.g r.d r.a r.b)
  | 0x07 => some (.xorS r.g r.d r.a r.b)
  | 0x08 => some (.shlS r.g r.d r.a r.b)
  | 0x09 => some (.shrS r.g r.d r.a r.b)
  | 0x0a => some (.sarS r.g r.d r.a r.b)
  | 0x0b => some (.rotlS r.g r.d r.a r.b)
  | 0x0c => some (.movS r.g r.d r.a)
  | 0x0d => some (.notS r.g r.d r.a)
  | 0x0e => some (.inegS r.g r.d r.a)
  | 0x0f => some (.popcS r.g r.d r.a)
  | 0x10 => some (.clzS r.g r.d r.a)
  | 0x11 => some (.brevS r.g r.d r.a)
  | 0x12 => some (.isetltS r.g r.d r.a r.b)
  | 0x13 => some (.iseteqS r.g r.d r.a r.b)
  | 0x14 => some (.nminS r.g r.d r.a r.b)
  | 0x15 => some (.nmaxS r.g r.d r.a r.b)
  | 0x16 => some (.faddS r.g r.d r.a r.b)
  | 0x17 => some (.fsubS r.g r.d r.a r.b)
  | 0x18 => some (.fmulS r.g r.d r.a r.b)
  | 0x19 => some (.fminS r.g r.d r.a r.b)
  | 0x1a => some (.fmaxS r.g r.d r.a r.b)
  | 0x1b => some (.fsetltS r.g r.d r.a r.b)
  | 0x1c => some (.fnegS r.g r.d r.a)
  | 0x1d => some (.fabsS r.g r.d r.a)
  | 0x1e => some (.hadd2S r.g r.d r.a r.b)
  | 0x1f => some (.hmul2S r.g r.d r.a r.b)
  | 0x20 => some (.cvtfS r.g r.d r.a)
  | 0x21 => some (.cvtiS r.g r.d r.a)
  | 0x22 => some (.ex2S r.g r.d r.a)
  | 0x23 => some (.lg2S r.g r.d r.a)
  | 0x24 => some (.rcpS r.g r.d r.a)
  | 0x25 => some (.rsqS r.g r.d r.a)
  | 0x26 => some (.ldsS r.g r.d r.a r.b)
  | 0x27 => some (.stsS r.g r.a r.b)
  | 0x3F => some (.nopS r.g)
  | _ => none

/-! ### The decoder -/

/-- Checks 3 and 4 of Table 6-11 on an instruction taken apart, `same` telling whether writing it back gives the word
it came from (no reserved or unread field is nonzero). -/
def checkInstr (lead same : Bool) (i : Instr) : Decoded :=
  if !same || !i.fieldOk lead || !i.hintOk lead then .bad .field
  else if !i.operandOk lead then .bad .operand
  else .ok i

/-- The decoder on 96 bits, of which an instruction uses its first 32, 64 or 96: checks 1 to 4 of Table 6-11 in order. -/
def decodeBits (cx : DecCtx) (x : BitVec 96) : Decoded :=
  if x.getLsbD 1 then
    let r := Raw.ofBits x
    match opClass cx.exp r.opc with
    | none => .bad .opcode
    | some c =>
      if !c.permits r.lform || !(if cx.lead then leadLegal r.opc else warpLegal r.opc) then .bad .form
      else match ofRaw r with
        | none => .bad .field
        | some i => checkInstr cx.lead (i.toRaw == some r) i
  else
    let r := SRaw.ofBits x
    if !sopKnown r.sop then .bad .opcode
    else if cx.lead then .bad .form
    else match ofSRaw r with
      | none => .bad .field
      | some i => checkInstr cx.lead (i.toSRaw == some r) i

/-- Bytes as a number, the first the least significant (R72). -/
def leBytes : List Byte → Nat
  | [] => 0
  | b :: bs => b.toNat + 256 * leBytes bs

/-- The decoder on bytes in memory order: the instruction and the bytes after it. -/
def decode (cx : DecCtx) (bs : List Byte) : Decoded × List Byte :=
  let x := BitVec.ofNat 96 (leBytes (bs.take 12))
  (decodeBits cx x, bs.drop (formLength x))

/-! ### The encoder -/

/-- The 96 bits of an instruction, those above its length 0; a device step or request has no words. -/
def Instr.toBits (i : Instr) : Option (BitVec 96) :=
  match i.toRaw with
  | some r => some r.toBits
  | none => i.toSRaw.map SRaw.toBits

/-- A number as `n` bytes, the least significant first. -/
def natBytes : Nat → Nat → List Byte
  | 0, _ => []
  | n + 1, x => BitVec.ofNat 8 x :: natBytes n (x / 256)

/-- The bytes of an instruction in memory order. -/
def encode (i : Instr) : List Byte :=
  match i.toBits with
  | none => []
  | some x => natBytes (formLength x) x.toNat

/-- Code of the kind may hold the instruction: its opcode is known there and legal (R136, R137). -/
def Instr.legal (cx : DecCtx) (i : Instr) : Bool :=
  match i.toRaw with
  | some r => (match opClass cx.exp r.opc with | none => false | some c => c.permits r.lform) &&
      (if cx.lead then leadLegal r.opc else warpLegal r.opc)
  | none => i.toSRaw.isSome && !cx.lead

/-- The instruction that the decoder reads from bits numbered as the opcode table numbers them (host interface): warp
code first, then lead code, since the kind of code is not part of the word. -/
def decodeTableWord (nbits w : Nat) : Option Instr :=
  let x := w % 2 ^ nbits
  match (decode ⟨false, true⟩ (natBytes 12 x)).1 with
  | .ok i => some i
  | .bad _ =>
    match (decode ⟨true, true⟩ (natBytes 12 x)).1 with
    | .ok i => some i
    | .bad _ => none

end Sys2Proof
end

