-- ==== Sys2Proof/Machine/Ecc.lean ====
section
/-! DEFINITION. The code of DRAM codewords: RS(80,64) over GF(2^8) (R350), and the decoder of R351 on an error
pattern, which depends on the pattern's syndrome alone. -/

namespace Sys2Proof.Machine

/-- Product in GF(2^8) with x^8 + x^4 + x^3 + x^2 + 1, bit by bit. -/
def gfMulAux : Nat → Nat → Nat → Nat → Nat
  | 0, _, _, acc => acc
  | n + 1, a, b, acc =>
    gfMulAux n (if 2 * a < 256 then 2 * a else Nat.xor (2 * a) 0x11D) (b / 2) (if b % 2 == 1 then Nat.xor acc a else acc)
def gfMul (a b : Nat) : Nat := gfMulAux 8 a b 0
/-- a^n for n < 256, by squaring. -/
def gfPowAux : Nat → Nat → Nat → Nat → Nat
  | 0, _, _, acc => acc
  | k + 1, a, n, acc => gfPowAux k (gfMul a a) (n / 2) (if n % 2 == 1 then gfMul acc a else acc)
def gfPow (a n : Nat) : Nat := gfPowAux 8 a n 1
/-- 1/a as a^254. -/
def gfInv (a : Nat) : Nat := gfPow a 254
/-- A polynomial's value at x, highest coefficient first. -/
def gfEval (cs : List Nat) (x : Nat) : Nat := cs.foldl (fun v c => Nat.xor (gfMul v x) c) 0
/-- The 16 syndromes of 80 symbols, symbol 0 the highest coefficient. -/
def syndromes (cs : List Nat) : List Nat := (List.range 16).map fun j => gfEval cs (gfPow 2 j)

/-- The poison pattern: symbols 64 to 79 inverted (R354). -/
def poisonPattern : List Byte := List.replicate 64 0 ++ List.replicate 16 0xFF

/-- A row scaled by k. -/
def rowScale (k : Nat) (r : List Nat) : List Nat := r.map (gfMul k)
/-- r + k · p. -/
def rowAdd (k : Nat) (p r : List Nat) : List Nat := (r.zip (rowScale k p)).map fun (a, b) => Nat.xor a b
/-- Gauss–Jordan elimination of the first columns, each dropped once it is solved: rows solved, rows left. -/
def gfSolve : Nat → List (List Nat) → List (List Nat) → Option (List (List Nat) × List (List Nat))
  | 0, done, rest => some (done, rest)
  | n + 1, done, rest =>
    match rest.find? (fun r => r.headD 0 != 0) with
    | none => none
    | some p =>
      let q := (rowScale (gfInv (p.headD 0)) p).tail
      let clear (r : List Nat) := rowAdd (r.headD 0) q r.tail
      gfSolve n ((done.map clear) ++ [q]) ((rest.map clear).filter (fun r => r.any (· != 0)))

/-- The error confined to pin group `g` (symbols 8g to 8g + 7) with these syndromes, if there is one. -/
def groupError (syn : List Nat) (g : Nat) : Option (List Byte) :=
  let rows := (List.range 16).map fun j =>
    ((List.range 8).map fun i => gfPow (gfPow 2 j) (79 - (8 * g + i))) ++ [syn.getD j 0]
  match gfSolve 8 [] rows with
  | some (done, []) => some ((List.range 80).map fun i =>
      if i / 8 == g then BitVec.ofNat 8 ((done.getD (i % 8) []).getD 0 0) else 0)
  | _ => none

/-- What the decoder makes of a codeword (Table 17-5). -/
inductive EccOut where
  | clean
  /-- Corrected by this pattern, of this pin group. -/
  | corrected (fix : List Byte) (group : Nat)
  | poisoned
  | uncorrectable
deriving DecidableEq, Repr

/-- R351 on the error pattern of a codeword. -/
def eccDecode (err : List Byte) : EccOut :=
  let syn := syndromes (err.map (·.toNat))
  if syn.all (· == 0) then .clean
  else if syn == syndromes (poisonPattern.map (·.toNat)) then .poisoned
  else match (List.range 10).findSome? (fun g => (groupError syn g).map (fun e => (e, g))) with
    | some (e, g) => .corrected e g
    | none => .uncorrectable

end Sys2Proof.Machine
end

