-- ==== Sys2Proof/Machine/Aes.lean ====
section
/-! DEFINITION. AES-XTS-256, in which the base dies encrypt the lines of DRAM (R84): AES-256 as FIPS 197 has it, and the
tweak of IEEE 1619, with the number of a line as its data unit. PRESUMED, log entry 22: the spec names the cipher and gives
none of its constants. -/

namespace Sys2Proof.Machine

/-! ### AES-256 -/

/-- Product in the field of AES, GF(2^8) with x^8 + x^4 + x^3 + x + 1, bit by bit. -/
def aesMulAux : Nat → Nat → Nat → Nat → Nat
  | 0, _, _, acc => acc
  | n + 1, a, b, acc =>
    aesMulAux n (if 2 * a < 256 then 2 * a else Nat.xor (2 * a) 0x11B) (b / 2) (if b % 2 == 1 then Nat.xor acc a else acc)
def aesMul (a b : Nat) : Nat := aesMulAux 8 a b 0
/-- 1/a as a^254, and 0 for 0. -/
def aesInv (a : Nat) : Nat :=
  let a2 := aesMul a a
  let a4 := aesMul a2 a2
  let a8 := aesMul a4 a4
  let a16 := aesMul a8 a8
  let a32 := aesMul a16 a16
  let a64 := aesMul a32 a32
  [a4, a8, a16, a32, a64, aesMul a64 a64].foldl aesMul a2
/-- A byte turned left by k bits. -/
def rotByte (k x : Nat) : Nat := x * 2 ^ k % 256 + x / 2 ^ (8 - k)
/-- The S-box, and its inverse. -/
def aesSub (a : Nat) : Nat :=
  let x := aesInv a
  [1, 2, 3, 4].foldl (fun y k => Nat.xor y (rotByte k x)) (Nat.xor x 0x63)
def aesUnsub (a : Nat) : Nat := aesInv ([1, 3, 6].foldl (fun y k => Nat.xor y (rotByte k a)) 0x05)

/-- Two lists added byte by byte. -/
def xorAll (a b : List Nat) : List Nat := (a.zip b).map fun x => Nat.xor x.1 x.2
/-- Words of the key schedule, newest first: the word eight before, and the word before, turned and substituted where the
number of the word says so. -/
def aesWords : Nat → Nat → List (List Nat) → List (List Nat)
  | 0, _, ws => ws
  | n + 1, i, ws =>
    let prev := ws.headD []
    let old := ws.getD 7 []
    let t := if i % 8 == 0 then xorAll ((prev.drop 1 ++ prev.take 1).map aesSub) [2 ^ (i / 8 - 1), 0, 0, 0]
      else if i % 8 == 4 then prev.map aesSub else prev
    aesWords n (i + 1) (xorAll old t :: ws)
/-- The 15 round keys of 16 bytes of a key of 32 bytes. -/
def aesKeys (key : List Nat) : List (List Nat) :=
  let first := ((List.range 8).map fun i => (key.drop (4 * i)).take 4).reverse
  let ws := (aesWords 52 8 first).reverse
  (List.range 15).map fun r => ((ws.drop (4 * r)).take 4).flatten
/-- Rows of the state shifted, by their number or back by it; a state holds its columns one after the other. -/
def aesShift (back : Bool) (st : List Nat) : List Nat :=
  (List.range 16).map fun i => st.getD ((i + (if back then 12 else 4) * (i % 4)) % 16) 0
/-- A column times the circulant of four factors. -/
def aesColumn (f : List Nat) (c : List Nat) : List Nat :=
  (List.range 4).map fun r => (List.range 4).foldl (fun a k => Nat.xor a (aesMul (f.getD ((k + 4 - r) % 4) 0) (c.getD k 0))) 0
def aesMix (f : List Nat) (st : List Nat) : List Nat :=
  (List.range 4).flatMap fun c => aesColumn f ((st.drop (4 * c)).take 4)
/-- A block of 16 bytes encrypted under round keys. -/
def aesEncrypt (ks : List (List Nat)) (b : List Nat) : List Nat :=
  let body := (ks.drop 1).dropLast.foldl (fun st k => xorAll (aesMix [2, 3, 1, 1] (aesShift false (st.map aesSub))) k) (xorAll b (ks.headD []))
  xorAll (aesShift false (body.map aesSub)) (ks.getLastD [])
/-- A block decrypted. -/
def aesDecrypt (ks : List (List Nat)) (b : List Nat) : List Nat :=
  let open' (st : List Nat) : List Nat := (aesShift true st).map aesUnsub
  let body := (ks.drop 1).dropLast.reverse.foldl (fun st k => aesMix [14, 11, 13, 9] (xorAll (open' st) k)) (xorAll b (ks.getLastD []))
  xorAll (open' body) (ks.headD [])

/-! ### XTS -/

/-- The next tweak: 16 bytes, lowest first, times x in GF(2^128) with x^128 + x^7 + x^2 + x + 1. -/
def xtsNext (t : Nat) : Nat := if 2 * t < 2 ^ 128 then 2 * t else Nat.xor (2 * t % 2 ^ 128) 0x87
def xtsTweak (t : Nat) : Nat → Nat
  | 0 => t
  | n + 1 => xtsNext (xtsTweak t n)
/-- The `n` bytes of a number, lowest first. -/
def lowBytes (n x : Nat) : List Nat := (List.range n).map fun i => x / 2 ^ (8 * i) % 256
def ofLowBytes (bs : List Nat) : Nat := bs.foldr (fun b a => b + 256 * a) 0
/-- Blocks of a data unit from block `first` on, encrypted or decrypted under a key of 512 bits. -/
def xts (enc : Bool) (key unit first : Nat) (bs : List Nat) : List Nat :=
  let k1 := aesKeys (lowBytes 32 key)
  let t0 := ofLowBytes (aesEncrypt (aesKeys (lowBytes 32 (key / 2 ^ 256))) (lowBytes 16 unit))
  (List.range ((bs.length + 15) / 16)).flatMap fun j =>
    let t := lowBytes 16 (xtsTweak t0 (first + j))
    let b := xorAll ((bs.drop (16 * j)).take 16) t
    xorAll (if enc then aesEncrypt k1 b else aesDecrypt k1 b) t

end Sys2Proof.Machine
end

