-- ==== Sys2Proof/Config.lean ====
section
/-! DEFINITION. What an implementation fixes, and the free values: what the manual leaves open. Each free value is an
opaque constant, so nothing can be proved about its value (assumption log, entries 4 to 9). -/

namespace Sys2Proof.Config

/-- WARPW, the lanes of a warp (R10). -/
def warpw : Nat := 64
/-- Cores of the device (R8). -/
def cores : Nat := 64
/-- Quads of the device (R8). -/
def quads : Nat := 16
/-- HBM channels of the device (R8). -/
def channels : Nat := 384
/-- Channels of one quad (R9). -/
def quadChannels : Nat := 24
/-- Granules of 1 GiB of one quad (R77). -/
def quadGranules : Nat := 48
/-- Ticks of ck in one heartbeat: 80 ns at 1.7 GHz (R114). -/
def heartbeatCk : Nat := 136
/-- Lifetime of an L1 sector in ck (R105). -/
def l1Life : Nat := 4096
/-- Entries of a store queue (R198). -/
def storeQueueSize : Nat := 16
/-- Entries of a core's TLB (R80). -/
def tlbSize : Nat := 4096
/-- Slots of a chain ring (R235). -/
def ringSlots : Nat := 256
/-- Entries of a decision queue (R30). -/
def dqSize : Nat := 64
/-- Slots of a fault queue (R313). -/
def faultSlots : Nat := 1024

/-- Free value: a candidate for the SFU result of function `fn` (0 EX2, 1 LG2, 2 RCP, 3 RSQ, 4 SQT, 5 SIN, 6 COS,
7 TANH) on an F32 input. The model keeps it only when it meets the bound of Table 3-10 (log entry 6). -/
opaque sfuCandidate : Nat → Word → Word
/-- Free value: the bits that the security processor's random bit generator draws, by draw number (R88, R269). -/
opaque randomBits : Nat → BitVec 512
/-- Free value: data that the manual names but does not lay out, by use and by a plain counter. -/
opaque openData : Nat → Nat → BitVec 256
/-- Free value: bank and row of DRAM in which a line lies, by twice the line's number and one more (R352). -/
opaque dramPlace : Nat → Nat
/-- Free value: the set in which a cache looks an entry up, by cache (0 L0, 1 constant cache, 2 L2, 3 memory-side cache, 4
TLB) and by the entry's number; it is taken modulo the number of sets (R10, R80, R82). -/
opaque cacheSet : Nat → Nat → Nat
/-- Free value: what the WARP byte of a LAUNCH record reads, which names no warp, lead or engine (Table 15-3). -/
opaque launchWarp : BitVec 8
/-- Free value: the cks that a part of the start takes, by a plain counter (R14). -/
opaque startupCk : Nat → Nat
/-- Free value: a byte of a sealed image, by the image's number and the byte's place (R292). -/
opaque sealByte : Nat → Nat → BitVec 8
/-- Free value: the chunks of 64 KiB that the state of a slice takes, less one, modulo their greatest number (R292). -/
opaque sealChunks : Nat → Nat
/-- Free value: a choice among outcomes that the manual lists as permitted, by a plain counter. -/
opaque openChoice : Nat → Nat

end Sys2Proof.Config
end

