-- ==== Sys2Proof/Machine/State.lean ====
section
/-! DEFINITION. The state of the machine as plain data: everything the spec gives the machine, and the few fields of
the model's own (log entries 1 and 5). Tables of warps, parts, blocks and launches only grow; a number names an entry
for good. -/

namespace Sys2Proof.Machine

/-- Why the model stops. -/
inductive Fault where
  /-- `exec` was asked for an instruction while no bundle or lead stands at an issue: the step function never does
  this. Safe: no run of the machine meets it. -/
  | noIssuer
deriving DecidableEq, Repr

/-- Why the model gives no meaning. -/
inductive Refusal where
  /-- The instruction of this mnemonic has no meaning yet; raised by `exec` alone. Safe. -/
  | notModelled (mnemonic : String)
deriving DecidableEq, Repr

/-- Bytes by address: strictly rising addresses, no entry equal to 0, which is what an unlisted byte reads as. -/
abbrev Memory := List Host.Cell

/-- Where a byte of an access lives: its home (Table 5-2). -/
inductive Place where
  /-- Scratchpad of a part, by offset. -/
  | scratch (part off : Nat)
  /-- Device memory, by physical address. -/
  | dev (pa : Nat)
  /-- Host memory, by the address issued on PCI Express (R79). -/
  | host (ia : Nat)
  /-- Memory of a fabric peer, by the device and slice that its entry in the place map names (R79). -/
  | peer (peer ia : Nat)
deriving DecidableEq, Repr

/-- One thread: a lane of a warp, or the one lane of a lead (Table 2-1, R29, R152). -/
structure Thread where
  pc : Addr
  lk : Addr
  cdepth : Half
  mt : Addr
  exited : Bool
  /-- v0 upward, VREGS of them (R46); empty in a lead. -/
  v : List Word
  /-- s0 upward, LREGS of them (R131); empty in a warp. -/
  s : List Dword
  /-- p0 to p7, or q0 to q7; bit 7 is always 1. -/
  p : Byte
  astat : Word
deriving DecidableEq, Repr

/-- A decision-queue entry: its tag, none for ANY, its 64 bits, and the lead's stores that it releases (R30). -/
structure DqEntry where
  tag : Option Nat
  val : Dword
  needs : List Nat
  /-- Its 8 bytes are poisoned (R357). -/
  bad : Bool
deriving DecidableEq, Repr

/-- Waits of a bundle or lead (Table 2-7), and the waits inside an instruction that are no blocking point. -/
inductive Wait where
  /-- BAR and BARW: until the phase of `g` is none of these (R204). -/
  | barrier (g : Nat) (phases : List Word)
  /-- DQTAKE on a queue without a matching entry: its destination, its window, and its place among takers (R30). -/
  | dqEmpty (d : Byte) (la order : Nat)
  /-- DQPOST on a full queue: the entry to post (R30). -/
  | dqFull (entry : DqEntry)
  /-- SYNCW: offsets and the generations last seen (R206). -/
  | sync (words : List (Nat × Word))
  /-- WAITSEQ: engine, logical core and number awaited (R207). -/
  | seq (eng : Engine) (lcore : Nat) (num : Nat)
  /-- LDSR: the load awaited (R92). -/
  | remote (load : Nat)
  /-- A PAGE park: index of its latest record, whether a replay has been asked for, and whether it is a fetch that parked
  (R344, R346, R401). -/
  | page (record : Nat) (replay fetch : Bool)
  /-- CACQ (R214). -/
  | cacq
  /-- SLEEP: remaining ck (R184). -/
  | sleep (left : Nat)
  /-- Dusk park (R43). -/
  | dusk
  /-- FENCESC: stores still to be performed, number of the last cube operation awaited, and the tick number awaited
  once they are done (R114). -/
  | fencesc (stores : List Nat) (cube : Nat) (tick : Option Nat)
  /-- A twin waits for its counterpart at a checkpoint (R360). -/
  | twin
deriving DecidableEq, Repr

/-- Progress of an XISSUE (R187, R190). -/
structure Xi where
  /-- First word register and number of steps. -/
  w : Nat
  n : Nat
  step : Nat
  /-- Threads that take part, those not yet issued in this step, and the words read for it. -/
  remaining : Mask
  left : Mask
  words : List (Nat × Word)
  /-- Removed lanes: lane, step, word. -/
  bad : List (Nat × Nat × Word)
  /-- The step's words have been read. -/
  started : Bool
  /-- ck at which the group issues of the step so far have completed. -/
  ready : Nat
  active : Mask
  la : Nat
deriving DecidableEq, Repr

/-- A bundle of a warp (R22 to R27, R40, R366); a lead has one. -/
structure Bundle where
  id : Nat
  lanes : Mask
  yielded : Bool
  wait : Nat
  starve : Nat
  starved : Bool
  hold : Option Wait
  /-- Bytes that PC advances by when the wait ends. -/
  holdLen : Nat
  /-- Threads of the held instruction whose guard is true. -/
  holdAct : Mask
  xi : Option Xi
  /-- A BKPT or breakpoint at this PC issues once without stopping (R303). -/
  skipBp : Bool
  /-- Threads whose issue of the instruction at this PC has been counted: of a FENCESC at which they stand in a merged bundle, or of a
  remote load that is replayed after a save (R22, R203, R261, R304). -/
  fenced : Mask
  /-- Entries of the queue that a load at this PC waits for (R104). -/
  behind : List Nat
deriving DecidableEq, Repr

/-- A destination not yet written (R256). Registers are numbered 0 to 255 (v or s), 256 + n for predicate n,
512 + n for status register n, 1024 + n for tile register n and 2048 + n for accumulator tile n. -/
structure Pend where
  lanes : Mask
  regs : List Nat
  la : Nat
  after : Nat
  /-- ck at which the result is written; none while a load or atomic is on its way. -/
  due : Option Nat
  /-- The load or atomic awaited. -/
  load : Option Nat
deriving DecidableEq, Repr

/-- One lane's access of a store or atomic: lane, address as the program gave it, size in bytes, data, new value of a
compare, and the home of its first byte. -/
structure LaneAcc where
  lane : Nat
  addr : Nat
  size : Nat
  data : BitVec 1024
  cmp : Dword
  home : Place
deriving DecidableEq, Repr

/-- What a store-queue entry does (R102, R198, R205). -/
inductive QKind where
  | store
  /-- ATOM, ATOMS, REDM: operation, kind, and the register that takes the old value. -/
  | atomic (op : AtOp) (kind : AtKind) (dst : Option Nat)
  /-- ACAS, ACASS. -/
  | cas (kind : AtKind) (dst : Option Nat)
  /-- SWARM: re-arm; the targets are the lanes' data. -/
  | swarm (rearm : Bool)
  /-- A release FENCE (R108). -/
  | fence
deriving DecidableEq, Repr

/-- A store-queue entry. -/
structure QEntry where
  id : Nat
  kind : QKind
  accs : List LaneAcc
  lanes : Mask
  rel : Bool
  acq : Bool
  scope : Scope
  /-- The warp's cube operations when it entered (R113). -/
  cube : Nat
  /-- Extra passes that its scratchpad access takes (R89). -/
  passes : Nat
  /-- An atomic on its way to its home. -/
  sent : Bool
  hint : CacheHint
  pc : Addr
  /-- Its poisoned units of 8 bytes (R357): 16 times the lane, and the unit of the lane's data. -/
  bad : List Nat
  /-- ck of its issue. -/
  at' : Nat
deriving DecidableEq, Repr

/-- An entry in the holding area of a copy of a twin pair (R360), and the place in core order in which it came there. -/
structure Held where
  entry : QEntry
  order : Nat
deriving DecidableEq, Repr

/-- Where a warp or lead stands in a block halt (R317). -/
inductive HaltSt where
  | running
  | skid (issues : Nat)
  | stopped
  | trapped
deriving DecidableEq, Repr

/-- What a twin waits with at a checkpoint (R360). -/
structure Ckpt where
  pc : Addr
  sig : Dword
  bundle : Nat
  passed : Bool
  /-- The signature before this checkpoint's own operands. -/
  before : Dword
  /-- An atomic that the twin does not perform: its length, its destination, its window. -/
  skip : Option (Nat × List Nat × Nat)
deriving DecidableEq, Repr

/-- A warp, or a lead thread as a warp of one lane (R20, R29). -/
structure Warp where
  lead : Bool
  blk : Nat
  part : Nat
  /-- Block warp index; 0xFF stands for a lead in records. -/
  idx : Nat
  core : Nat
  sched : Nat
  /-- Warp slot of a warp; slot of the part of a lead. -/
  slot : Nat
  /-- On the core: neither retired nor saved nor discarded. -/
  present : Bool
  retired : Bool
  threads : List Thread
  bundles : List Bundle
  nextBundle : Nat
  window : Option (Nat × Nat)
  fairt : Nat
  pend : List Pend
  queue : List QEntry
  /-- Stall reason charged last (Table 10-4), and the dusk flag of samples. -/
  stall : Nat
  rowprog : Word
  /-- Its cube operations have orders below this (R113); 0 before the first. -/
  cubeSeq : Nat
  halt : HaltSt
  /-- Its issues in the skid of a halt, and the ck from the halt to its stop, once it has stopped (Table 15-3). -/
  skid : Nat × Nat
  /-- Flags of appended or dropped arithmetic records since the last barrier (R320). -/
  alog : BitVec 6
  sig : Dword
  held : List Held
  /-- Its entries with lower numbers lie before a checkpoint that has matched (R360). -/
  matched : Nat
  ckpt : Option Ckpt
  /-- Status values that the primary of a twin pair has read and its twin has not: PC, lane, value (R358). -/
  reads : List (Addr × Nat × Dword)
  /-- Level at which it owned the cube when evicted (R215), and level and place at which it waited (R42). -/
  owned : Option Nat
  queued : Option (Nat × Nat)
  /-- It issued in this ck, and the PC of its last issue. -/
  issued : Bool
  issuePc : Addr
deriving DecidableEq, Repr

/-- A row of a tile register and its sidecar (R228). -/
structure TileRow where
  data : BitVec 512
  sc : Byte
deriving DecidableEq, Repr

/-- A part of a block (R31, R87, R228, R230). -/
structure Part where
  blk : Nat
  log : Nat
  core : Nat
  slot : Nat
  base : Nat
  kib : Nat
  /-- Scratchpad at its physical places: line · 512 + bank · 8 + byte (R87, R91). -/
  scratch : Memory
  tiles : List (List TileRow)
  accs : List (List (BitVec 1024))
  swin : List Word
  dq : List DqEntry
  lead : Nat
  /-- Slots and registers given back (R32), storage given back. -/
  released : Bool
  freed : Bool
deriving DecidableEq, Repr

/-- An arrival whose release condition does not hold yet (R112): warp, threads, entries and loads of its own awaited, and the cube
operations awaited. -/
structure Arrival where
  warp : Nat
  lanes : Mask
  own : List Nat
  cube : Nat
deriving DecidableEq, Repr

/-- A valid group of a block (R33 to R35, R204, R304). -/
structure Group where
  g : Nat
  members : BitVec 192
  phase : Word
  /-- Threads of each warp that have arrived at the pending phase. -/
  arrived : List (Nat × Mask)
  waiting : List Arrival
  retired : Dword
  /-- Completion under way: its ck and the warp whose arrival completed it. -/
  due : Option (Nat × Nat)
deriving DecidableEq, Repr

/-- A block's halt: the trap ck and whether it starts a discard whatever DBG holds (R317, R318, R375, R378). -/
structure Halt where
  ck : Nat
  force : Bool
  /-- Warps and bundles that trapped. -/
  trig : List (Nat × Nat)
deriving DecidableEq, Repr

/-- A debug stop in force (R303, R394): its cause, what triggered it, and whether the dump has been written. -/
structure Stop where
  cause : Nat
  trig : List (Nat × Nat)
  dumped : Bool
deriving DecidableEq, Repr

/-- A step in progress (R394): the warps and bundles that may still issue, and the warps and lowest lanes of the bundles
that triggered it. -/
structure Stepping where
  left : List (Nat × Nat)
  trig : List (Nat × Nat)
deriving DecidableEq, Repr

/-- Status of a block. -/
inductive BlockSt where
  | resident | reserved | saved | retired | discarded
deriving DecidableEq, Repr

/-- A block (R31 to R35). -/
structure Block where
  launch : Nat
  vf : Nat
  ctx : Nat
  lin : Nat
  bx : Nat
  by' : Nat
  bz : Nat
  firstWarp : Nat
  nWarps : Nat
  firstLead : Nat
  firstPart : Nat
  nParts : Nat
  groups : List Group
  age : Nat
  status : BlockSt
  victim : Bool
  halt : Option Halt
  stop : Option Stop
  step : Option Stepping
  replMode : Nat
  replEntry : Nat
  /-- Counterpart of a twin pair, and whether this copy is the primary (R358). -/
  twin : Option (Nat × Bool)
  idle : Nat
  idleRec : Bool
  /-- Something of it issued in this ck. -/
  issued : Bool
deriving DecidableEq, Repr

/-- The fields of a launch packet (Table 2-6). -/
structure Packet where
  code : Nat
  wentry : Nat
  lentry : Nat
  param : Nat
  gtab : Nat
  nx : Nat
  ny : Nat
  nz : Nat
  threads : Nat
  parts : Nat
  prio : Nat
  vregs : Nat
  lregs : Nat
  tiles : Nat
  accs : Nat
  scratch : Nat
  fairt : Nat
  attr : Nat
  repl : Nat
  done : Nat
  doneval : Dword
deriving DecidableEq, Repr

/-- A replicated launch in progress (R38, R39): device index (0 issues), generation, ready reports, deadline, T0. -/
structure Repl where
  dev : Nat
  gen : Dword
  ready : List (Nat × Dword)
  deadline : Nat
  t0 : Option Dword
  started : Bool
deriving DecidableEq, Repr

/-- An accepted launch (R249, R250). -/
structure Launch where
  vf : Nat
  ctx : Nat
  index : Word
  pkt : Packet
  groups : List (Nat × BitVec 192)
  expmask : Half
  /-- Size of the code object's constant section and its address (R196). -/
  constAt : Nat
  constSize : Nat
  order : Nat
  next : Nat
  total : Nat
  /-- Evicted blocks, first to be placed (R253). -/
  saved : List Nat
  pass : Nat
  failSince : Option Nat
  discarded : Bool
  alive : Bool
  repl : Option Repl
deriving DecidableEq, Repr

/-- A record appended to a chain (R235, R236). -/
structure Rec where
  slot : Nat
  /-- First number it takes, and how many. -/
  seq : Nat
  count : Nat
  order : Nat
  blk : Nat
  part : Nat
  warp : Nat
  core : Nat
  /-- Stores and loads it waits for (R116). -/
  fork : List Nat
  started : Bool
  done : Bool
  /-- Its global writes are discarded (R360). -/
  twin : Bool
  /-- Tile registers (1024 + number) and accumulator tiles (2048 + number) that it names (R231), and its RH (R223). -/
  uses : List Nat
  rh : Bool
  /-- PC of the instruction that appended it (R319), and whether that is CHLINK (R242). -/
  pc : Addr
  link : Bool
deriving DecidableEq, Repr

/-- A chain of a context on a logical core (R235, R274). -/
structure Chain where
  lcore : Nat
  eng : Engine
  head : Nat
  tail : Nat
  seq : Nat
  comp : Nat
  recs : List Rec
  /-- Numbers complete out of order, above the completion word. -/
  doneNums : List Nat
deriving DecidableEq, Repr

/-- An admitted code object (R37, R149). -/
structure Code where
  addr : Nat
  codeOff : Nat
  codeSize : Nat
  constOff : Nat
  constSize : Nat
  expmask : Half
deriving DecidableEq, Repr

/-- The context descriptor (Table 11-7). -/
structure CtxDesc where
  ptbase : Nat
  lqbase : Nat
  lqlog2 : Nat
  dbg : Bool
  chain : Nat
  chainsize : Nat
  save : Nat
  savesize : Nat
  alog : Nat
  alogsize : Nat
deriving DecidableEq, Repr

/-- Run state of a context (R282). -/
inductive RunSt where
  | running | quiescing
  /-- Every block is at a blocking point and is being saved (steps 3 and 4 of R283). -/
  | stopping
  | suspended
deriving DecidableEq, Repr

/-- The logical counts of a slice or of an image of one (Tables 11-10 and 18-6). -/
structure Counts where
  cores : Nat
  warpw : Nat
  /-- Tile registers and accumulator tiles of a core. -/
  tiles : Nat
  accs : Nat
  ways : Nat
  chans : Nat
deriving DecidableEq, Repr

/-- Who waits for the index of a PAGE record (R345, R348). -/
inductive Owner where
  | none
  /-- A block that has halted. -/
  | block (blk : Nat)
  | bundle (warp bundle : Nat)
  | op (id : Nat)
deriving DecidableEq, Repr

/-- A context of a slice. -/
structure Ctx where
  n : Nat
  exists' : Bool
  run : RunSt
  dusk : Bool
  /-- Stopped as a class (R321). -/
  stopped : Bool
  desc : CtxDesc
  bankKey : BitVec 84
  att : BitVec 256
  next : Word
  codes : List Code
  /-- The logical counts under which it was saved, or of its image (R293). -/
  counts : Counts
  /-- Its slice has been reshaped since it was suspended (R288). -/
  moved : Bool
  tail : Word
  head : Word
  stop : Bool
  /-- FQWR.COUNT, and the units of records waiting in PEND with the work that they report (R313, R314). -/
  fqCount : Word
  fqPend : List (List (List Byte) × Owner)
  fqRead : Word
  alcnt : Dword
  asum : BitVec 6
  monctl : Dword
  dbgbp : List Dword
  dbgCause : Nat
  dbgTrig : Dword
  dbgMask : Dword
  replctl : Dword
  replva : Dword
  replstat : Dword
  cntSet : Half
  counts16 : List Nat
  cntStatus : Nat
  skips : Nat
  chains : List Chain
deriving DecidableEq, Repr

/-- Interface states (Table 11-4). -/
inductive IfSt where
  | unlocked | locked | run | error
deriving DecidableEq, Repr

/-- A trace unit (Table 12-1). -/
structure TraceUnit where
  ctl : Dword
  buf : Dword
  wr : Dword
  lost : Dword
  waiting : List (List Byte)
  lostFlag : Bool
deriving DecidableEq, Repr

/-- A run of flits to one peer (R278, R386): number, bytes by address with the operation they belong to, flits,
attempts, last flit's ck. -/
structure Run where
  peer : Nat
  seq : Nat
  /-- Its nonce: the sender's pair number, and the run counter. -/
  pair : Word
  counter : Nat
  /-- The port by which it leaves (R280). -/
  port : Nat
  flits : Nat
  writes : List (Nat × List Byte × Nat)
  attempts : Nat
  closed : Bool
  /-- Flits that a retry notice has asked for again and that have not left again (R386). -/
  again : Nat
  last : Nat
deriving DecidableEq, Repr

/-- A flit of an access of MTYPE 2 that waits at a core's fabric send unit: the peer, and the flight or load it belongs to (R278, R281). -/
structure FabReq where
  core : Nat
  peer : Nat
  id : Nat
deriving DecidableEq, Repr

/-- A fabric-peer entry of the place map and its traffic state (R279, R278, R386). -/
structure Peer where
  entry : Half
  keys : Bool
  key : Nat
  /-- The 32-bit pair number that begins a nonce, and the run counter that ends it (R278). -/
  pair : Word
  nextSeq : Nat
  counter : Nat
  /-- Next number to perform of the runs received, and verified runs held behind it. -/
  rxNext : Nat
  rxHeld : List (Nat × Nat × List Byte)
  /-- Failed attempts of received runs, by number. -/
  rxFails : List (Nat × Nat)
deriving DecidableEq, Repr

/-- A quiesce in progress (R283): contexts, whether by the mailbox, deadline in ck. -/
structure Quiesce where
  ctxs : List Nat
  mailbox : Bool
  deadline : Nat
  /-- Core being removed (R375). -/
  lost : Option Nat
deriving DecidableEq, Repr

/-- An entry of the lock log (R325): offset, source, data. -/
structure LockEntry where
  off : Word
  src : Byte
  data : Dword
deriving DecidableEq, Repr

/-- A slice, presented as one VF (R262). -/
structure Slice where
  vf : Nat
  used : Bool
  quads : List Nat
  /-- Physical cores in logical order (R96, R262). -/
  lcores : List Nat
  ifst : IfSt
  /-- A slice reset or a scrub of it is under way; what follows when it ends (R379): release or unlocked. -/
  resetting : Option Bool
  key : Nat
  ide : Bool
  slpolicy : Dword
  allow : Nat
  credit : Nat
  runlen : Nat
  /-- Walkers of the slice at work: the ck in which each is free again (R80). -/
  walks : List Nat
  routes : List (Half × Word)
  peers : List Peer
  runs : List Run
  /-- Flits of accesses that have not left, oldest first. -/
  fabOut : List FabReq
  slicemap : List Half
  topo : Word
  slerr : Dword
  erraddr : Dword
  locklog : List LockEntry
  lockCount : Word
  tlbinv : Dword
  ctxdesc : Dword
  ctxstat : Dword
  loadaddr : Dword
  loadstat : Dword
  trace : List TraceUnit
  trchold : BitVec 4
  hvclaim : Dword
  hvforce : Dword
  hvbuf : Dword
  hvwr : Dword
  hvlost : Dword
  hvheld : List (Nat × List Byte)
  hvmark : Bool
  /-- Counts of the held bank for the PF (R399). -/
  hvcounts : List Nat
  placeCount : Nat
  acceptCount : Nat
  lastCtx : Nat
  gen : Dword
  lastGen : Dword
  quiesce : Option Quiesce
  reshaped : Bool
  meas3 : BitVec 256
  /-- Quad on which nothing but the waiting launch is placed (R253). -/
  victimQuad : Option (Nat × Nat)
  /-- Configuration space bytes as a host reads them back, MSI-X table: written values by offset. -/
  regs : List (Nat × Dword)
  ctxs : List Ctx
deriving DecidableEq, Repr

/-- A TLB entry: a VA range to a PA or other home, with its rights (R80). -/
structure TlbEntry where
  vf : Nat
  ctx : Nat
  va : Nat
  size : Nat
  ia : Nat
  mtype : Nat
  pa : Nat
  wr : Bool
  exe : Bool
deriving DecidableEq, Repr

/-- An L1 sector: its number PA / 32, owner, data, ck of its fill (R82, R105). -/
structure L1Sector where
  sector : Nat
  vf : Nat
  ctx : Nat
  data : BitVec 256
  fill : Nat
deriving DecidableEq, Repr

/-- A cube result on its way to the accumulator store (R222). -/
structure CubeRes where
  op : Nat
  part : Nat
  acc : Nat
  rows : Mask
  data : List (BitVec 1024)
  flags : List (BitVec 6)
  due : Nat
deriving DecidableEq, Repr

/-- A waiter of the cube ownership queue: warp and level (R213). -/
structure CubeWaiter where
  warp : Nat
  level : Nat
deriving DecidableEq, Repr

/-- Rows of one tile register that a bank of row latches holds, with the warp that they are tagged with (R223). -/
structure Latch where
  warp : Nat
  tile : Nat
  part : Nat
  rows : Mask
deriving DecidableEq, Repr

/-- A core (R10). -/
structure Core where
  n : Nat
  inService : Bool
  throttle : Nat
  /-- It withholds this ck, and its next one (R18). -/
  withheld : Bool
  withholdNext : Bool
  /-- Lines of L0: context and line as one number, and where the line's bytes are (R400). -/
  l0 : List (Nat × Place)
  /-- Lines on their way: key, ck of arrival, place. -/
  fills : List (Nat × Nat × Place)
  l1 : List L1Sector
  ccache : List Nat
  tlb : List TlbEntry
  owner : Option Nat
  ownerLevel : Nat
  ownerFrom : Nat
  cubeq : List CubeWaiter
  /-- The banks of A, B and C. -/
  latches : List (List Latch)
  cubeFree : Nat
  cubeRes : List CubeRes
  leadSlot : Option Nat
  sfuHeld : List Nat
  sampled : List Nat
  sampleDue : List Bool
  /-- Warp and bundle whose XISSUE has the scheduler's slot, or was chosen for it in this ck. -/
  xiHold : List (Option (Nat × Nat))
  dropped : Nat
  corr : Nat
  det : Nat
  /-- Cks of the corrections in its register file and scratchpad within the last second (R374). -/
  recent : List Nat
deriving DecidableEq, Repr

/-- A store, atomic or engine write on its way to its home (R102, R103). -/
structure Flight where
  id : Nat
  core : Nat
  warp : Nat
  vf : Nat
  ctx : Nat
  /-- It belongs to an engine operation. -/
  op : Option Nat
  entry : QEntry
  due : Nat
  order : Nat
  /-- An atomic to host memory waits for its completion (R199). -/
  host : Bool
  /-- Sync word counted: part, offset, bytes (R241). -/
  arrive : Option (Nat × Nat × Nat)
deriving DecidableEq, Repr

/-- A load on its way back: what it writes (R202). -/
structure LoadOp where
  id : Nat
  warp : Nat
  bundle : Nat
  remote : Bool
  /-- Lane, first register, and the bytes read; the offset while a part is still to be read (R92). -/
  data : List (Nat × Nat × BitVec 128)
  /-- ck at which data arrive; none for host memory. -/
  due : Option Nat
  /-- Lanes, registers, addresses and places still to be read, with the lanes that read host memory (R101). -/
  late : List (Nat × Nat × Nat × Place)
  /-- It joins L1 when its value has been read (R105, R109, R118); it reads homes, not L1; its hint. -/
  acq : Bool
  home : Bool
  hint : CacheHint
  /-- It may fill L1 (R104), and it consumes poison that it reads (R355). -/
  fill : Bool
  consume : Bool
  vf : Nat
  ctx : Nat
  /-- PC of the instruction, and threads of its bundle. -/
  pc : Addr
  lanes : Mask
  /-- Part whose scratchpad is still to be read, and the ck of that read (R92). -/
  part : Option (Nat × Nat)
  /-- How a peer ends it, where it does not give data: the lane, the address, and whether the peer's slice map refuses it, else the
  data are poisoned (R341, R356). -/
  refused : Option (Nat × Nat × Bool)
  /-- Lanes that read host memory, with their addresses (R341). -/
  hosts : List (Nat × Nat)
  /-- Access size, and whether a lead issued it. -/
  size : Size
  isLead : Bool
deriving DecidableEq, Repr

/-- An engine operation in progress (R116, R117). -/
structure EngOp where
  id : Nat
  core : Nat
  eng : Engine
  vf : Nat
  ctx : Nat
  lcore : Nat
  slot : Nat
  seq : Nat
  blk : Nat
  part : Nat
  warp : Nat
  /-- Address of its record, and its 64 bytes. -/
  addr : Nat
  bytes : List Byte
  /-- A segment walk: records left after this one, and the address of the next (R242). -/
  walk : Option (Nat × Nat)
  /-- Next unit, chunk or phase of its work, and how many there are. -/
  unit : Nat
  units : Nat
  /-- Parked on a page fault, with the record's index and a replay asked for (R348). -/
  parked : Option (Nat × Bool)
  /-- All work has been started; it completes when nothing of it is on its way. -/
  issued : Bool
  ready : Nat
  /-- Its effects are withdrawn (a faulted operation, R333). -/
  dead : Bool
  twin : Bool
  /-- Flags that a cube operation has raised, by row (R338). -/
  flags : List (BitVec 6)
  /-- Bytes that it has written of poisoned sectors (R354). -/
  cover : List (Nat × BitVec 32)
  /-- A peer has refused one of its writes (R341). -/
  refused : Bool
deriving DecidableEq, Repr

/-- A line of L2 or of the memory-side cache (R82 to R86): its way in L2 where it is there, its dirty sectors there, and its mark;
whether the memory-side cache holds it, whether it is dirty there, and its mark there. -/
structure CacheLine where
  line : Nat
  l2 : Option Nat
  dirty : BitVec 8
  keep : Bool
  msc : Bool
  mdirty : Bool
  mkeep : Bool
deriving DecidableEq, Repr

/-- A channel's registers and scrub state (Tables 17-6 and 19-3). -/
structure Channel where
  pend : Bool
  /-- A sweep is under way and ends by this ck. -/
  sweep : Option Nat
  key : Nat
  ce : Word
  lastpg : Nat
  ue : Word
  rfm : Word
  ueaddr : Nat
  uevalid : Bool
deriving DecidableEq, Repr

/-- The issue being executed, or executed last: warp, bundle, threads and instruction length (model's own, log 1). -/
structure Cur where
  warp : Nat
  bundle : Nat
  len : Nat
deriving DecidableEq, Repr

/-- Which side of an SPDM or TDISP exchange a function stands at (R268). -/
structure Session where
  version : Bool
  caps : Bool
  algs : Bool
  secured : Bool
  pendingKex : Bool
deriving DecidableEq, Repr

/-- An image that has been sealed (R292): the number by which its sealed bytes are known, how many chunks of 64 KiB follow its header,
the session it is sealed in, and what it holds: one granule, or the state of a slice. -/
structure Image where
  num : Nat
  chunks : Nat
  isState : Bool
  /-- Slice-map index of the granule. -/
  index : Nat
  /-- A granule's bytes by their place in it, and its poisoned sectors. -/
  granule : Memory
  poison : List Nat
  ctxs : List Ctx
  /-- Launches, blocks, warps and parts with their numbers, and engine operations. -/
  launches : List (Nat × Launch)
  blocks : List (Nat × Block)
  warps : List (Nat × Warp)
  parts : List (Nat × Part)
  ops : List EngOp
  /-- Poisoned units of saved registers and storage (R357). -/
  sites : List Site
  /-- The place map: physical cores and quads by logical number, and the fabric peers (Table 4-10). -/
  lcores : List Nat
  quads : List Nat
  peers : List Half
  topo : Word
  /-- The source slice's logical counts (R373). -/
  counts : Counts
  session : Nat
deriving DecidableEq, Repr

/-- A message that the machine has sent: to a function, a peer or the host (R38, R265, R268, R386). -/
structure Sent where
  kind : Nat
  a : Nat
  b : Nat
  data : List (BitVec 256)
deriving DecidableEq, Repr

/-- Records formed in this ck and not yet in their queue (R314): context, place in the order of R314, and the records
of one unit. -/
structure Formed where
  vf : Nat
  ctx : Nat
  key : Nat
  unit : List (List Byte)
  owner : Owner
deriving DecidableEq, Repr

/-- A change of slices that takes time: a SPLIT, with the VF, the quads that leave, the new VF, and whether their scrub has begun
(R291), or a MERGE, with the survivor and the absorbed VF, whose channels are swept (R290). -/
inductive Shaping where
  | split (vf : Nat) (mask : Half) (vfb : Nat) (scrub : Bool)
  | merge (vf vfb : Nat)
deriving DecidableEq, Repr

/-- The machine. -/
structure State where
  powered : Bool
  stage : Nat
  stepping : Byte
  scrubint : Bool
  replreq : Bool
  corelost : Dword
  aer : Bool
  /-- A shared unit has failed (R381). -/
  sharedFail : Bool
  /-- The security processor runs its recovery image: its firmware failed verification (R389). -/
  recovery : Bool
  /-- Corrections and detections counted by each die (R357). -/
  dieErr : List (Nat × Nat)
  clk : Nat
  hbeat : Dword
  /-- TIME in units of 1/85,000 ns, and the correction still to be slewed (R301). -/
  timeU : Nat
  slew : Int
  /-- The source of TIME that the PF has selected: PTP, or PTM where true. -/
  timeSrc : Bool
  timeLocked : Bool
  /-- The cks by which HBM training of each stack, the memory sweep and each core's self-test end (R14). -/
  startup : List Nat
  pfBusy : Bool
  pfStatus : Byte
  pfaddr : Dword
  pfdata : Dword
  /-- A SPLIT or MERGE in progress. -/
  pfShape : Option Shaping
  keyCount : Nat
  linkKeys : List Nat
  /-- Keystream counters of the links between compute and base dies (R271). -/
  linkCount : List Nat
  channels : List Channel
  slices : List Slice
  cores : List Core
  warps : List Warp
  parts : List Part
  blocks : List Block
  launches : List Launch
  mem : Memory
  hostMem : Memory
  peerMem : List (Nat × Memory)
  flights : List Flight
  loads : List LoadOp
  ops : List EngOp
  nextId : Nat
  /-- Poisoned 32-byte sectors of device memory, by PA / 32 (R354). -/
  poison : List Nat
  /-- Poisoned 8-byte units on chip (R357). -/
  chipPoison : List Site
  /-- Errors in DRAM codewords, by PA / 64: 80 symbols each (R350, R351). -/
  dramErr : List (Nat × List Byte)
  /-- The most recently used first. -/
  lines : List CacheLine
  /-- Activations per channel, bank and row (R352). -/
  activ : List (Nat × Nat × Nat × Nat)
  sessions : List Session
  sessionCount : Nat
  images : List Image
  pfRegs : List (Nat × Dword)
  msi : List (Nat × Nat)
  sent : List Sent
  /-- Records formed in this ck, held to be written in order (R314): vf, context, band key, bytes, units. -/
  formed : List Formed
  inputs : List Instr
  issuing : List Cur
  agenda : List Instr
  cur : Option Cur
  /-- Free values taken so far (model's own, log 5). -/
  free : Nat
deriving DecidableEq, Repr

/-- A context that does not exist (R275). -/
def Ctx.none (n : Nat) : Ctx :=
  { n, exists' := false, run := .running, dusk := false, stopped := false,
    desc := { ptbase := 0, lqbase := 0, lqlog2 := 3, dbg := false, chain := 0, chainsize := 0, save := 0,
              savesize := 0, alog := 0, alogsize := 0 },
    bankKey := 0, att := 0, next := 0, codes := [], counts := ⟨0, 0, 0, 0, 0, 0⟩, moved := false, tail := 0, head := 0, stop := false,
    fqCount := 0, fqPend := [], fqRead := 0, alcnt := 0, asum := 0, monctl := 0x400001, dbgbp := [0, 0, 0, 0],
    dbgCause := 0, dbgTrig := 0, dbgMask := 0, replctl := 0x400, replva := 0, replstat := 0,
    cntSet := 0, counts16 := List.replicate 16 0, cntStatus := 0, skips := 0,
    chains := [] }

/-- A trace unit at reset (Table 12-1). -/
def TraceUnit.reset : TraceUnit := { ctl := 0, buf := 0, wr := 0, lost := 0, waiting := [], lostFlag := false }

/-- A fabric-peer entry without a peer. -/
def Peer.none : Peer :=
  { entry := 0, keys := false, key := 0, pair := 0, nextSeq := 0, counter := 0, rxNext := 0, rxHeld := [], rxFails := [] }

/-- A VF that holds no slice (R262; reset values of Tables 11-5, 12-1, 19-2, 20-5). -/
def Slice.none (vf : Nat) : Slice :=
  { vf, used := false, quads := [], lcores := [], ifst := .unlocked, resetting := .none, key := 0, ide := false,
    slpolicy := 0x0201FFFF, allow := 0, credit := 0, runlen := 16, walks := [], routes := List.replicate 64 (0, 0),
    peers := List.replicate 64 Peer.none, runs := [], fabOut := [], slicemap := List.replicate 1024 0, topo := 0, slerr := 0,
    erraddr := 0, locklog := [], lockCount := 0, tlbinv := 0, ctxdesc := 0, ctxstat := 0, loadaddr := 0,
    loadstat := 0, trace := List.replicate 4 TraceUnit.reset, trchold := 0, hvclaim := 0, hvforce := 0, hvbuf := 0,
    hvwr := 0, hvlost := 0, hvheld := [], hvmark := false, hvcounts := List.replicate 16 0, placeCount := 0, acceptCount := 0,
    lastCtx := 63, gen := 0, lastGen := 0, quiesce := .none, reshaped := false, meas3 := 0, victimQuad := .none,
    regs := [], ctxs := (List.range 64).map Ctx.none }

/-- A core with nothing on it (R10). -/
def Core.empty (n : Nat) : Core :=
  { n, inService := true, throttle := 0, withheld := false, withholdNext := false, l0 := [], fills := [], l1 := [], ccache := [], tlb := [],
    owner := .none, ownerLevel := 0, ownerFrom := 0, cubeq := [], latches := [[], [], []], cubeFree := 0, cubeRes := [],
    leadSlot := .none, sfuHeld := [0, 0, 0, 0], sampled := [11, 11, 11, 11], sampleDue := [false, false, false, false],
    xiHold := [.none, .none, .none, .none], dropped := 0, corr := 0, det := 0, recent := [] }

/-- A channel whose scrub is pending, as after every reset (R383). -/
def Channel.flagged : Channel :=
  { pend := true, sweep := .none, key := 0, ce := 0, lastpg := 0, ue := 0, rfm := 0, ueaddr := 0, uevalid := false }

/-- A function with no SPDM exchange begun. -/
def Session.none : Session :=
  { version := false, caps := false, algs := false, secured := false, pendingKex := false }

/-- The machine right after a cold start: stage 0, every scrub flag set, nothing assigned (R14 to R16, R383). -/
def State.reset : State :=
  { powered := true, stage := 0, stepping := 0x11, scrubint := false, replreq := false, corelost := 0, aer := false,
    sharedFail := false, recovery := false, dieErr := List.replicate 4 (0, 0), clk := 0, hbeat := 0, timeU := 0, slew := 0, timeSrc := false, timeLocked := false, startup := [],
    pfBusy := false, pfStatus := 0, pfaddr := 0, pfdata := 0, pfShape := .none, keyCount := 0, linkKeys := [], linkCount := [],
    channels := List.replicate 384 Channel.flagged, slices := (List.range 17).map Slice.none,
    cores := (List.range 64).map Core.empty, warps := [], parts := [], blocks := [], launches := [], mem := [],
    hostMem := [], peerMem := [], flights := [], loads := [], ops := [], nextId := 1, poison := [], chipPoison := [],
    dramErr := [], lines := [], activ := [], sessions := List.replicate 17 Session.none, sessionCount := 0,
    images := [], pfRegs := [], msi := [], sent := [], formed := [], inputs := [], issuing := [], agenda := [],
    cur := .none, free := 0 }

end Sys2Proof.Machine
end

