-- ==== Sys2Proof/Machine/Mem.lean ====
section
/-! DEFINITION. Bytes of memory, the homes of MTYPE 0 lines with their caches, poison and DRAM errors (R78, R82 to
R86, R350 to R357), and scratchpad placement (R87 to R91). -/

namespace Sys2Proof.Machine

/-- The byte at an address; an unlisted byte reads 0 (log entries 3 and 11). -/
def memRead : Memory → Nat → Byte
  | [], _ => 0
  | (k, b) :: r, a => if k = a then b else memRead r a

/-- A byte written, the list kept in its form. -/
def memWrite : Memory → Nat → Byte → Memory
  | [], a, b => if b = 0 then [] else [(a, b)]
  | (k, v) :: r, a, b =>
    if a < k then (if b = 0 then (k, v) :: r else (a, b) :: (k, v) :: r)
    else if a = k then (if b = 0 then r else (a, b) :: r)
    else (k, v) :: memWrite r a b

/-- Every address lies above `lo`, they rise, and no byte is 0. -/
def memWfFrom : Option Nat → Memory → Bool
  | _, [] => true
  | lo, (k, b) :: r => (match lo with | none => true | some l => l < k) && b != 0 && memWfFrom (some k) r

/-- The canonical form of a memory. -/
def Memory.wf (m : Memory) : Bool := memWfFrom none m

/-- `n` bytes from an address. -/
def memReadN (m : Memory) (a n : Nat) : List Byte := (List.range n).map fun i => memRead m (a + i)
/-- Bytes written from an address. -/
def memWriteN (m : Memory) : Nat → List Byte → Memory
  | _, [] => m
  | a, b :: bs => memWriteN (memWrite m a b) (a + 1) bs
/-- Zero the bytes for which the predicate holds (a sweep). -/
def memClear (m : Memory) (p : Nat → Bool) : Memory := m.filter fun c => !(p c.1)

/-- The entry at `i` changed. -/
def modAt {α : Type} (l : List α) (i : Nat) (f : α → α) : List α :=
  match l, i with
  | [], _ => []
  | x :: xs, 0 => f x :: xs
  | x :: xs, i + 1 => x :: modAt xs i f

/-- A list put in order, entries of equal place in the order they had. -/
def insertBy {α : Type} (le : α → α → Bool) (x : α) : List α → List α
  | [] => [x]
  | y :: ys => if le x y then x :: y :: ys else y :: insertBy le x ys
def sortBy {α : Type} (le : α → α → Bool) (l : List α) : List α := l.foldr (insertBy le) []

/-! ### Channels and lines -/

/-- Quad of a physical address (R77). -/
def quadOf (pa : Nat) : Nat := pa / 2 ^ 30 / 48
/-- Die of a physical address (R8). -/
def dieOf (pa : Nat) : Nat := quadOf pa / 4
/-- Channel 96d + n of a physical address (R78, R9). -/
def chanOf (pa : Nat) : Nat :=
  let q := quadOf pa
  let lam := (pa - 48 * 2 ^ 30 * q) / 256
  96 * (q / 4) + 24 * (q % 4) + lam % 24

/-- Channels of a quad. -/
def quadChans (q : Nat) : List Nat := (List.range 24).map fun j => 96 * (q / 4) + 24 * (q % 4) + j

/-- HBM stack of a channel (Table 1-1, R9). -/
def stackOf (ch : Nat) : Nat := 3 * (ch / 96) + ch % 96 / 32

/-- A list with an entry put in front; where `ways` entries of its set are there already, the oldest of them leaves (log entry
30). -/
def insertWays {α : Type} (ways : Nat) (same : α → Bool) (x : α) (l : List α) : List α :=
  if l.length < ways || l.countP same < ways then x :: l else x :: (l.reverse.eraseP same).reverse
/-- Entries of one set of a cache with a number of sets. -/
def sameSet (cache sets a b : Nat) : Bool := Config.cacheSet cache a % sets == Config.cacheSet cache b % sets

/-- The cached line, if any. -/
def lineAt (s : State) (line : Nat) : Option CacheLine := s.lines.find? (·.line == line)

/-- A line that L2 or the memory-side cache holds. -/
def isCached (s : State) (line : Nat) : Bool := (lineAt s line).any fun l => l.l2.isSome || l.msc

/-- A line's entry changed, or added. -/
def setLine (s : State) (line : Nat) (f : CacheLine → CacheLine) : State :=
  let blank : CacheLine := ⟨line, none, 0, false, false, false, false⟩
  if (lineAt s line).isSome then { s with lines := s.lines.map fun l => if l.line == line then f l else l }
  else { s with lines := f blank :: s.lines }

/-- Saturating count of an error register (R353). -/
def satInc (x : Word) : Word := if x = 0xFFFFFFFF then x else x + 1

/-- A channel's registers. -/
def chanReg (s : State) (c : Nat) : Channel := s.channels.getD c Channel.flagged
/-- What a codeword's 64 bytes decrypt to once bits of them are flipped where DRAM holds them, encrypted under the key of the
channel with the address of the line as tweak (R84). -/
def dramFlip (key cw : Nat) (flips data : List Byte) : List Byte :=
  if (flips.take 64).all (· == 0) then data else
  let k := (Config.randomBits key).toNat
  let unit := cw / 4 * 256
  let stored := xts true k unit (cw % 4 * 4) (data.map (·.toNat))
  (xts false k unit (cw % 4 * 4) (xorAll stored ((flips.take 64).map (·.toNat)))).map (BitVec.ofNat 8 ·)
/-- One codeword (PA / 64) read from DRAM (R351): counts, corrections in memory, poison of its two sectors. -/
def readCodeword (s : State) (cw : Nat) : State :=
  match s.dramErr.find? (·.1 == cw) with
  | none => s
  | some (_, err) =>
    let ch := chanOf (cw * 64)
    let rest := s.dramErr.filter (·.1 != cw)
    let bad (keepErr : List (Nat × List Byte)) : State :=
      { s with dramErr := keepErr, poison := (2 * cw) :: (2 * cw + 1) :: s.poison.filter (fun x => x / 2 != cw),
               channels := modAt s.channels ch fun c => { c with ue := satInc c.ue, ueaddr := cw * 64, uevalid := true } }
    let flipped (pat : List Byte) : Memory := memWriteN s.mem (cw * 64) (dramFlip (chanReg s ch).key cw pat (memReadN s.mem (cw * 64) 64))
    let data := s.poison.filter fun x => x / 2 != cw
    match eccDecode err with
    -- the pattern is itself a codeword: delivered as data
    | .clean => { s with dramErr := rest, mem := flipped err, poison := data }
    | .poisoned => bad s.dramErr
    | .uncorrectable => bad s.dramErr
    | .corrected fix g =>
      let res := (err.zip fix).map fun (a, b) => a ^^^ b
      { s with dramErr := rest, mem := flipped res, poison := data,
               channels := modAt s.channels ch fun c => { c with ce := satInc c.ce, lastpg := g } }

/-- The two rows on each side of a row are refreshed, so that no count is left of theirs or of its own (R352). -/
def refreshRows (s : State) (ch bank row : Nat) : State :=
  let near (a : Nat × Nat × Nat × Nat) : Bool := a.1 == ch && a.2.1 == bank && a.2.2.1 ≤ row + 2 && row ≤ a.2.2.1 + 2
  { s with activ := s.activ.filter fun a => !(near a), channels := modAt s.channels ch fun c => { c with rfm := satInc c.rfm } }
/-- Activations of a row since its last refresh (R352). -/
def rowCount (s : State) (ch bank row : Nat) : Nat :=
  ((s.activ.find? fun (c, b, r, _) => c == ch && b == bank && r == row).map (·.2.2.2)).getD 0
/-- A DRAM row's activation counted; a row with 1,024 of them has its neighbours refreshed first (R352). Which bank and row a line
lies in is a free value (log entry 8). -/
def activate (s : State) (line : Nat) : State :=
  let ch := chanOf (line * 256)
  let bank := Config.dramPlace (2 * line)
  let row := Config.dramPlace (2 * line + 1)
  let s := if 1024 ≤ rowCount s ch bank row then refreshRows s ch bank row else s
  { s with activ := (ch, bank, row, rowCount s ch bank row + 1) ::
      s.activ.filter fun (c, b, r, _) => !(c == ch && b == bank && r == row) }

/-- A link takes a fresh key, and its keystream begins anew (R271). -/
def rekeyLink (s : State) (k : Nat) : State :=
  { s with keyCount := s.keyCount + 1, linkKeys := modAt s.linkKeys k fun _ => s.keyCount + 1, linkCount := modAt s.linkCount k fun _ => 0 }
/-- A link's keystream counter would repeat with its next line: 64 bits, 16 blocks of 16 bytes (log entry 98). -/
def linkSpent (s : State) (k : Nat) : Bool := 2 ^ 64 < s.linkCount.getD k 0 + 16
/-- A line on its way between the compute die and the base die of its stack; the link is re-keyed first where its counter would
repeat (R8, R271). -/
def linkUse (s : State) (line : Nat) : State :=
  let k := stackOf (chanOf (line * 256))
  let s := if linkSpent s k then rekeyLink s k else s
  { s with linkCount := modAt s.linkCount k (· + 16) }

/-- Some lines of a stack on the way over its link, one after the other (R271). -/
def linkUses (s : State) (k n : Nat) : State :=
  let fit := (2 ^ 64 - s.linkCount.getD k 0) / 16
  if n ≤ fit then { s with linkCount := modAt s.linkCount k (· + 16 * n) }
  else let s := rekeyLink s k; { s with linkCount := modAt s.linkCount k fun _ => 16 * (n - fit) }
/-- Every line of a granule on the way between the compute die and the base dies (R78, R271). -/
def linkGranule (s : State) (base : Nat) : State :=
  let lam := base % (48 * 2 ^ 30) / 256
  (List.range 24).foldl (fun s j =>
    linkUses s (stackOf (chanOf base / 24 * 24 + j)) ((lam + 2 ^ 22 + 23 - j) / 24 - (lam + 23 - j) / 24)) s

/-- A line read from DRAM: its row is activated, its codewords are decoded. -/
def fetchDram (s : State) (line : Nat) : State :=
  (List.range 4).foldl (fun s i => readCodeword s (4 * line + i)) (activate s line)
/-- Codewords written to DRAM: errors there are overwritten, poison goes along (R354). -/
def writeDram (s : State) (cws : List Nat) : State :=
  let pois := cws.filter fun c => s.poison.contains (2 * c) || s.poison.contains (2 * c + 1)
  { s with dramErr := pois.map (·, poisonPattern) ++ s.dramErr.filter fun e => !(cws.contains e.1) }
/-- Entries that no cache holds are gone. -/
def pruneLine (s : State) (line : Nat) : State :=
  { s with lines := s.lines.filter fun l => l.line != line || l.l2.isSome || l.msc }

/-- A line that one level holds, L2 or the memory-side cache. -/
def heldIn (s : State) (line : Nat) (l2 : Bool) : Bool := (lineAt s line).any fun l => if l2 then l.l2.isSome else l.msc
/-- One level lets a line go without writing anything back (R357). -/
def dropLevel (s : State) (line : Nat) (l2 : Bool) : State :=
  pruneLine (setLine s line fun l =>
    if l2 then { l with l2 := none, dirty := 0, keep := false } else { l with msc := false, mdirty := false, mkeep := false }) line
/-- Of the lines that stand in the way, the one to be replaced: the least recently used without a mark, else the least recently
used (R85, R86, log entry 30). -/
def victimOf (marked : CacheLine → Bool) (ls : List CacheLine) : Option CacheLine :=
  match (ls.filter fun l => !(marked l)).getLast? with
  | some l => some l
  | none => ls.getLast?
/-- Lines of a memory-side cache in one set: 16 ways of 2,048 sets a channel (Table 4-5). -/
def mscMates (s : State) (line : Nat) : List CacheLine :=
  if s.lines.length < 16 then [] else
  s.lines.filter fun l => l.msc && l.line != line && chanOf (l.line * 256) == chanOf (line * 256) && sameSet 3 2048 l.line line
/-- A line put into the memory-side cache of its channel; the one it displaces is written back whole where it is dirty. -/
def allocMsc (s : State) (line : Nat) : State :=
  let mates := mscMates s line
  let s := if mates.length < 16 then s else
    match victimOf (·.mkeep) mates with
    | some v =>
      let s := if v.mdirty then writeDram s ((List.range 4).map (4 * v.line + ·)) else s
      pruneLine (setLine s v.line fun l => { l with msc := false, mdirty := false, mkeep := false }) v.line
    | none => s
  setLine s line fun l => { l with msc := true }
/-- L2 ways of the slice to whose quad an address belongs, on the die of the address (R9, R83). -/
def sliceWays (s : State) (pa : Nat) : List Nat :=
  let qs := match s.slices.find? fun sl => sl.used && sl.quads.contains (quadOf pa) with
    | some sl => sl.quads.filter (· / 4 == dieOf pa)
    | none => [quadOf pa]
  qs.flatMap fun q => (List.range 8).map (8 * (q % 4) + ·)
/-- Lines of an L2 in one set that stand in some ways: 8,192 sets a die (Table 4-5). -/
def l2Mates (s : State) (line : Nat) (ways : List Nat) : List CacheLine :=
  s.lines.filter fun l => l.line != line && dieOf (l.line * 256) == dieOf (line * 256) && sameSet 2 8192 l.line line &&
    match l.l2 with | some w => ways.contains w | none => false
/-- A line leaves L2: its dirty sectors go to the memory-side cache (R82). -/
def evictL2 (s : State) (line : Nat) : State :=
  match lineAt s line with
  | none => s
  | some l =>
    let s := if l.dirty == 0 then s else setLine (if l.msc then linkUse s line else allocMsc (linkUse s line) line) line fun l => { l with mdirty := true }
    pruneLine (setLine s line fun l => { l with l2 := none, dirty := 0, keep := false }) line
/-- A line put into L2, in a way of its slice. -/
def allocL2 (s : State) (line : Nat) : State :=
  let ways := sliceWays s (line * 256)
  let few : Bool := s.lines.length < ways.length
  let mates := l2Mates s line ways
  let used := mates.filterMap (·.l2)
  let free := ways.find? fun w => !(used.contains w)
  let victim := if few || free.isSome then none else victimOf (·.keep) mates
  let way := match victim with | some v => v.l2.getD 0 | none => free.getD 0
  let s := match victim with | some v => evictL2 s v.line | none => s
  setLine s line fun l => { l with l2 := some way }
/-- A line's place in the order of use: the most recently used, or next to be replaced (R85). -/
def useLine (s : State) (line : Nat) (h : CacheHint) : State :=
  match lineAt s line with
  | none => s
  | some l =>
    let rest := s.lines.filter (·.line != line)
    { s with lines := if h == .stream then rest ++ [l] else l :: rest }
/-- A line marked keep, where at most half of the slice's ways of its set hold such lines (R86). -/
def keepLine (s : State) (line : Nat) : State :=
  let ways := sliceWays s (line * 256)
  let few : Bool := s.lines.length ≤ 4
  setLine s line fun l =>
    { l with keep := l.keep || (l.l2.isSome && (few || (l2Mates s line ways).countP (·.keep) < ways.length / 2)),
             mkeep := l.mkeep || (l.msc && (few || (mscMates s line).countP (·.mkeep) < 8)) }
/-- A line fetched to its home caches for an access (R82, R83, R85, R86): a demand read of DRAM decodes its codewords. -/
def touchLine (s : State) (pa : Nat) (h : CacheHint) : State :=
  let line := pa / 256
  let (l2, msc) := match lineAt s line with | some l => (l.l2.isSome, l.msc) | none => (false, false)
  let s := if l2 then s else linkUse (if msc then s else allocMsc (fetchDram s line) line) line
  let s := if l2 || h == .noalloc then s else allocL2 s line
  let s := useLine s line h
  if h == .keep then keepLine s line else s

/-- Level that holds a line, as Table 8-8 names its latency, for a core of a die. -/
def homeLatency (s : State) (die pa : Nat) : Nat :=
  match lineAt s (pa / 256) with
  | some l => if l.l2.isSome then (if dieOf pa == die then 220 else 300) else if l.msc then 420 else 600
  | none => 600

/-- Bytes at a home of device memory, after the line has been touched. -/
def devRead (s : State) (pa n : Nat) : List Byte := memReadN s.mem pa n
/-- A byte in a poisoned sector (R354). -/
def devPoisoned (s : State) (pa : Nat) : Bool := s.poison.contains (pa / 32)

/-- Units on chip that have been overwritten whole are no longer poisoned (R354, R357; log entry 49). -/
def wipe (s : State) (whole : Site → Bool) : State := { s with chipPoison := s.chipPoison.filter fun x => !(whole x) }

/-- One write performed at its home (R354): bytes by address; a sector loses its poison when the one write covers it. -/
def devWrite (s : State) (bs : List (Nat × Byte)) : State :=
  let secs := (bs.map fun x => x.1 / 32).eraseDups
  let whole := secs.filter fun k => (List.range 32).all fun i => bs.any fun x => x.1 == 32 * k + i
  let s := { s with mem := bs.foldl (fun m x => memWrite m x.1 x.2) s.mem,
                    poison := s.poison.filter fun k => !(whole.contains k) }
  secs.foldl (fun s k =>
    let line := k / 8
    let l2 := (lineAt s line).any fun l => l.l2.isSome
    let s := if l2 then s else linkUse s line
    setLine (if isCached s line then s else allocMsc s line) line fun l =>
      if l.l2.isSome then { l with dirty := l.dirty ||| (1#8 <<< (k % 8)) } else { l with mdirty := true }) s

/-- A line written back to DRAM from both its caches (R240, CPYFL; R291): the codewords of its dirty sectors, or all of them where
the memory-side cache holds it dirty. It stays cached, clean. What L2 holds dirty passes the link of its stack (R271). -/
def writeBack (s : State) (line : Nat) : State :=
  match lineAt s line with
  | none => s
  | some l =>
    if l.dirty == 0 && !l.mdirty then s else
    let cws := (List.range 4).map (4 * line + ·)
    let touched := cws.filter fun c => l.mdirty || l.dirty.getLsbD (2 * (c % 4)) || l.dirty.getLsbD (2 * (c % 4) + 1)
    let s := if l.dirty == 0 then s else linkUse s line
    setLine (writeDram s touched) line fun l => { l with dirty := 0, mdirty := false }

/-- Lines of some quads dropped without write-back. -/
def dropLines (s : State) (quads : List Nat) : State :=
  { s with lines := s.lines.filter fun l => !(quads.contains (quadOf (l.line * 256))) }

/-! ### Scratchpad placement -/

/-- F(x) of R88 for a bank key of 14 six-bit rows. -/
def bankHash (key : BitVec 84) (x : Nat) : Nat :=
  (List.range 14).foldl (fun a i => if x.testBit i then Nat.xor a (key.extractLsb' (6 * i) 6).toNat else a) 0

/-- Base and length of an enabled window. -/
def swinOf (w : Word) : Nat × Nat := ((w.extractLsb' 0 11).toNat, (w.extractLsb' 16 11).toNat)

/-- The lowest window that holds line `x`, if any (R90). -/
def windowAt (swin : List Word) (x : Nat) : Option Nat :=
  (swin.map swinOf).findSome? fun (b, l) => if l != 0 && b ≤ x && x < b + l then some b else none

/-- The bank of a word of a line (R88, R90). -/
def bankOf (key : BitVec 84) (swin : List Word) (x c : Nat) : Nat :=
  match windowAt swin x with
  | some b => (c + x + 64 * 2048 - b) % 64
  | none => Nat.xor c (bankHash key x)

/-- Where a byte of an offset is stored. -/
def scratchPlace (key : BitVec 84) (swin : List Word) (off : Nat) : Nat :=
  let x := off / 512
  512 * x + 8 * bankOf key swin x (off / 8 % 64) + off % 8

/-- Passes that an access of these offsets takes (R89). -/
def scratchPasses (key : BitVec 84) (swin : List Word) (offs : List Nat) : Nat :=
  let ws := (offs.map (· / 8)).eraseDups
  let banks := ws.map fun w => bankOf key swin (w / 64) (w % 64)
  banks.foldl (fun m b => max m (banks.countP (· == b))) 1

/-! ### Numbers and bytes -/

/-- A number's `n` low bytes, the least significant first. -/
def bytesOf (n x : Nat) : List Byte := natBytes n x
/-- A field of a byte record. -/
def fieldOf (bs : List Byte) (off n : Nat) : Nat := leBytes ((bs.drop off).take n)

end Sys2Proof.Machine
end

