-- ==== Sys2Proof/Machine/Access.lean ====
section
/-! DEFINITION. Reading and changing the tables of the state by number, event counters, interrupts and the lock log.
A number that names no entry reads as an entry with nothing in it, and a change of it changes nothing. -/

namespace Sys2Proof.Machine

/-- A thread that has exited. -/
def Thread.nil : Thread :=
  { pc := 0, lk := 0, cdepth := 0, mt := 0xFFFFFFFFFFFFF, exited := true, v := [], s := [], p := 0x80, astat := 0 }
def Warp.nil : Warp :=
  { lead := false, blk := 0, part := 0, idx := 0, core := 0, sched := 0, slot := 0, present := false, retired := true,
    threads := [], bundles := [], nextBundle := 0, window := none, fairt := 0, pend := [], queue := [], stall := 0,
    rowprog := 0, cubeSeq := 0, halt := .running, skid := (0, 0), alog := 0, sig := 0, held := [], matched := 0, ckpt := none, reads := [], owned := none, queued := none,
    issued := false, issuePc := 0 }
def Part.nil : Part :=
  { blk := 0, log := 0, core := 0, slot := 0, base := 0, kib := 0, scratch := [], tiles := [], accs := [],
    swin := [0, 0, 0, 0], dq := [], lead := 0, released := true, freed := true }
def Block.nil : Block :=
  { launch := 0, vf := 0, ctx := 0, lin := 0, bx := 0, by' := 0, bz := 0, firstWarp := 0, nWarps := 0, firstLead := 0,
    firstPart := 0, nParts := 0, groups := [], age := 0, status := .retired, victim := false, halt := none,
    stop := none, step := none, replMode := 0, replEntry := 0, twin := none, idle := 0, idleRec := false,
    issued := false }
def Packet.nil : Packet :=
  { code := 0, wentry := 0, lentry := 0, param := 0, gtab := 0, nx := 0, ny := 0, nz := 0, threads := 0, parts := 1,
    prio := 0, vregs := 0, lregs := 0, tiles := 0, accs := 0, scratch := 0, fairt := 0, attr := 0, repl := 1,
    done := 0, doneval := 0 }
def Launch.nil : Launch :=
  { vf := 0, ctx := 0, index := 0, pkt := Packet.nil, groups := [], expmask := 0, constAt := 0, constSize := 0,
    order := 0, next := 0, total := 0, saved := [], pass := 0, failSince := none, discarded := true,
    alive := false, repl := none }
def Bundle.nil : Bundle :=
  { id := 0, lanes := 0, yielded := false, wait := 0, starve := 0, starved := false, hold := none, holdLen := 0,
    holdAct := 0, xi := none, skipBp := false, fenced := 0, behind := [] }

def sliceOf (s : State) (vf : Nat) : Slice := s.slices.getD vf (Slice.none vf)
def setSlice (s : State) (vf : Nat) (f : Slice → Slice) : State := { s with slices := modAt s.slices vf f }
def ctxOf (s : State) (vf c : Nat) : Ctx := (sliceOf s vf).ctxs.getD c (Ctx.none c)
def setCtx (s : State) (vf c : Nat) (f : Ctx → Ctx) : State :=
  setSlice s vf fun sl => { sl with ctxs := modAt sl.ctxs c f }
def coreOf (s : State) (c : Nat) : Core := s.cores.getD c (Core.empty c)
def setCore (s : State) (c : Nat) (f : Core → Core) : State := { s with cores := modAt s.cores c f }
def warpOf (s : State) (w : Nat) : Warp := s.warps.getD w Warp.nil
def setWarp (s : State) (w : Nat) (f : Warp → Warp) : State := { s with warps := modAt s.warps w f }
def partOf (s : State) (p : Nat) : Part := s.parts.getD p Part.nil
def setPart (s : State) (p : Nat) (f : Part → Part) : State := { s with parts := modAt s.parts p f }
def blockOf (s : State) (b : Nat) : Block := s.blocks.getD b Block.nil
def setBlock (s : State) (b : Nat) (f : Block → Block) : State := { s with blocks := modAt s.blocks b f }
def launchOf (s : State) (l : Nat) : Launch := s.launches.getD l Launch.nil
def setLaunch (s : State) (l : Nat) (f : Launch → Launch) : State := { s with launches := modAt s.launches l f }
def setChan (s : State) (c : Nat) (f : Channel → Channel) : State := { s with channels := modAt s.channels c f }
def threadOf (w : Warp) (l : Nat) : Thread := w.threads.getD l Thread.nil
def setThread (s : State) (w l : Nat) (f : Thread → Thread) : State :=
  setWarp s w fun x => { x with threads := modAt x.threads l f }
/-- Every thread of a set of lanes changed. -/
def mapLanes (m : Mask) (f : Nat → Thread → Thread) (ts : List Thread) : List Thread :=
  ts.mapIdx fun l t => if m.getLsbD l then f l t else t
def setThreads (s : State) (w : Nat) (m : Mask) (f : Nat → Thread → Thread) : State :=
  setWarp s w fun x => { x with threads := mapLanes m f x.threads }
def bundleOf (w : Warp) (id : Nat) : Option Bundle := w.bundles.find? (·.id == id)
def setBundle (s : State) (w id : Nat) (f : Bundle → Bundle) : State :=
  setWarp s w fun x => { x with bundles := x.bundles.map fun b => if b.id == id then f b else b }

/-- The lanes of a set, ascending. -/
def lanesOf (m : Mask) : List Nat := (List.range 64).filter m.getLsbD
/-- Lane of the lowest bit; 0 for the empty set. -/
def lowest (m : Mask) : Nat := ((List.range 64).find? m.getLsbD).getD 0
def highest (m : Mask) : Nat := ((lanesOf m).getLast?).getD 0
/-- The set of the lanes in a list. -/
def maskOf (ls : List Nat) : Mask := ls.foldl (fun m l => m ||| (1#64 <<< l)) 0
def countBits (m : Mask) : Nat := (lanesOf m).length
/-- Unexited lanes of a warp. -/
def liveLanes (w : Warp) : Mask := maskOf ((List.range w.threads.length).filter fun l => !(threadOf w l).exited)
/-- PC of a bundle: that of its lowest lane. -/
def pcOf (w : Warp) (b : Bundle) : Addr := (threadOf w (lowest b.lanes)).pc

/-- TIME in ns (R301, log entry 4). -/
def timeNs (s : State) : Nat := s.timeU / 85000

/-- An MSI-X vector of a function signalled; function 0 is the PF. -/
def signal (s : State) (fn vec : Nat) : State := { s with msi := s.msi ++ [(fn, vec)] }

/-- Saturating sum of R299. -/
def satCount (x n : Nat) : Nat := min (x + n) (2 ^ 62 - 1)

/-- The hypervisor holds a context's counter bank (R398, R399). -/
def bankHeld (s : State) (vf c : Nat) : Bool :=
  let f := (sliceOf s vf).hvforce
  f.getLsbD 6 && (f.extractLsb' 0 6).toNat == c
/-- An event of a context counted: set, counter, amount (R299, R399). -/
def count (s : State) (vf c set i n : Nat) : State :=
  let sl := sliceOf s vf
  let cx := ctxOf s vf c
  if bankHeld s vf c then
    if (sl.hvforce.extractLsb' 32 16).toNat == set then
      setSlice s vf fun sl => { sl with hvcounts := modAt sl.hvcounts i (satCount · n) }
    else s
  else if cx.cntSet.toNat == set then setCtx s vf c fun cx => { cx with counts16 := modAt cx.counts16 i (satCount · n) }
  else s

/-- Contexts of a slice that exist. -/
def liveCtxs (sl : Slice) : List Nat := (sl.ctxs.filter (·.exists')).map (·.n)
/-- A shared-class event, counted for every context of a slice (Table 12-3, set 4). -/
def countShared (s : State) (vf i n : Nat) : State := (liveCtxs (sliceOf s vf)).foldl (fun s c => count s vf c 4 i n) s
/-- Bytes of a slice that pass the I/O die, by their counter: PCI Express in 0 and out 1, UALink out 2 and in 3; the I/O crossbar
carries them all. -/
def countIo (s : State) (vf i n : Nat) : State := countShared (countShared s vf i n) vf 5 n
/-- A sector of 32 bytes between a core and a home on another die (Table 12-3; log entry 86). -/
def crossDie (s : State) (vf core pa : Nat) : State := if dieOf pa == core / 16 then s else countShared s vf 4 32
/-- A draw of the security processor: its number stands for its bits (R269). -/
def drawKey (s : State) : Nat × State := (s.keyCount + 1, { s with keyCount := s.keyCount + 1 })

/-- An entry of the slice's lock log (R325). -/
def lockLog (s : State) (vf : Nat) (off : Word) (src : Byte) (data : Dword) : State :=
  let s := setSlice s vf fun sl =>
    let e : LockEntry := ⟨off, src, data⟩
    let log := if sl.locklog.length < 16 then sl.locklog ++ [e] else modAt sl.locklog (sl.lockCount.toNat % 16) fun _ => e
    { sl with locklog := log, lockCount := sl.lockCount + 1 }
  signal (signal s vf 4) 0 1

/-- A fresh number for an entry, load, flight, operation or key. -/
def fresh (s : State) : Nat × State := (s.nextId, { s with nextId := s.nextId + 1 })

/-- A choice that the spec leaves open, taken from a free value (log entry 5). -/
def choose (s : State) : Nat × State := (Config.openChoice s.free, { s with free := s.free + 1 })

end Sys2Proof.Machine
end

