-- ==== Sys2Proof/Machine/Bundles.lean ====
section
/-! DEFINITION. Bundles: meeting holds, splits, arrival merges, regrouping (R22 to R24), and blocking points (R40 to
R42). -/

namespace Sys2Proof.Machine

/-- The waits of Table 2-7; the others are no blocking point (R203, R370). -/
def Wait.blocking : Wait → Bool
  | .fencesc _ _ _ | .twin => false
  | _ => true

/-- Lowest PC of a warp's unexited threads. -/
def minPc (w : Warp) : Nat :=
  ((lanesOf (liveLanes w)).map fun l => (threadOf w l).pc.toNat).foldl min (2 ^ 52)

/-- A thread is meeting-held: it stands at its mt and some thread of the warp is lower; the lowest are never held
(R23). -/
def meetHeld (w : Warp) (l : Nat) : Bool :=
  let t := threadOf w l
  !w.lead && t.pc == t.mt && minPc w < t.pc.toNat

/-- A bundle whose threads are all meeting-held. -/
def bundleHeld (w : Warp) (b : Bundle) : Bool := (lanesOf b.lanes).all (meetHeld w)

/-- A bundle at a blocking point. -/
def bundleBlocked (b : Bundle) : Bool := match b.hold with | some h => h.blocking | none => false

/-- A bundle takes part in merges unless it waits at a blocking point or is partway through an XISSUE (R22), or has passed a checkpoint
whose instruction it has still to perform (R360, log entry 37). -/
def mergeable (w : Warp) (b : Bundle) : Bool :=
  !(bundleBlocked b) && b.xi.isNone && !(w.ckpt.any fun c => c.passed && c.bundle == b.id)
/-- Threads of a bundle that have issued the FENCESC at which they stand (R203). -/
def fencedLanes (b : Bundle) : Mask := match b.hold with | some (.fencesc _ _ _) => b.lanes | _ => b.fenced

/-- A window ends when its bundle fails a test (R26). -/
def dropWindow (w : Warp) (keep : Nat → Bool) : Warp :=
  match w.window with
  | some (id, _) => if keep id then w else { w with window := none }
  | none => w

/-- A bundle cut into parts by a key, in order of their lowest lanes; the part with the lowest lane keeps the number
and a window (R22, R26), and each the starvation count, which a split does not reset (R366). The counts of a halting block stand
still (R363). DEDUCED, log entry 79: every part keeps the yielded flag, and a cut that no control transfer makes leaves the window with
the part of the lowest lane too. -/
def splitBundle (w : Warp) (b : Bundle) (key : Nat → Nat) : Warp :=
  let ls := lanesOf b.lanes
  let keys := (ls.map key).eraseDups
  if keys.length ≤ 1 then w else
  let parts := keys.mapIdx fun i k =>
    let m := maskOf (ls.filter (key · == k))
    { b with id := if i == 0 then b.id else w.nextBundle + i - 1, lanes := m, wait := if w.halt == .running then 0 else b.wait,
             holdAct := b.holdAct &&& m, fenced := b.fenced &&& m,
             xi := b.xi.map fun x => { x with remaining := x.remaining &&& m, left := x.left &&& m, active := x.active &&& m } }
  { w with bundles := w.bundles.flatMap fun x => if x.id == b.id then parts else [x],
           nextBundle := w.nextBundle + keys.length }

/-- No bundle of a warp waits at a checkpoint (R360). -/
def Warp.noCkpt (w : Warp) : Prop := ∀ c, w.ckpt = some c → c.passed = true
/-- No checkpoint that has matched waits for a bundle to pass it (R360). -/
def Warp.noPassed (w : Warp) (id : Nat) : Prop := ∀ c, w.ckpt = some c → (c.passed && c.bundle == id) = false
/-- A warp whose bundles at a checkpoint merge comes to the checkpoint anew (R22, R360, log entry 37). -/
def undoCkpt (w : Warp) (a b : Nat) : Warp :=
  match w.ckpt with
  | some c => if !c.passed && (c.bundle == a || c.bundle == b) then { w with ckpt := none, sig := c.before } else w
  | none => w
/-- Two bundles joined into the first; both counts start at 0, but stand still in a halting block, and the flag is clear (R26, R27,
R363, R366). A fence or a checkpoint at which one of them waited is issued by the joined bundle (log entry 37). -/
def mergeInto (w : Warp) (a b : Nat) : Warp :=
  match bundleOf w a, bundleOf w b with
  | some x, some y =>
    let run : Bool := w.halt == .running
    let j := { x with lanes := x.lanes ||| y.lanes, yielded := false, wait := if run then 0 else x.wait,
                      starve := if run then 0 else x.starve, starved := !run && x.starved, skipBp := false, hold := none, holdLen := 0, holdAct := 0, fenced := fencedLanes x ||| fencedLanes y }
    dropWindow { undoCkpt w a b with bundles := (w.bundles.filter (·.id != b)).map fun z => if z.id == a then j else z }
      fun id => id != a && id != b
  | _, _ => w

/-- Bundles in which only some threads are meeting-held are split; a held bundle's starvation count is 0 and it has no
window (R23, R26, R366). DEDUCED, log entry 79: where the held threads split off a window bundle, the part with its
lowest lane has the window, and loses it if that part is the held one. -/
def splitHeld (w : Warp) : Warp :=
  let w := w.bundles.foldl (fun w b => splitBundle w b fun l => if meetHeld w l then 1 else 0) w
  let w := { w with bundles := w.bundles.map fun b => if bundleHeld w b then { b with starve := 0, starved := false } else b }
  dropWindow w fun id => match bundleOf w id with | some b => !(bundleHeld w b) | none => false

/-- After threads of a bundle have moved: exited threads leave, the bundle splits by PC, and each part that a taken
transfer brought to its PC, or that reached the mt of one of its threads, merges with a bundle there (R22). -/
def settle (w : Warp) (id : Nat) (taken : Mask) : Warp :=
  match bundleOf w id with
  | none => splitHeld w
  | some b =>
    let live := maskOf ((lanesOf b.lanes).filter fun l => !(threadOf w l).exited)
    if live = 0 then
      splitHeld (dropWindow { w with bundles := w.bundles.filter (·.id != id) } fun i => i != id)
    else
      let b := { b with lanes := live }
      let w := { w with bundles := w.bundles.map fun x => if x.id == id then b else x }
      let before := w.nextBundle
      let w := splitBundle w b fun l => (threadOf w l).pc.toNat
      let mine := w.bundles.filter fun x => x.id == id || before ≤ x.id
      let w := mine.foldl (fun w x =>
        let reached := (lanesOf x.lanes).any fun l => taken.getLsbD l || (threadOf w l).pc == (threadOf w l).mt
        if !reached || !mergeable w x || !(w.bundles.any (·.id == x.id)) then w else
        (w.bundles.filter fun y => y.id != x.id && mergeable w y && pcOf w y == pcOf w x).foldl
          (fun w y => mergeInto w x.id y.id) w) w
      splitHeld w

/-- The regrouping of a warp (R22): bundles that share a PC and a meeting hold become one. DEDUCED (log entry 79): a bundle that is
meeting-held and one that is not stay as they are, since R23 would part them again at once. -/
def regroup (w : Warp) : Warp :=
  w.bundles.foldl (fun w b =>
    match bundleOf w b.id with
    | none => w
    | some b =>
      if !mergeable w b then w else
      (w.bundles.filter fun y => b.id < y.id && mergeable w y && pcOf w y == pcOf w b && bundleHeld w y == bundleHeld w b).foldl
        (fun w y => mergeInto w b.id y.id) w) w

/-- A warp or lead is at a blocking point, or has exited (R42). -/
def warpBlocked (w : Warp) : Bool :=
  w.bundles.all fun b => bundleBlocked b || bundleHeld w b
/-- Every bundle is meeting-held (R317). -/
def warpAllHeld (w : Warp) : Bool := !w.bundles.isEmpty && w.bundles.all (bundleHeld w)

end Sys2Proof.Machine
end

