-- ==== Sys2Proof/Machine/Numbers.lean ====
section
/-! DEFINITION. Number formats and exact arithmetic (spec 03): values, rounding, saturation, conversions, log formats,
quantisation and group sums. -/

namespace Sys2Proof.Machine

/-- ASTAT's arithmetic flags NV, DZ, OF, UF, NX, SA as bits 0 to 5 (Table 3-11). -/
abbrev Flags := BitVec 6
def fNV : Flags := 0x01
def fDZ : Flags := 0x02
def fOF : Flags := 0x04
def fUF : Flags := 0x08
def fNX : Flags := 0x10
def fSA : Flags := 0x20
/-- The flag when a condition holds. -/
def fIf (c : Bool) (f : Flags) : Flags := if c then f else 0

/-- A value of a float format, exactly: `fin neg m e` is ±m · 2^e, its sign kept for zero. -/
inductive Val where
  | nan
  | inf (neg : Bool)
  | fin (neg : Bool) (m : Nat) (e : Int)
deriving DecidableEq, Repr

/-- A float format (Table 3-2): exponent and fraction bits, bias, and whether it has infinities. -/
structure Fmt where
  eb : Nat
  mb : Nat
  bias : Nat
  infs : Bool
deriving DecidableEq, Repr

def Fmt.f32 : Fmt := ⟨8, 23, 127, true⟩
def Fmt.f16 : Fmt := ⟨5, 10, 15, true⟩
def Fmt.bf16 : Fmt := ⟨8, 7, 127, true⟩
def Fmt.e5m2 : Fmt := ⟨5, 2, 15, true⟩
def Fmt.e4m3 : Fmt := ⟨4, 3, 7, false⟩

/-- The format of a code of Table 7-6. -/
def ffmtOf : FFmt → Fmt
  | .f32 => .f32 | .f16 => .f16 | .bf16 => .bf16 | .e4m3 => .e4m3 | .e5m2 => .e5m2

/-- Width in bits. -/
def Fmt.width (f : Fmt) : Nat := 1 + f.eb + f.mb
/-- Exponent of the last place of the subnormals. -/
def Fmt.qmin (f : Fmt) : Int := 1 - f.bias - f.mb
/-- Bits of +∞. -/
def Fmt.infBits (f : Fmt) : Nat := (2 ^ f.eb - 1) * 2 ^ f.mb
/-- The canonical NaN (R48). -/
def Fmt.cnan (f : Fmt) : Nat := if f.infs then f.infBits + 2 ^ (f.mb - 1) else 2 ^ (f.eb + f.mb) - 1
/-- Bits of the largest finite value. -/
def Fmt.maxBits (f : Fmt) : Nat := if f.infs then f.infBits - 1 else 2 ^ (f.eb + f.mb) - 2
/-- The sign bit. -/
def Fmt.signBits (f : Fmt) (neg : Bool) : Nat := if neg then 2 ^ (f.eb + f.mb) else 0

/-- The value of an encoding (Table 3-2). -/
def Fmt.unpack (f : Fmt) (x : Nat) : Val :=
  let neg := x / 2 ^ (f.eb + f.mb) % 2 == 1
  let ef := x / 2 ^ f.mb % 2 ^ f.eb
  let fr := x % 2 ^ f.mb
  if ef == 2 ^ f.eb - 1 && f.infs then (if fr == 0 then .inf neg else .nan)
  else if ef == 2 ^ f.eb - 1 && fr == 2 ^ f.mb - 1 then .nan
  else if ef == 0 then .fin neg fr f.qmin
  else .fin neg (fr + 2 ^ f.mb) (f.qmin + (ef : Int) - 1)

/-- A subnormal is read as zero of its sign (R49). -/
def Fmt.flushIn (f : Fmt) (ftz : Bool) : Val → Val
  | .fin n m e => if ftz && m < 2 ^ f.mb && e == f.qmin then .fin n 0 e else .fin n m e
  | v => v

/-- Whether to round the magnitude away from zero: the part dropped is `rem` of `den` (Table 3-3). -/
def roundUp (rm : Rm) (neg : Bool) (odd : Bool) (rem den : Nat) : Bool :=
  match rm with
  | .rn => den < 2 * rem || (2 * rem == den && odd)
  | .rz => false
  | .rd => neg && rem != 0
  | .ru => !neg && rem != 0
  | .ra => den ≤ 2 * rem && rem != 0

/-- m · 2^e in units of 2^q, rounded; and whether it was exact. -/
def roundUnits (rm : Rm) (neg : Bool) (m : Nat) (e q : Int) : Nat × Bool :=
  if q ≤ e then (m * 2 ^ (e - q).toNat, true)
  else
    let den := 2 ^ (q - e).toNat
    let lo := m / den
    let rem := m % den
    (if roundUp rm neg (lo % 2 == 1) rem den then lo + 1 else lo, rem == 0)

/-- Overflow takes the largest finite value in this mode (R51). -/
def overMax (rm : Rm) (neg : Bool) : Bool :=
  match rm with | .rz => true | .rd => !neg | .ru => neg | _ => false

/-- RoundNE of R51, in any mode, with R49's flush; zero keeps its sign. -/
def Fmt.round (f : Fmt) (rm : Rm) (ftz : Bool) : Val → Nat × Flags
  | .nan => (f.cnan, 0)
  | .inf neg => if f.infs then (f.signBits neg + f.infBits, 0) else (f.cnan, fOF)
  | .fin neg m e =>
    if m == 0 then (f.signBits neg, 0) else
    let big : Int := (Nat.log2 m : Int) + e
    let q : Int := if big - f.mb < f.qmin then f.qmin else big - f.mb
    let (n, ex) := roundUnits rm neg m e q
    let (n, q) := if n == 2 ^ (f.mb + 1) then (2 ^ f.mb, q + 1) else (n, q)
    if n < 2 ^ f.mb then
      if ftz && n != 0 then (f.signBits neg, fUF ||| fNX)
      else (f.signBits neg + n, fIf (!ex) (fUF ||| fNX))
    else
      let bits := (q - f.qmin + 1).toNat * 2 ^ f.mb + (n - 2 ^ f.mb)
      if f.maxBits < bits then
        if overMax rm neg then (f.signBits neg + f.maxBits, fOF ||| fNX)
        else if f.infs then (f.signBits neg + f.infBits, fOF ||| fNX)
        else (f.cnan, fOF ||| fNX)
      else (f.signBits neg + bits, fIf (!ex) fNX)

/-- Compare magnitudes m · 2^e. -/
def magLt (m : Nat) (e : Int) (m' : Nat) (e' : Int) : Bool :=
  let q := min e e'
  m * 2 ^ (e - q).toNat < m' * 2 ^ (e' - q).toNat

/-- Sat of R52 to a float format: NaN passes. -/
def Fmt.sat (f : Fmt) : Val → Val × Flags
  | .nan => (.nan, 0)
  | .inf neg => (match f.unpack f.maxBits with | .fin _ m e => (.fin neg m e, fSA) | v => (v, fSA))
  | .fin neg m e =>
    match f.unpack f.maxBits with
    | .fin _ mm me => if magLt mm me m e then (.fin neg mm me, fSA) else (.fin neg m e, 0)
    | v => (v, 0)

/-- Sat when .SAT is written, then rounding. -/
def Fmt.finish (f : Fmt) (rm : Rm) (sat ftz : Bool) (v : Val) (fl : Flags) : Nat × Flags :=
  let (v, f1) := if sat then f.sat v else (v, 0)
  let (x, f2) := f.round rm ftz v
  (x, fl ||| f1 ||| f2)

/-- The exact product; 0 · ∞ is NaN with NV (R48). -/
def Val.mul : Val → Val → Val × Flags
  | .nan, .inf _ | .nan, .nan | .nan, .fin .. | .inf _, .nan | .fin .., .nan => (.nan, 0)
  | .inf a, .inf b => (.inf (a != b), 0)
  | .inf a, .fin b m _ => if m == 0 then (.nan, fNV) else (.inf (a != b), 0)
  | .fin a m _, .inf b => if m == 0 then (.nan, fNV) else (.inf (a != b), 0)
  | .fin a m e, .fin b m' e' => (.fin (a != b) (m * m') (e + e'), 0)

/-- m · 2^e of a sign, as an integer in units of 2^q. -/
def toUnits (neg : Bool) (m : Nat) (e q : Int) : Int :=
  let x : Int := ((m * 2 ^ (e - q).toNat : Nat) : Int)
  if neg then -x else x

/-- The exact sum; ∞ − ∞ is NaN with NV; an exact zero of opposite signs is +0, or −0 in .RD (R51). -/
def Val.add (rm : Rm) : Val → Val → Val × Flags
  | .nan, .inf _ | .nan, .nan | .nan, .fin .. | .inf _, .nan | .fin .., .nan => (.nan, 0)
  | .inf a, .inf b => if a == b then (.inf a, 0) else (.nan, fNV)
  | .inf a, .fin .. => (.inf a, 0)
  | .fin .., .inf b => (.inf b, 0)
  | .fin a m e, .fin b m' e' =>
    let q := min e e'
    let x := toUnits a m e q + toUnits b m' e' q
    if x == 0 then
      let neg := if m == 0 && m' == 0 && a == b then a else rm == .rd
      (.fin neg 0 q, 0)
    else (.fin (x < 0) x.natAbs q, 0)

/-- The sign turned. -/
def Val.neg : Val → Val
  | .nan => .nan
  | .inf n => .inf (!n)
  | .fin n m e => .fin (!n) m e

/-- A · 2^n. Beyond ±600 the result of an F32 operand no longer depends on n. -/
def Val.scale (v : Val) (n : Int) : Val :=
  match v with
  | .fin s m e => .fin s m (e + (if 600 < n then 600 else if n < -600 then -600 else n))
  | v => v

/-- The value is a NaN. -/
def Val.isNan : Val → Bool | .nan => true | _ => false
/-- The value is infinite. -/
def Val.isInf : Val → Bool | .inf _ => true | _ => false
/-- The value is a zero. -/
def Val.isZero : Val → Bool | .fin _ m _ => m == 0 | _ => false
/-- The sign. -/
def Val.isNeg : Val → Bool | .inf n => n | .fin n _ _ => n | .nan => false

/-- a < b for values that are no NaN; zeros of either sign are equal. -/
def Val.lt : Val → Val → Bool
  | .inf a, .inf b => a && !b
  | .inf a, .fin .. => a
  | .fin .., .inf b => !b
  | .fin a m e, .fin b m' e' => let q := min e e'; toUnits a m e q < toUnits b m' e' q
  | _, _ => false

/-- Equality of values that are no NaN; zeros of either sign are equal. -/
def Val.eqv : Val → Val → Bool
  | .inf a, .inf b => a == b
  | .fin a m e, .fin b m' e' => let q := min e e'; toUnits a m e q == toUnits b m' e' q
  | _, _ => false

/-- Table 7-3, float. -/
def condFloat (c : Cond) (a b : Val) : Bool :=
  let n := a.isNan || b.isNan
  match c with
  | .eq => !n && a.eqv b
  | .ne => n || !(a.eqv b)
  | .lt => !n && a.lt b
  | .le => !n && (a.lt b || a.eqv b)
  | .gt => !n && b.lt a
  | .ge => !n && (b.lt a || a.eqv b)
  | .num => !n
  | .nan => n

/-- Table 7-3, integer. -/
def condInt (c : Cond) (a b : Int) : Bool :=
  match c with
  | .eq => a == b | .ne => a != b | .lt => a < b | .le => a ≤ b | .gt => b < a | .ge => b ≤ a
  | .num => false | .nan => false

/-- Condition codes of SUB (Table 7-3). -/
def condOf (n : Nat) : Cond :=
  match n with
  | 0 => .eq | 1 => .ne | 2 => .lt | 3 => .le | 4 => .gt | 5 => .ge | 6 => .num | _ => .nan

/-- FMIN and FMAX of R164 on encodings of a format. -/
def Fmt.minmax (f : Fmt) (ftz max : Bool) (x y : Nat) : Nat :=
  let a := f.flushIn ftz (f.unpack x)
  let b := f.flushIn ftz (f.unpack y)
  let bits (v : Val) (w : Nat) : Nat := if v.isZero then f.signBits v.isNeg else w
  if a.isNan && b.isNan then f.cnan
  else if a.isNan then bits b y
  else if b.isNan then bits a x
  else
    let less := a.lt b || (a.isZero && b.isZero && a.isNeg && !b.isNeg)
    if less != max then bits a x else bits b y

/-- A · B + C with one rounding (FFMA). Log entry 10: 0 · ∞ sets NV whatever C is. -/
def Val.fma (rm : Rm) (a b c : Val) : Val × Flags :=
  let (p, f1) := a.mul b
  let (r, f2) := p.add rm c
  (r, f1 ||| f2)

/-- FADD, FSUB, FMUL, FFMA in any format (R163, R165). -/
def Fmt.addF (f : Fmt) (rm : Rm) (sat ftz : Bool) (x y : Nat) : Nat × Flags :=
  let (v, fl) := (f.flushIn ftz (f.unpack x)).add rm (f.flushIn ftz (f.unpack y))
  f.finish rm sat ftz v fl
def Fmt.subF (f : Fmt) (rm : Rm) (sat ftz : Bool) (x y : Nat) : Nat × Flags :=
  let (v, fl) := (f.flushIn ftz (f.unpack x)).add rm (f.flushIn ftz (f.unpack y)).neg
  f.finish rm sat ftz v fl
def Fmt.mulF (f : Fmt) (rm : Rm) (sat ftz : Bool) (x y : Nat) : Nat × Flags :=
  let (v, fl) := (f.flushIn ftz (f.unpack x)).mul (f.flushIn ftz (f.unpack y))
  f.finish rm sat ftz v fl
def Fmt.fmaF (f : Fmt) (rm : Rm) (sat ftz : Bool) (x y z : Nat) : Nat × Flags :=
  let (v, fl) := Val.fma rm (f.flushIn ftz (f.unpack x)) (f.flushIn ftz (f.unpack y)) (f.flushIn ftz (f.unpack z))
  f.finish rm sat ftz v fl

/-- FSCALE (Table 7-5). -/
def fscale (rm : Rm) (sat ftz : Bool) (x : Nat) (n : Int) : Nat × Flags :=
  Fmt.f32.finish rm sat ftz ((Fmt.f32.flushIn ftz (Fmt.f32.unpack x)).scale n) 0

/-- FCLASS of an F32 encoding (R164). -/
def fclass (x : Nat) : Nat :=
  match Fmt.f32.unpack x with
  | .nan => 256
  | .inf n => if n then 1 else 128
  | .fin n m e =>
    if m == 0 then (if n then 8 else 16)
    else if m < 2 ^ 23 && e == Fmt.f32.qmin then (if n then 4 else 32)
    else (if n then 2 else 64)

/-- FRND of an F32 encoding (R164). -/
def frnd (rm : Rm) (ftz : Bool) (x : Nat) : Nat :=
  match Fmt.f32.flushIn ftz (Fmt.f32.unpack x) with
  | .nan => Fmt.f32.cnan
  | .inf n => Fmt.f32.signBits n + Fmt.f32.infBits
  | .fin n m e => (Fmt.f32.round .rn false (.fin n (roundUnits rm n m e (if e < 0 then 0 else e)).1 (if e < 0 then 0 else e))).1

/-- FEXP of an F32 encoding (R164). -/
def fexp (x : Nat) : Word × Flags :=
  match Fmt.f32.unpack x with
  | .nan => (0x7FFFFFFF, fNV)
  | .inf _ => (0x7FFFFFFF, 0)
  | .fin _ m e => if m == 0 then (0x80000000, 0) else (BitVec.ofInt 32 ((Nat.log2 m : Int) + e), 0)

/-- Range of an integer type (Table 3-1). -/
def tyLo (t : IntTy) : Int := if t.signed then -(2 ^ (t.width - 1) : Int) else 0
def tyHi (t : IntTy) : Int := if t.signed then 2 ^ (t.width - 1) - 1 else 2 ^ t.width - 1

/-- Sat of R52 to an integer type. -/
def tySat (t : IntTy) (x : Int) : Int × Flags :=
  if tyHi t < x then (tyHi t, fSA) else if x < tyLo t then (tyLo t, fSA) else (x, 0)

/-- Float to integer (R53). -/
def cvtToInt (t : IntTy) (rm : Rm) : Val → Int × Flags
  | .nan => (0, fNV)
  | .inf n => (if n then tyLo t else tyHi t, fNV ||| fSA)
  | .fin n m e =>
    let (k, ex) := if 0 ≤ e then (m * 2 ^ e.toNat, true) else roundUnits rm n m e 0
    let x : Int := if n then -(k : Int) else k
    if tyHi t < x then (tyHi t, fNV ||| fSA) else if x < tyLo t then (tyLo t, fNV ||| fSA) else (x, fIf (!ex) fNX)

/-- Integer to float (CVTF). -/
def cvtFromInt (f : Fmt) (rm : Rm) (x : Int) : Nat × Flags := f.round rm false (.fin (x < 0) x.natAbs 0)

/-- CVTFF and the halves of CVTPK (R167, R168). -/
def cvtFloat (fs fd : Fmt) (rm : Rm) (sat : Bool) (x : Nat) : Nat × Flags := fd.finish rm sat false (fs.unpack x) 0

/-- A sum of exact terms with no NaN or infinity; an exact zero follows R51. -/
def sumVals (rm : Rm) (ts : List Val) : Val :=
  let q := ts.foldl (fun q t => match t with | .fin _ _ e => min q e | _ => q) 0
  let x := ts.foldl (fun a t => match t with | .fin n m e => a + toUnits n m e q | _ => a) (0 : Int)
  if x == 0 then
    let allNeg := ts.all (fun t => t.isNeg && t.isZero)
    let allPos := ts.all (fun t => !t.isNeg && t.isZero)
    .fin (if allNeg then true else if allPos then false else rm == .rd) 0 q
  else .fin (x < 0) x.natAbs q

/-- FDOT2 and FDOT4 (R165): the element pairs, and C in F32. DESIGN CHOICE (log entry 92): with .SAT an infinity of step 3 is
saturated, as R52 has it of every .SAT instruction, and sets SA. -/
def fdot (rm : Rm) (sat ftz : Bool) (f : Fmt) (es : List (Nat × Nat)) (c : Nat) : Nat × Flags :=
  let rd (g : Fmt) (x : Nat) := g.flushIn ftz (g.unpack x)
  let ps := es.map fun (a, b) => (rd f a).mul (rd f b)
  let c := rd .f32 c
  let anyNan := es.any (fun (a, b) => (f.unpack a).isNan || (f.unpack b).isNan) || c.isNan
  let invalid := ps.any (fun p => p.2 != 0)
  let ts := ps.map (·.1) ++ [c]
  if anyNan || invalid then (Fmt.f32.cnan, fIf invalid fNV)
  else if ts.any (fun t => t.isInf && t.isNeg) && ts.any (fun t => t.isInf && !t.isNeg) then (Fmt.f32.cnan, fNV)
  else match ts.find? (·.isInf) with
    | some t => Fmt.f32.finish rm sat ftz t 0
    | none => Fmt.f32.finish rm sat ftz (sumVals rm ts) 0

/-! ### Log formats -/

/-- Block format codes (Table 3-7): steps per binade, bias, element width. -/
structure LgInfo where
  d : Nat
  b : Nat
  w : Nat
deriving DecidableEq, Repr

/-- Table 3-4 by the code of Table 3-7. -/
def lgInfo (code : Nat) : Option LgInfo :=
  if code == 0x44 then some ⟨2, 4, 4⟩ else if code == 0x46 then some ⟨4, 16, 6⟩
  else if code == 0x47 then some ⟨8, 32, 7⟩ else none

/-- The code of Table 3-7 of a format. -/
def lgCode7 : LgFmt → Nat
  | .lg7 => 0x47 | .lg6 => 0x46 | .lg4 => 0x44

/-- A reserved format code (R59). -/
def lgReserved (code : Nat) : Bool := code != 0 && (lgInfo code).isNone

/-- TableT (Table 3-5). -/
def tableT (f : Nat) : Nat :=
  match f with
  | 0 => 0x8000 | 1 => 0x8B96 | 2 => 0x9838 | 3 => 0xA5FF | 4 => 0xB505 | 5 => 0xC567 | 6 => 0xD745 | _ => 0xEAC1

/-- The value of an aligned exponent (R55). -/
def ofE8 (neg : Bool) (e8 : Int) : Val := .fin neg (tableT (e8 % 8).toNat) (e8 / 8 - 15)

/-- Aligned exponent of an element of a block with a scale, none for a zero; with its sign (R55). -/
def lgElem (code elem : Nat) (sigma : Int) : Bool × Option Int :=
  match lgInfo code with
  | none => (false, none)
  | some i =>
    let s := elem / 2 ^ (i.w - 1) % 2 == 1
    let l := elem % 2 ^ (i.w - 1)
    if l == 0 then (s, none) else (s, some ((8 / i.d : Nat) * ((l : Int) - i.b) + 8 * sigma))

/-- LogValue (R57). -/
def logValue (code elem : Nat) (sigma : Int) : Val :=
  match lgElem code elem sigma with
  | (s, none) => .fin s 0 0
  | (s, some e8) => ofE8 s e8

/-- Element `e` of a block as its bits, bit 0 of byte 0 first (R59). -/
def blockElem (blk : BitVec 512) (code e : Nat) : Nat :=
  match lgInfo code with
  | none => 0
  | some i => (blk.extractLsb' (16 + i.w * e) i.w).toNat

/-- The block's code, and its scale read signed. -/
def blockCode (blk : BitVec 512) : Nat := (blk.extractLsb' 0 8).toNat
def sbyte (b : Byte) : Int := b.toInt
def blockScale (blk : BitVec 512) : Byte := blk.extractLsb' 8 8

/-- The check of R59 on a block: none, or SUB 1 for a reserved code and 2 for scale 0x80. -/
def blockBad (blk : BitVec 512) : Option Nat :=
  let c := blockCode blk
  if lgReserved c then some 1 else if c != 0 && blockScale blk == 0x80 then some 2 else none

/-- ⌊2D · log2(m · 2^e)⌋ and whether it is exact, for m ≠ 0 (step 4 of R64). -/
def log2Half (d m : Nat) (e : Int) : Int × Bool :=
  let p := m ^ (2 * d)
  let k := Nat.log2 p
  ((k : Int) + 2 * d * e, p == 2 ^ k)

/-- ⌈D · log2(m · 2^e)⌉. -/
def log2Ceil (d m : Nat) (e : Int) : Int :=
  let p := m ^ d
  let k := Nat.log2 p
  (if p == 2 ^ k then (k : Int) else k + 1) + d * e

/-- ⌈a / b⌉ for b > 0. -/
def ceilDiv (a : Int) (b : Nat) : Int := -((-a) / (b : Int))

/-- The largest magnitude of step 1 of R64: none for all zeros, otherwise a value. -/
def amaxOf (xs : List Val) : Val :=
  xs.foldl (fun a x => match x with
    | .nan => a
    | .inf _ => .inf false
    | .fin _ m e => match a with
      | .fin _ m' e' => if magLt m' e' m e then .fin false m e else a
      | a => a) (.fin false 0 0)

/-- The code of one element and its flags: steps 4 and 5 of R64. -/
def quantElem (i : LgInfo) (code : Nat) (sigma : Int) : Val → Nat × Flags
  | .nan => (0, fNV ||| fNX)
  | .inf n => ((if n then 2 ^ (i.w - 1) else 0) + (2 ^ (i.w - 1) - 1), fSA ||| fNX)
  | .fin n m e =>
    let sb := if n then 2 ^ (i.w - 1) else 0
    if m == 0 then (sb, 0) else
    let (t0, exact) := log2Half i.d m e
    let t := t0 - 2 * i.d * sigma + 2 * i.b
    let l : Int := if t % 2 == 0 then t / 2 else if exact then (if t / 2 % 2 == 0 then t / 2 else t / 2 + 1) else t / 2 + 1
    let lmax : Nat := 2 ^ (i.w - 1) - 1
    if l < 1 then (sb, fUF ||| fNX)
    else
      let k := if (lmax : Int) < l then lmax else l.toNat
      (sb + k, fIf ((lmax : Int) < l) fSA ||| fIf (!((logValue code (sb + k) sigma).eqv (.fin n m e))) fNX)

/-- Quantisation of R64 and R65: the 64-byte block and each element's flags. -/
def quantBlock (fmt : LgFmt) (xs : List Val) : BitVec 512 × List Flags :=
  let code := lgCode7 fmt
  match lgInfo code with
  | none => (0, [])
  | some i =>
    let lmax : Nat := 2 ^ (i.w - 1) - 1
    let amax := amaxOf xs
    if amax.isZero then (0, xs.map fun x => fIf x.isNan fNV)
    else
      let sigma : Int := match amax with
        | .fin _ m e =>
          let s := ceilDiv (log2Ceil i.d m e - ((lmax : Int) - i.b)) i.d
          if s < -127 then -127 else if 127 < s then 127 else s
        | _ => 127
      let es := xs.map (quantElem i code sigma)
      let payload := es.foldr (fun p a => p.1 + 2 ^ i.w * a) 0
      (BitVec.ofNat 512 (code + 256 * (BitVec.ofInt 8 sigma).toNat + 65536 * payload), es.map (·.2))

/-! ### Cube arithmetic -/

/-- A stage-1 product (R61): a value, or an invalid 0 · ∞. -/
abbrev Prod := Val × Bool

/-- GroupSum (R62): the accumulator as an F32 encoding. -/
def groupSum (acc : Nat) (ps : List Prod) : Nat × Flags :=
  let a := Fmt.f32.unpack acc
  let invalid := ps.any (·.2)
  if a.isNan || invalid || ps.any (·.1.isNan) then (Fmt.f32.cnan, fIf invalid fNV)
  else
    let pinf := ps.any (fun p => p.1.isInf && !p.1.isNeg)
    let ninf := ps.any (fun p => p.1.isInf && p.1.isNeg)
    if pinf && ninf then (Fmt.f32.cnan, fNV)
    else if pinf || ninf then
      let (v, f1) := a.add .rn (.inf ninf)
      let (x, f2) := Fmt.f32.round .rn false v
      (x, f1 ||| f2)
    else
      let nz := ps.filter (fun p => !p.1.isZero)
      match nz with
      | [] => (acc, 0)
      | _ =>
        let top (v : Val) : Int := match v with | .fin _ m e => (Nat.log2 m : Int) + e | _ => 0
        let emax := nz.foldl (fun m p => max m (top p.1)) (top (nz.headD (.nan, false)).1)
        let q := emax - 30
        let one (v : Val) : Int × Bool := match v with
          | .fin n m e => let (k, ex) := roundUnits .rz n m e q; (if n then -(k : Int) else k, ex)
          | _ => (0, true)
        let g := nz.foldl (fun s p => s + (one p.1).1) (0 : Int)
        let cut := nz.any (fun p => !(one p.1).2)
        let gv : Val := .fin (g < 0) g.natAbs q
        let (v, f1) := a.add .rn gv
        let (x, f2) := Fmt.f32.round .rn false v
        (x, f1 ||| f2 ||| fIf cut fNX)

end Sys2Proof.Machine
end

