-- ==== Sys2Proof/Machine/Operands.lean ====
section
/-! DEFINITION. Every operand form: registers, pairs, predicates and literals of warp and lead code (R46, R128, R130,
R131, R152), memory addresses (R132), and the guard (R126). -/

namespace Sys2Proof.Machine

/-- A vector register of warp code; v255 is vz (R130). -/
def vreg (t : Thread) (n : Nat) : Word := if n = 255 then 0 else t.v.getD n 0
/-- A register operand: a vector register zero-extended, or a lead register. -/
def rdV (lead : Bool) (t : Thread) (n : Byte) : Dword :=
  if lead then t.s.getD n.toNat 0 else (vreg t n.toNat).zeroExtend 64
/-- A 64-bit operand: a pair, or one lead register. -/
def rdD (lead : Bool) (t : Thread) (n : Byte) : Dword :=
  if lead then t.s.getD n.toNat 0
  else if n = 255 then 0 else (vreg t (n.toNat + 1)) ++ (vreg t n.toNat)
/-- A register operand of either width. -/
def rdW (lead wide : Bool) (t : Thread) (n : Byte) : Dword := if wide then rdD lead t n else rdV lead t n
/-- A predicate; bit 7 always reads 1. -/
def rdP (t : Thread) (n : Nat) : Bool := n == 7 || t.p.getLsbD n

/-- One write of a result. -/
inductive RegW where
  | v (n : Byte) (wide : Bool) (x : Dword)
  | p (n : Nat) (b : Bool)
deriving DecidableEq, Repr

/-- A vector register written; vz discards. -/
def setV (n : Nat) (x : Word) (t : Thread) : Thread :=
  if n = 255 then t else { t with v := modAt t.v n fun _ => x }
def setS (n : Nat) (x : Dword) (t : Thread) : Thread := { t with s := modAt t.s n fun _ => x }
/-- A predicate written; p7 discards. -/
def setP (n : Nat) (b : Bool) (t : Thread) : Thread :=
  if 7 ≤ n then t
  else { t with p := if b then t.p ||| (1#8 <<< n) else t.p &&& ~~~(1#8 <<< n) }

/-- One result written in a thread (R46, R130, R131). -/
def RegW.apply (lead : Bool) (w : RegW) (t : Thread) : Thread :=
  match w with
  | .p n b => setP n b t
  | .v n wide x =>
    if lead then setS n.toNat x t
    else if wide then
      (if n = 255 then t else setV (n.toNat + 1) (x.extractLsb' 32 32) (setV n.toNat (x.extractLsb' 0 32) t))
    else setV n.toNat (x.extractLsb' 0 32) t

/-- The registers that a write touches, as a pending destination names them. -/
def RegW.regs (lead : Bool) : RegW → List Nat
  | .p n _ => [256 + n]
  | .v n wide _ => if wide && !lead then [n.toNat, n.toNat + 1] else [n.toNat]

/-- Some registers hold the whole of the 8-byte unit of register `r`: a lead register, or a pair of a warp (R357). -/
def coversUnit (lead : Bool) (regs : List Nat) (r : Nat) : Bool :=
  if lead then regs.contains r else regs.contains (r / 2 * 2) && regs.contains (r / 2 * 2 + 1)
/-- Registers that an operand use names (R130, R131). -/
def useRegs (lead : Bool) (u : Use) : List Nat :=
  let f := u.field.toNat
  match u.kind with
  | .v => if !lead && f == 255 then [] else [f]
  | .d => if lead then [f] else if f == 255 then [] else [f, f + 1]
  | .grp n _ => (List.range n).map (f + ·)
  | .p => [256 + f]
  | .t => [1024 + f]
  | .a => [2048 + f]

/-! ### Integer operands and results -/

/-- The value of a register under a type (R45, R46). -/
def tyVal (ty : IntTy) (x : Dword) : Int :=
  let u := x.toNat % 2 ^ ty.width
  if ty.signed && 2 ^ (ty.width - 1) ≤ u then (u : Int) - 2 ^ ty.width else u
/-- The unsigned value of the low bits of a type. -/
def tyBits (ty : IntTy) (x : Dword) : Nat := x.toNat % 2 ^ ty.width
/-- An exact result wrapped to the type and extended to 64 bits (R46, R152, R155); a vector register keeps the low 32. -/
def tyRes (ty : IntTy) (x : Int) : Dword :=
  let m := (x % 2 ^ ty.width).toNat
  if ty.signed && 2 ^ (ty.width - 1) ≤ m then BitVec.ofInt 64 ((m : Int) - 2 ^ ty.width) else BitVec.ofNat 64 m
/-- A literal standing for an operand of a type (R128). -/
def litDword (ty : IntTy) (l : Word) : Dword := if ty == .i64 then l.signExtend 64 else l.zeroExtend 64
/-- Operand B of an integer instruction: its register or the literal. -/
def opB (lead : Bool) (o : IOp) (t : Thread) : Dword :=
  match o.lit with | some l => litDword o.ty l | none => rdW lead o.ty.wide t o.b
/-- A 32-bit operand B: register or literal. -/
def srcB32 (lead : Bool) (lit : Option Word) (b : Byte) (t : Thread) : Word :=
  match lit with | some l => l | none => (rdV lead t b).extractLsb' 0 32
def opA (lead : Bool) (o : IOp) (t : Thread) : Dword := rdW lead o.ty.wide t o.a
def opC (lead : Bool) (o : IOp) (t : Thread) : Dword := rdW lead o.ty.wide t o.c
/-- A result of the instruction's type. -/
def resI (o : IOp) (x : Int) : RegW := .v o.d o.ty.wide (tyRes o.ty x)

/-! ### Addresses -/

/-- A global address before its check (R132). -/
def addrGlobal (lead : Bool) (t : Thread) (a b : Byte) (lit : Option Word) : Dword :=
  let base := rdD lead t a
  let idx : Dword := if lead then 0 else (vreg t b.toNat).signExtend 64
  base + idx + ((lit.getD 0).signExtend 64)
/-- A scratchpad or constant offset (R132). -/
def addrLocal (lead : Bool) (t : Thread) (a b : Byte) (lit : Option Word) : Word :=
  let base : Word := (rdV lead t a).extractLsb' 0 32
  let idx : Word := if lead then 0 else vreg t b.toNat
  base + idx + lit.getD 0

/-! ### Guards -/

/-- Value of the guard of an M- or L-form in a thread (R126). -/
def hdrGuard (h : Hdr) (t : Thread) : Bool := Bool.xor (rdP t h.gp.toNat) h.gn
/-- Value of the guard of an S-form (R122). -/
def sGuard (g : Bool) (t : Thread) : Bool := !g || rdP t 0
/-- The lanes of a set whose guard is true. -/
def activeLanes (w : Warp) (m : Mask) (g : Thread → Bool) : Mask :=
  maskOf ((lanesOf m).filter fun l => g (threadOf w l))

end Sys2Proof.Machine
end

