-- ==== Sys2Proof/Machine/Xlate.lean ====
section
/-! DEFINITION. Translation: the walk of R74 to R77, the TLB of R80, and the homes of R78 and R79. -/

namespace Sys2Proof.Machine

/-- Why a translation ends without an address (Table 17-1), with the level of the entry being read, or of the leaf after
the walk (R343). -/
inductive XErr where
  | page (level : Nat)
  | perm (level : Nat)
  | malformed (level : Nat)
  | slicemap (level : Nat)
  | peer (level : Nat)
  | poison (level : Nat)
  /-- Poisoned bytes among the data that the command processor reads: no walk fails, and R355 lists no such consumption. -/
  | spoilt
deriving DecidableEq, Repr

/-- The outcome of a walk or translation. -/
inductive Xl (α : Type) where
  | ok (a : α)
  | err (e : XErr)
deriving Repr

/-- An IA of MTYPE 0 through the slice map (R77); a granule outside the slice is logged (R325). -/
def sliceMap (s : State) (vf c ia level : Nat) : State × Xl Nat :=
  let sl := sliceOf s vf
  let e := sl.slicemap.getD (ia / 2 ^ 30) 0
  let g := (e.extractLsb' 0 10).toNat
  if !e.getLsbD 15 || 768 ≤ g then (s, .err (.slicemap level))
  else if !sl.quads.contains (g / 48) then
    (lockLog s vf (BitVec.ofNat 32 (ia / 2 ^ 30 % 1024 + c * 2 ^ 16)) 3 (BitVec.ofNat 64 ia), .err (.slicemap level))
  else (s, .ok (g * 2 ^ 30 + ia % 2 ^ 30))

/-- Whether a valid entry is malformed at a level (R76); `leaf` when it maps a page. -/
def pteBad (level : Nat) (leaf : Bool) (e : Dword) : Bool :=
  let mt := (e.extractLsb' 4 2).toNat
  let addr := (e.extractLsb' 12 40).toNat * 4096
  e.extractLsb' 6 6 != 0 || e.getLsbD 63 || mt == 3 || (level == 0 && e.getLsbD 1) || (!leaf && mt != 0) ||
  (leaf && addr % 2 ^ (16 + 9 * (3 - level)) != 0) || (mt == 0 && 2 ^ 40 ≤ addr)

/-- Hits and misses of the two home caches by a read of a context (Table 12-3). -/
def countHome (s : State) (vf c pa : Nat) : State :=
  let (l2, msc) := match lineAt s (pa / 256) with | some l => (l.l2.isSome, l.msc) | none => (false, false)
  let s := count s vf c 2 (if l2 then 2 else 3) 1
  if l2 then s else count s vf c 2 (if msc then 4 else 5) 1
/-- A line of device memory reached at its home for a context, under a hint. -/
def reachHome (s : State) (vf c : Nat) (h : CacheHint) (pa : Nat) : State := touchLine (countHome s vf c pa) pa h

/-- One entry read by the walker at a home, 8 bytes (R76). -/
def readPte (s : State) (vf c pa : Nat) : State × Option Dword :=
  let s := reachHome s vf c .normal pa
  if devPoisoned s pa then (s, none) else (s, some (BitVec.ofNat 64 (leBytes (devRead s pa 8))))

/-- The walk below a table; `left` levels remain, the last of them level 3 (R74 to R77). -/
def walkFrom (vf c va : Nat) : Nat → Nat → State → State × Xl TlbEntry
  | 0, _, s => (s, .err (.malformed 3))
  | left + 1, tab, s =>
    let level := 3 - left
    let span := 2 ^ (16 + 9 * left)
    match sliceMap s vf c (tab + 8 * (va / span % 512)) level with
    | (s, .err e) => (s, .err e)
    | (s, .ok pa) =>
      match readPte s vf c pa with
      | (s, none) => (s, .err (.poison level))
      | (s, some e) =>
        let leaf := level == 3 || (e.getLsbD 1 && level != 0)
        let addr := (e.extractLsb' 12 40).toNat * 4096
        let mt := (e.extractLsb' 4 2).toNat
        if !e.getLsbD 0 then (s, .err (.page level))
        else if pteBad level leaf e then (s, .err (.malformed level))
        else if leaf then
          -- an entry covers the smaller of the page and 1 GiB (R80)
          let size := min span (2 ^ 30)
          let ia := addr + va % span / size * size
          let mk (pa : Nat) : TlbEntry :=
            { vf, ctx := c, va := va / size * size, size, ia, mtype := mt, pa, wr := e.getLsbD 2, exe := e.getLsbD 3 }
          if mt == 0 then
            match sliceMap s vf c (ia + va % size) level with
            | (s, .err e) => (s, .err e)
            | (s, .ok pa) => (s, .ok (mk (pa - va % size)))
          else (s, .ok (mk 0))
        else walkFrom vf c va left addr s

/-- Walkers of a slice that are at work: of 64 (R80). -/
def walkersBusy (s : State) (vf : Nat) : Nat := (sliceOf s vf).walks.countP (s.clk < ·)
/-- A walker taken for a time that no rule fixes (R80, log entry 81): one that is free, else the first that becomes free. -/
def takeWalker (s : State) (vf : Nat) : State :=
  let (n, s) := choose s
  setSlice s vf fun sl =>
    let busy := sl.walks.filter (s.clk < ·)
    let soon := busy.foldl min (busy.headD 0)
    { sl with walks := if busy.length < 64 then (s.clk + 1 + n) :: busy else (soon + 1 + n) :: busy.erase soon }
/-- The whole walk of a context's VA, counted (Table 12-3). -/
def walk (s : State) (vf c va : Nat) : State × Xl TlbEntry :=
  walkFrom vf c va 4 (ctxOf s vf c).desc.ptbase (count (takeWalker s vf) vf c 2 7 1)

/-- The TLB entry of a core that covers a VA. -/
def tlbHit (s : State) (core vf c va : Nat) : Option TlbEntry :=
  (coreOf s core).tlb.find? fun e => e.vf == vf && e.ctx == c && e.va ≤ va && va < e.va + e.size

/-- A TLB entry's number, by which its set is found (R80). -/
def TlbEntry.key (e : TlbEntry) : Nat := (e.vf * 64 + e.ctx) * 2 ^ 36 + e.va / 2 ^ 16
/-- A walk's outcome kept in a TLB of 512 sets of 8 ways. -/
def keepEntry (s : State) (core : Nat) (e : TlbEntry) : State :=
  setCore s core fun k => { k with tlb := insertWays 8 (fun x => sameSet 4 (Config.tlbSize / 8) x.key e.key) e k.tlb }
/-- A location of MTYPE 1 as one number: the VF's requests and the address (R79); the PF is function 0. -/
def hostPlace (vf ia : Nat) : Nat := vf * 2 ^ 52 + ia
/-- Level of the leaf that an entry comes from (R74, R80). -/
def TlbEntry.level (e : TlbEntry) : Nat := if e.size == 2 ^ 16 then 3 else if e.size == 2 ^ 25 then 2 else 1

/-- A peer that a slice can send to (R279, R280). -/
def peerReachable (sl : Slice) (p : Nat) : Bool :=
  let e := (sl.peers.getD p Peer.none).entry
  1 ≤ p && p ≤ 63 && e.getLsbD 14 &&
  sl.routes.any fun r => r.1.getLsbD 10 && r.1.extractLsb' 0 10 == e.extractLsb' 0 10 && r.2 != 0

/-- What an entry says of an access: rights (R76), then the home (R79). A peer's memory is named by the device and slice that the
place map gives it; one that no route reaches (R280) refuses as an invalid one does (log entry 104). -/
def placeOf (s : State) (vf : Nat) (acc : Access) (va : Nat) (e : TlbEntry) : Xl Place :=
  let ia := e.ia + (va - e.va)
  if (acc == .store && !e.wr) || (acc == .fetch && !e.exe) then .err (.perm e.level)
  else if e.mtype == 0 then .ok (.dev (e.pa + (va - e.va)))
  else if e.mtype == 1 then .ok (.host (hostPlace vf ia))
  else
    let p := ia / 2 ^ 46
    if !(peerReachable (sliceOf s vf) p) then .err (.peer e.level)
    else .ok (.peer (((sliceOf s vf).peers.getD p Peer.none).entry.extractLsb' 0 14).toNat (ia % 2 ^ 46))

/-- Translation by an agent of a core: its TLB, else a walk, which the TLB keeps where it ends without a fault (R80, R342). -/
def translate (s : State) (core vf c va : Nat) (acc : Access) : State × Xl Place :=
  match tlbHit s core vf c va with
  | some e => (s, placeOf s vf acc va e)
  | none =>
    match walk (count s vf c 2 6 1) vf c va with
    | (s, .err e) => (s, .err e)
    | (s, .ok e) =>
      match placeOf s vf acc va e with
      | .ok p => (keepEntry s core e, .ok p)
      | .err x => (s, .err x)

/-- Translation by the slice command processor and other agents outside the cores. -/
def translateCp (s : State) (vf c va : Nat) (acc : Access) : State × Xl Place :=
  match walk s vf c va with
  | (s, .err e) => (s, .err e)
  | (s, .ok e) => (s, placeOf s vf acc va e)

/-- How an access to memory outside the device fails: a completion with UR or CA, a refusal by the peer's slice map, or poisoned data
from the peer; whether it does is a free choice (R341, R356, log entry 82). -/
def outside (s : State) (p : Place) : State × Option XErr :=
  match p with
  | .host _ => let (k, s) := choose s; (s, if k % 2 == 1 then some (.perm 0) else none)
  | .peer _ _ => let (k, s) := choose s; (s, if k % 3 == 1 then some (.peer 0) else if k % 3 == 2 then some (.poison 0) else none)
  | _ => (s, none)
/-- One byte at its home: scratchpad by offset, device, host or peer memory. -/
def homeByte (s : State) (key : BitVec 84) : Place → Byte
  | .scratch p off => memRead (partOf s p).scratch (scratchPlace key (partOf s p).swin off)
  | .dev pa => memRead s.mem pa
  | .host ia => memRead s.hostMem ia
  | .peer p ia => memRead (((s.peerMem.find? (·.1 == p)).map (·.2)).getD []) ia

/-- Memory of a peer changed. -/
def setPeerMem (s : State) (p : Nat) (f : Memory → Memory) : State :=
  if s.peerMem.any (·.1 == p) then { s with peerMem := s.peerMem.map fun x => if x.1 == p then (p, f x.2) else x }
  else { s with peerMem := (p, f []) :: s.peerMem }

/-- The place `i` bytes on. -/
def Place.plus (p : Place) (i : Nat) : Place :=
  match p with
  | .scratch q off => .scratch q (off + i)
  | .dev pa => .dev (pa + i)
  | .host ia => .host (ia + i)
  | .peer q ia => .peer q (ia + i)

/-- Bytes written at their homes by one write (R354). -/
def homeWrite (s : State) (key : BitVec 84) (bs : List (Place × Byte)) : State :=
  let dev := bs.filterMap fun (p, b) => match p with | .dev pa => some (pa, b) | _ => none
  let s := if dev.isEmpty then s else devWrite s dev
  bs.foldl (fun s (p, b) => match p with
    | .scratch q off => setPart s q fun x => { x with scratch := memWrite x.scratch (scratchPlace key x.swin off) b }
    | .host ia => { s with hostMem := memWrite s.hostMem ia b }
    | .peer q ia => setPeerMem s q fun m => memWrite m ia b
    | .dev _ => s) s

/-- The home of a byte for such an agent: it follows that of the byte before it, `prev`, unless a page of 64 KiB begins (R74). -/
def cpPlace (vf c : Nat) (acc : Access) (prev : Option Place) (va : Nat) (s : State) : State × Xl Place :=
  match prev with
  | some p => if va % 65536 == 0 then translateCp s vf c va acc else (s, .ok (p.plus 1))
  | none => translateCp s vf c va acc
/-- A byte's place reached by such an agent, for a context: at the first byte of a line its home caches take part (R82), and what lies
outside the device may refuse it there (R341, R356); the bytes that pass the I/O die are counted (Table 12-3). A posted write to the
host has no completion that could refuse it. -/
def cpReach (vf c : Nat) (store : Bool) (prev : Option Place) (va : Nat) (pl : Place) (s : State) : State × Option XErr :=
  let first := prev.isNone || va % 256 == 0
  match pl with
  | .dev pa => (if first then reachHome s vf c .normal pa else s, none)
  | .host _ =>
    let s := countIo s vf (if store then 1 else 0) 1
    if first && !store then outside s pl else (s, none)
  | .peer _ _ =>
    let s := countIo s vf (if store then 2 else 3) 1
    if first then outside s pl else (s, none)
  | .scratch _ _ => (s, none)
/-- What the command processor makes of an answer: poisoned data fail a read, and are nothing that a write meets. -/
def cpAnswer (store : Bool) : Option XErr → Option XErr
  | some (.poison _) => if store then none else some .spoilt
  | x => x

/-- Bytes read by the command processor or another agent outside the cores, through a context's tables. -/
def cpReadFrom (vf c : Nat) : Option Place → Nat → Nat → State → State × Xl (List Byte)
  | _, _, 0, s => (s, .ok [])
  | prev, va, n + 1, s =>
    match cpPlace vf c .load prev va s with
    | (s, .err e) => (s, .err e)
    | (s, .ok pl) =>
      let (s, no) := cpReach vf c false prev va pl s
      let bad := match pl with | .dev pa => devPoisoned s pa | _ => false
      match if bad then some .spoilt else cpAnswer false no with
      | some e => (s, .err e)
      | none =>
      match cpReadFrom vf c (some pl) (va + 1) n s with
      | (s, .err e) => (s, .err e)
      | (s, .ok bs) => (s, .ok (homeByte s 0 pl :: bs))
def cpRead (vf c va n : Nat) (s : State) : State × Xl (List Byte) := cpReadFrom vf c none va n s

/-- The homes of bytes for a write by such an agent. -/
def cpPlacesFrom (vf c : Nat) : Option Place → Nat → List Byte → State → State × Xl (List (Place × Byte))
  | _, _, [], s => (s, .ok [])
  | prev, va, b :: bs, s =>
    match cpPlace vf c .store prev va s with
    | (s, .err e) => (s, .err e)
    | (s, .ok pl) =>
      let (s, no) := cpReach vf c true prev va pl s
      match cpAnswer true no with
      | some e => (s, .err e)
      | none =>
      match cpPlacesFrom vf c (some pl) (va + 1) bs s with
      | (s, .err e) => (s, .err e)
      | (s, .ok ps) => (s, .ok ((pl, b) :: ps))
def cpPlaces (vf c va : Nat) (bs : List Byte) (s : State) : State × Xl (List (Place × Byte)) := cpPlacesFrom vf c none va bs s

/-- Bytes written by such an agent: all or none. -/
def cpWrite (s : State) (vf c va : Nat) (bs : List Byte) : State × Xl Unit :=
  match cpPlaces vf c va bs s with
  | (s, .err e) => (s, .err e)
  | (s, .ok ps) => (homeWrite s 0 ps, .ok ())

end Sys2Proof.Machine
end

