-- ==== Sys2Proof/Machine/Flags.lean ====
section
/-! DEFINITION. ASTAT: its layout and writes (R68, R70), sticky flags, and the arithmetic log with its summary (R69,
R319, R320). -/

namespace Sys2Proof.Machine

/-- Bits of ASTAT that a SETSR writes: flags, ILLW and EN (Table 3-11). -/
def astatMask : Word := 0x3F7F
def astatWrite (x : Word) : Word := x &&& astatMask
/-- ILLW (R187). -/
def astatIllw : Word := 0x40
/-- Flags set, and never cleared, by an instruction (R68). -/
def raise (fl : Flags) (t : Thread) : Thread := { t with astat := t.astat ||| fl.zeroExtend 32 }
/-- Flags raised whose enable is set in the thread (R69). -/
def enabled (t : Thread) (fl : Flags) : Flags := fl &&& t.astat.extractLsb' 8 6

/-- One 32-byte record of the arithmetic log (Table 15-6). -/
def alogRecord (flag warp part : Nat) (cube : Bool) (b : Block) (pc : Addr) (lanes : Mask) : List Byte :=
  bytesOf 1 flag ++ bytesOf 1 warp ++ bytesOf 1 (part % 4 + if cube then 4 else 0) ++ [0] ++ bytesOf 4 b.bx ++
  bytesOf 8 pc.toNat ++ bytesOf 8 lanes.toNat ++ bytesOf 2 b.by' ++ bytesOf 2 b.bz ++ [0, 0, 0, 0]

/-- The flags of a warp's records reach ASUM (R320). -/
def asumUpdate (s : State) (w : Nat) : State :=
  let wp := warpOf s w
  let b := blockOf s wp.blk
  if wp.alog = 0 then s else
  let old := (ctxOf s b.vf b.ctx).asum
  let s := setCtx s b.vf b.ctx fun c => { c with asum := c.asum ||| wp.alog }
  let s := setWarp s w fun x => { x with alog := 0 }
  if old ||| wp.alog = old then s else signal s b.vf 3

end Sys2Proof.Machine
end

