-- ==== Sys2Proof/Machine/Ops.lean ====
section
/-! DEFINITION. Taking a trap and coming back from it: fault records (R313 to R316), the block halt (R317, R318,
R363), the park on a page fault (R343, R344), the resume of a halted block (R340), and a slice's ERROR (R378). -/

namespace Sys2Proof.Machine

/-! ### Records -/

/-- Fields of a fault record (Table 15-3) beside TIME, the block's coordinates and the agent's name. -/
structure RecIn where
  ty : Nat
  cause : Nat
  flags : Nat
  warp : Nat
  part : Nat
  sub : Nat
  skidi : Nat
  skidc : Nat
  pc : Nat
  mask : Mask
  sibs : Mask
  addr : Nat
  info : Nat
deriving DecidableEq, Repr

/-- The 64 bytes of a record (Table 15-3). -/
def recordBytes (r : RecIn) (bx by' bz time : Nat) : List Byte :=
  bytesOf 1 r.ty ++ bytesOf 1 r.cause ++ bytesOf 1 r.flags ++ bytesOf 1 r.warp ++ bytesOf 1 r.part ++ bytesOf 1 r.sub ++
  bytesOf 1 r.skidi ++ bytesOf 1 r.skidc ++ bytesOf 8 r.pc ++ bytesOf 4 bx ++ bytesOf 2 by' ++ bytesOf 2 bz ++
  bytesOf 8 r.mask.toNat ++ bytesOf 8 r.sibs.toNat ++ bytesOf 8 r.addr ++ bytesOf 8 time ++ bytesOf 8 r.info

/-- Place of records of one ck (R314): the two bands; within each warps by index, then leads, then engines. -/
def recKey (band cls idx : Nat) : Nat := band * 2 ^ 72 + cls * 2 ^ 68 + idx

/-- A unit of records formed in this ck; none is formed in a slice in ERROR (R378). -/
def formUnit (s : State) (vf c key : Nat) (unit : List (List Byte)) (owner : Owner) : State :=
  if (sliceOf s vf).ifst == .error then s
  else { s with formed := s.formed ++ [{ vf, ctx := c, key, unit, owner }] }

/-- A record of a warp, lead or engine of a block, which it reports unless it reports something smaller. -/
def formRec (s : State) (blk key : Nat) (r : RecIn) (owner : Owner) : State :=
  let b := blockOf s blk
  formUnit s b.vf b.ctx key [recordBytes r b.bx b.by' b.bz (timeNs s)] (if owner == .none then .block blk else owner)

/-- A LAUNCH record: cause, index of the packet, ADDR. -/
def launchRec (s : State) (vf c cause index addr : Nat) : State :=
  let r : RecIn := ⟨5, cause, 0, Config.launchWarp.toNat, 0, 0, 0, 0, 0, 0, 0, addr, index * 2 ^ 32⟩
  formUnit s vf c (recKey 1 2 0) [recordBytes r 0 0 0 (timeNs s)] .none

/-- How a warp or lead is named in records. -/
def recWarp (w : Warp) : Nat := if w.lead then 0xFF else w.idx
def recFlags (w : Warp) : Nat := if w.lead then 2 else 0
def warpKey (band : Nat) (s : State) (w : Warp) : Nat :=
  if w.lead then recKey band 1 (partOf s w.part).log else recKey band 0 w.idx

/-! ### The block halt -/

/-- Warps and leads of a block. -/
def blockWarps (b : Block) : List Nat :=
  (List.range b.nWarps).map (b.firstWarp + ·) ++ (List.range b.nParts).map (b.firstLead + ·)
/-- Those that are in a core and have unexited threads. -/
def liveWarps (s : State) (b : Block) : List Nat :=
  (blockWarps b).filter fun w => (warpOf s w).present && !(warpOf s w).retired

/-- The unexited bundle with the lowest PC. -/
def lowestBundle (w : Warp) : Option Bundle :=
  w.bundles.foldl (fun m b => match m with
    | none => some b
    | some x => if (pcOf w b).toNat < (pcOf w x).toNat then some b else m) none

/-- A bundle is parked on a page fault. -/
def bundleParked (b : Bundle) : Bool := match b.hold with | some (.page _ _ _) => true | _ => false
/-- A bundle of the warp is parked on a page fault. -/
def warpParked (w : Warp) : Bool := w.bundles.any bundleParked
/-- Issues of a warp since the halt of its block began, and the cks, up to its stop (Table 15-3). -/
def skidOf (s : State) (w : Warp) : Nat × Nat :=
  match (blockOf s w.blk).halt, w.halt with
  | some h, .skid n => (n, s.clk - h.ck)
  | some _, .stopped | some _, .trapped => w.skid
  | _, _ => (0, 0)

/-- A warp or lead of a halting block stops, forming its HALT record (R317); SKIDI is 0 where a bundle is parked. -/
def stopWarp (s : State) (w : Nat) : State :=
  let wp := warpOf s w
  let b := blockOf s wp.blk
  let t0 := match b.halt with | some h => h.ck | none => s.clk
  let skid := match wp.halt with | .skid n => if warpParked wp then 0 else n | _ => 0
  let issues := match wp.halt with | .skid n => n | _ => 0
  let s := setWarp s w fun x => { x with halt := .stopped, skid := (issues, min (s.clk - t0) 96) }
  match lowestBundle wp with
  | none => s
  | some bn =>
    formRec s wp.blk (warpKey 1 s wp)
      ⟨3, 0x1B, recFlags wp, recWarp wp, (partOf s wp.part).log, 0, skid, min (s.clk - t0) 96, (pcOf wp bn).toNat,
        bn.lanes, liveLanes wp &&& ~~~bn.lanes, 0, 0⟩ .none

/-- A warp stops in the ck of the halt itself: at a blocking point, meeting-held, or where a bundle is parked, and otherwise
where it has not issued in this ck and a free choice says so (R317, log entry 9). -/
def stopsAtOnce (w : Warp) (free : Nat) : Bool :=
  warpBlocked w || warpAllHeld w || warpParked w || (!w.issued && free % 2 == 1)
/-- A block's halt starts (R317, R363): windows end; some warps stop at once, and the others go on for a while. -/
def haltBlock (s : State) (blk : Nat) (force : Bool) : State :=
  let b := blockOf s blk
  match b.halt with
  | some h => if force && !h.force then setBlock s blk fun b => { b with halt := some { h with force := true } } else s
  | none =>
    let h : Halt := ⟨s.clk, force, []⟩
    let s := setBlock s blk fun b => { b with halt := some h }
    ((blockWarps b).filter fun w => !(warpOf s w).retired).foldl (fun s w =>
      let wp := warpOf s w
      let s := setWarp s w fun x => { x with window := none, skid := (0, 0) }
      if wp.halt != .running then s else
      let (k, s) := choose s
      if stopsAtOnce wp k then stopWarp s w else setWarp s w fun x => { x with halt := .skid 0 }) s

/-- The record of a trap, and the warp that issues nothing further from its ck (R317, R327). -/
def trapRecord (s : State) (w : Nat) (bn : Bundle) (pc : Addr) (cause sub addr info : Nat) (ty : Nat := 1) : State :=
  let wp := warpOf s w
  let (si, sc) := skidOf s wp
  let s := formRec s wp.blk (warpKey 0 s wp)
    ⟨ty, cause, recFlags wp, recWarp wp, (partOf s wp.part).log, sub, si, sc, pc.toNat, bn.lanes,
      liveLanes wp &&& ~~~bn.lanes, addr, info⟩ .none
  let s := setBundle s w bn.id fun b => { b with hold := none, holdLen := 0 }
  setWarp s w fun x => { x with halt := .trapped, skid := (si, sc), window := none }
/-- The halt of a block after the records of the bundles that trapped in this ck (R317). -/
def trapHalt (s : State) (blk : Nat) (trig : List (Nat × Nat)) : State :=
  setBlock (haltBlock s blk false) blk fun b => { b with halt := b.halt.map fun h => { h with trig := h.trig ++ trig } }

/-- TAKING A TRAP (R317, R327): a bundle or lead of a warp traps with a cause. Its record is formed with the PC of its
threads, which hold their state; its warp issues nothing further; the block halts. -/
def takeTrap (s : State) (w : Nat) (bn : Bundle) (pc : Addr) (cause sub addr info : Nat) (ty : Nat := 1) : State :=
  trapHalt (trapRecord s w bn pc cause sub addr info ty) (warpOf s w).blk [(w, bn.id)]

/-- The threads of a bundle that trapped at a TRAP pass over it (R340). -/
def passTrap (w : Warp) (b : Bundle) : Warp :=
  if b.hold.isNone && b.holdLen != 0 then
    let up (_ : Nat) (t : Thread) : Thread := { t with pc := t.pc + BitVec.ofNat 52 b.holdLen }
    settle { w with threads := mapLanes b.lanes up w.threads,
                    bundles := w.bundles.map fun x => if x.id == b.id then { x with holdLen := 0 } else x } b.id 0
  else w

/-- COMING BACK (R303, R340): a halted block that its debugger resumes issues again. A bundle that trapped repeats its
instruction from its PC, except that a TRAP is passed over. -/
def resumeHalt (s : State) (blk : Nat) : State :=
  let s := setBlock s blk fun b => { b with halt := none, stop := none, step := none, idle := 0 }
  (blockWarps (blockOf s blk)).foldl (fun s w => setWarp s w fun x =>
    x.bundles.foldl passTrap { x with halt := .running }) s

/-! ### Parking -/

/-- The same warp or lead of the other copy of a twin pair (R358). -/
def counterpart (s : State) (w : Nat) : Option Nat :=
  let wp := warpOf s w
  let b := blockOf s wp.blk
  match b.twin with
  | none => none
  | some (o, _) =>
    let k := blockOf s o
    some (if wp.lead then k.firstLead + (w - b.firstLead) else k.firstWarp + (w - b.firstWarp))
/-- The other copy of a twin pair is parked at a PC, with no replay under way (R346, R361). -/
def mateParked (s : State) (w : Nat) (pc : Addr) : Bool :=
  match counterpart s w with
  | some v => (warpOf s v).bundles.any fun b => (match b.hold with | some (.page _ replay _) => !replay | _ => false) && pcOf (warpOf s v) b == pc
  | none => false
/-- The bundles of the other copy that stand at the PC of a park are parked too (R361). -/
def parkMate (s : State) (w : Nat) (pc : Addr) (fetch : Bool) : State :=
  match counterpart s w with
  | some v => setWarp s v fun x =>
      let stands (b : Bundle) : Bool := pcOf x b == pc && b.hold.isNone && b.xi.isNone
      dropWindow { x with bundles := x.bundles.map fun b => if stands b then { b with hold := some (.page (2 ^ 32) false fetch), holdLen := 0, holdAct := 0 } else b }
        fun id => !(x.bundles.any fun b => b.id == id && stands b)
  | none => s
/-- An access or fetch parks on V = 0 (R343, R344, R401): `sub` is 5 for an access and 0 for fetch. Of twins both park, and one record
is formed, which names the primary (R361, log entry 45). -/
def park (s : State) (w : Nat) (bn : Bundle) (pc : Addr) (sub addr lane step level : Nat) (store : Bool) : State :=
  let wp := warpOf s w
  let replayed := match bn.hold with | some (.page _ _ fetch) => if fetch == (sub == 0) then 1 else 0 | _ => 0
  let (si, sc) := skidOf s wp
  let s := setBundle s w bn.id fun x => { x with hold := some (.page (2 ^ 32) false (sub == 0)), holdLen := 0, holdAct := 0 }
  let s := setWarp s w fun x => dropWindow x fun id => id != bn.id
  if mateParked s w pc then s else
    formRec (parkMate s w pc (sub == 0)) wp.blk (warpKey 0 s wp)
      ⟨2, 0x12, recFlags wp + replayed, recWarp wp, (partOf s wp.part).log, sub, si, sc, pc.toNat, bn.lanes,
        liveLanes wp &&& ~~~bn.lanes, addr, lane + step * 256 + level * 2 ^ 16 + (if store then 2 ^ 18 else 0)⟩
      (.bundle w bn.id)

/-! ### A slice's ERROR -/

/-- A slice enters ERROR (R377, R378): the first cause is kept, no further record is formed, every block halts to be
discarded, and stores and atomics that are not at their homes are dropped; engines start nothing more. -/
def enterError (s : State) (vf c cause addr : Nat) : State :=
  let sl := sliceOf s vf
  if sl.ifst == .error || sl.resetting.isSome then s else
  let s := setSlice s vf fun sl =>
    { sl with ifst := .error, slerr := BitVec.ofNat 64 (1 + 4 * c + 256 * cause), erraddr := BitVec.ofNat 64 addr,
              fabOut := [], trace := sl.trace.map fun t => { t with waiting := [] }, ctxs := sl.ctxs.map fun c => { c with fqPend := [] } }
  let mine (b : Nat) : Bool := (blockOf s b).vf == vf
  let s := { s with flights := s.flights.filter fun f => f.vf != vf || f.op.isSome,
                    warps := s.warps.map fun w => if mine w.blk then { w with queue := [], held := [] } else w }
  let s := (List.range s.blocks.length).foldl (fun s b =>
    if mine b && (blockOf s b).status == .resident then haltBlock s b true else s) s
  signal (signal s vf 5) 0 3

/-- A thread consumes poison (R355): its TRAP record is the slice's last. -/
def poisonTrap (s : State) (w : Nat) (bn : Bundle) (pc : Addr) (addr info why : Nat) : State :=
  let b := blockOf s (warpOf s w).blk
  enterError (trapRecord s w bn pc 0x18 0 addr info) b.vf b.ctx why addr

/-- A walk of the command processor that reads a poisoned entry puts the slice into ERROR (R355, R376); other failures of its
accesses are its own. -/
def walkPoison (s : State) (vf c va : Nat) : XErr → State
  | .poison _ => enterError s vf c 2 va
  | _ => s

/-! ### The arithmetic log -/

/-- A record appended to the context's log; a write that cannot be translated drops it (R319), and none is formed for a slice in ERROR
(R378). -/
def alogAppend (s : State) (vf c : Nat) (r : List Byte) : State :=
  let cx := ctxOf s vf c
  let slots := cx.desc.alogsize / 32
  if slots == 0 || (sliceOf s vf).ifst == .error then s else
  let va := cx.desc.alog + 32 * (cx.alcnt.toNat % slots)
  match cpWrite s vf c va r with
  | (s, .ok _) => setCtx s vf c fun cx => { cx with alcnt := cx.alcnt + 1 }
  | (s, .err e) => walkPoison s vf c va e

/-- The enabled flags of one instruction, lane by lane, logged once per flag (R69). DESIGN CHOICE (log entry 93): the records of several
flags are appended in ascending order of the flags' bits. -/
def logArith (s : State) (w : Nat) (pc : Addr) (cube : Bool) (fs : List (Nat × Flags)) : State :=
  let wp := warpOf s w
  let b := blockOf s wp.blk
  let en := fs.map fun (l, f) => (l, enabled (threadOf wp l) f)
  (List.range 6).foldl (fun s i =>
    let ls := (en.filter fun x => x.2.getLsbD i).map (·.1)
    if ls.isEmpty then s else
    let s := setWarp s w fun x => { x with alog := x.alog ||| (1#6 <<< i) }
    alogAppend s b.vf b.ctx (alogRecord i (if wp.lead then 0xFF else wp.idx) (partOf s wp.part).log cube b pc (maskOf ls))) s

/-! ### What a failed translation does to an issue -/

/-- Cause codes of Table 17-1. -/
def XErr.cause : XErr → Nat
  | .page _ => 0x12 | .perm _ => 0x13 | .malformed _ => 0x14 | .slicemap _ => 0x15 | .peer _ => 0x16 | .poison _ => 0x18 | .spoilt => 0x18
/-- INFO [18:16] of a record of a failed translation (R343). -/
def XErr.info (store : Bool) : XErr → Nat
  | .page n | .perm n | .malformed n | .slicemap n | .peer n | .poison n => n * 2 ^ 16 + if store then 2 ^ 18 else 0
  | .spoilt => 0

/-- An access of a bundle whose translation failed: it parks or traps (R341, R344, R355); `sub` as for `park`. -/
def xlateFault (s : State) (w : Nat) (bn : Bundle) (pc : Addr) (sub addr lane step : Nat) (store : Bool) : XErr → State
  | .page level => park s w bn pc sub addr lane step level store
  | .poison n => poisonTrap s w bn pc addr (lane + step * 256 + (XErr.poison n).info store) 2
  | e => takeTrap s w bn pc e.cause sub addr (lane + step * 256 + e.info store)

end Sys2Proof.Machine
end

