-- ==== Sys2Proof/Machine/Issue.lean ====
section
/-! DEFINITION. What every issue does around the effect of its instruction: who issues, the guard (R126), the counts
that an issue moves (R26, R27, R254, R256, R304, R366), pending destinations (R256), and the step of PC. -/

namespace Sys2Proof.Machine

/-- One issue: the warp or lead, its bundle, the instruction's length, and the threads whose guard is true. -/
structure Iss where
  w : Nat
  wp : Warp
  bn : Bundle
  len : Nat
  act : Mask
deriving DecidableEq, Repr

def Iss.lead (i : Iss) : Bool := i.wp.lead
def Iss.pc (i : Iss) : Addr := pcOf i.wp i.bn
def Iss.block (s : State) (i : Iss) : Block := blockOf s i.wp.blk
def Iss.launch (s : State) (i : Iss) : Launch := launchOf s (blockOf s i.wp.blk).launch
def Iss.part (s : State) (i : Iss) : Part := partOf s i.wp.part
def Iss.key (s : State) (i : Iss) : BitVec 84 := (ctxOf s (i.block s).vf (i.block s).ctx).bankKey

/-- The issue that the step has chosen, with its active threads. -/
def issuer (s : State) (g : Thread → Bool) : Option Iss :=
  match s.cur with
  | none => none
  | some c =>
    let wp := warpOf s c.warp
    match bundleOf wp c.bundle with
    | none => none
    | some bn => some { w := c.warp, wp, bn, len := c.len, act := activeLanes wp bn.lanes g }

/-- Instructions of some threads counted against the windows of what is pending in them (R256). -/
def bumpPend (m : Mask) (ps : List Pend) : List Pend :=
  ps.flatMap fun p =>
    let x := p.lanes &&& m
    let y := p.lanes &&& ~~~m
    (if x = 0 then [] else [{ p with lanes := x, after := p.after + 1 }]) ++ (if y = 0 then [] else [{ p with lanes := y }])

/-- Retired counts of the groups of a warp (R304). -/
def retire (s : State) (blk warp : Nat) (lead : Bool) (n : Nat) : State :=
  if lead then s else
  let up (g : Group) : Group := if g.members.getLsbD warp then { g with retired := g.retired + BitVec.ofNat 64 n } else g
  setBlock s blk fun b => { b with groups := b.groups.map up }

/-- What an issue does to its bundle; `run` is false in a halting block, whose counts stand still (R363). -/
def issuedBundle (id : Nat) (yh run : Bool) (b : Bundle) : Bundle :=
  if b.id == id then
    { b with wait := if run then 0 else b.wait, starve := if run then 0 else b.starve, starved := !run && b.starved, skipBp := false, fenced := 0, behind := [], hold := none, yielded := b.yielded || yh }
  else { b with yielded := false }

/-- A window after an issue of its bundle (R26). -/
def issuedWindow (id : Nat) (yh : Bool) : Option (Nat × Nat) → Option (Nat × Nat)
  | some (b, n) => if b != id then some (b, n) else if yh || n ≤ 1 then none else some (b, n - 1)
  | none => none

/-- What an issue does to its warp. -/
def issuedWarp (id : Nat) (lanes : Mask) (yh run late : Bool) (w : Warp) : Warp :=
  { w with bundles := w.bundles.map (issuedBundle id yh run), window := issuedWindow id yh w.window,
           pend := bumpPend lanes w.pend, issued := true,
           issuePc := match bundleOf w id with | some b => pcOf w b | none => w.issuePc,
           halt := match w.halt with | .skid n => .skid (if late then n + 1 else n) | h => h }

/-- The counts that an issue moves; a FENCESC that a merged bundle issues anew is counted once for each thread. -/
def noteIssue (s : State) (i : Iss) (yh : Bool) : State :=
  let b := i.block s
  let late := match b.halt with | some h => h.ck < s.clk | none => false
  let s := setWarp s i.w (issuedWarp i.bn.id i.bn.lanes yh b.halt.isNone late)
  let s := setBlock s i.wp.blk fun b =>
    { b with issued := true, idle := 0, idleRec := false,
             step := b.step.map fun st => { st with left := st.left.filter (· != (i.w, i.bn.id)) } }
  let s := retire s i.wp.blk i.wp.idx i.lead (countBits (i.bn.lanes &&& ~~~i.bn.fenced))
  let s := count s b.vf b.ctx 1 14 1
  if i.lead then setCore s i.wp.core fun c => { c with leadSlot := some i.wp.slot } else s

/-- Threads of a bundle moved to new PCs, and what follows for the warp's bundles (R22). -/
def movePc (s : State) (w id : Nat) (lanes taken : Mask) (next : Nat → Thread → Addr) : State :=
  setWarp s w fun x => settle { x with threads := mapLanes lanes (fun l t => { t with pc := next l t }) x.threads } id taken

/-- The bundle goes on at the next instruction in sequence. -/
def advance (s : State) (i : Iss) : State :=
  movePc s i.w i.bn.id i.bn.lanes 0 fun _ t => t.pc + BitVec.ofNat 52 i.len

/-- An issue with the effect of its instruction already applied: counts, then PC. -/
def finish (s : State) (i : Iss) (yh : Bool) : State := advance (noteIssue s i yh) i

/-- The frame of every instruction: without a thread whose guard is true it takes its slot and nothing more (R126). -/
def issueWith (s : State) (g : Thread → Bool) (yh : Bool) (body : Iss → State) : Host.Outcome State Fault Refusal :=
  match issuer s g with
  | none => .fault .noIssuer
  | some i => .next (if i.act = 0 then finish s i yh else body i)

def issueH (s : State) (h : Hdr) (body : Iss → State) : Host.Outcome State Fault Refusal :=
  issueWith s (hdrGuard h) h.yh body

/-- A destination still to be written (R256). -/
def addPend (s : State) (i : Iss) (regs : List Nat) (la : Nat) (due : Option Nat) (load : Option Nat) : State :=
  setWarp s i.w fun x => { x with pend := x.pend ++ [{ lanes := i.act, regs, la, after := 0, due, load }] }

/-- What an instruction computes in one lane: registers written, and flags. -/
abbrev LaneRes := List RegW × Flags

/-- Results written in the active threads, each from the threads as they were (R151). -/
def writeLanes (s : State) (i : Iss) (f : Nat → Thread → LaneRes) : State :=
  setThreads s i.w i.act fun l t =>
    let r := f l t
    raise r.2 (r.1.foldl (fun t w => w.apply i.lead t) t)

/-- A computation (R151): results in every active lane, enabled flags logged (R69), the destination pending for its
latency (R256), then the next instruction. -/
def computeBody (s : State) (i : Iss) (yh : Bool) (la lat : Nat) (dst : List Nat) (f : Nat → Thread → LaneRes) : State :=
  let fs := (lanesOf i.act).map fun l => (l, (f l (threadOf i.wp l)).2)
  let s1 := writeLanes s i f
  let s2 := if fs.all (fun x => enabled (threadOf i.wp x.1) x.2 == 0) then s1 else logArith s1 i.w i.pc false fs
  addPend (finish s2 i yh) i dst la (some (s.clk + lat)) none

/-- The meaning of a computation whose lanes do not read one another. -/
def compute (s : State) (h : Hdr) (lat : Nat) (dst : Bool → List Nat) (f : Bool → Thread → LaneRes) :
    Host.Outcome State Fault Refusal :=
  issueH s h fun i => computeBody s i h.yh h.la.toNat lat (dst i.lead) fun _ t => f i.lead t

/-- A bundle waits at its instruction (Table 2-7, R203); a window ends at a blocking point (R26). -/
def waitAt (s : State) (i : Iss) (yh : Bool) (x : Wait) : State :=
  let s := noteIssue s i yh
  let s := setBundle s i.w i.bn.id fun b => { b with hold := some x, holdLen := i.len, holdAct := i.act }
  setWarp s i.w fun w => dropWindow w fun id => id != i.bn.id || !x.blocking

/-- Destination registers of one operand field. -/
def dstV (d : Byte) (_ : Bool) : List Nat := if d = 255 then [] else [d.toNat]
def dstW (wide : Bool) (d : Byte) (lead : Bool) : List Nat :=
  if lead then [d.toNat] else if d = 255 then [] else if wide then [d.toNat, d.toNat + 1] else [d.toNat]
def dstP (d : Byte) (_ : Bool) : List Nat := [256 + d.toNat]

end Sys2Proof.Machine
end

