-- ==== Sys2Proof/Machine/Waits.lean ====
section
/-! DEFINITION. What ends a wait: joins and the L1 invalidation (R105, R118), cube ownership (R213 to R215), the
decision queue (R30, R331), sync words (R93 to R95), completion words (R235), and the retirement of a warp (R21). -/

namespace Sys2Proof.Machine

/-- Every L1 sector of a context in a core invalidated (R105). -/
def invalidateL1 (s : State) (core vf c : Nat) : State :=
  setCore s core fun k => { k with l1 := k.l1.filter fun x => !(x.vf == vf && x.ctx == c) }

/-- A wait of a bundle ends: it goes on after its instruction (Table 2-7). -/
def endWait (s : State) (w id : Nat) : State :=
  match bundleOf (warpOf s w) id with
  | none => s
  | some b =>
    let s := setBundle s w id fun x => { x with hold := none, holdLen := 0, holdAct := 0 }
    -- a park moves nothing, so that nothing merges (R22)
    if b.holdLen = 0 then s else movePc s w id b.lanes 0 fun _ t => t.pc + BitVec.ofNat 52 b.holdLen

/-- The join at the end of a wait (R118). -/
def joinL1 (s : State) (w : Nat) : State :=
  let wp := warpOf s w
  let b := blockOf s wp.blk
  invalidateL1 s wp.core b.vf b.ctx

/-- A warp's block runs or is in a step: neither halted nor stopped, nor being saved (R363, R392). -/
def mayEnd (s : State) (w : Nat) : Bool :=
  let wp := warpOf s w
  let b := blockOf s wp.blk
  wp.present && !wp.retired && wp.halt == .running && b.halt.isNone && b.stop.isNone && b.status == .resident &&
  (ctxOf s b.vf b.ctx).run != .stopping
/-- Waits are re-evaluated only in warps that may issue; in a step, as it begins (R363, R392, R394). -/
def mayRun (s : State) (w : Nat) : Bool := mayEnd s w && (blockOf s (warpOf s w).blk).step.isNone

/-! ### Sync words -/

/-- A field of a sync word of a part, read at its bank. -/
def syncByte (s : State) (key : BitVec 84) (p off : Nat) : Byte :=
  memRead (partOf s p).scratch (scratchPlace key (partOf s p).swin off)
def syncWord (s : State) (key : BitVec 84) (p off : Nat) : Nat :=
  leBytes ((List.range 4).map fun i => syncByte s key p (off + i))
/-- GEN of the sync word at an offset. -/
def syncGen (s : State) (key : BitVec 84) (p off : Nat) : Word := BitVec.ofNat 32 (syncWord s key p (off + 8))
/-- A 32-bit field of a sync word written. -/
def setSyncWord (s : State) (key : BitVec 84) (p off x : Nat) : State :=
  homeWrite s key ((bytesOf 4 x).mapIdx fun i b => (.scratch p (off + i), b))

/-- The completion check of R94: repeated while the word stays armed, so that REARM takes every whole target out of COUNT. -/
def syncCheck (s : State) (key : BitVec 84) (p off : Nat) : State :=
  let target := syncWord s key p off
  let n := syncWord s key p (off + 4)
  let st := syncWord s key p (off + 12)
  if st % 2 == 1 && 1 ≤ target && target ≤ n then
    let rearm := st / 2 % 2
    let k := if rearm == 1 then n / target else 1
    let s := setSyncWord s key p (off + 4) (n - k * target)
    let s := setSyncWord s key p (off + 8) ((syncWord s key p (off + 8) + k) % 2 ^ 32)
    let s := setSyncWord s key p (off + 12) (st / 2 * 2 + rearm)
    let b := blockOf s (partOf s p).blk
    count s b.vf b.ctx 3 7 k
  else s

/-- SWARM's update (R94). -/
def syncArm (s : State) (key : BitVec 84) (p off : Nat) (target : Nat) (rearm : Bool) : State :=
  let st := syncWord s key p (off + 12)
  if target == 0 then setSyncWord s key p (off + 12) (st / 2 * 2)
  else
    let s := setSyncWord s key p off target
    syncCheck (setSyncWord s key p (off + 12) (st / 4 * 4 + 1 + if rearm then 2 else 0)) key p off

/-- An arrival of bytes (R94). -/
def syncArrive (s : State) (key : BitVec 84) (p off n : Nat) : State :=
  let st := syncWord s key p (off + 12)
  let s := setSyncWord s key p (off + 4) (min (syncWord s key p (off + 4) + n) (2 ^ 32 - 1))
  let s := if st % 2 == 0 then setSyncWord s key p (off + 12) (st - (if st.testBit 2 then 4 else 0) + 4) else s
  syncCheck s key p off

/-! ### Cube ownership -/

/-- The waiter served next: the head of the highest level, passing over blocks that are halted or stopped (R213, R363, R392). DESIGN
CHOICE (log entry 99): a block in the middle of a STEP or BSTEP is not passed over, be its waiter one that the step permits or not. -/
def nextOwner (s : State) (core : Nat) : Option CubeWaiter :=
  let q := (coreOf s core).cubeq.filter fun x => mayEnd s x.warp
  [3, 2, 1, 0].findSome? fun p => q.find? (·.level == p)
/-- Bundles of a warp that wait in CACQ go on (R214). -/
def endCacq (s : State) (w : Nat) : State :=
  (warpOf s w).bundles.foldl (fun s b => if b.hold == some .cacq then endWait s w b.id else s) s
/-- Ownership passes to the waiter served next, or the cube is free; it can be used from a ck on (R213 to R215). -/
def passCube (s : State) (core from' : Nat) : State :=
  match nextOwner s core with
  | none => setCore s core fun c => { c with owner := none, ownerFrom := from' }
  | some x =>
    setCore (setWarp s x.warp fun w => { w with owned := none }) core fun c =>
      { c with owner := some x.warp, ownerLevel := x.level, ownerFrom := from', cubeq := c.cubeq.filter (·.warp != x.warp) }
/-- Ownership given up: it passes on at once, and the next owner can use it 2 ck later (R213, R214). -/
def giveUpCube (s : State) (core : Nat) : State := passCube s core (s.clk + 2)
/-- An owner whose grant has become usable goes on from its CACQ (R214). DESIGN CHOICE (log entry 99): the rule lets waiting bundles
complete at the grant, and the grant be used 2 ck after the cube was given up; both fall in the later ck here. -/
def useCube (s : State) (core : Nat) : State :=
  let c := coreOf s core
  match c.owner with
  | some w => if c.ownerFrom ≤ s.clk && mayEnd s w then endCacq s w else s
  | none => s
/-- A free cube is granted to a waiter; a grant becomes usable (R214, R215). -/
def grantCube (s : State) (core : Nat) : State :=
  let c := coreOf s core
  useCube (if c.owner.isNone then passCube s core c.ownerFrom else s) core

/-! ### Decision queue -/

/-- No entry. -/
def DqEntry.nil : DqEntry := ⟨none, 0, [], false⟩
/-- A DqEntry that a warp may take: ANY or its own tag, and its release has taken effect. -/
def dqMatch (s : State) (p : Part) (warp : Nat) (e : DqEntry) : Bool :=
  (e.tag.isNone || e.tag == some warp) && !((warpOf s p.lead).queue.any fun q => e.needs.contains q.id)
/-- The index of the oldest entry for a warp. -/
def dqFind (s : State) (part warp : Nat) : Option Nat :=
  let p := partOf s part
  p.dq.findIdx? (dqMatch s p warp)
/-- An entry whose value a bundle takes into pair D of its active threads; D is written 8 ck later (R30, R404). -/
def dqTakeInto (s : State) (w : Nat) (lanes : Mask) (d : Byte) (la part idx : Nat) : State :=
  let e := (partOf s part).dq.getD idx DqEntry.nil
  let s := setPart s part fun p => { p with dq := p.dq.eraseIdx idx }
  let s := setThreads s w lanes fun _ t => RegW.apply false (.v d true e.val) t
  setWarp s w fun x => { x with pend := x.pend ++ [⟨lanes, dstW true d false, la, 0, some (s.clk + 8), none⟩] }
/-- The queue of a part has room for an entry. -/
def dqRoom (s : State) (part : Nat) : Bool := (partOf s part).dq.length < Config.dqSize
/-- An entry posted: one whose tagged warp has retired is discarded (R30). -/
def dqAppend (s : State) (part : Nat) (e : DqEntry) : State :=
  let b := blockOf s (partOf s part).blk
  let gone : Bool := match e.tag with | some t => (warpOf s (b.firstWarp + t)).retired | none => false
  if gone then s else setPart s part fun p => { p with dq := p.dq ++ [e] }

/-! ### Completion words, barriers, sleep -/

/-- The chain of a context on a logical core (R235). -/
def chainOf (c : Ctx) (lcore : Nat) (eng : Engine) : Chain :=
  (c.chains.find? fun x => x.lcore == lcore && x.eng == eng).getD ⟨lcore, eng, 0, 0, 0, 0, [], []⟩
def setChain (s : State) (vf c lcore : Nat) (eng : Engine) (f : Chain → Chain) : State :=
  setCtx s vf c fun cx =>
    if cx.chains.any fun x => x.lcore == lcore && x.eng == eng then
      { cx with chains := cx.chains.map fun x => if x.lcore == lcore && x.eng == eng then f x else x }
    else { cx with chains := f (chainOf cx lcore eng) :: cx.chains }
/-- Logical number of a physical core in a slice (R96). -/
def logicalCore (s : State) (vf core : Nat) : Nat := ((sliceOf s vf).lcores.findIdx? (· == core)).getD 0
/-- Phase counter of a group of a block. -/
def groupOf (b : Block) (g : Nat) : Option Group := b.groups.find? (·.g == g)
def phaseOf (b : Block) (g : Nat) : Word := ((groupOf b g).map (·.phase)).getD 0

/-- Whether a wait's condition holds now. -/
def waitOver (s : State) (w : Nat) : Wait → Bool
  | .barrier g phases => !(phases.contains (phaseOf (blockOf s (warpOf s w).blk) g))
  | .sync words =>
    let wp := warpOf s w
    let b := blockOf s wp.blk
    let key := (ctxOf s b.vf b.ctx).bankKey
    words.all fun (off, g) => syncGen s key wp.part off != g
  | .seq eng lcore num =>
    let b := blockOf s (warpOf s w).blk
    num ≤ (chainOf (ctxOf s b.vf b.ctx) lcore eng).comp
  | .sleep left => left == 0
  | .dqEmpty _ _ _ => (dqFind s (warpOf s w).part (warpOf s w).idx).isSome
  | .dqFull _ => dqRoom s (warpOf s w).part
  | _ => false

/-- A bundle whose wait is over goes on, joined where its wait joins (R112, R118): a take has its entry, a lead posts. A
poisoned entry is consumed by its taker (R357). -/
def wakeBundle (s : State) (w : Nat) (b : Bundle) : State :=
  match b.hold with
  | some h =>
    if !(waitOver s w h) then s else
    match h with
    | .sync _ | .seq _ _ _ => joinL1 (endWait s w b.id) w
    | .dqEmpty d la _ =>
      let wp := warpOf s w
      let idx := (dqFind s wp.part wp.idx).getD 0
      if ((partOf s wp.part).dq.getD idx DqEntry.nil).bad then poisonTrap s w b (pcOf wp b) 0 (lowest b.holdAct) 1
      else endWait (dqTakeInto s w b.holdAct d la wp.part idx) w b.id
    | .dqFull e => endWait (dqAppend s (warpOf s w).part e) w b.id
    | _ => endWait s w b.id
  | none => s
/-- A wait on a decision queue, which is served in the order of its part. -/
def dqWait (b : Bundle) : Bool := match b.hold with | some (.dqEmpty _ _ _) | some (.dqFull _) => true | _ => false
/-- Every other wait of a warp looked at. -/
def wakeWarp (s : State) (w : Nat) : State :=
  if mayRun s w then (warpOf s w).bundles.foldl (fun s b => if dqWait b then s else wakeBundle s w b) s else s

/-! ### Serving the decision queue -/

/-- Bundles of a part that wait for an entry, the one that issued first coming first. -/
def dqWaiters (s : State) (part : Nat) : List (Nat × Bundle × Nat) :=
  let p := partOf s part
  let ws := (blockWarps (blockOf s p.blk)).filter fun w => (warpOf s w).part == part && mayRun s w
  let all := ws.flatMap fun w => (warpOf s w).bundles.filterMap fun b =>
    match b.hold with | some (.dqEmpty _ _ o) => some (w, b, o) | _ => none
  sortBy (fun a b => a.2.2 ≤ b.2.2) all
/-- The lead of a part has exited, or there is none. -/
def leadGone (s : State) (part : Nat) : Bool := (warpOf s (partOf s part).lead).retired
/-- No entry remains that a warp could take (R331). -/
def dqDead (s : State) (part w : Nat) : Bool :=
  leadGone s part && !((partOf s part).dq.any fun e => e.tag.isNone || e.tag == some (warpOf s w).idx)
/-- Takers whose lead has gone fault, each warp with the bundle that issued first, and the block halts (R317, R331). -/
def dqFault (s : State) (part : Nat) : State :=
  let dead := (dqWaiters s part).filter fun x => dqDead s part x.1
  let first := dead.filter fun x => (dead.find? fun y => y.1 == x.1).map (·.2.2) == some x.2.2
  if first.isEmpty then s else
  let s := first.foldl (fun s x =>
    trapRecord s x.1 x.2.1 (pcOf (warpOf s x.1) x.2.1) 0x10 0 0 (lowest x.2.1.holdAct)) s
  trapHalt s (partOf s part).blk (first.map fun x => (x.1, x.2.1.id))
/-- Waiting takers have what there is; a lead that waits posts (R30). -/
def dqServe (s : State) (part : Nat) : State :=
  let serve (s : State) : State := (dqWaiters s part).foldl (fun s x => wakeBundle s x.1 x.2.1) s
  let s := serve s
  let l := (partOf s part).lead
  let s := match (warpOf s l).bundles.head? with
    | some b => if dqWait b && mayRun s l then serve (wakeBundle s l b) else s
    | none => s
  dqFault s part
/-- Every wait of a block's warps and leads. -/
def wakeBlock (s : State) (blk : Nat) : State :=
  let b := blockOf s blk
  (List.range b.nParts).foldl (fun s p => dqServe s (b.firstPart + p)) ((liveWarps s b).foldl wakeWarp s)
/-- A wait on sync words. -/
def syncWait (b : Bundle) : Bool := match b.hold with | some (.sync _) => true | _ => false
/-- Waits on the sync words of a part, after a change of its scratchpad (R206). -/
def wakeSync (s : State) (p : Nat) : State :=
  ((blockWarps (blockOf s (partOf s p).blk)).filter fun w => (warpOf s w).part == p && (warpOf s w).bundles.any syncWait).foldl wakeWarp s
/-- Dusk parks of a warp that are no longer asked for end, as the next ck begins (R261, R370). -/
def endDusk (s : State) (w : Nat) : State :=
  let b := blockOf s (warpOf s w).blk
  if !((warpOf s w).bundles.any fun x => x.hold == some .dusk) || (ctxOf s b.vf b.ctx).dusk || !(mayRun s w) then s else
  (warpOf s w).bundles.foldl (fun s x => if x.hold == some .dusk then endWait s w x.id else s) s
/-- Every wait of the machine. -/
def wakeAll (s : State) : State :=
  (List.range s.blocks.length).foldl (fun s b => if (blockOf s b).status == .resident then wakeBlock s b else s) s

/-! ### Retirement -/

/-- The last thread of a warp, or the lead, has exited (R21, R30, R32, R215, R320). -/
def retireWarp (s : State) (w : Nat) : State :=
  let wp := warpOf s w
  let s := asumUpdate s w
  let s := setWarp s w fun x => { x with retired := true, bundles := [], window := none }
  if wp.lead then dqServe s wp.part
  else
    let s := setPart s wp.part fun p => { p with dq := p.dq.filter (·.tag != some wp.idx) }
    let s := setCore s wp.core fun c => { c with cubeq := c.cubeq.filter (·.warp != w) }
    let s := if (coreOf s wp.core).owner == some w then giveUpCube s wp.core else s
    dqServe s wp.part

end Sys2Proof.Machine
end

