-- ==== Sys2Proof/Machine/Ready.lean ====
section
/-! DEFINITION. Lookahead windows and hazards (R256). -/

namespace Sys2Proof.Machine

/-- The registers that an instruction reads or writes, its guard, the predicates of PMOV (R161) and status registers among them
(R126, R256). -/
def touchedRegs (lead : Bool) (i : Instr) : List Nat :=
  let g := match i.hdr? with
    | some h => if h.gp == 7 then [] else [256 + h.gp.toNat]
    | none => match i.sGuard? with | some true => [256] | _ => []
  let sr := match i with
    | .getsr _ _ n => [512 + n.toNat] | .setsr _ n _ => [512 + n.toNat]
    | .pmov _ _ => (List.range 7).map (256 + ·)
    | _ => []
  g ++ sr ++ (i.uses lead).flatMap (useRegs lead)
/-- A destination that is not yet written. -/
def pendOpen (s : State) (p : Pend) : Bool := match p.due with | some d => s.clk < d | none => true
/-- The pending destinations of some threads. -/
def openPends (s : State) (w : Warp) (lanes : Mask) : List Pend := w.pend.filter fun p => p.lanes &&& lanes != 0 && pendOpen s p
/-- An earlier instruction's window is used up (R256). -/
def windowStall (s : State) (w : Warp) (lanes : Mask) : Bool := (openPends s w lanes).any fun p => p.la ≤ p.after
/-- A register that an earlier instruction will write; p7 and q7 are never written. -/
def hazardStall (s : State) (w : Warp) (lanes : Mask) (regs : List Nat) : Bool :=
  (openPends s w lanes).any fun p => p.regs.any fun r => r != 263 && regs.contains r
/-- The scheduler's SFU is held by an earlier issue (R171). -/
def sfuBusy (s : State) (w : Warp) : Bool := s.clk < (coreOf s w.core).sfuHeld.getD w.sched 0

/-- An access touches one of the bytes that a load reads, `n` from each address. Two addresses of one byte agree in their low 16
bits, a page being no smaller. -/
def accMeets (global : Bool) (n : Nat) (addrs : List Nat) (a : LaneAcc) : Bool :=
  let glob := match a.home with | .scratch _ _ => false | _ => true
  let y := match a.home with | .scratch _ o => o | _ => a.addr
  glob == global && addrs.any fun x =>
    if global then x % 2 ^ 16 < y % 2 ^ 16 + a.size && y % 2 ^ 16 < x % 2 ^ 16 + n else x < y + a.size && y < x + n
/-- A load of some bytes waits behind its own queue: for an atomic or SWARM to bytes that it reads, and for an acquire ahead of it
(R104, R109, R205). -/
def behindQueue (q : List QEntry) (global : Bool) (n : Nat) (addrs : List Nat) : Bool :=
  q.any fun e => e.acq || (e.kind != .store && e.kind != .fence && e.accs.any (accMeets global n addrs))
/-- Entries of the queue that touch bytes of a load which waits behind one of them: it waits for all of them (R104). -/
def behindIds (q : List QEntry) (global : Bool) (n : Nat) (addrs : List Nat) : List Nat :=
  if q.any fun e => e.kind != .store && e.kind != .fence && e.accs.any (accMeets global n addrs) then
    (q.filter fun e => e.accs.any (accMeets global n addrs)).map (·.id)
  else []
/-- A bundle's noted entries are still in the queue. -/
def behindNoted (w : Warp) (b : Bundle) : Bool := b.behind.any fun id => w.queue.any (·.id == id)
/-- A poisoned unit that an instruction reads in a lane of a set (R357): registers of a warp share a unit in pairs. -/
def poisonedLane (s : State) (w : Nat) (wp : Warp) (act : Mask) (ins : Instr) : Option Nat :=
  if s.chipPoison.isEmpty then none else
  let regs := ((ins.uses wp.lead).filter fun u => !u.write).flatMap (useRegs wp.lead)
  (lanesOf act).find? fun l => regs.any fun r =>
    r < 256 && s.chipPoison.any fun x => match x with
      | .register w' l' r' => w' == w && l' == l && (if wp.lead then r' == r else r' / 2 == r / 2)
      | _ => false
/-- An earlier load of some threads is still to be performed by the host; their later loads, and a FENCE.ACQ, wait for it (R104,
R109). -/
def openBehind (s : State) (w : Nat) (lanes : Mask) : Bool := s.loads.any fun l => l.warp == w && l.due.isNone && l.lanes &&& lanes != 0

end Sys2Proof.Machine
end

