-- ==== Sys2Proof/Machine/LoadStore.lean ====
section
/-! DEFINITION. What loads and stores share: address checks (R72, R87, R90, R196), Visible (R104), L1 (R105), store-queue
entries (R102, R198), the twin's signature (R359), and twin checkpoints (R360). -/

namespace Sys2Proof.Machine

/-! ### Checks -/

/-- A run-time fault of an access: cause, SUB, address, lane. -/
abbrev AccFault := Nat × Nat × Nat × Nat
def accTrap (s : State) (i : Iss) (f : AccFault) : State :=
  takeTrap s i.w i.bn i.pc f.1 f.2.1 f.2.2.1 f.2.2.2

/-- The lowest active lane that fails a test, as a fault (R196). -/
def firstBad (i : Iss) (cause sub : Nat) (bad : Thread → Bool) (addr : Thread → Nat) : Option AccFault :=
  ((lanesOf i.act).find? fun l => bad (threadOf i.wp l)).map fun l => (cause, sub, addr (threadOf i.wp l), l)

/-- Check 1 for global addresses: aligned, bits [63:52] zero (R72). -/
def badGlobal (size : Nat) (a : Dword) : Bool := a.toNat % size != 0 || 2 ^ 52 ≤ a.toNat
/-- Check 1 for an unskewed offset: aligned and inside the allocation (R72, R87). -/
def badOffset (kib size : Nat) (o : Nat) : Bool := o % size != 0 || kib * 1024 < o + size

/-- Addresses of lanes translated, the lowest failing lane deciding (R196, R341). -/
def translateAll (core vf c : Nat) (acc : Access) : List (Nat × Nat) → State → State × Xl (List Place) × Nat × Nat
  | [], s => (s, .ok [], 0, 0)
  | (l, va) :: r, s =>
    match translate s core vf c va acc with
    | (s, .err e) => (s, .err e, l, va)
    | (s, .ok p) =>
      match translateAll core vf c acc r s with
      | (s, .ok ps, l', va') => (s, .ok (p :: ps), l', va')
      | (s, .err e, l', va') => (s, .err e, l', va')

/-! ### Visible -/

/-- The byte that a lane's access writes at a place, if it covers it. -/
def accByte (a : LaneAcc) (p : Place) : Option Byte :=
  let at' (base x : Nat) : Option Byte :=
    if base ≤ x && x < base + a.size then some (a.data.extractLsb' (8 * (x - base)) 8) else none
  match a.home, p with
  | .scratch q o, .scratch q' o' => if q == q' then at' o o' else none
  | .dev b, .dev x => at' b x
  | .host b, .host x => at' b x
  | .peer q b, .peer q' x => if q == q' then at' b x else none
  | _, _ => none
/-- The byte of an entry at a place: the highest lane that covers it (R101). -/
def entryByte (e : QEntry) (p : Place) : Option Byte := (e.accs.reverse.findSome? fun a => accByte a p)
/-- Place of a byte in a lane's access, if the access covers it. -/
def accOff (a : LaneAcc) (p : Place) : Option Nat := (List.range a.size).find? fun k => a.home.plus k == p
/-- The byte that an entry gives at a place lies in a poisoned unit of it (R357). -/
def entryBad (e : QEntry) (p : Place) : Bool :=
  !e.bad.isEmpty && (e.accs.reverse.findSome? fun a => (accOff a p).map fun k => e.bad.contains (16 * a.lane + k / 8)) == some true
/-- An entry touches a place. -/
def entryCovers (e : QEntry) (p : Place) : Bool := (entryByte e p).isSome
def isStore (e : QEntry) : Bool := e.kind == .store
/-- Newest store of a queue at a place. -/
def queueEntry (q : List QEntry) (p : Place) : Option QEntry := q.reverse.find? fun e => isStore e && entryCovers e p
def queueByte (q : List QEntry) (p : Place) : Option Byte := (queueEntry q p).bind fun e => entryByte e p

/-- Of some entries with their orders, the newest. -/
def newest (l : List (Nat × QEntry)) : Option QEntry :=
  (l.foldl (fun (m : Option (Nat × QEntry)) x => match m with
    | none => some x | some y => if y.1 < x.1 then some x else m) none).map (·.2)
/-- The store that a load finds among those of a core on their way to their homes, and those held by a copy of a twin pair: the newest
in core order (R104, R360). -/
def pendingEntry (s : State) (core blk : Nat) (p : Place) : Option QEntry :=
  let mine := (blockWarps (blockOf s blk)).filter fun w => (warpOf s w).core == core
  let held := mine.flatMap fun w => (warpOf s w).held.filterMap fun x => if isStore x.entry && entryCovers x.entry p then some (x.order, x.entry) else none
  let fs := s.flights.filterMap fun f =>
    if f.core == core && f.op.isNone && isStore f.entry && entryCovers f.entry p then some (f.order, f.entry) else none
  newest (held ++ fs)
def pendingByte (s : State) (core blk : Nat) (p : Place) : Option Byte := (pendingEntry s core blk p).bind fun e => entryByte e p

/-- An L1 sector of a context. -/
def l1At (s : State) (core vf c sector : Nat) : Option L1Sector :=
  (coreOf s core).l1.find? fun x => x.sector == sector && x.vf == vf && x.ctx == c
/-- A sector's bytes at home, with the stores of the core that are on their way there (R105). -/
def sectorData (s : State) (core blk sector : Nat) : BitVec 256 :=
  BitVec.ofNat 256 (leBytes ((List.range 32).map fun k =>
    (pendingByte s core blk (.dev (32 * sector + k))).getD (memRead s.mem (32 * sector + k))))
/-- Sectors of one 128-byte line of L1. -/
def sameL1 (x y : L1Sector) : Bool := x.sector / 4 == y.sector / 4 && x.vf == y.vf && x.ctx == y.ctx
def l1Lines (l : List L1Sector) : Nat := (l.map fun x => (x.vf, x.ctx, x.sector / 4)).eraseDups.length
/-- A sector put into L1, its line first in the order of use, or last (R85); where 2,048 other lines are there, the last one leaves
(R82, log entry 30). -/
def putL1 (h : CacheHint) (l : List L1Sector) (x : L1Sector) : List L1Sector :=
  let room : Bool := l.length < 2048 || l.any (sameL1 x) || l1Lines l < 2048
  let l := if room then l else match l.getLast? with | some y => l.filter fun z => !(sameL1 y z) | none => l
  let mine := x :: l.filter (sameL1 x)
  let rest := l.filter fun y => !(sameL1 x y)
  if h == .stream then rest ++ mine else mine ++ rest

/-- Who reads, for Visible: core, slice, context, block, part, the queue, and whether the home must be read. -/
structure Reader where
  core : Nat
  vf : Nat
  ctx : Nat
  blk : Nat
  part : Nat
  key : BitVec 84
  queue : List QEntry
  atHome : Bool

def reader (s : State) (i : Iss) (atHome : Bool) : Reader :=
  let b := i.block s
  ⟨i.wp.core, b.vf, b.ctx, i.wp.blk, i.wp.part, i.key s, i.wp.queue, atHome⟩

/-- Visible(ld, b) of R104 for a load performed now, and whether the byte was read at the home of device memory. -/
def visible (s : State) (r : Reader) (p : Place) : Byte × Bool :=
  let own := match p with | .scratch q _ => q == r.part | _ => false
  let far := match p with | .scratch q _ => q != r.part | .host _ => true | .peer _ _ => true | .dev _ => false
  if far then (homeByte s r.key p, false) else
  match queueByte r.queue p with
  | some b => (b, false)
  | none =>
    if own then (homeByte s r.key p, false) else
    match pendingByte s r.core r.blk p with
    | some b => (b, false)
    | none =>
      match p with
      | .dev pa =>
        match (if r.atHome then none else l1At s r.core r.vf r.ctx (pa / 32)) with
        | some x => (x.data.extractLsb' (8 * (pa % 32)) 8, false)
        | none => (homeByte s r.key p, true)
      | _ => (homeByte s r.key p, false)

/-- A store of the core with a poisoned unit is on its way to a sector, which L1 then does not take (R354, R357). -/
def sectorBad (s : State) (core blk sector : Nat) : Bool :=
  (List.range 32).any fun k => match pendingEntry s core blk (.dev (32 * sector + k)) with
    | some e => entryBad e (.dev (32 * sector + k))
    | none => false
/-- L1 sectors filled for bytes read at home by an allocating load (R85, R104). -/
def fillL1 (s : State) (r : Reader) (h : CacheHint) (pas : List Nat) : State :=
  let secs := (pas.map (· / 32)).eraseDups
  let new := secs.filter fun k => (l1At s r.core r.vf r.ctx k).isNone && !(sectorBad s r.core r.blk k)
  setCore s r.core fun c => { c with l1 := (new.map fun k => ⟨k, r.vf, r.ctx, sectorData s r.core r.blk k, s.clk⟩).foldl (putL1 h) c.l1 }
/-- A line of L1 that is used goes to its place in the order of use (R85). -/
def useL1 (s : State) (r : Reader) (h : CacheHint) (pa : Nat) : State :=
  let x : L1Sector := ⟨pa / 32, r.vf, r.ctx, 0, 0⟩
  setCore s r.core fun c =>
    let mine := c.l1.filter (sameL1 x)
    let rest := c.l1.filter fun y => !(sameL1 x y)
    { c with l1 := if h == .stream then rest ++ mine else mine ++ rest }

/-- Latency of a load of device memory for a core (Table 8-8), before its line is touched. -/
def loadLatency (s : State) (r : Reader) (pa : Nat) : Nat :=
  if !r.atHome && (l1At s r.core r.vf r.ctx (pa / 32)).isSome then 36 else homeLatency s (r.core / 16) pa

/-- The logical peer of a slice that its place map names for a device and slice (R279). -/
def peerNo (sl : Slice) (q : Nat) : Option Nat :=
  (List.range 64).find? fun p => let e := (sl.peers.getD p Peer.none).entry; e.getLsbD 14 && (e.extractLsb' 0 14).toNat == q
/-- Accesses of MTYPE 2 go to the core's fabric send unit: 512 bytes of data a flit, and at least one flit for a peer (R278; log entry
25). -/
def fabAsk (s : State) (vf core id : Nat) (xs : List (Place × Nat)) : State :=
  let dest := xs.filterMap fun x => match x.1 with | .peer q _ => some (q, x.2) | _ => none
  if dest.isEmpty then s else
  let flits (q : Nat) : Nat := max 1 (((dest.filter (·.1 == q)).foldl (fun n x => n + x.2) 0 + 511) / 512)
  setSlice s vf fun sl =>
    let new := (dest.map (·.1)).eraseDups.flatMap fun q => ((peerNo sl q).map fun p => List.replicate (flits q) (FabReq.mk core p id)).getD []
    { sl with fabOut := sl.fabOut ++ new }
/-- An access is still on its way over the fabric: in a send unit, or in a run that is not acknowledged (R278, R386). -/
def onFabric (s : State) (vf id : Nat) : Bool :=
  let sl := sliceOf s vf
  sl.ifst != .error && (sl.fabOut.any (·.id == id) || sl.runs.any fun r => r.writes.any fun w => w.2.2 == id)

/-- A line of device memory reached at its home under a hint, its cache events counted (Table 12-3). -/
def touchHome (s : State) (core vf c : Nat) (h : CacheHint) (pa : Nat) : State :=
  reachHome (crossDie s vf core pa) vf c h pa
/-- A read of device lines by an access: those that L1 does not hold are reached at their homes. -/
def touchAll (s : State) (r : Reader) (h : CacheHint) (pas : List Nat) : State :=
  pas.foldl (fun s pa =>
    let l1 := !r.atHome && (l1At s r.core r.vf r.ctx (pa / 32)).isSome
    let s := count s r.vf r.ctx 2 (if l1 then 0 else 1) 1
    if l1 then useL1 s r h pa else touchHome s r.core r.vf r.ctx h pa) s

/-- Poison in an on-chip unit (R357). -/
def scratchPoisoned (s : State) (part off : Nat) : Bool := s.chipPoison.contains (.scratch part (off / 8 * 8))
/-- A place whose read consumes poison (R355, R357). -/
def placePoisoned (s : State) (p : Place) : Bool :=
  match p with
  | .dev pa => devPoisoned s pa
  | .scratch q off => scratchPoisoned s q off
  | _ => false

/-- The store that a load is forwarded from, if any (R104). -/
def forwarded (s : State) (r : Reader) (p : Place) : Option QEntry :=
  match p with
  | .scratch q _ => if q == r.part then queueEntry r.queue p else none
  | .dev _ => match queueEntry r.queue p with | some e => some e | none => pendingEntry s r.core r.blk p
  | _ => none
/-- A load at a place of some bytes consumes poison: of what it reads at its home, or of the entry that it is forwarded from (R355,
R357). -/
def readsPoison (s : State) (r : Reader) (p : Place) (n : Nat) : Bool :=
  (List.range n).any fun k =>
    let q := p.plus k
    match forwarded s r q with
    | some e => entryBad e q
    | none => placePoisoned s q && match q with
      | .dev _ => (visible s r q).2
      | _ => true

/-! ### Values of a size -/

/-- What a load writes for its bytes (Table 8-6): one register, a pair, or four. -/
def loadRegs (sz : Size) (d : Byte) (x : BitVec 128) : List RegW :=
  match sz with
  | .b128 => (List.range 4).map fun k => .v (d + BitVec.ofNat 8 k) false ((x.extractLsb' (32 * k) 32).zeroExtend 64)
  | .b64 => [.v d true (x.extractLsb' 0 64)]
  | .i8 => [.v d false ((x.extractLsb' 0 8).signExtend 64)]
  | .i16 => [.v d false ((x.extractLsb' 0 16).signExtend 64)]
  | _ => [.v d false ((x.extractLsb' 0 (8 * sz.bytes)).zeroExtend 64)]
/-- Data of a store: the low bytes of the register, pair or quad (R194). -/
def storeData (lead : Bool) (sz : Size) (t : Thread) (d : Byte) : BitVec 128 :=
  match sz with
  | .b128 => vreg t (d.toNat + 3) ++ vreg t (d.toNat + 2) ++ vreg t (d.toNat + 1) ++ vreg t d.toNat
  | .b64 => (rdD lead t d).zeroExtend 128
  | _ => ((rdV lead t d).extractLsb' 0 (8 * sz.bytes)).zeroExtend 128
/-- Registers that a load leaves pending. -/
def sizeDst (lead : Bool) (sz : Size) (d : Byte) : List Nat :=
  match sz with
  | .b128 => (List.range 4).map (d.toNat + ·)
  | .b64 => dstW true d lead
  | _ => dstW false d lead

/-! ### Twin execution -/

/-- One byte into the CRC-64 of R359. -/
def crcByte (c : Dword) (b : Byte) : Dword :=
  (List.range 8).foldl (fun c _ => if c.getLsbD 63 then (c <<< 1) ^^^ 0x42F0E1EBA9EA3693#64 else c <<< 1)
    (c ^^^ (b.zeroExtend 64 <<< 56))
def crcBytes (c : Dword) (bs : List Byte) : Dword := bs.foldl crcByte c
/-- The 32-byte entry of a store of a lane (R359); a wide row gives its first 16 bytes here. -/
def sigEntry (addr size : Nat) (data : List Byte) : List Byte :=
  bytesOf 8 addr ++ bytesOf 1 size ++ List.replicate 7 0 ++ (data ++ List.replicate 16 0).take 16
/-- A twin or its primary (R358). -/
def isTwin (s : State) (blk : Nat) : Bool := (blockOf s blk).twin.isSome
def isPrimary (s : State) (blk : Nat) : Bool := match (blockOf s blk).twin with | some (_, p) => p | none => true
/-- A signature takes the accesses of one instruction in ascending lane order; of a compare both operands, the one compared with
first (R359, log entry 83). -/
def signAccs (s : State) (w : Nat) (accs : List LaneAcc) (cas : Bool := false) : State :=
  if !(isTwin s (warpOf s w).blk) then s else
  let bytes := accs.flatMap fun a => sigEntry a.addr a.size ((if cas then bytesOf a.size a.cmp.toNat else []) ++ bytesOf (min a.size 16) a.data.toNat)
  setWarp s w fun x => { x with sig := crcBytes x.sig bytes }
/-- A checkpoint of R360: the first time its warp waits for its counterpart; once the two have matched, the instruction
is performed. `skip` is what the twin leaves to the primary. -/
def atCheckpoint (s : State) (i : Iss) (_yh : Bool) (sig : List LaneAcc) (skip : Option (Nat × List Nat × Nat))
    (go : State → State) (cas : Bool := false) : State :=
  if !(isTwin s i.wp.blk) then go s else
  match i.wp.ckpt with
  | some c => if c.passed && c.bundle == i.bn.id then go (setWarp s i.w fun x => { x with ckpt := none }) else s
  | none =>
    let s := signAccs s i.w sig cas
    let sg := (warpOf s i.w).sig
    let s := setWarp s i.w fun x =>
      { x with ckpt := some ⟨i.pc, sg, i.bn.id, false, i.wp.sig, if isPrimary s i.wp.blk then none else skip⟩ }
    setBundle s i.w i.bn.id fun b => { b with hold := some .twin, holdLen := i.len, holdAct := i.act }

/-! ### Queue entries -/

/-- An entry that goes to the holding area when it leaves its queue: a store or REDM of global memory (R360). -/
def isHoldable (e : QEntry) : Bool :=
  (match e.kind with | .store | .atomic _ _ none => true | _ => false) && e.accs.any fun a => match a.home with | .scratch _ _ => false | _ => true
/-- Global stores and REDMs of a copy of a twin pair that no checkpoint has matched yet (R360). -/
def unmatched (s : State) (w : Nat) : List QEntry :=
  let x := warpOf s w
  if isTwin s x.blk then (x.queue ++ x.held.map (·.entry)).filter fun e => x.matched ≤ e.id && isHoldable e else []
/-- An entry joins the queue of its warp or lead (R198). -/
def enqueue (s : State) (w : Nat) (e : QEntry) : State := setWarp s w fun x => { x with queue := x.queue ++ [e] }
/-- A store-queue entry of an issue. -/
def mkEntry (ck : Nat) (i : Iss) (id : Nat) (kind : QKind) (accs : List LaneAcc) (ord : MemOrd) (sc : Scope) (h : CacheHint)
    (passes : Nat := 0) : QEntry :=
  { id, kind, accs, lanes := i.act, rel := ord == .rel || ord == .ar, acq := ord == .acq || ord == .ar, scope := sc,
    cube := i.wp.cubeSeq, passes, sent := false, hint := h, pc := i.pc, bad := [], at' := ck }
/-- A store of an issue: it completes at issue (R198). -/
def storeIssue (s : State) (i : Iss) (yh : Bool) (kind : QKind) (accs : List LaneAcc) (ord : MemOrd) (sc : Scope)
    (h : CacheHint) (passes : Nat := 0) : State :=
  let (id, s) := fresh s
  finish (enqueue (signAccs s i.w accs) i.w (mkEntry s.clk i id kind accs ord sc h passes)) i yh
/-- An atomic of an issue: its destination is pending until its data return (R199, R202). -/
def atomicIssue (s : State) (i : Iss) (yh : Bool) (la : Nat) (kind : QKind) (accs : List LaneAcc) (ord : MemOrd)
    (sc : Scope) (h : CacheHint) (dst : List Nat) (passes : Nat := 0) : State :=
  let (id, s) := fresh s
  addPend (finish (enqueue s i.w (mkEntry s.clk i id kind accs ord sc h passes)) i yh) i dst la none (some id)

/-! ### Loads -/

/-- A load of an issue with nothing read yet (R202). -/
def loadOp (s : State) (i : Iss) (sz : Size) (data : List (Nat × Nat × BitVec 128)) (due : Option Nat) : LoadOp :=
  let b := i.block s
  { id := s.nextId, warp := i.w, bundle := i.bn.id, remote := false, data, due, late := [], acq := false, home := false, hint := .normal, fill := true, consume := true, vf := b.vf,
    ctx := b.ctx, pc := i.pc, lanes := i.bn.lanes, part := none, refused := none, hosts := [], size := sz, isLead := i.lead }
/-- A load on its way back (R202). -/
def loadStart (s : State) (op : LoadOp) : State :=
  let (id, s) := fresh s
  { s with loads := s.loads ++ [{ op with id }] }
/-- A load whose destination is pending until its data return. -/
def loadIssue (s : State) (i : Iss) (yh : Bool) (la : Nat) (d : Byte) (op : LoadOp) : State :=
  addPend (finish (loadStart s op) i yh) i (sizeDst i.lead op.size d) la none (some s.nextId)
/-- The acquire of an access takes effect before later accesses (R105, R109). -/
def acquire (s : State) (i : Iss) (ord : MemOrd) (sc : Scope) : State :=
  if (ord == .acq || ord == .ar) && sc != .core then joinL1 s i.w else s
/-- Bytes that a load sees from a place on (R104). -/
def visibleBytes (s : State) (r : Reader) (p : Place) (n : Nat) : List Byte :=
  (List.range n).map fun k => (visible s r (p.plus k)).1
/-- Bytes gathered into a value, the lowest address first. -/
def gather (bs : List Byte) : BitVec 128 := BitVec.ofNat 128 (leBytes bs)

end Sys2Proof.Machine
end

