-- ==== Sys2Proof/Machine/Memory.lean ====
section
/-! DEFINITION. Loads, stores, atomics and prefetches (R192 to R202). -/

namespace Sys2Proof.Machine

/-! ### Global memory -/

/-- The accesses of the active lanes to global memory: checks 1 and 5 of R196, then what follows with each lane's
place. -/
def globalPlaces (s : State) (i : Iss) (size : Nat) (acc : Access) (addr : Thread → Dword)
    (go : State → List (Nat × Place) → State) : State :=
  let b := i.block s
  match firstBad i 3 1 (fun t => badGlobal size (addr t)) (fun t => (addr t).toNat) with
  | some f => accTrap s i f
  | none =>
    let ls := lanesOf i.act
    match translateAll i.wp.core b.vf b.ctx acc (ls.map fun l => (l, (addr (threadOf i.wp l)).toNat)) s with
    | (s, .err e, l, va) => xlateFault s i.w i.bn i.pc 5 va l 0 (acc == .store) e
    | (s, .ok ps, _, _) => go s (ls.zip ps)

/-- Device addresses among some places. -/
def devPas (ps : List (Nat × Place)) : List Nat := ps.filterMap fun x => match x.2 with | .dev pa => some pa | _ => none
/-- A place on a fabric peer, or in host memory. -/
def isPeer (p : Place) : Bool := match p with | .peer _ _ => true | _ => false
def isHost (p : Place) : Bool := match p with | .host _ => true | _ => false
/-- Lanes that access places of a kind, with their addresses. -/
def lanesAt (kind : Place → Bool) (va : Nat → Nat) (ps : List (Nat × Place)) : List (Nat × Nat) :=
  (ps.filter fun x => kind x.2).map fun x => (x.1, va x.1)
/-- A twin's checkpoint where there is one (R360). -/
def checkpointIf (c : Bool) (s : State) (i : Iss) (yh : Bool) (go : State → State) : State :=
  if c || i.wp.ckpt.any (fun k => k.passed && k.bundle == i.bn.id) then atCheckpoint s i yh [] none go else go s
/-- When the data of a load of global memory return; none where the host decides (R202). -/
def globalDue (s : State) (r : Reader) (ps : List (Nat × Place)) : Option Nat × State :=
  let (open', s) := if ps.any fun x => isPeer x.2 then choose s else (0, s)
  let lat := ps.foldl (fun m x => max m (match x.2 with | .dev pa => loadLatency s r pa | _ => 1)) 1
  if ps.any fun x => isHost x.2 then (none, s) else (some (s.clk + lat + open'), s)
/-- How the peers end a load: the lowest of its lanes that a peer refuses or gives poisoned data (R341, R356). -/
def peerEnd (vf n : Nat) (ps : List (Nat × Place)) (va : Nat → Nat) (s : State) : State × Option (Nat × Nat × Bool) :=
  ps.foldl (fun (s, x) (l, p) =>
    if x.isSome || !(isPeer p) then (s, x) else
    match outside (countIo s vf 3 n) p with
    | (s, some e) => (s, some (l, va l, e == .peer 0))
    | (s, none) => (s, none)) (s, none)
/-- Bytes of a lane's load (R104). -/
def visibleValue (s : State) (r : Reader) (p : Place) (n : Nat) : BitVec 128 :=
  gather (visibleBytes s r p n)

/-- Addresses of the device bytes that a load of some lanes covers. -/
def devBytes (n : Nat) (ps : List (Nat × Place)) : List Nat := (devPas ps).flatMap fun pa => (List.range n).map (pa + ·)
/-- A load of some lanes performed now: poison where it consumes it, values, L1 for every byte read at its home (R104, R197, R355). -/
def readLanes (s : State) (r : Reader) (n : Nat) (fill : Bool) (h : CacheHint) (ps : List (Nat × Place)) (consume : Bool := true) :
    State × (Nat ⊕ List (Nat × BitVec 128)) :=
  let s := touchAll s r h (devPas ps)
  match ps.find? fun x => consume && readsPoison s r x.2 n with
  | some (l, _) => (s, .inl l)
  | none =>
    let data := ps.map fun (l, p) => (l, visibleValue s r p n)
    (if fill && h != .noalloc then fillL1 s r h ((devBytes n ps).filter fun pa => (visible s r (.dev pa)).2) else s, .inr data)
/-- LD once its places are known (R104, R197). Where a lane reads host memory, every lane is read when the host completes it (R101). -/
def loadAt (s : State) (i : Iss) (h : Hdr) (o : MemOp) (addr : Thread → Dword) (ps : List (Nat × Place)) : State :=
  let home : Bool := (o.ord == .acq || o.ord == .ar) && o.sc != .core
  let r := reader s i home
  let va (l : Nat) : Nat := (addr (threadOf i.wp l)).toNat
  if ps.any fun x => isHost x.2 then
    let late := (ps.filter fun x => !(isHost x.2)).map fun x => (x.1, o.d.toNat, va x.1, x.2)
    let op := loadOp s i o.sz ((ps.filter fun x => isHost x.2).map fun x => (x.1, o.d.toNat, 0)) none
    loadIssue s i h.yh h.la.toNat o.d { op with late, acq := home, home, hint := h.ch, fill := o.ord == .plain, hosts := lanesAt isHost va ps }
  else
    let (due, s) := globalDue s r ps
    match readLanes s r o.sz.bytes (o.ord == .plain) h.ch ps with
    | (s, .inl l) => poisonTrap s i.w i.bn i.pc (va l) l 1
    | (s, .inr vs) =>
      let (s, refused) := peerEnd r.vf o.sz.bytes ps va s
      let op := loadOp s i o.sz (vs.map fun v => (v.1, o.d.toNat, v.2)) due
      let s := fabAsk s r.vf r.core op.id (ps.map fun x => (x.2, 0))
      acquire (loadIssue s i h.yh h.la.toNat o.d { op with refused }) i o.ord o.sc
/-- A load of a copy of a twin pair meets a REDM of its own that no checkpoint has matched, or a store of host memory, which leave for
their homes only then: the load is a checkpoint too (R104, R360, log entry 45). -/
def heldMeets (s : State) (i : Iss) (n : Nat) (addrs : List Nat) : Bool :=
  (unmatched s i.w).any fun e => (!(isStore e) || e.accs.any fun a => isHost a.home) && e.accs.any (accMeets true n addrs)
def execLd (h : Hdr) (o : MemOp) (s : State) : Host.Outcome State Fault Refusal := issueH s h fun i =>
  let addr (t : Thread) := addrGlobal i.lead t o.a o.b o.lit
  globalPlaces s i o.sz.bytes .load addr fun s ps =>
    checkpointIf ((ps.any fun x => isPeer x.2) || heldMeets s i o.sz.bytes ((lanesOf i.act).map fun l => (addr (threadOf i.wp l)).toNat)) s i h.yh
      fun s => loadAt s i h o addr ps

/-- The access of each lane of a store. -/
def storeAccs (i : Iss) (sz : Size) (d : Byte) (addr : Thread → Nat) (ps : List (Nat × Place)) : List LaneAcc :=
  ps.map fun (l, p) =>
    let t := threadOf i.wp l
    { lane := l, addr := addr t, size := sz.bytes, data := (storeData i.lead sz t d).zeroExtend 1024, cmp := 0, home := p }
/-- The holding area of a copy of a twin pair is full for a global store (R360). -/
def holdFull (s : State) (i : Iss) : Bool := 256 ≤ (unmatched s i.w).length
/-- A release at BLOCK or wider on scratchpad drains the global stores that its warp holds, which a checkpoint lets go (R108, R360, log
entry 45). -/
def releaseHeld (s : State) (i : Iss) (ord : MemOrd) (sc : Scope) : Bool :=
  (ord == .rel || ord == .ar) && sc != .core && !(unmatched s i.w).isEmpty
def execSt (h : Hdr) (o : MemOp) (s : State) : Host.Outcome State Fault Refusal := issueH s h fun i =>
  let addr (t : Thread) := addrGlobal i.lead t o.a o.b o.lit
  globalPlaces s i o.sz.bytes .store addr fun s ps =>
    checkpointIf (holdFull s i || ps.any fun x => isPeer x.2) s i h.yh fun s =>
      storeIssue s i h.yh .store (storeAccs i o.sz o.d (fun t => (addr t).toNat) ps) o.ord o.sc h.ch

/-! ### Scratchpad -/

/-- SK and the window of a skew selector (R195). -/
def isSkewed (c : Byte) : Bool := c.getLsbD 2
def windowOf (swin : List Word) (c : Byte) : Nat × Nat := swinOf (swin.getD (c.toNat % 4) 0)
/-- The offset that a skewed or unskewed access names. -/
def scratchOff (swin : List Word) (c : Byte) (o : Word) : Nat :=
  if isSkewed c then 512 * (windowOf swin c).1 + o.toNat else o.toNat
/-- Checks 1 and 2 of R196 for scratchpad (R72, R87, R90): a skewed access is looked at in the allocation first, then in its window. -/
def scratchCheck (i : Iss) (kib : Nat) (swin : List Word) (c : Byte) (size : Nat) (addr : Thread → Word) :
    Option AccFault :=
  if isSkewed c then
    match firstBad i 3 1 (fun t => (addr t).toNat % size != 0 || kib * 1024 < scratchOff swin c (addr t) + size) (fun t => (addr t).toNat) with
    | some f => some f
    | none => firstBad i 4 2 (fun t => 512 * (windowOf swin c).2 ≤ (addr t).toNat) (fun t => (addr t).toNat)
  else firstBad i 3 1 (fun t => badOffset kib size (addr t).toNat) (fun t => (addr t).toNat)

/-- Offsets of the active lanes, and extra passes of the access (R89). -/
def laneOffs (i : Iss) (swin : List Word) (c : Byte) (addr : Thread → Word) : List (Nat × Nat) :=
  (lanesOf i.act).map fun l => (l, scratchOff swin c (addr (threadOf i.wp l)))
def wordsOf (size : Nat) (offs : List (Nat × Nat)) : List Nat :=
  offs.flatMap fun x => (List.range ((size + 7) / 8)).map fun k => x.2 + 8 * k
def extraPasses (s : State) (i : Iss) (swin : List Word) (size : Nat) (offs : List (Nat × Nat)) : Nat :=
  scratchPasses (i.key s) swin (wordsOf size offs) - 1
def countPasses (s : State) (i : Iss) (n : Nat) : State := count s (i.block s).vf (i.block s).ctx 2 10 n

/-- A read of the own scratchpad by some lanes (R104): poison, or values. -/
def scratchValues (s : State) (i : Iss) (size : Nat) (offs : List (Nat × Nat)) : Nat ⊕ List (Nat × BitVec 128) :=
  let r := reader s i false
  match offs.find? fun x => readsPoison s r (.scratch i.wp.part x.2) size with
  | some (l, _) => .inl l
  | none => .inr (offs.map fun (l, o) => (l, visibleValue s r (.scratch i.wp.part o) size))
/-- The acquire of a scratchpad load also joins what fed a sync word (R105, R109, R118). -/
def acquireScratch (s : State) (i : Iss) (ord : MemOrd) : State := if ord == .acq then joinL1 s i.w else s
def execLds (h : Hdr) (o : MemOp) (s : State) : Host.Outcome State Fault Refusal := issueH s h fun i =>
  let p := i.part s
  let addr (t : Thread) := addrLocal i.lead t o.a o.b o.lit
  match scratchCheck i p.kib p.swin o.c o.sz.bytes addr with
  | some f => accTrap s i f
  | none =>
    let offs := laneOffs i p.swin o.c addr
    match scratchValues s i o.sz.bytes offs with
    | .inl l => poisonTrap s i.w i.bn i.pc (addr (threadOf i.wp l)).toNat l 1
    | .inr vs =>
      let x := extraPasses s i p.swin o.sz.bytes offs
      let s := countPasses s i x
      let op := loadOp s i o.sz (vs.map fun v => (v.1, o.d.toNat, v.2)) (some (s.clk + 24 + x))
      acquireScratch (loadIssue s i h.yh h.la.toNat o.d op) i o.ord
def execSts (h : Hdr) (o : MemOp) (s : State) : Host.Outcome State Fault Refusal := issueH s h fun i =>
  let p := i.part s
  let addr (t : Thread) := addrLocal i.lead t o.a o.b o.lit
  match scratchCheck i p.kib p.swin o.c o.sz.bytes addr with
  | some f => accTrap s i f
  | none =>
    let offs := laneOffs i p.swin o.c addr
    let x := extraPasses s i p.swin o.sz.bytes offs
    checkpointIf (releaseHeld s i o.ord o.sc) s i h.yh fun s =>
      storeIssue (countPasses s i x) i h.yh .store
        (storeAccs i o.sz o.d (fun t => (addr t).toNat) (offs.map fun x => (x.1, .scratch i.wp.part x.2))) o.ord o.sc h.ch x

/-- The part that LDSR or STSR names (R92, R134); none at or above PARTS. -/
def namedPart (s : State) (i : Iss) (p : BitVec 2) : Option Nat :=
  if p.toNat < (i.block s).nParts then some ((i.block s).firstPart + p.toNat) else none
/-- Check 3 of R196, made first. -/
def remoteCheck (s : State) (i : Iss) (o : MemOp) (addr : Thread → Word) (go : Nat → Part → State) : State :=
  match namedPart s i o.part with
  | none => accTrap s i (5, 3, (addr (threadOf i.wp (lowest i.act))).toNat, lowest i.act)
  | some q =>
    let p := partOf s q
    match scratchCheck i p.kib p.swin o.c o.sz.bytes addr with
    | some f => accTrap s i f
    | none => go q p
/-- LDSR waits at its blocking point until its data return (R92, R197). The named part, be it the own one, is read 48 ck after the
issue, which is the unloaded instant (log entry 4). -/
def execLdsr (h : Hdr) (o : MemOp) (s : State) : Host.Outcome State Fault Refusal := issueH s h fun i =>
  let addr (t : Thread) := addrLocal false t o.a o.b o.lit
  remoteCheck s i o addr fun q p =>
    let offs := laneOffs i p.swin o.c addr
    let x := extraPasses s i p.swin o.sz.bytes offs
    let s := countPasses s i x
    let op := loadOp s i o.sz (offs.map fun v => (v.1, o.d.toNat, BitVec.ofNat 128 v.2)) (some (s.clk + 96 + x))
    waitAt (loadStart s { op with remote := true, part := some (q, s.clk + 48), acq := o.ord == .acq }) i h.yh (.remote s.nextId)
def execStsr (h : Hdr) (o : MemOp) (s : State) : Host.Outcome State Fault Refusal := issueH s h fun i =>
  let addr (t : Thread) := addrLocal false t o.a o.b o.lit
  remoteCheck s i o addr fun q p =>
    let offs := laneOffs i p.swin o.c addr
    let x := extraPasses s i p.swin o.sz.bytes offs
    checkpointIf (releaseHeld s i o.ord o.sc) s i h.yh fun s =>
      storeIssue (countPasses s i x) i h.yh .store
        (storeAccs i o.sz o.d (fun t => (addr t).toNat) (offs.map fun x => (x.1, .scratch q x.2))) o.ord o.sc h.ch x

/-! ### Constants -/

/-- Base and size of a constant bank (R196). -/
def constBank (s : State) (i : Iss) (k1 : Bool) : Nat × Nat :=
  let l := i.launch s
  if k1 then (l.constAt, l.constSize) else (l.pkt.param, 2 ^ 16)
/-- Key of a constant-cache line. -/
def constKey (b : Block) (va : Nat) : Nat := (b.vf * 64 + b.ctx) * 2 ^ 45 + va / 128
/-- The offset in its bank that a thread's operand gives (R132). A lead's operand that is no offset in bank 0 but an address of the
parameter block, modulo 2^32, names that byte, as the listing of R305 has it (log entry 29). -/
def constOff (s : State) (i : Iss) (o : MemOp) (t : Thread) : Nat :=
  let x := (addrLocal i.lead t o.a o.b o.lit).toNat
  let d := (x + 2 ^ 32 - (constBank s i false).1 % 2 ^ 32) % 2 ^ 32
  if i.lead && !(o.part.getLsbD 0) && 2 ^ 16 ≤ x && d < 2 ^ 16 then d else x
/-- The bytes of one constant read: translated one by one, then read at their homes (R197). DESIGN CHOICE (log entry 91): an address
past 2^52, which a PARAM with any of bits [63:52] set gives, is taken modulo 2^52. -/
def constBytes (s : State) (i : Iss) (va n : Nat) : State × Xl (List Place) :=
  let b := i.block s
  match translateAll i.wp.core b.vf b.ctx .load ((List.range n).map fun k => (0, (va + k) % 2 ^ 52)) s with
  | (s, x, _, _) => (s, x)
/-- The reads of the lanes, the lowest failing lane deciding. -/
def constAll (i : Iss) (n : Nat) : List (Nat × Nat) → State → State × Xl (List (Nat × Nat × List Place)) × Nat × Nat
  | [], s => (s, .ok [], 0, 0)
  | (l, va) :: r, s =>
    match constBytes s i va n with
    | (s, .err e) => (s, .err e, l, va)
    | (s, .ok ps) =>
      match constAll i n r s with
      | (s, .ok xs, l', v') => (s, .ok ((l, va, ps) :: xs), l', v')
      | (s, .err e, l', v') => (s, .err e, l', v')
/-- The lines of a core's constant cache, 32 sets of 8 ways (R10): a line is put in front, or last under ~stream; one that is there
already goes to its place in the order of use. -/
def putConst (h : CacheHint) (l : List Nat) (key : Nat) : List Nat :=
  let rest := l.erase key
  let l := (insertWays 8 (sameSet 1 32 key) key rest).drop 1
  if h == .stream then l ++ [key] else key :: l
/-- LDC: bounds, translation, poison of bank 0; a line that the constant cache holds costs 24 ck (Table 8-8). Lines of MTYPE 1 and 2
are not cached (R79). -/
def execLdc (h : Hdr) (o : MemOp) (s : State) : Host.Outcome State Fault Refusal := issueH s h fun i =>
  let b := i.block s
  let n := o.sz.bytes
  let (base, size) := constBank s i (o.part.getLsbD 0)
  let addr (t : Thread) := constOff s i o t
  match firstBad i 3 1 (fun t => addr t % n != 0) addr with
  | some f => accTrap s i f
  | none =>
    match firstBad i 3 4 (fun t => size < addr t + n) addr with
    | some f => accTrap s i f
    | none =>
      match constAll i n ((lanesOf i.act).map fun l => (l, base + addr (threadOf i.wp l))) s with
      | (s, .err e, l, va) => xlateFault s i.w i.bn i.pc 5 va l 0 false e
      | (s, .ok xs, _, _) =>
        let r := reader s i true
        let va (l : Nat) : Nat := base + addr (threadOf i.wp l)
        let first (x : Nat × Nat × List Place) : Place := x.2.2.headD (.dev 0)
        let cached (va : Nat) : Bool := (coreOf s i.wp.core).ccache.contains (constKey b va)
        let ps := xs.map fun x => (x.1, first x)
        checkpointIf (ps.any fun x => isPeer x.2) s i h.yh fun s =>
        if ps.any fun x => isHost x.2 then
          let late := (ps.filter fun x => !(isHost x.2)).map fun x => (x.1, o.d.toNat, va x.1, x.2)
          let op := loadOp s i o.sz ((ps.filter fun x => isHost x.2).map fun x => (x.1, o.d.toNat, 0)) none
          loadIssue s i h.yh h.la.toNat o.d { op with late, home := true, hint := h.ch, fill := false, consume := !(o.part.getLsbD 0), hosts := lanesAt isHost va ps }
        else
        let missed := (xs.filter fun x => !(cached x.2.1)).map fun x => (x.1, first x)
        let (late, s) := globalDue s r missed
        let due := late.map (max (s.clk + 24) ·)
        let s := (devPas missed).foldl (fun s pa => touchHome s i.wp.core b.vf b.ctx h.ch pa) s
        match xs.find? fun x => !(o.part.getLsbD 0) && x.2.2.any (placePoisoned s) with
        | some (l, va, _) => poisonTrap s i.w i.bn i.pc va l 1
        | none =>
          let (s, refused) := peerEnd r.vf o.sz.bytes ps va s
          let data := xs.map fun (l, _, ps) => (l, o.d.toNat, gather (ps.map (homeByte s 0)))
          let keep := (xs.filter fun x => (match first x with | .dev _ => h.ch != .noalloc || cached x.2.1 | _ => false)).map fun x => constKey b x.2.1
          let s := setCore s i.wp.core fun c => { c with ccache := keep.eraseDups.foldl (putConst h.ch) c.ccache }
          let op := loadOp s i o.sz data due
          let s := fabAsk s b.vf r.core op.id (ps.map fun x => (x.2, 0))
          loadIssue s i h.yh h.la.toNat o.d { op with refused }

/-! ### Atomics -/

def atBytes (k : AtKind) : Nat := if k.wide then 8 else 4
/-- Operand C of a lane; the new value of a compare lies in the next register (R194). -/
def atOperand (lead : Bool) (k : AtKind) (t : Thread) (c : Byte) : Dword := rdW lead k.wide t c
def casNew (lead : Bool) (k : AtKind) (t : Thread) (c : Byte) : Dword :=
  if lead then rdV true t (c + 1) else if k.wide then rdD false t (c + 2) else rdV false t (c + 1)
/-- The accesses of an atomic. -/
def atomAccs (i : Iss) (o : AtomOp) (cas : Bool) (addr : Thread → Nat) (ps : List (Nat × Place)) : List LaneAcc :=
  ps.map fun (l, p) =>
    let t := threadOf i.wp l
    let c := atOperand i.lead o.ak t o.c
    { lane := l, addr := addr t, size := atBytes o.ak, home := p,
      data := (if cas then casNew i.lead o.ak t o.c else c).zeroExtend 1024, cmp := if cas then c else 0 }
/-- Destination registers of an atomic. -/
def atDst (lead : Bool) (o : AtomOp) : List Nat := dstW o.ak.wide o.d lead
/-- A destination to name in an entry; none for vz. -/
def atomKind (o : AtomOp) (cas : Bool) (dst : Bool) : QKind :=
  let d := if dst then some o.d.toNat else none
  if cas then .cas o.ak d else .atomic o.aop o.ak d
/-- ATOM and ACAS (R199, R200): in a twin pair a checkpoint, performed by the primary alone (R360). -/
def globalAtomic (h : Hdr) (o : AtomOp) (cas : Bool) (s : State) (i : Iss) : State :=
  let addr (t : Thread) := addrGlobal i.lead t o.a o.b o.lit
  globalPlaces s i (atBytes o.ak) .store addr fun s ps =>
    let accs := atomAccs i o cas (fun t => (addr t).toNat) ps
    atCheckpoint s i h.yh accs (some (i.len, atDst i.lead o, h.la.toNat)) (cas := cas) fun s =>
      atomicIssue s i h.yh h.la.toNat (atomKind o cas true) accs o.ord o.sc h.ch (atDst i.lead o)
def execAtom (h : Hdr) (o : AtomOp) (s : State) : Host.Outcome State Fault Refusal := issueH s h (globalAtomic h o false s)
def execAcas (h : Hdr) (o : AtomOp) (s : State) : Host.Outcome State Fault Refusal := issueH s h (globalAtomic h o true s)
/-- ATOMS and ACASS act on the own scratchpad. -/
def scratchAtomic (h : Hdr) (o : AtomOp) (cas : Bool) (s : State) (i : Iss) : State :=
  let p := i.part s
  let addr (t : Thread) := addrLocal i.lead t o.a o.b o.lit
  match scratchCheck i p.kib p.swin 0 (atBytes o.ak) addr with
  | some f => accTrap s i f
  | none =>
    let offs := laneOffs i p.swin 0 addr
    let x := extraPasses s i p.swin (atBytes o.ak) offs
    let accs := atomAccs i o cas (fun t => (addr t).toNat) (offs.map fun x => (x.1, .scratch i.wp.part x.2))
    checkpointIf (releaseHeld s i o.ord o.sc) s i h.yh fun s =>
      atomicIssue (signAccs (countPasses s i x) i.w accs cas) i h.yh h.la.toNat (atomKind o cas true) accs o.ord o.sc h.ch (atDst i.lead o) x
def execAtoms (h : Hdr) (o : AtomOp) (s : State) : Host.Outcome State Fault Refusal := issueH s h (scratchAtomic h o false s)
def execAcass (h : Hdr) (o : AtomOp) (s : State) : Host.Outcome State Fault Refusal := issueH s h (scratchAtomic h o true s)
/-- REDM enters the queue as a store and returns nothing (R199). -/
def execRedm (h : Hdr) (o : AtomOp) (s : State) : Host.Outcome State Fault Refusal := issueH s h fun i =>
  let addr (t : Thread) := addrGlobal i.lead t o.a o.b o.lit
  globalPlaces s i (atBytes o.ak) .store addr fun s ps =>
    checkpointIf (holdFull s i || ps.any fun x => isPeer x.2) s i h.yh fun s =>
      storeIssue s i h.yh (atomKind o false false) (atomAccs i o false (fun t => (addr t).toNat) ps) o.ord o.sc h.ch

/-! ### Prefetches -/

/-- A dropped prefetch (R201). -/
def dropPrefetch (s : State) (i : Iss) : State :=
  let s := count s (i.block s).vf (i.block s).ctx 2 9 1
  setCore s i.wp.core fun c => { c with dropped := c.dropped + 1 }
/-- A line that holds a poisoned sector. -/
def linePoisoned (s : State) (pa size : Nat) : Bool := (List.range (size / 32)).any fun k => devPoisoned s (pa / size * size + 32 * k)
/-- PREF of one 256-byte line; one that meets poison leaves the caches as they were (R201, R356). -/
def prefetchLine (i : Iss) (h : CacheHint) (s : State) (line : Nat) : State :=
  let b := i.block s
  if 2 ^ 44 ≤ line then dropPrefetch s i else
  match translate s i.wp.core b.vf b.ctx (256 * line) .load with
  | (s, .ok (.dev pa)) =>
    let old := s.lines
    let s := touchHome s i.wp.core b.vf b.ctx h pa
    if linePoisoned s pa 256 then dropPrefetch { s with lines := old } i
    else if h == .noalloc then s else fillL1 s (reader s i false) h ((List.range 8).map fun k => pa + 32 * k)
  | (s, _) => dropPrefetch s i
def execPref (h : Hdr) (o : PrefOp) (s : State) : Host.Outcome State Fault Refusal := issueH s h fun i =>
  let lines := ((lanesOf i.act).map fun l => (addrGlobal i.lead (threadOf i.wp l) o.a o.b o.lit).toNat / 256).eraseDups
  finish (lines.foldl (prefetchLine i h.ch) s) i h.yh
/-- IPREF of one 128-byte line into L0. -/
def prefetchCode (i : Iss) (h : CacheHint) (s : State) (line : Nat) : State :=
  let b := i.block s
  if 2 ^ 45 ≤ line then dropPrefetch s i else
  match translate s i.wp.core b.vf b.ctx (128 * line) .fetch with
  | (s, .ok (.dev pa)) =>
    let key := constKey b (128 * line)
    let c := coreOf s i.wp.core
    if linePoisoned s pa 128 then dropPrefetch s i else
    if c.l0.any (·.1 == key) || c.fills.any (·.1 == key) then s else
    let lat := homeLatency s (i.wp.core / 16) pa
    let old := s.lines
    let s := touchHome s i.wp.core b.vf b.ctx h pa
    if linePoisoned s pa 128 then dropPrefetch { s with lines := old } i
    else setCore s i.wp.core fun c => { c with fills := (key, s.clk + lat, .dev pa) :: c.fills }
  | (s, _) => dropPrefetch s i
def execIpref (h : Hdr) (o : PrefOp) (s : State) : Host.Outcome State Fault Refusal := issueH s h fun i =>
  let lines := ((lanesOf i.act).map fun l =>
    (addrGlobal i.lead (threadOf i.wp l) o.a o.b o.lit + i.pc.zeroExtend 64).toNat / 128).eraseDups
  finish (lines.foldl (prefetchCode i h.ch) s) i h.yh

end Sys2Proof.Machine
end

