-- ==== Sys2Proof/Machine/Tile.lean ====
section
/-! DEFINITION. The tile file: its ports, its rows in scratchpad, and the row latches that a write clears (R223, R228,
R229). -/

namespace Sys2Proof.Machine

/-! ### Storage -/

def TileRow.nil : TileRow := ⟨0, 0⟩
def tileRow (p : Part) (t r : Nat) : TileRow := (p.tiles.getD t []).getD r TileRow.nil
def accRow (p : Part) (a r : Nat) : BitVec 1024 := (p.accs.getD a []).getD r 0
/-- Rows of a latch bank written: their tags go (R223). -/
def clearLatch (part t : Nat) (m : Mask) (bank : List Latch) : List Latch :=
  bank.map fun x => if x.part == part && x.tile == t then { x with rows := x.rows &&& ~~~m } else x
/-- Rows of a tile register written. -/
def setTileRows (s : State) (part t : Nat) (m : Mask) (f : Nat → TileRow → TileRow) : State :=
  let s := setPart s part fun p =>
    { p with tiles := modAt p.tiles t fun rs => rs.mapIdx fun r x => if m.getLsbD r then f r x else x }
  setCore s (partOf s part).core fun c => { c with latches := c.latches.map (clearLatch part t m) }
/-- Rows of an accumulator tile written. -/
def setAccRows (s : State) (part a : Nat) (m : Mask) (f : Nat → BitVec 1024 → BitVec 1024) : State :=
  setPart s part fun p =>
    { p with accs := modAt p.accs a fun rs => rs.mapIdx fun r x => if m.getLsbD r then f r x else x }
/-- Rows of a tile register, or of an accumulator tile, that are overwritten whole lose their poison. -/
def wipeTile (s : State) (part t : Nat) (m : Mask) : State :=
  wipe s fun x => match x with | .tile p' t' r _ => p' == part && t' == t && m.getLsbD r | _ => false
def wipeAcc (s : State) (part a : Nat) (m : Mask) : State :=
  wipe s fun x => match x with | .accum p' a' r _ => p' == part && a' == a && m.getLsbD r | _ => false
/-- Poison in the 8-byte units of a row that are read (R357); unit 8 of a tile row is its sidecar. -/
def tilePoisoned (s : State) (part t r : Nat) (units : List Nat := List.range 9) : Bool :=
  s.chipPoison.any fun x => match x with | .tile p' t' r' u => p' == part && t' == t && r' == r && units.contains u | _ => false
def accPoisoned (s : State) (part a r : Nat) (units : List Nat := List.range 16) : Bool :=
  s.chipPoison.any fun x => match x with | .accum p' a' r' u => p' == part && a' == a && r' == r && units.contains u | _ => false
/-- A warp that accesses its own tile or accumulator storage is joined to its cube operations (R118, R119). -/
def joinOwn (s : State) (i : Iss) : State := if i.wp.cubeSeq == 0 then s else joinL1 s i.w
/-- The lowest active lane whose row is poisoned consumes it. -/
def rowPoison (s : State) (i : Iss) (bad : Nat → Bool) (go : State) : State :=
  match (lanesOf i.act).find? bad with
  | some l => poisonTrap s i.w i.bn i.pc 0 l 1
  | none => go

/-! ### Rows in scratchpad -/

/-- Offset A + B of the lowest active thread. -/
def rowBase (i : Iss) (a b : Byte) : Nat :=
  let t := threadOf i.wp (lowest i.act)
  (vreg t a.toNat + vreg t b.toNat).toNat
/-- A row's offset, for rows of `unit` bytes. -/
def rowOff (i : Iss) (unit : Nat) (a b rstr : Byte) (l : Nat) : Nat := rowBase i a b + l * (unit * (rstr.toNat + 1))
/-- The checks of TLD, TST, ALD and AST (R229, R230, R332). -/
def rowCheck (i : Iss) (kib unit : Nat) (a b rstr : Byte) : Option AccFault :=
  ((lanesOf i.act).find? fun l => rowBase i a b % unit != 0 || kib * 1024 < rowOff i unit a b rstr l + unit).map
    fun l => (3, 1, rowOff i unit a b rstr l, l)
/-- Rows of the active lanes, and the extra passes they take (R89). -/
def rowOffs (i : Iss) (unit : Nat) (a b rstr : Byte) : List (Nat × Nat) :=
  (lanesOf i.act).map fun l => (l, rowOff i unit a b rstr l)
def rowPasses (s : State) (i : Iss) (unit : Nat) (offs : List (Nat × Nat)) : Nat :=
  extraPasses s i (i.part s).swin unit offs
/-- Rows as a load of the issuing thread sees them (R104): poison, or their bits. -/
def rowBits (s : State) (i : Iss) (unit : Nat) (offs : List (Nat × Nat)) : List (Nat × Nat) :=
  offs.map fun (l, o) => (l, leBytes (visibleBytes s (reader s i false) (.scratch i.wp.part o) unit))
def rowPoisoned (s : State) (i : Iss) (unit : Nat) (offs : List (Nat × Nat)) : Option (Nat × Nat) :=
  offs.find? fun x => readsPoison s (reader s i false) (.scratch i.wp.part x.2) unit
def rowValues (s : State) (i : Iss) (unit : Nat) (offs : List (Nat × Nat)) : Nat ⊕ List (Nat × Nat) :=
  match rowPoisoned s i unit offs with
  | some (l, _) => .inl l
  | none => .inr (rowBits s i unit offs)
/-- A lane's entry in a list of values. -/
def laneNat (vs : List (Nat × Nat)) (l : Nat) : Nat := ((vs.find? (·.1 == l)).map (·.2)).getD 0
/-- A destination tile or accumulator stays pending for its latency (R234). -/
def tilePend (s : State) (i : Iss) (h : Hdr) (reg lat : Nat) : State :=
  joinOwn (addPend (finish s i h.yh) i [reg] h.la.toNat (some (s.clk + lat)) none) i

/-! ### Meanings -/

/-- The sidecar of a loaded row (R229). -/
def loadedSidecar (log : Bool) (x : BitVec 512) : Byte := if !log || blockCode x == 0 then 0 else blockScale x
def execTld (h : Hdr) (o : TileMemOp) (s : State) : Host.Outcome State Fault Refusal := issueH s h fun i =>
  match rowCheck i (i.part s).kib 64 o.a o.b o.rstr with
  | some f => accTrap s i f
  | none =>
    let offs := rowOffs i 64 o.a o.b o.rstr
    let vs := rowBits s i 64 offs
    let row (l : Nat) : BitVec 512 := BitVec.ofNat 512 (laneNat vs l)
    let bad (l : Nat) : Option Nat := if o.log then blockBad (row l) else none
    match (lanesOf i.act).findSome? fun l => (bad l).map fun sub => (sub, l) with
    | some (sub, l) => takeTrap s i.w i.bn i.pc 0x0B sub (rowOff i 64 o.a o.b o.rstr l) l
    | none =>
      match rowPoisoned s i 64 offs with
      | some (l, _) => poisonTrap s i.w i.bn i.pc (rowOff i 64 o.a o.b o.rstr l) l 1
      | none =>
        let x := rowPasses s i 64 offs
        let s := setTileRows (countPasses s i x) i.wp.part o.d.toNat i.act fun l _ => ⟨row l, loadedSidecar o.log (row l)⟩
        tilePend (wipeTile s i.wp.part o.d.toNat i.act) i h (1024 + o.d.toNat) (32 + x)
/-- A stored row: with LOG its byte 1 is the sidecar. -/
def storedRow (log : Bool) (r : TileRow) : BitVec 512 :=
  if log then (r.data &&& ~~~(0xFF00#512)) ||| (r.sc.zeroExtend 512 <<< 8) else r.data
def execTst (h : Hdr) (o : TileMemOp) (s : State) : Host.Outcome State Fault Refusal := issueH s h fun i =>
  match rowCheck i (i.part s).kib 64 o.a o.b o.rstr with
  | some f => accTrap s i f
  | none =>
    rowPoison s i (fun l => tilePoisoned s i.wp.part o.d.toNat l (List.range (if o.log then 9 else 8))) <|
      let offs := rowOffs i 64 o.a o.b o.rstr
      let accs := offs.map fun (l, off) =>
        { lane := l, addr := off, size := 64, cmp := 0, home := Place.scratch i.wp.part off,
          data := (storedRow o.log (tileRow (i.part s) o.d.toNat l)).zeroExtend 1024 : LaneAcc }
      let x := rowPasses s i 64 offs
      joinOwn (storeIssue (countPasses s i x) i h.yh .store accs .plain .core h.ch x) i

/-- Row and first byte that a lane meets through a port (R228). -/
def portPlace (port : Port) (c l : Nat) : Nat × Nat :=
  match port with
  | .row => (l, 4 * c)
  | .col => (4 * c + l / 16, 4 * (l % 16))
  | .sc => (l, 0)
/-- Four bytes of a row replaced. -/
def putWord (x : BitVec 512) (at' : Nat) (w : Word) : BitVec 512 :=
  (x &&& ~~~(0xFFFFFFFF#512 <<< (8 * at'))) ||| (w.zeroExtend 512 <<< (8 * at'))
/-- What lanes write through a port, in ascending lane order. -/
def portWrite (port : Port) (c : Nat) (vals : List (Nat × Word)) (r : Nat) (x : TileRow) : TileRow :=
  vals.foldl (fun x (l, w) =>
    let (row, b) := portPlace port c l
    if row != r then x
    else if port == .sc then { x with sc := w.extractLsb' 0 8 }
    else { x with data := putWord x.data b w }) x
def execTwrv (h : Hdr) (o : TilePortOp) (s : State) : Host.Outcome State Fault Refusal := issueH s h fun i =>
  let vals := (lanesOf i.act).map fun l => (l, vreg (threadOf i.wp l) o.a.toNat)
  let rows := maskOf (vals.map fun x => (portPlace o.port o.idx.toNat x.1).1)
  tilePend (setTileRows s i.wp.part o.d.toNat rows (portWrite o.port o.idx.toNat vals)) i h (1024 + o.d.toNat) 8
/-- What a lane reads through a port. -/
def portRead (p : Part) (t : Nat) (port : Port) (c l : Nat) : Word :=
  let (row, b) := portPlace port c l
  let x := tileRow p t row
  if port == .sc then x.sc.zeroExtend 32 else x.data.extractLsb' (8 * b) 32
/-- The 8-byte unit of a row that a lane reads through a port. -/
def portUnit (port : Port) (c l : Nat) : Nat := if port == .sc then 8 else (portPlace port c l).2 / 8
def execTrdv (h : Hdr) (o : TilePortOp) (s : State) : Host.Outcome State Fault Refusal := issueH s h fun i =>
  let p := i.part s
  rowPoison s i (fun l => tilePoisoned s i.wp.part o.a.toNat (portPlace o.port o.idx.toNat l).1 [portUnit o.port o.idx.toNat l]) <|
    joinOwn (computeBody s i h.yh h.la.toNat 8 (dstV o.d false) fun l _ =>
      ([.v o.d false ((portRead p o.a.toNat o.port o.idx.toNat l).zeroExtend 64)], 0)) i
/-- A row of 16 equal words. -/
def fillRow (w : Word) : BitVec 512 := (List.range 16).foldl (fun x k => putWord x (4 * k) w) 0
def execTfill (h : Hdr) (o : TfillOp) (s : State) : Host.Outcome State Fault Refusal := issueH s h fun i =>
  let val (l : Nat) : Word := o.lit.getD (vreg (threadOf i.wp l) o.a.toNat)
  let s1 := setTileRows s i.wp.part o.d.toNat i.act fun l _ => ⟨fillRow (val l), o.scale⟩
  tilePend (wipeTile s1 i.wp.part o.d.toNat i.act) i h (1024 + o.d.toNat) 4

end Sys2Proof.Machine
end

