-- ==== Sys2Proof/Machine/Accum.lean ====
section
/-! DEFINITION. Accumulator instructions (R230). -/

namespace Sys2Proof.Machine

/-- Element `c` of an accumulator row, and the row with it replaced. -/
def accElem (x : BitVec 1024) (c : Nat) : Word := x.extractLsb' (32 * c) 32
def putElem (x : BitVec 1024) (c : Nat) (w : Word) : BitVec 1024 :=
  (x &&& ~~~(0xFFFFFFFF#1024 <<< (32 * c))) ||| (w.zeroExtend 1024 <<< (32 * c))
/-- A row from its 32 elements. -/
def accOf (ws : List Word) : BitVec 1024 := ws.foldr (fun w x => (x <<< 32) ||| w.zeroExtend 1024) 0
def accElems (x : BitVec 1024) : List Word := (List.range 32).map (accElem x)

def execAclr (h : Hdr) (d : Byte) (s : State) : Host.Outcome State Fault Refusal := issueH s h fun i =>
  tilePend (wipeAcc (setAccRows s i.wp.part d.toNat i.act fun _ _ => 0) i.wp.part d.toNat i.act) i h (2048 + d.toNat) 4
def execAld (h : Hdr) (o : AccMemOp) (s : State) : Host.Outcome State Fault Refusal := issueH s h fun i =>
  match rowCheck i (i.part s).kib 128 o.a o.b o.rstr with
  | some f => accTrap s i f
  | none =>
    let offs := rowOffs i 128 o.a o.b o.rstr
    match rowValues s i 128 offs with
    | .inl l => poisonTrap s i.w i.bn i.pc (rowOff i 128 o.a o.b o.rstr l) l 1
    | .inr vs =>
      let x := rowPasses s i 128 offs
      let s := setAccRows (countPasses s i x) i.wp.part o.d.toNat i.act fun l _ => BitVec.ofNat 1024 (laneNat vs l)
      tilePend (wipeAcc s i.wp.part o.d.toNat i.act) i h (2048 + o.d.toNat) (40 + x)
def execAst (h : Hdr) (o : AccMemOp) (s : State) : Host.Outcome State Fault Refusal := issueH s h fun i =>
  match rowCheck i (i.part s).kib 128 o.a o.b o.rstr with
  | some f => accTrap s i f
  | none =>
    rowPoison s i (fun l => accPoisoned s i.wp.part o.d.toNat l) <|
      let offs := rowOffs i 128 o.a o.b o.rstr
      let accs := offs.map fun (l, off) =>
        { lane := l, addr := off, size := 128, cmp := 0, home := Place.scratch i.wp.part off,
          data := accRow (i.part s) o.d.toNat l : LaneAcc }
      let x := rowPasses s i 128 offs
      joinOwn (storeIssue (countPasses s i x) i h.yh .store accs .plain .core h.ch x) i
def execArdv (h : Hdr) (o : AccColOp) (s : State) : Host.Outcome State Fault Refusal := issueH s h fun i =>
  let p := i.part s
  rowPoison s i (fun l => accPoisoned s i.wp.part o.a.toNat l [o.col.toNat / 2]) <|
    joinOwn (computeBody s i h.yh h.la.toNat 8 (dstV o.d false) fun l _ =>
      ([.v o.d false ((accElem (accRow p o.a.toNat l) o.col.toNat).zeroExtend 64)], 0)) i
def execAwrv (h : Hdr) (o : AccColOp) (s : State) : Host.Outcome State Fault Refusal := issueH s h fun i =>
  tilePend (setAccRows s i.wp.part o.d.toNat i.act fun l x => putElem x o.col.toNat (vreg (threadOf i.wp l) o.a.toNat))
    i h (2048 + o.d.toNat) 8

/-- The block and flags of AQNT for a row (R64, R65). -/
def aqntRow (p : Part) (fmt : LgFmt) (a l : Nat) : BitVec 512 × Flags :=
  let ws := accElems (accRow p a l) ++ accElems (accRow p (a + 1) l)
  let q := quantBlock fmt (ws.map fun w => Fmt.f32.unpack w.toNat)
  (q.1, q.2.foldl (· ||| ·) 0)
def execAqnt (h : Hdr) (o : QnOp) (s : State) : Host.Outcome State Fault Refusal := issueH s h fun i =>
  let p := i.part s
  let a := o.a.toNat
  rowPoison s i (fun l => accPoisoned s i.wp.part a l || accPoisoned s i.wp.part (a + 1) l) <|
    let s1 := setTileRows s i.wp.part o.d.toNat i.act fun l _ =>
      ⟨(aqntRow p o.fmt a l).1, loadedSidecar true (aqntRow p o.fmt a l).1⟩
    joinOwn (computeBody (wipeTile s1 i.wp.part o.d.toNat i.act) i h.yh h.la.toNat 24 [1024 + o.d.toNat]
      fun l _ => ([], (aqntRow p o.fmt a l).2)) i

/-- AMAP on one element: the bits and the flags. -/
def amapElem (op : AmapOp) (x b : Word) : Word × Flags :=
  let r : Nat × Flags := match op with
    | .mul => Fmt.f32.mulF .rn false false x.toNat b.toNat
    | .add => Fmt.f32.addF .rn false false x.toNat b.toNat
    | .max => (Fmt.f32.minmax false true x.toNat b.toNat, 0)
    | .min => (Fmt.f32.minmax false false x.toNat b.toNat, 0)
    | .mov => (x.toNat, 0)
  (BitVec.ofNat 32 r.1, r.2)
/-- AMAP on a row. -/
def amapRow (p : Part) (o : AmapLaneOp) (b : Word) (l : Nat) : BitVec 1024 × Flags :=
  let es := (accElems (accRow p o.a.toNat l)).map fun x => amapElem o.op x b
  (accOf (es.map (·.1)), es.foldl (fun f e => f ||| e.2) 0)
def execAmap (h : Hdr) (o : AmapLaneOp) (s : State) : Host.Outcome State Fault Refusal := issueH s h fun i =>
  let p := i.part s
  let b (l : Nat) : Word := srcB32 false o.lit o.b (threadOf i.wp l)
  rowPoison s i (fun l => accPoisoned s i.wp.part o.a.toNat l) <|
    let s1 := setAccRows s i.wp.part o.d.toNat i.act fun l _ => (amapRow p o (b l) l).1
    joinOwn (computeBody (wipeAcc s1 i.wp.part o.d.toNat i.act) i h.yh h.la.toNat 8 [2048 + o.d.toNat]
      fun l _ => ([], (amapRow p o (b l) l).2)) i

end Sys2Proof.Machine
end

