-- ==== Sys2Proof/Machine/Sync.lean ====
section
/-! DEFINITION. Fences, barriers, sync words, sequence waits and the decision queue (R203 to R208). -/

namespace Sys2Proof.Machine

/-! ### Fences -/

/-- A release FENCE takes a queue entry without data (R108); FENCE.ACQ acts at once, the loads before it having been performed
(R109). -/
def fenceBody (s : State) (i : Iss) (h : Hdr) (ord : MemOrd) (sc : Scope) : State :=
  if ord == .acq then acquire (finish s i h.yh) i ord sc
  else
    let (id, s) := fresh s
    finish (enqueue s i.w (mkEntry s.clk i id .fence [] ord sc h.ch)) i h.yh
def execFence (h : Hdr) (ord : MemOrd) (sc : Scope) (s : State) : Host.Outcome State Fault Refusal := issueH s h fun i =>
  if sc == .core then fenceBody s i h ord sc
  else atCheckpoint s i h.yh [] none fun s => fenceBody s i h ord sc

/-- An access to memory that a release at a scope drains (Table 5-1). -/
def drains (sc : Scope) (a : LaneAcc) : Bool :=
  match a.home with
  | .scratch _ _ | .dev _ => sc != .core
  | .peer _ _ => sc == .fabric || sc == .system
  | .host _ => sc == .system
/-- Stores of a core on their way to the memory that a scope names: in its pending set, and held ones that a checkpoint has let go. -/
def coreAhead (s : State) (core : Nat) (sc : Scope) : List Nat :=
  (s.flights.filter fun f => f.core == core && f.op.isNone && f.entry.accs.any (drains sc)).map (·.entry.id) ++
  s.warps.flatMap fun w =>
    if w.core == core then (w.held.filter fun x => x.entry.id < w.matched && x.entry.accs.any (drains sc)).map (·.entry.id) else []
/-- Stores in the queues and the pending set of a core, to the memory that a scope names. -/
def coreStores (s : State) (core : Nat) (sc : Scope) : List Nat :=
  let q := s.warps.flatMap fun w => if w.core == core then (w.queue.filter fun e => e.accs.any (drains sc)).map (·.id) else []
  q ++ coreAhead s core sc
/-- FENCESC waits for its steps (R114). -/
def execFencesc (h : Hdr) (s : State) : Host.Outcome State Fault Refusal := issueH s h fun i =>
  atCheckpoint s i h.yh [] none fun s =>
    waitAt s i h.yh (.fencesc (coreStores s i.wp.core .slice) i.wp.cubeSeq none)

/-! ### Barriers -/

/-- The lowest active lane as INFO. -/
def lowAct (i : Iss) : Nat := lowest i.act
/-- The group checks of R204: validity, then membership. -/
def groupCheck (s : State) (i : Iss) (g : Nat) (go : Group → State) : State :=
  match groupOf (i.block s) g with
  | none => takeTrap s i.w i.bn i.pc 0x07 0 g (lowAct i)
  | some gr => if gr.members.getLsbD i.wp.idx then go gr else takeTrap s i.w i.bn i.pc 0x08 0 g (lowAct i)
/-- An arrival joins those whose release condition is waited for (R112, R204). -/
def arrive (s : State) (i : Iss) (g : Nat) : State :=
  let own := i.wp.queue.map (·.id) ++ (s.loads.filter fun l => l.warp == i.w && l.due.isNone).map (·.id)
  let a : Arrival := ⟨i.w, i.act, own, i.wp.cubeSeq⟩
  setBlock s i.wp.blk fun b =>
    { b with groups := b.groups.map fun x => if x.g == g then { x with waiting := x.waiting ++ [a] } else x }
/-- BAR arrives and waits for the phase. -/
def execBar (h : Hdr) (g : Byte) (s : State) : Host.Outcome State Fault Refusal := issueH s h fun i =>
  groupCheck s i g.toNat fun gr =>
    atCheckpoint s i h.yh [] none fun s => waitAt (arrive s i g.toNat) i h.yh (.barrier g.toNat [gr.phase])
/-- BARA arrives and gives the phase counter of its arrival. -/
def execBara (h : Hdr) (g d : Byte) (s : State) : Host.Outcome State Fault Refusal := issueH s h fun i =>
  groupCheck s i g.toNat fun gr =>
    atCheckpoint s i h.yh [] none fun s =>
      computeBody (arrive s i g.toNat) i h.yh h.la.toNat 4 (dstV d false) fun _ _ => ([.v d false (gr.phase.zeroExtend 64)], 0)
/-- Values of A[31:0] in the active threads. -/
def laneWords (i : Iss) (a : Byte) : List Word := (lanesOf i.act).map fun l => (rdV i.lead (threadOf i.wp l) a).extractLsb' 0 32
def execBarw (h : Hdr) (g a : Byte) (s : State) : Host.Outcome State Fault Refusal := issueH s h fun i =>
  groupCheck s i g.toNat fun gr =>
    if (laneWords i a).contains gr.phase then waitAt s i h.yh (.barrier g.toNat (laneWords i a)) else finish s i h.yh

/-! ### Sync words -/

/-- The offset check of SWARM and SYNCW (R205). -/
def syncCheckOff (i : Iss) (kib : Nat) (a : Byte) : Option AccFault :=
  let off (t : Thread) : Nat := ((rdV i.lead t a).extractLsb' 0 32 : Word).toNat
  firstBad i 3 1 (fun t => badOffset kib 16 (off t)) off
def syncOff (i : Iss) (a : Byte) (l : Nat) : Nat := ((rdV i.lead (threadOf i.wp l) a).extractLsb' 0 32 : Word).toNat
/-- SWARM enters the queue as one entry; its updates are applied when the entry becomes core-visible (R205). -/
def execSwarm (h : Hdr) (rearm : Bool) (a b : Byte) (lit : Option Word) (s : State) : Host.Outcome State Fault Refusal :=
  issueH s h fun i =>
    match syncCheckOff i (i.part s).kib a with
    | some f => accTrap s i f
    | none =>
      let accs := (lanesOf i.act).map fun l =>
        { lane := l, addr := syncOff i a l, size := 16, cmp := 0, home := Place.scratch i.wp.part (syncOff i a l),
          data := (srcB32 i.lead lit b (threadOf i.wp l)).zeroExtend 1024 : LaneAcc }
      storeIssue s i h.yh (.swarm rearm) accs .plain .core h.ch
/-- SYNCW waits until every GEN has moved on (R95, R206). -/
def execSyncw (h : Hdr) (a b : Byte) (s : State) : Host.Outcome State Fault Refusal := issueH s h fun i =>
  match syncCheckOff i (i.part s).kib a with
  | some f => accTrap s i f
  | none =>
    match (lanesOf i.act).find? fun l => scratchPoisoned s i.wp.part (syncOff i a l + 8) with
    | some l => poisonTrap s i.w i.bn i.pc (syncOff i a l) l 1
    | none =>
      let words := (lanesOf i.act).map fun l => (syncOff i a l, ((rdV i.lead (threadOf i.wp l) b).extractLsb' 0 32 : Word))
      if waitOver s i.w (.sync words) then joinL1 (finish s i h.yh) i.w else waitAt s i h.yh (.sync words)
/-- WAITSEQ waits for the greatest number that an active thread names (R207). -/
def execWaitseq (h : Hdr) (eng : Engine) (a : Byte) (s : State) : Host.Outcome State Fault Refusal := issueH s h fun i =>
  let num := (lanesOf i.act).foldl (fun m l => max m (rdD i.lead (threadOf i.wp l) a).toNat) 0
  let x := Wait.seq eng (logicalCore s (i.block s).vf i.wp.core) num
  if waitOver s i.w x then joinL1 (finish s i h.yh) i.w else waitAt s i h.yh x

/-! ### The decision queue -/

/-- DQPOST: the tag check, a discard, an append, or a wait on a full queue (R30, R208). -/
def execDqpost (h : Hdr) (tagged : Bool) (a b : Byte) (s : State) : Host.Outcome State Fault Refusal := issueH s h fun i =>
  let t := threadOf i.wp 0
  let tag := (rdV true t b).toNat % 256
  let p := i.part s
  let blk := i.block s
  let perPart := blk.nWarps / blk.nParts
  let mine := tag / perPart == p.log && tag < blk.nWarps
  if tagged && !mine then takeTrap s i.w i.bn i.pc 0x0C 0 tag 0
  else if tagged && (warpOf s (blk.firstWarp + tag)).retired then finish s i h.yh
  else
    let e : DqEntry := ⟨if tagged then some tag else none, rdV true t a, i.wp.queue.map (·.id), false⟩
    if p.dq.length < Config.dqSize then
      dqServe (finish (setPart s i.wp.part fun p => { p with dq := p.dq ++ [e] }) i h.yh) i.wp.part
    else waitAt s i h.yh (.dqFull e)
/-- DQTAKE takes the oldest entry that matches, waits, or faults where the lead is gone (R30, R208, R331). -/
def execDqtake (h : Hdr) (d : Byte) (s : State) : Host.Outcome State Fault Refusal := issueH s h fun i =>
  let p := i.part s
  match dqFind s i.wp.part i.wp.idx with
  | some k =>
    if (p.dq.getD k DqEntry.nil).bad then poisonTrap s i.w i.bn i.pc 0 (lowAct i) 1
    else dqServe (dqTakeInto (finish s i h.yh) i.w i.act d h.la.toNat i.wp.part k) i.wp.part
  | none =>
    if dqDead s i.wp.part i.w then
      takeTrap s i.w i.bn i.pc 0x10 0 0 (lowAct i)
    else
      let (order, s) := fresh s
      waitAt s i h.yh (.dqEmpty d h.la.toNat order)

end Sys2Proof.Machine
end

