-- ==== Sys2Proof/Machine/Chain.lean ====
section
/-! DEFINITION. Engine chains: ring slots (R235, R274), the append of R236, and the checks that a copy or marker record
passes at issue or in a segment (R240, R242, R243). -/

namespace Sys2Proof.Machine

/-- Index of an engine's ring (R274). -/
def engIndex : Engine → Nat
  | .cube => 0 | .cpy0 => 1 | .cpy1 => 2 | .fab => 3
/-- Address of a ring slot (R274). -/
def ringSlot (cx : Ctx) (lcore : Nat) (eng : Engine) (slot : Nat) : Nat :=
  cx.desc.chain + (4 * lcore + engIndex eng) * 16384 + 64 * slot
/-- The chain of an issue. -/
def chainFor (s : State) (i : Iss) (eng : Engine) : Chain :=
  let b := i.block s
  chainOf (ctxOf s b.vf b.ctx) (logicalCore s b.vf i.wp.core) eng
/-- The next slot is still in use (R236, step 4). -/
def slotBusy (c : Chain) : Bool := c.recs.any fun r => r.slot == c.tail && !r.done

/-- What an append takes beside the record's bytes: the numbers it reserves, the storage it names, and RH. -/
structure AppendIn where
  eng : Engine
  bytes : List Byte
  count : Nat
  uses : List Nat
  rh : Bool
  link : Bool := false

/-- A record appended to its chain (R236, steps 4 to 6), which is a checkpoint where its warp holds stores that none has matched, since
the operation waits for them (R116, R360, log entry 45): the slot's address is translated as for a store; what follows
gets the last number. A chain whose next slot is in use holds the instruction back. -/
def appendRec (s : State) (i : Iss) (a : AppendIn) (go : State → Nat → State) : State :=
  let b := i.block s
  let lc := logicalCore s b.vf i.wp.core
  let ch := chainFor s i a.eng
  if slotBusy ch then s else
  let va := ringSlot (ctxOf s b.vf b.ctx) lc a.eng ch.tail
  match translate s i.wp.core b.vf b.ctx va .store with
  | (s, .err e) => xlateFault s i.w i.bn i.pc 5 va (lowest i.act) 0 true e
  | (s, .ok p) =>
    checkpointIf (!(unmatched s i.w).isEmpty) s i false fun s =>
    let s := match p with
      | .dev pa => touchHome s i.wp.core b.vf b.ctx .normal pa
      | _ => countIo s b.vf (if isHost p then 1 else 2) a.bytes.length
    let s := homeWrite s 0 (a.bytes.mapIdx fun k x => (p.plus k, x))
    let (order, s) := fresh s
    let own := (i.wp.queue.filter fun e => e.acq || e.accs.any (drains .system)).map (·.id)
    let ahead := coreAhead s i.wp.core .system
    let reads := (s.loads.filter fun l => l.warp == i.w && l.due.isNone).map (·.id)
    let r : Rec := { slot := ch.tail, seq := ch.seq + 1, count := a.count, order, blk := i.wp.blk, part := i.wp.part,
                     warp := i.w, core := i.wp.core, fork := own ++ ahead ++ reads, started := false, done := false,
                     twin := isTwin s i.wp.blk && !(isPrimary s i.wp.blk), uses := a.uses, rh := a.rh, pc := i.pc,
                     link := a.link }
    let s := setChain s b.vf b.ctx lc a.eng fun c =>
      { c with tail := (c.tail + 1) % Config.ringSlots, seq := c.seq + a.count, recs := c.recs ++ [r] }
    let s := if isTwin s i.wp.blk then setWarp s i.w fun w => { w with sig := crcBytes w.sig a.bytes } else s
    go s (ch.seq + a.count)

/-- D receives the number in every active thread, 4 ck after issue (Table 9-10). -/
def giveSeq (h : Hdr) (d : Byte) (i : Iss) (s : State) (n : Nat) : State :=
  computeBody s i h.yh h.la.toNat 4 (dstW true d i.lead) fun _ _ => ([.v d true (BitVec.ofNat 64 n)], 0)

/-! ### Copy records -/

/-- The fields of a copy, LINK or MARK record (Table 9-11). -/
structure CopyRec where
  ty : Nat
  flags : Byte
  arg : Byte
  warp : Nat
  swoff : Nat
  dst : Nat
  src : Nat
  sh0 : Nat
  sh1 : Nat
  next : Nat
deriving DecidableEq, Repr

def CopyRec.ds (r : CopyRec) : Bool := r.flags.getLsbD 0
def CopyRec.ss (r : CopyRec) : Bool := r.flags.getLsbD 1
def CopyRec.swe (r : CopyRec) : Bool := r.flags.getLsbD 2
/-- Row bytes, rows, strides of CPY2; row bytes and rows of CPYG and CPYS. -/
def CopyRec.rowBytes (r : CopyRec) : Nat := r.sh0 % 2 ^ 24
def CopyRec.rows (r : CopyRec) : Nat := r.sh0 / 2 ^ 24 % 2 ^ 24
def CopyRec.dstride (r : CopyRec) : Nat := r.sh1 % 2 ^ 32
def CopyRec.sstride (r : CopyRec) : Nat := r.sh1 / 2 ^ 32
/-- A record in its 64 bytes. -/
def CopyRec.bytes (r : CopyRec) : List Byte :=
  bytesOf 1 r.ty ++ [r.flags, r.arg] ++ bytesOf 1 r.warp ++ bytesOf 4 r.swoff ++ bytesOf 8 0 ++ bytesOf 8 r.dst ++
  bytesOf 8 r.src ++ bytesOf 8 r.sh0 ++ bytesOf 8 r.sh1 ++ bytesOf 8 0 ++ bytesOf 8 r.next
/-- A record read from its bytes. -/
def CopyRec.ofBytes (bs : List Byte) : CopyRec :=
  { ty := fieldOf bs 0 1, flags := bs.getD 1 0, arg := bs.getD 2 0, warp := fieldOf bs 3 1, swoff := fieldOf bs 4 4,
    dst := fieldOf bs 0x10 8, src := fieldOf bs 0x18 8, sh0 := fieldOf bs 0x20 8, sh1 := fieldOf bs 0x28 8,
    next := fieldOf bs 0x38 8 }

/-- A byte count that a copy refuses (R240). -/
def badCount (n : Nat) : Bool := n == 0 || n % 16 != 0 || 2 ^ 32 - 16 < n
/-- Commands that copy rows. -/
def CopyRec.isRows (r : CopyRec) : Bool := r.ty == 2 || r.ty == 3 || r.ty == 4
/-- Bytes of the source and of the destination where the record alone says so; a gathered or scattered side does not. -/
def CopyRec.dstExtent (r : CopyRec) : Option Nat :=
  if r.ty == 2 then some ((r.rows - 1) * r.dstride + r.rowBytes)
  else if r.ty == 3 then some (r.rows * r.rowBytes)
  else if r.ty == 4 then none
  else if r.ty == 8 then some (64 * r.sh0)
  else if r.ty == 0x0A then some 8
  else some r.sh0
def CopyRec.srcExtent (r : CopyRec) : Option Nat :=
  if r.ty == 2 then some ((r.rows - 1) * r.sstride + r.rowBytes)
  else if r.ty == 3 then none
  else if r.ty == 4 then some (r.rows * r.rowBytes)
  else if r.ty == 8 then some (256 * r.sh0)
  else if r.ty == 7 || r.ty == 0x0A then some 0
  else some r.sh0
/-- A range that leaves a scratchpad. -/
def badRange (kib at' : Nat) (n : Option Nat) : Bool :=
  match n with | some n => kib * 1024 < at' + n | none => kib * 1024 ≤ at'
/-- The run-time checks of R240 and R243 on a record of a part: cause, and the address it concerns. -/
def CopyRec.check (r : CopyRec) (sl : Slice) (kib parts : Nat) : Option (Nat × Nat) :=
  let al := if r.ty == 0x0A then 8 else 16
  let hasSrc := r.ty != 7 && r.ty != 0x0A
  if r.dst % al != 0 || (!r.ds && r.ty != 5 && 2 ^ 52 ≤ r.dst) then some (3, r.dst)
  else if hasSrc && (r.src % 16 != 0 || (!r.ss && 2 ^ 52 ≤ r.src)) then some (3, r.src)
  else if r.ty == 2 && (r.dstride % 16 != 0 || r.sstride % 16 != 0) then some (3, r.dst)
  else if (r.ty == 3 || r.ty == 4) && (r.sh1 % 4 != 0 || 2 ^ 52 ≤ r.sh1) then some (3, r.sh1)
  else if (r.ty == 1 || r.ty == 5 || r.ty == 6 || r.ty == 7) && badCount r.sh0 then some (3, r.dst)
  else if r.isRows && (badCount r.rowBytes || r.rows == 0 || 2 ^ 48 ≤ r.sh0) then some (3, r.dst)
  else if r.ty == 8 && (r.sh0 == 0 || 2 ^ 24 < r.sh0) then some (3, r.dst)
  else if r.ds && badRange kib r.dst r.dstExtent then some (3, r.dst)
  else if r.ss && hasSrc && badRange kib r.src r.srcExtent then some (3, r.src)
  else if r.swe && (r.swoff % 16 != 0 || kib * 1024 < r.swoff + 16) then some (3, r.swoff)
  else if r.ty == 5 && (List.range 4).any (fun k => r.arg.getLsbD k && parts ≤ k) then some (5, r.dst)
  else if r.ty == 6 && !(peerReachable sl r.arg.toNat) then some (6, r.dst)
  else if r.ty == 0x0A && r.arg != 0 && !(peerReachable sl r.arg.toNat) then some (6, r.dst)
  else none

end Sys2Proof.Machine
end

