-- ==== Sys2Proof/Machine/Copy.lean ====
section
/-! DEFINITION. Copy commands, CHLINK and CHMARK at issue (R239 to R243). -/

namespace Sys2Proof.Machine

/-- The engine of a copy command, and its record TYPE. -/
def cpyEngine (o : CpyOp) : Engine := if o.eng1 then .cpy1 else .cpy0
/-- Index of the agent in records (Table 9-11). -/
def recIssuer (i : Iss) : Nat := if i.lead then 0xFF else i.wp.idx
/-- Sync word named by LIT (R239). -/
def litSwe (lit : Option Word) : Bool := match lit with | some l => l.getLsbD 0 | none => false
def litSwoff (lit : Option Word) : Nat :=
  match lit with | some l => if l.getLsbD 0 then (l &&& ~~~(0xF#32)).toNat else 0 | none => 0
/-- FLAGS of a record. -/
def recFlagByte (ds ss swe : Bool) : Byte := (if ds then 1 else 0) ||| (if ss then 2 else 0) ||| (if swe then 4 else 0)
/-- Shape words (R239). -/
def shape0 (i : Iss) (t : Thread) (c : Byte) : Nat := (rdD i.lead t c).toNat
def shape1 (i : Iss) (t : Thread) (c : Byte) : Nat := (rdD i.lead t (if i.lead then c + 1 else c + 2)).toNat
/-- The record of a copy command. -/
def cpyRec (i : Iss) (ty : Nat) (arg : Byte) (o : CpyOp) : CopyRec :=
  let t := threadOf i.wp (lowest i.act)
  { ty, flags := recFlagByte o.ds o.ss (litSwe o.lit), arg, warp := recIssuer i, swoff := litSwoff o.lit,
    dst := (rdD i.lead t o.a).toNat, src := if ty == 7 then 0 else (rdD i.lead t o.b).toNat, sh0 := shape0 i t o.c,
    sh1 := if ty == 2 || ty == 3 || ty == 4 then shape1 i t o.c else 0, next := 0 }
/-- A record checked, compared with the other copy where it writes global memory (R360), and appended. -/
def issueRec (s : State) (i : Iss) (h : Hdr) (eng : Engine) (d : Byte) (r : CopyRec) (global : Bool) : State :=
  let b := i.block s
  match r.check (sliceOf s b.vf) (i.part s).kib b.nParts with
  | some (cause, addr) => takeTrap s i.w i.bn i.pc cause 1 addr (lowest i.act)
  | none =>
    checkpointIf global s i h.yh fun s =>
      appendRec s i ⟨eng, r.bytes, 1, [], h.rh, false⟩ (giveSeq h d i)
/-- CPY to CPYS and CPYQ differ in their record alone. -/
def cpyIssue (ty : Nat) (h : Hdr) (o : CpyOp) (s : State) (i : Iss) : State :=
  issueRec s i h (cpyEngine o) o.d (cpyRec i ty (if ty == 8 then o.ext.zeroExtend 8 &&& 3 else 0) o) (!o.ds)
def execCpy (h : Hdr) (o : CpyOp) (s : State) : Host.Outcome State Fault Refusal := issueH s h (cpyIssue 1 h o s)
def execCpy2 (h : Hdr) (o : CpyOp) (s : State) : Host.Outcome State Fault Refusal := issueH s h (cpyIssue 2 h o s)
def execCpyg (h : Hdr) (o : CpyOp) (s : State) : Host.Outcome State Fault Refusal := issueH s h (cpyIssue 3 h o s)
def execCpys (h : Hdr) (o : CpyOp) (s : State) : Host.Outcome State Fault Refusal := issueH s h (cpyIssue 4 h o s)
def execCpyq (h : Hdr) (o : CpyOp) (s : State) : Host.Outcome State Fault Refusal := issueH s h (cpyIssue 8 h o s)
/-- CPYB writes scratchpads alone. -/
def execCpyb (h : Hdr) (o : CpyOp) (s : State) : Host.Outcome State Fault Refusal := issueH s h fun i =>
  issueRec s i h (cpyEngine o) o.d (cpyRec i 5 (o.ext.zeroExtend 8 &&& 15) o) false
/-- CPYF runs on the fabric send unit. -/
def execCpyf (h : Hdr) (o : CpyOp) (s : State) : Host.Outcome State Fault Refusal := issueH s h fun i =>
  issueRec s i h .fab o.d (cpyRec i 6 (o.ext.zeroExtend 8) o) true
def execCpyfl (h : Hdr) (o : CpyOp) (s : State) : Host.Outcome State Fault Refusal := issueH s h fun i =>
  issueRec s i h (cpyEngine o) o.d (cpyRec i 7 0 o) false

/-- CHLINK reserves `m` numbers (R242). -/
def execChlink (h : Hdr) (o : ChlinkOp) (s : State) : Host.Outcome State Fault Refusal := issueH s h fun i =>
  let t := threadOf i.wp (lowest i.act)
  let a := (rdD i.lead t o.a).toNat
  let m := ((rdV i.lead t o.b).extractLsb' 0 32 : Word).toNat
  if a % 64 != 0 || 2 ^ 52 ≤ a || m == 0 || 256 < m then takeTrap s i.w i.bn i.pc 3 1 a (lowest i.act)
  else
    let r : CopyRec := ⟨9, 0, 0, recIssuer i, 0, a, 0, m, 0, 0⟩
    appendRec s i ⟨o.eng, r.bytes, m, [], h.rh, true⟩ (giveSeq h o.d i)
/-- CHMARK (R243): a checkpoint of a twin where it writes global memory or a peer. -/
def execChmark (h : Hdr) (o : ChmarkOp) (s : State) : Host.Outcome State Fault Refusal := issueH s h fun i =>
  let t := threadOf i.wp (lowest i.act)
  let r : CopyRec :=
    ⟨0x0A, recFlagByte o.ds false (litSwe o.lit), o.peer.zeroExtend 8, recIssuer i, litSwoff o.lit, (rdD i.lead t o.a).toNat, 0, 0, 0, 0⟩
  issueRec s i h o.eng o.d r (!o.ds || o.peer != 0)

end Sys2Proof.Machine
end

