-- ==== Sys2Proof/Machine/Cube.lean ====
section
/-! DEFINITION. Cube ownership and cube operations at issue (R213 to R226, R245). -/

namespace Sys2Proof.Machine

/-! ### Ownership -/

def queuedAt (c : Core) (w : Nat) : Bool := c.cubeq.any (·.warp == w)
/-- CACQ (R214). -/
def execCacq (h : Hdr) (pri : BitVec 2) (s : State) : Host.Outcome State Fault Refusal := issueH s h fun i =>
  let c := coreOf s i.wp.core
  if c.owner == some i.w then finish s i h.yh
  else
    let s1 := waitAt s i h.yh .cacq
    if queuedAt c i.w then s1
    else grantCube (setCore s1 i.wp.core fun c => { c with cubeq := c.cubeq ++ [⟨i.w, pri.toNat⟩] }) i.wp.core
/-- CREL (R214). -/
def execCrel (h : Hdr) (s : State) : Host.Outcome State Fault Refusal := issueH s h fun i =>
  let c := coreOf s i.wp.core
  let s1 := finish s i h.yh
  if c.owner == some i.w then giveUpCube (endCacq s1 i.w) i.wp.core
  else if queuedAt c i.w then
    let s2 := setCore s1 i.wp.core fun c => { c with cubeq := c.cubeq.filter (·.warp != i.w) }
    endCacq (setWarp s2 i.w fun w => { w with owned := none }) i.w
  else s1

/-! ### Formats and maps -/

/-- Class of a format: 0 FP8, 1 I8, 2 16-bit, 3 F32, 4 log (Table 9-2). -/
def fmtClass : CubeFmt → Nat
  | .e4m3 | .e5m2 => 0 | .i8 => 1 | .bf16 | .f16 => 2 | .f32 => 3 | .log => 4
/-- KT, K and cube steps per KT of a class (Table 9-2). -/
def classKt (c : Nat) : Nat := if c == 2 then 32 else if c == 3 then 16 else 64
def classK (c : Nat) : Nat := if c == 2 then 16 else if c == 3 then 4 else if c == 4 then 64 else 32
def classSteps (c : Nat) : Nat := if c == 3 then 4 else if c == 4 then 1 else 2
/-- A map whose kind and LN agree (Table 9-5). -/
def mapOk (m : IdxMap) : Bool := (m.kind == .identity) == (m.ln == 0)
/-- The value of a map (R216), and the extent of its values below `ktot` (R225). -/
def mapAt (m : IdxMap) (k : Nat) : Nat :=
  match m.kind with | .identity => k | .modN => k % 2 ^ m.ln.toNat | .divN => k / 2 ^ m.ln.toNat
def mapExtent (m : IdxMap) (ktot : Nat) : Nat :=
  match m.kind with
  | .identity => ktot
  | .modN => min (2 ^ m.ln.toNat) ktot
  | .divN => (ktot + 2 ^ m.ln.toNat - 1) / 2 ^ m.ln.toNat

/-! ### Operand records -/

/-- An operand record (Table 9-7). -/
structure OpRec where
  base : Nat
  stride : Nat
  pad2 : Nat
  rows : Nat
  fmt : Nat
  space : Bool
  pad3 : Nat
deriving DecidableEq, Repr

def OpRec.ofNat (x : Nat) : OpRec :=
  { base := x % 2 ^ 64, stride := x / 2 ^ 64 % 2 ^ 24, pad2 := x / 2 ^ 88 % 2 ^ 8, rows := x / 2 ^ 96 % 2 ^ 16,
    fmt := x / 2 ^ 112 % 8, space := x.testBit 115, pad3 := x / 2 ^ 116 % 2 ^ 12 }
/-- The record in four registers of a thread, as 128 bits. -/
def opRecBits (t : Thread) (r : Byte) : Nat :=
  (vreg t (r.toNat + 3) ++ vreg t (r.toNat + 2) ++ vreg t (r.toNat + 1) ++ vreg t r.toNat : BitVec 128).toNat
/-- What R226 asks of any record, beside its ROWS. -/
def OpRec.formOk (r : OpRec) (kib : Nat) : Bool :=
  r.pad2 == 0 && r.pad3 == 0 && r.fmt != 7 && r.base % 64 == 0 && r.stride % 64 == 0 && 64 ≤ r.stride && 1 ≤ r.rows &&
  (if r.space then r.base < 2 ^ 32 && r.base + (r.rows - 1) * r.stride + 64 ≤ kib * 1024 else r.base < 2 ^ 52)
def OpRec.cls (r : OpRec) : Nat := ((CubeFmt.ofCode (BitVec.ofNat 3 r.fmt)).map fmtClass).getD 5
/-- ⌈a / b⌉. -/
def ceilNat (a b : Nat) : Nat := (a + b - 1) / b
/-- ROWS of the B and C records for a shared extent (R225). -/
def bRows (f : Frame) (kt ktot : Nat) : Nat := 32 * ceilNat (mapExtent f.beta ktot) kt
def cRows (f : Frame) (kt ktot : Nat) : Nat :=
  (match f.ori with | .cj => 32 | .ci => 64 | .ck => 1) * ceilNat (mapExtent f.kappa ktot) kt
/-- The failing clause of Table 9-5 for operand records, as SUB (R226, Table 16-2). -/
def vLegal (f : Frame) (kib : Nat) (a b : OpRec) (c : Option OpRec) : Option Nat :=
  let kt := classKt a.cls
  let ktot := kt * (a.rows / 64)
  let mixed (x : OpRec) : Bool := x.fmt != 7 && a.fmt != 7 && x.cls != a.cls
  if mixed b || (c.map mixed).getD false then some 1
  else if !(mapOk f.beta) || !(mapOk f.kappa) then some 2
  else if !(a.formOk kib) || a.rows % 64 != 0 || 1023 < a.rows / 64 then some 3
  else if !(b.formOk kib) || b.rows != bRows f kt ktot then some 4
  else match c with
    | some c => if !(c.formOk kib) || c.rows != cRows f kt ktot then some 5 else none
    | none => none

/-! ### Records and issue -/

/-- The 64 bytes of a cube record (Table 9-12). -/
def cubeBytes (ty acc warp : Nat) (f : Frame) (rows : Mask) (a b c : Nat) : List Byte :=
  bytesOf 1 ty ++ bytesOf 1 acc ++ bytesOf 1 warp ++ [0] ++ bytesOf 4 f.toBits.toNat ++ bytesOf 8 rows.toNat ++
  bytesOf 16 a ++ bytesOf 16 b ++ bytesOf 16 c
/-- The ownership check (R213, R215): a restored owner that ownership has not reached stalls and does not fault. -/
def ownerCheck (s : State) (i : Iss) (go : State) : State :=
  if (coreOf s i.wp.core).owner == some i.w then go
  else if i.wp.owned.isSome then s
  else takeTrap s i.w i.bn i.pc 0x09 0 0 (lowest i.act)
def illegalCube (s : State) (i : Iss) (sub : Nat) : State := takeTrap s i.w i.bn i.pc 0x0A sub 0 (lowest i.act)
/-- The warp's cube operations noted (R113): every one appended so far has an order below this. -/
def noteCube (s : State) (w : Nat) : State := setWarp s w fun x => { x with cubeSeq := s.nextId }
/-- A cube operation appended; the cube's operations are counted (Table 12-3). -/
def cubeAppend (s : State) (i : Iss) (h : Hdr) (bytes : List Byte) (uses : List Nat) (go : State → Nat → State) : State :=
  appendRec s i ⟨.cube, bytes, 1, uses, h.rh, false⟩ fun s n =>
    go (count (noteCube s i.w) (i.block s).vf (i.block s).ctx 3 1 1) n
/-- TMAC, MMAC and CSPMAC (R219 to R222, R245): they complete at issue and give no number. -/
def tileForm (ty : Nat) (h : Hdr) (o : CubeOp) (fmts : List CubeFmt) (legalCls : Nat → Bool) (tiles : List Nat)
    (s : State) (i : Iss) : State :=
  ownerCheck s i <|
    let cls := fmts.map fmtClass
    if (cls.any fun c => c != cls.headD 0) || !(legalCls (cls.headD 0)) then illegalCube s i 1
    else if !(mapOk o.fr.beta) || !(mapOk o.fr.kappa) then illegalCube s i 2
    else
      let bytes := cubeBytes ty o.d.toNat i.wp.idx o.fr i.act o.a.toNat o.b.toNat (if ty == 0x11 then 0 else o.c.toNat)
      cubeAppend s i h bytes ((2048 + o.d.toNat) :: tiles.map (1024 + ·)) fun s _ => finish s i h.yh
def execTmac (h : Hdr) (o : CubeOp) (s : State) : Host.Outcome State Fault Refusal :=
  issueH s h (tileForm 0x10 h o [o.fr.af, o.fr.bf, o.fr.cf] (fun _ => true) [o.a.toNat, o.b.toNat, o.c.toNat] s)
def execMmac (h : Hdr) (o : CubeOp) (s : State) : Host.Outcome State Fault Refusal :=
  issueH s h (tileForm 0x11 h o [o.fr.af, o.fr.bf] (fun _ => true) [o.a.toNat, o.b.toNat] s)
def execCspmac (h : Hdr) (o : CubeOp) (s : State) : Host.Outcome State Fault Refusal :=
  issueH s h (tileForm 0x14 h o [o.fr.af, o.fr.bf] (· < 3) [o.a.toNat, o.b.toNat, o.b.toNat + 1, o.c.toNat] s)
/-- TMACV and MMACV (R224 to R226). -/
def vForm (ty : Nat) (h : Hdr) (o : CubeVOp) (hasC : Bool) (s : State) (i : Iss) : State :=
  ownerCheck s i <|
    let t := threadOf i.wp (lowest i.act)
    let a := opRecBits t o.a
    let b := opRecBits t o.b
    let c := if hasC then opRecBits t o.c else 0
    let s0 := setWarp s i.w fun w => { w with rowprog := 0 }
    match vLegal o.fr (i.part s).kib (OpRec.ofNat a) (OpRec.ofNat b) (if hasC then some (OpRec.ofNat c) else none) with
    | some sub => illegalCube (if 3 ≤ sub then s0 else s) i sub
    | none =>
      cubeAppend s i h (cubeBytes ty o.acc.toNat i.wp.idx o.fr i.act a b c) [2048 + o.acc.toNat] fun s n =>
        giveSeq h o.d i (setWarp s i.w fun w => { w with rowprog := 0 }) n
def execTmacv (h : Hdr) (o : CubeVOp) (s : State) : Host.Outcome State Fault Refusal := issueH s h (vForm 0x12 h o true s)
def execMmacv (h : Hdr) (o : CubeVOp) (s : State) : Host.Outcome State Fault Refusal := issueH s h (vForm 0x13 h o false s)

end Sys2Proof.Machine
end

