-- ==== Sys2Proof/Machine/CubeRun.lean ====
section
/-! DEFINITION. The arithmetic of cube operations on rows of operands (R61, R62, R216 to R219, R222, R225, R245). -/

namespace Sys2Proof.Machine

/-! ### Elements and products -/

/-- An operand's format and the row and element that a product takes from it. -/
structure Elem where
  fmt : CubeFmt
  row : TileRow
  x : Nat
deriving DecidableEq, Repr

def elemBits : CubeFmt → Nat
  | .e4m3 | .e5m2 | .i8 | .log => 8 | .bf16 | .f16 => 16 | .f32 => 32
/-- The value of a plain element with its row's scale (R61, R217). -/
def Elem.val (e : Elem) : Val :=
  let n := elemBits e.fmt
  let bits := (e.row.data.extractLsb' (n * e.x) n).toNat
  let v : Val := match e.fmt with
    | .e4m3 => Fmt.e4m3.unpack bits
    | .e5m2 => Fmt.e5m2.unpack bits
    | .bf16 => Fmt.bf16.unpack bits
    | .f16 => Fmt.f16.unpack bits
    | .f32 => Fmt.f32.unpack bits
    | .i8 | .log => let k := (BitVec.ofNat 8 bits).toInt; .fin (k < 0) k.natAbs 0
  v.scale (sbyte e.row.sc)
/-- Sign and aligned exponent of a log element; none for a zero (R55, R61). -/
def Elem.log (e : Elem) : Bool × Option Int :=
  lgElem (blockCode e.row.data) (blockElem e.row.data (blockCode e.row.data) e.x) (sbyte e.row.sc)
/-- The stage-1 product of some elements (R61). -/
def productOf (es : List Elem) : Prod :=
  if es.any fun e => e.fmt == .log then
    let ls := es.map Elem.log
    let neg := ls.foldl (fun n l => n != l.1) false
    match ls.foldl (fun (a : Option Int) l => a.bind fun x => l.2.map fun y => x + y) (some 0) with
    | some e8 => (ofE8 neg e8, false)
    | none => (.fin neg 0 0, false)
  else
    let vs := es.map Elem.val
    if vs.any (·.isZero) && vs.any (·.isInf) then (.nan, true)
    else (vs.foldl (fun a v => (a.mul v).1) (.fin false 1 0), false)
/-- The zero product of a position that compressed A leaves out (R245). -/
def zeroProduct : Prod := (.fin false 0 0, false)

/-- Groups of K consecutive products added in ascending order (R62, R222). -/
def addGroups (k groups : Nat) (prod : Nat → Prod) (acc : Nat) : Nat × Flags :=
  (List.range groups).foldl (fun (a : Nat × Flags) g =>
    let r := groupSum a.1 ((List.range k).map fun m => prod (g * k + m))
    (r.1, a.2 ||| r.2)) (acc, 0)
/-- One accumulator row: its 32 elements and the flags of the row. -/
def addRow (k groups : Nat) (prod : Nat → Nat → Prod) (za : Bool) (row : BitVec 1024) : BitVec 1024 × Flags :=
  let cells := (List.range 32).map fun j => addGroups k groups (prod j) (if za then 0 else (accElem row j).toNat)
  (accOf (cells.map fun c => BitVec.ofNat 32 c.1), cells.foldl (fun f c => f ||| c.2) 0)

/-! ### Tile forms -/

/-- Operands of a tile form as its record names them. -/
structure TileArgs where
  ty : Nat
  fr : Frame
  rows : Mask
  acc : Nat
  a : Nat
  b : Nat
  c : Nat
deriving DecidableEq, Repr

/-- A cube record read as a tile form (Table 9-12); none where its framing has no meaning. -/
def TileArgs.ofBytes (bs : List Byte) : Option TileArgs :=
  (Frame.ofBits (BitVec.ofNat 32 (fieldOf bs 4 4))).map fun fr =>
    { ty := fieldOf bs 0 1, fr, rows := BitVec.ofNat 64 (fieldOf bs 8 8), acc := fieldOf bs 1 1, a := fieldOf bs 0x10 1,
      b := fieldOf bs 0x20 1, c := fieldOf bs 0x30 1 }
def TileArgs.cls (t : TileArgs) : Nat := fmtClass t.fr.af
/-- Rows that the operation reads: operand, tile and row, in the order in which a bad one is found (R222). -/
def TileArgs.reads (t : TileArgs) : List (Nat × Nat × Nat) :=
  let sel := lanesOf t.rows
  let cols (base : Nat) : List Nat := (List.range 32).map (base + ·)
  let half (h : Bool) : Nat := if h then 32 else 0
  let as := sel.map fun r => (0, t.a, r)
  if t.ty == 0x14 then
    as ++ (cols 0).map (fun r => (1, t.b, r)) ++ (cols 0).map (fun r => (1, t.b + 1, r)) ++ sel.map fun r => (2, t.c, r)
  else
    as ++ (cols (half t.fr.bh)).map (fun r => (1, t.b, r)) ++
    (if t.ty != 0x10 then []
     else match t.fr.ori with
      | .cj => (cols (half t.fr.chalf)).map fun r => (2, t.c, r)
      | .ci => sel.map fun r => (2, t.c, r)
      | .ck => [(2, t.c, t.fr.crow.toNat)])
/-- Format of an operand. -/
def TileArgs.fmt (t : TileArgs) (operand : Nat) : CubeFmt :=
  if operand == 0 then t.fr.af else if operand == 1 then t.fr.bf else t.fr.cf
/-- The check of R222 on a row: SUB 1 or 3. -/
def rowBad (log : Bool) (r : TileRow) : Option Nat :=
  let code := blockCode r.data
  if log && lgReserved code then some 1
  else if r.sc == 0x80 && !(log && code == 0) then some 3 else none
/-- Positions of logical group `h` in a row of metadata (R245). -/
def nibble (r : TileRow) (h : Nat) : Nat × Nat :=
  ((r.data.extractLsb' (4 * h) 2).toNat, (r.data.extractLsb' (4 * h + 2) 2).toNat)
/-- The failing row of a tile form: SUB, operand, tile and row (R222, R245). -/
def TileArgs.fault (t : TileArgs) (p : Part) : Option (Nat × Nat × Nat × Nat) :=
  let bad := t.reads.findSome? fun (o, tile, r) => (rowBad (t.fmt o == .log && t.ty != 0x14) (tileRow p tile r)).map fun sub => (sub, o, tile, r)
  match bad with
  | some f => some f
  | none =>
    if t.ty != 0x14 then none else
    ((lanesOf t.rows).find? fun r => (List.range (classKt t.cls / 2)).any fun h =>
      let (p0, p1) := nibble (tileRow p t.c r) h
      p1 ≤ p0).map fun r => (4, 2, t.c, r)
/-- The product of row i, column j at shared index k (R216, R219, R245). -/
def TileArgs.prod (t : TileArgs) (p : Part) (i j k : Nat) : Prod :=
  let kt := classKt t.cls
  let half (h : Bool) : Nat := if h then 32 else 0
  if t.ty == 0x14 then
    let h := k / 4
    let (p0, p1) := nibble (tileRow p t.c i) h
    let b : Elem := ⟨t.fr.bf, tileRow p (t.b + k / kt) j, k % kt⟩
    if k % 4 == p0 then productOf [⟨t.fr.af, tileRow p t.a i, 2 * h⟩, b]
    else if k % 4 == p1 then productOf [⟨t.fr.af, tileRow p t.a i, 2 * h + 1⟩, b]
    else zeroProduct
  else
    let a : Elem := ⟨t.fr.af, tileRow p t.a i, k⟩
    let b : Elem := ⟨t.fr.bf, tileRow p t.b (half t.fr.bh + j), mapAt t.fr.beta k⟩
    if t.ty == 0x11 then productOf [a, b]
    else
      let x := mapAt t.fr.kappa k
      let row := match t.fr.ori with | .cj => half t.fr.chalf + j | .ci => i | .ck => t.fr.crow.toNat
      productOf [a, b, ⟨t.fr.cf, tileRow p t.c row, x⟩]
/-- Groups of a tile form, and its cube steps (R217, R245). -/
def TileArgs.groups (t : TileArgs) : Nat :=
  (if t.ty == 0x14 then 2 * classKt t.cls else classKt t.cls) / classK t.cls
def TileArgs.steps (t : TileArgs) : Nat := if t.ty == 0x14 then 2 else classSteps t.cls

/-! ### Operand records -/

/-- An operation with operand records (Tables 9-7 and 9-12). -/
structure VArgs where
  ty : Nat
  fr : Frame
  rows : Mask
  acc : Nat
  a : OpRec
  b : OpRec
  c : OpRec
deriving DecidableEq, Repr

def VArgs.ofBytes (bs : List Byte) : Option VArgs :=
  (Frame.ofBits (BitVec.ofNat 32 (fieldOf bs 4 4))).map fun fr =>
    { ty := fieldOf bs 0 1, fr, rows := BitVec.ofNat 64 (fieldOf bs 8 8), acc := fieldOf bs 1 1,
      a := OpRec.ofNat (fieldOf bs 0x10 16), b := OpRec.ofNat (fieldOf bs 0x20 16), c := OpRec.ofNat (fieldOf bs 0x30 16) }
def VArgs.cls (v : VArgs) : Nat := v.a.cls
def VArgs.chunks (v : VArgs) : Nat := v.a.rows / 64
def OpRec.cubeFmt (r : OpRec) : CubeFmt := (CubeFmt.ofCode (BitVec.ofNat 3 r.fmt)).getD .e4m3
/-- Where element x of B or C stands: the row of its record for a column or a selected row (R225). -/
def VArgs.bRow (v : VArgs) (j x : Nat) : Nat := 32 * (x / classKt v.cls) + j
def VArgs.cRow (v : VArgs) (i j x : Nat) : Nat :=
  match v.fr.ori with
  | .cj => 32 * (x / classKt v.cls) + j
  | .ci => 64 * (x / classKt v.cls) + i
  | .ck => x / classKt v.cls
/-- Rows that chunk `ch` reads, by operand (R227). -/
def VArgs.reads (v : VArgs) (ch : Nat) : List (Nat × Nat) :=
  let kt := classKt v.cls
  let ks := (List.range kt).map (ch * kt + ·)
  let blocks (m : IdxMap) : List Nat := (ks.map fun k => mapAt m k / kt).eraseDups
  let per (n : Nat) (bs : List Nat) : List Nat := bs.flatMap fun b => (List.range n).map (n * b + ·)
  let cs := if v.ty != 0x12 then [] else per (match v.fr.ori with | .cj => 32 | .ci => 64 | .ck => 1) (blocks v.fr.kappa)
  (List.range 64).map (fun i => (0, 64 * ch + i)) ++ (per 32 (blocks v.fr.beta)).map (fun r => (1, r)) ++ cs.map fun r => (2, r)
def VArgs.operand (v : VArgs) (o : Nat) : OpRec := if o == 0 then v.a else if o == 1 then v.b else v.c
/-- A row of memory as an operand row: a LOG row's scale is its byte 1, a plain row has scale 0 (R224). -/
def VArgs.rowOf (v : VArgs) (o : Nat) (x : BitVec 512) : TileRow := ⟨x, if (v.operand o).cubeFmt == .log then blockScale x else 0⟩
/-- The product at index k of the whole operation, from rows by operand and number. -/
def VArgs.prod (v : VArgs) (row : Nat → Nat → TileRow) (i j k : Nat) : Prod :=
  let kt := classKt v.cls
  let b := mapAt v.fr.beta k
  let c := mapAt v.fr.kappa k
  let ab : List Elem := [⟨v.a.cubeFmt, row 0 (64 * (k / kt) + i), k % kt⟩, ⟨v.b.cubeFmt, row 1 (v.bRow j b), b % kt⟩]
  if v.ty == 0x12 then productOf (ab ++ [⟨v.c.cubeFmt, row 2 (v.cRow i j c), c % kt⟩]) else productOf ab
/-- ck of a chunk: the largest of its three times (R227). -/
def VArgs.time (v : VArgs) (ch : Nat) : Nat :=
  let rs := v.reads ch
  max (classSteps v.cls) (max 4 (max (ceilNat (rs.countP (·.1 == 1)) 16) (ceilNat (rs.countP (·.1 == 2)) 16)))

end Sys2Proof.Machine
end

