-- ==== Sys2Proof/Machine/Control.lean ====
section
/-! DEFINITION. Control transfer, EXIT, meeting points, YIELD, SLEEP, BKPT and TRAP (R180 to R185), dusk parks (R43),
and the debug stop that BKPT asks for (R303, R393). -/

namespace Sys2Proof.Machine

/-- The context of an issue is dusk-armed (R43). -/
def duskArmed (s : State) (i : Iss) : Bool := (ctxOf s (i.block s).vf (i.block s).ctx).dusk

/-- Threads that dusk-park where they have arrived: they wait apart from their bundle (R43). DESIGN CHOICE (log entry 79): a window
stays with the part that has the lowest lane unless that part parks, and every part keeps the yielded flag. -/
def parkDusk (w : Warp) (id : Nat) (m : Mask) : Warp :=
  match bundleOf w id with
  | none => w
  | some b =>
    if b.lanes &&& m = 0 then w else
    let from' := w.nextBundle
    let w := splitBundle w b fun l => if m.getLsbD l then 1 else 0
    let w := { w with bundles := w.bundles.map fun x =>
                        if (x.id == id || from' ≤ x.id) && x.lanes &&& m != 0 then { x with hold := some .dusk, holdLen := 0 } else x }
    dropWindow w fun i => match bundleOf w i with | some x => x.hold != some .dusk | none => false

/-- Threads of a bundle moved by a control transfer: dusk parks, then splits and merges (R22, R43). -/
def transfer (s : State) (i : Iss) (f : Nat → Thread → Thread) (taken dusk : Mask) : State :=
  setWarp s i.w fun x =>
    let from' := x.nextBundle
    let x := parkDusk { x with threads := mapLanes i.bn.lanes f x.threads } i.bn.id dusk
    let ids := (x.bundles.filter fun b => b.id == i.bn.id || from' ≤ b.id).map (·.id)
    ids.foldl (fun x id => settle x id taken) x

/-- A thread that goes on in sequence. -/
def stepThread (i : Iss) (t : Thread) : Thread := { t with pc := t.pc + BitVec.ofNat 52 i.len }

/-- A transfer of the active threads, the others going on in sequence; `back` says which of them park under dusk
arming (R43, R181). -/
def branchBody (s : State) (i : Iss) (yh : Bool) (act : Nat → Thread → Thread) (back : Nat → Bool) : State :=
  let s1 := noteIssue s i yh
  let dusk := if duskArmed s i then maskOf ((lanesOf i.act).filter back) else 0
  transfer s1 i (fun l t => if i.act.getLsbD l then act l t else stepThread i t) i.act dusk

/-- PC plus an offset counted in words (R133). -/
def codeTarget (pc : Addr) (off : Word) : Addr := pc + (off.signExtend 52 <<< 2)

def execBra (h : Hdr) (off : Word) (s : State) : Host.Outcome State Fault Refusal := issueH s h fun i =>
  let dst := codeTarget i.pc off
  branchBody s i h.yh (fun _ t => { t with pc := dst }) fun _ => dst.toNat ≤ i.pc.toNat

/-- Lanes whose target is no code address (R181). -/
def badTargets (i : Iss) (a : Byte) : Mask :=
  activeLanes i.wp i.act fun t =>
    let x := rdD i.lead t a
    x.extractLsb' 0 2 != 0 || x.extractLsb' 52 12 != 0
/-- Lanes whose call depth is at its bound. -/
def deepLanes (i : Iss) : Mask := activeLanes i.wp i.act fun t => t.cdepth == 0xFFFF
def targetFault (s : State) (i : Iss) (a : Byte) (bad : Mask) : State :=
  takeTrap s i.w i.bn i.pc 0x0F 0 (rdD i.lead (threadOf i.wp (lowest bad)) a).toNat (lowest bad)
def depthFault (s : State) (i : Iss) (bad : Mask) : State := takeTrap s i.w i.bn i.pc 0x0D 0 0 (lowest bad)
/-- What CALL and CALLX do in a thread beside the transfer. -/
def link (pc : Addr) (t : Thread) : Thread := { t with lk := pc + 8, cdepth := t.cdepth + 1 }

def execBrx (h : Hdr) (a : Byte) (s : State) : Host.Outcome State Fault Refusal := issueH s h fun i =>
  let bad := badTargets i a
  if bad != 0 then targetFault s i a bad
  else branchBody s i h.yh (fun _ t => { t with pc := (rdD i.lead t a).extractLsb' 0 52 })
    fun l => (rdD i.lead (threadOf i.wp l) a).toNat ≤ i.pc.toNat
def execCall (h : Hdr) (off : Word) (s : State) : Host.Outcome State Fault Refusal := issueH s h fun i =>
  let dst := codeTarget i.pc off
  if deepLanes i != 0 then depthFault s i (deepLanes i)
  else branchBody s i h.yh (fun _ t => { link i.pc t with pc := dst }) fun _ => dst.toNat ≤ i.pc.toNat
def execCallx (h : Hdr) (a : Byte) (s : State) : Host.Outcome State Fault Refusal := issueH s h fun i =>
  let bad := badTargets i a
  let deep := deepLanes i
  -- both tests lane by lane, the target's first
  if bad != 0 && (deep == 0 || lowest bad ≤ lowest deep) then targetFault s i a bad
  else if deep != 0 then depthFault s i deep
  else branchBody s i h.yh (fun _ t => { link i.pc t with pc := (rdD i.lead t a).extractLsb' 0 52 })
    fun l => (rdD i.lead (threadOf i.wp l) a).toNat ≤ i.pc.toNat
def execRet (h : Hdr) (s : State) : Host.Outcome State Fault Refusal := issueH s h fun i =>
  let bad := activeLanes i.wp i.act fun t => t.cdepth == 0
  if bad != 0 then takeTrap s i.w i.bn i.pc 0x0E 0 0 (lowest bad)
  else branchBody s i h.yh (fun _ t => { t with pc := t.lk, cdepth := t.cdepth - 1 }) fun _ => true

/-- EXIT of the active threads, once nothing is waited for (R182). -/
def exitBody (s : State) (i : Iss) (yh : Bool) : State :=
  let s := branchBody s i yh (fun _ t => { t with exited := true }) fun _ => false
  if liveLanes (warpOf s i.w) = 0 then retireWarp s i.w else s
def execExit (h : Hdr) (s : State) : Host.Outcome State Fault Refusal := issueH s h fun i =>
  atCheckpoint s i h.yh [] none fun s => exitBody s i h.yh

/-- MEET saves the old mt in the pair that SAVE names and sets the new one (R183). -/
def execMeet (h : Hdr) (save : BitVec 7) (off : Word) (s : State) : Host.Outcome State Fault Refusal := issueH s h fun i =>
  let d := meetPair save
  let dst := codeTarget i.pc off
  let s1 := setThreads s i.w i.act fun _ t => { RegW.apply false (.v d true (t.mt.zeroExtend 64)) t with mt := dst }
  finish s1 i h.yh
def execMtres (h : Hdr) (a : Byte) (s : State) : Host.Outcome State Fault Refusal := issueH s h fun i =>
  finish (setThreads s i.w i.act fun _ t => { t with mt := (rdD false t a).extractLsb' 0 52 }) i h.yh
/-- YIELD sets the flag as a hint does (R27, R184). -/
def execYieldHint (h : Hdr) (s : State) : Host.Outcome State Fault Refusal := issueH s h fun i => finish s i true

/-- SLEEP holds for the low 32 bits of A, or LIT, of the lowest active thread (R184). -/
def execSleep (h : Hdr) (a : Byte) (lit : Option Word) (s : State) : Host.Outcome State Fault Refusal := issueH s h fun i =>
  let n := (srcB32 i.lead lit a (threadOf i.wp (lowest i.act))).toNat
  if n = 0 then finish s i h.yh else waitAt s i h.yh (.sleep n)

/-! ### BKPT and TRAP -/

/-- A block stops precisely (R303, R392): its cause, the bundles that triggered it; BUSY reads 1 until its dump is complete
(Table 12-4). A second trigger of the same ck is noted beside the first (R393). -/
def stopBlock (s : State) (blk cause : Nat) (trig : List (Nat × Nat)) : State :=
  setBlock s blk fun b => match b.stop with
    | some st => { b with stop := some { st with trig := st.trig ++ trig } }
    | none => { b with stop := some ⟨cause, trig, false⟩, step := none }
/-- The bundle of the other copy of a twin pair that holds the lowest thread of a bundle (R392, R393). -/
def mateBundle (s : State) (x : Nat × Nat) : Option (Nat × Nat) :=
  (counterpart s x.1).bind fun v => (bundleOf (warpOf s x.1) x.2).bind fun b =>
    ((warpOf s v).bundles.find? fun y => y.lanes.getLsbD (lowest b.lanes)).map fun y => (v, y.id)
/-- The block of a twin's other copy stops with it, triggered by the same threads (R392). -/
def stopWithTwin (s : State) (blk cause : Nat) (trig : List (Nat × Nat)) : State :=
  let s := stopBlock s blk cause trig
  match (blockOf s blk).twin with
  | some (o, _) => stopBlock s o cause (trig.filterMap (mateBundle s))
  | none => s
/-- BKPT (R185): a stop at the instruction where debugging is enabled, once a NOP after a resume; otherwise a NOP that
counts. -/
def execBkpt (h : Hdr) (_code : BitVec 10) (s : State) : Host.Outcome State Fault Refusal := issueH s h fun i =>
  let b := i.block s
  let cx := ctxOf s b.vf b.ctx
  if cx.desc.dbg then
    if i.bn.skipBp then finish s i h.yh else stopWithTwin s i.wp.blk 1 [(i.w, i.bn.id)]
  else finish (setCtx s b.vf b.ctx fun c => { c with skips := c.skips + 1 }) i h.yh
/-- TRAP (R185): PC stays at the TRAP; the bundle notes its length, by which a resume passes over it (R340). -/
def execTrap (h : Hdr) (code : BitVec 10) (s : State) : Host.Outcome State Fault Refusal := issueH s h fun i =>
  setBundle (takeTrap s i.w i.bn i.pc 0x11 0 0 (lowest i.act + code.toNat * 2 ^ 16)) i.w i.bn.id fun b => { b with holdLen := i.len }

end Sys2Proof.Machine
end

