-- ==== Sys2Proof/Machine/Trace.lean ====
section
/-! DEFINITION. Trace records (R296, R297): the layout of Table 12-2, and a record offered to the trace units that
record its context, those that the hypervisor holds among them (R398, R399). -/

namespace Sys2Proof.Machine

/-- The 32 bytes of a trace record (Table 12-2); LOST is put in when it is written. -/
def traceBytes (ty reason : Nat) (dusk : Bool) (part group warp phase time : Nat) (b : Block) (arg : Nat) : List Byte :=
  bytesOf 1 ty ++ bytesOf 1 (reason % 16 + (if dusk then 16 else 0) + 64 * (part % 4)) ++ bytesOf 1 group ++
  bytesOf 1 warp ++ bytesOf 4 phase ++ bytesOf 8 time ++ bytesOf 4 b.bx ++ bytesOf 2 b.by' ++ bytesOf 2 b.bz ++
  bytesOf 8 arg

/-- A record joins those that a unit has still to write; a full holding store drops it (R297). -/
def unitTake (rec : List Byte) (u : TraceUnit) : TraceUnit :=
  if u.waiting.length < 64 then { u with waiting := u.waiting ++ [rec] }
  else { u with lost := u.lost + 1, lostFlag := true }
/-- A unit records a context's records of a kind, named by the bit of TRCCTL that enables it. -/
def unitWants (c bit : Nat) (u : TraceUnit) : Bool :=
  u.ctl.getLsbD 0 && (u.ctl.extractLsb' 1 6).toNat == c && u.ctl.getLsbD bit
/-- The held units record the claim's context, with its settings (Table 20-5): bits 16 USR and 17 BARR. -/
def heldWants (sl : Slice) (c bit : Nat) : Bool :=
  (sl.hvforce.extractLsb' 0 6).toNat == c && sl.hvforce.getLsbD (bit + 4)
/-- A held unit takes a record: each has 64 of its own that are still to be written (R297, R398). -/
def heldTake (u : Nat) (rec : List Byte) (sl : Slice) : Slice :=
  if sl.hvheld.countP (·.1 == u) < 64 then { sl with hvheld := sl.hvheld ++ [(u, rec)] }
  else { sl with hvlost := sl.hvlost + 1, hvmark := true }
/-- A record offered to one unit of a slice. -/
def offerUnit (c bit : Nat) (rec : List Byte) (sl : Slice) (u : Nat) : Slice :=
  if sl.trchold.getLsbD u then (if heldWants sl c bit then heldTake u rec sl else sl)
  else { sl with trace := modAt sl.trace u fun x => if unitWants c bit x then unitTake rec x else x }
/-- A record of a context offered to the slice's four units; `bit` is 12 for EVT and 13 for a barrier. -/
def traceOffer (s : State) (vf c bit : Nat) (rec : List Byte) : State :=
  setSlice s vf fun sl => [0, 1, 2, 3].foldl (offerUnit c bit rec) sl

end Sys2Proof.Machine
end

