-- ==== Sys2Proof/Machine/MemEvents.lean ====
section
/-! DEFINITION. What accesses do after their issue: store queues, the way to the homes, atomics, data returns (R92,
R102 to R109, R198 to R202, R403), cache upkeep (R80, R105, R400), sleeps and barriers (R112, R184, R204, R396). -/

namespace Sys2Proof.Machine

/-! ### Release conditions -/

/-- A warp's cube operations whose orders lie below a number have completed, on whichever core they were issued (R113). -/
def cubeDone (s : State) (w n : Nat) : Bool :=
  let b := blockOf s (warpOf s w).blk
  (ctxOf s b.vf b.ctx).chains.all fun c => c.eng != .cube || c.recs.all fun r => r.warp != w || n ≤ r.order || r.done
/-- No store of the core to the memory that a scope names, ahead of a place in core order, is on its way: in the pending set, or among
the held stores that a checkpoint has let go (R108, R360, log entry 45). -/
def noneAhead (s : State) (core : Nat) (sc : Scope) (order : Nat) : Bool :=
  !(s.flights.any fun f => f.core == core && f.op.isNone && f.order < order && f.entry.accs.any (drains sc)) &&
  !(s.warps.any fun w => w.core == core && w.held.any fun x => x.entry.id < w.matched && x.order < order && x.entry.accs.any (drains sc))
/-- None of some stores, entries or loads is still on its way, in whichever queue or holding area it stood. -/
def allGone (s : State) (ids : List Nat) : Bool :=
  ids.isEmpty || !((s.flights.any fun f => ids.contains f.entry.id) ||
    (s.warps.any fun w => (w.queue.any fun e => ids.contains e.id) || w.held.any fun x => ids.contains x.entry.id) ||
    (s.loads.any fun l => ids.contains l.id))
/-- Loads of a warp that have not been performed: those of host memory (R101). -/
def openLoads (s : State) (w : Nat) : List LoadOp := s.loads.filter fun l => l.warp == w && l.due.isNone
/-- The release at the head of a queue takes effect (R108): its loads, its cube operations, and every store that its core has made
core-visible before it. -/
def releaseHolds (s : State) (w : Nat) (e : QEntry) (order : Nat) : Bool :=
  !e.rel || (cubeDone s w e.cube && noneAhead s (warpOf s w).core e.scope order && (openLoads s w).all (e.id < ·.id))

/-! ### Leaving the queue -/

/-- Unloaded time from the core to a home (Table 8-11); none where the host decides. -/
def homeTime (s : State) (core : Nat) (p : Place) : Option Nat :=
  match p with
  | .scratch q _ => some (if (partOf s q).core == core then 0 else 48)
  | .dev pa => some (if dieOf pa == core / 16 then 110 else 150)
  | _ => none
/-- The bytes that an access writes at its home. -/
def accWrites (a : LaneAcc) : List (Place × Byte) :=
  (List.range a.size).map fun k => (a.home.plus k, a.data.extractLsb' (8 * k) 8)
/-- One byte put into a sector that holds it. -/
def sectorByte (x : L1Sector) (p : Place × Byte) : L1Sector :=
  match p.1 with
  | .dev pa =>
    let at' := 8 * (pa % 32)
    if pa / 32 == x.sector then { x with data := (x.data &&& ~~~(0xFF#256 <<< at')) ||| (p.2.zeroExtend 256 <<< at') } else x
  | _ => x
/-- L1 sectors of a core updated with bytes that become core-visible (R105). -/
def updateL1 (s : State) (core : Nat) (bs : List (Place × Byte)) : State :=
  setCore s core fun k => { k with l1 := k.l1.map fun x => bs.foldl sectorByte x }
/-- Sectors of some bytes invalidated in a core's L1. -/
def dropL1 (s : State) (core : Nat) (ps : List Place) : State :=
  if ps.isEmpty then s else setCore s core fun k => { k with l1 := k.l1.filter fun x => !(ps.any fun p => match p with | .dev pa => pa / 32 == x.sector | _ => false) }
/-- The 8-byte units of an entry that are poisoned, at their homes (R357). -/
def badPlaces (e : QEntry) : List Place :=
  e.accs.flatMap fun a => ((List.range ((a.size + 7) / 8)).filter fun k => e.bad.contains (16 * a.lane + k)).map fun k => a.home.plus (8 * k)
/-- What an atomic has left at its home, in its core's L1, with the stores of the core that are on their way (R104 to R106). -/
def refreshL1 (s : State) (core blk : Nat) (accs : List LaneAcc) : State :=
  updateL1 s core (accs.flatMap fun a => (List.range a.size).filterMap fun k =>
    match a.home.plus k with
    | .dev pa => some (.dev pa, (pendingByte s core blk (.dev pa)).getD (memRead s.mem pa))
    | _ => none)
/-- An entry leaves the head of its queue. -/
def popHead (s : State) (w : Nat) : State :=
  let s := setWarp s w fun x => { x with queue := x.queue.drop 1 }
  if (warpOf s w).lead then dqServe s (warpOf s w).part else s
/-- A store on its way: one flight for the accesses that are due in the same ck; a held store keeps its place in core order. -/
def flyAt (s : State) (w : Nat) (e : QEntry) (due : Nat) (accs : List LaneAcc) (host : Bool) (order : Option Nat := none) : State :=
  let wp := warpOf s w
  let b := blockOf s wp.blk
  let (id, s) := fresh s
  let f : Flight := { id, core := wp.core, warp := w, vf := b.vf, ctx := b.ctx, op := none, entry := { e with accs }, due,
                      order := order.getD id, host, arrive := none }
  fabAsk { s with flights := s.flights ++ [f] } b.vf wp.core id (accs.map fun a => (a.home, a.size))
/-- An access to memory outside the device. -/
def isOutside (a : LaneAcc) : Bool := isHost a.home || isPeer a.home
/-- The ck in which a store to memory outside the device arrives: in a time of its own, and no earlier than the core's earlier ones, so
that a location takes a thread's stores in its order (R106, log entry 84). -/
def outsideDue (s : State) (core : Nat) : Nat × State :=
  let (n, s) := choose s
  ((s.flights.filter fun f => f.core == core && f.op.isNone && f.entry.accs.any isOutside).foldl (fun m f => max m f.due) (s.clk + 1 + n), s)
/-- The accesses of an entry start for their homes; what no rule times takes a time of its own (log entry 5). -/
def sendAccs (s : State) (w : Nat) (e : QEntry) (extra : Nat) (accs : List LaneAcc) (order : Option Nat := none) : State :=
  let core := (warpOf s w).core
  let timed := accs.filterMap fun a => (homeTime s core a.home).map fun t => (t, a)
  let open' := accs.filter fun a => (homeTime s core a.home).isNone
  let s := ((timed.map (·.1)).eraseDups).foldl (fun s t => flyAt s w e (s.clk + t + extra) ((timed.filter (·.1 == t)).map (·.2)) false order) s
  if open'.isEmpty then s else
  let (due, s) := outsideDue s core
  flyAt s w e due open' false order
/-- An atomic or REDM starts for its home. -/
def sendAtomic (s : State) (w : Nat) (e : QEntry) (order : Option Nat := none) : State :=
  let core := (warpOf s w).core
  if e.accs.any fun a => isHost a.home then flyAt s w e s.clk e.accs true order
  else
    let t := e.accs.foldl (fun t a => max t ((homeTime s core a.home).getD 0)) 0
    let (due, s) := if e.accs.any fun a => isPeer a.home then outsideDue s core else (s.clk, s)
    flyAt s w e (due + t + 16) e.accs false order

/-- An access to a part of the core itself. -/
def isLocal (s : State) (core : Nat) (a : LaneAcc) : Bool :=
  match a.home with | .scratch q _ => (partOf s q).core == core | _ => false
/-- An access to global memory. -/
def isGlobal (a : LaneAcc) : Bool := match a.home with | .scratch _ _ => false | _ => true
/-- The poisoned units of an entry go to the sectors and the words that it writes (R354, R357). -/
def spreadPoison (s : State) (e : QEntry) : State :=
  if e.bad.isEmpty then s else
  let bad := badPlaces e
  { s with poison := (bad.filterMap fun p => match p with | .dev pa => some (pa / 32) | _ => none) ++ s.poison,
           chipPoison := (bad.filterMap fun p => match p with | .scratch q o => some (.scratch q (o / 8 * 8)) | _ => none) ++ s.chipPoison }
/-- An access reaches the lines of its homes, which are counted (Table 12-3). -/
def touchAccs (s : State) (core vf c : Nat) (e : QEntry) : State :=
  e.accs.foldl (fun s a => match a.home with
    | .dev pa => touchHome s core vf c e.hint pa
    | .host _ => countIo s vf 1 a.size
    | .peer _ _ => s
    | .scratch _ _ => s) s
/-- Waits on the sync words of the scratchpads that some accesses reach (R206). -/
def wakeParts (s : State) (accs : List LaneAcc) : State :=
  ((accs.filterMap fun a => match a.home with | .scratch q _ => some q | _ => none).eraseDups).foldl wakeSync s
/-- Stores performed at their homes, the highest lane's value last (R101, R103). DESIGN CHOICE (log entry 85): every byte of an access
is performed in one instant, the two halves of 16 bytes of host or peer memory among them (R98). Waits on the sync words of the parts
that it writes are looked at (R206). -/
def performStore (s : State) (core vf c : Nat) (e : QEntry) : State :=
  let key := (ctxOf s vf c).bankKey
  let s := touchAccs s core vf c e
  let covers (q u : Nat) : Bool :=
    (List.range 8).all fun k => e.accs.any fun a => match a.home with | .scratch q' o => q' == q && o ≤ u + k && u + k < o + a.size | _ => false
  let s := wipe (homeWrite s key (e.accs.flatMap accWrites)) fun x => match x with | .scratch q u => covers q u | _ => false
  wakeParts (spreadPoison s e) e.accs

/-! ### Atomics -/

/-- One atomic operation on a value of its kind (Table 8-7). -/
def atomicOp (op : AtOp) (k : AtKind) (old c : Nat) : Nat :=
  let w := 8 * atBytes k
  let ty : IntTy := match k with | .i32 => .i32 | .n32 => .n32 | .i64 => .i64 | .f32 => .n32
  let v (x : Nat) : Int := tyVal ty (BitVec.ofNat 64 x)
  match op with
  | .add => if k == .f32 then (Fmt.f32.addF .rn false false old c).1 else (old + c) % 2 ^ w
  | .min => if k == .f32 then Fmt.f32.minmax false false old c else if v c < v old then c else old
  | .max => if k == .f32 then Fmt.f32.minmax false true old c else if v old < v c then c else old
  | .and => Nat.land old c
  | .or => Nat.lor old c
  | .xor => Nat.xor old c
  | .exch => c
/-- The new value of an access, given the old; none where nothing is written (R199, R200). -/
def atomicNew (e : QEntry) (a : LaneAcc) (old : Nat) : Option Nat :=
  match e.kind with
  | .atomic op k _ => some (atomicOp op k old (a.data.toNat % 2 ^ (8 * a.size)))
  | .cas _ _ => if old == a.cmp.toNat % 2 ^ (8 * a.size) then some (a.data.toNat % 2 ^ (8 * a.size)) else none
  | _ => none
/-- The lanes one at a time, in ascending order: old values; `given` are those that the host returned (R199). -/
def atomicLanes (key : BitVec 84) (e : QEntry) (given : List Nat) : List LaneAcc → State → State × List (Nat × Nat)
  | [], s => (s, [])
  | a :: r, s =>
    let old := match a.home, given with
      | .host _, x :: _ => x
      | _, _ => leBytes ((List.range a.size).map fun k => homeByte s key (a.home.plus k))
    let s := match atomicNew e a old with
      | some n => homeWrite s key ((bytesOf a.size n).mapIdx fun k x => (a.home.plus k, x))
      | none => s
    let (s, rest) := atomicLanes key e (given.drop 1) r s
    (s, (a.lane, old) :: rest)
/-- The destination of an atomic, and its kind. -/
def atomicDst (e : QEntry) : Option (Nat × AtKind) :=
  match e.kind with
  | .atomic _ k (some d) => some (d, k)
  | .cas k (some d) => some (d, k)
  | _ => none
/-- An old value as a lead's register takes it: extended by its kind (R46, R152). -/
def leadOld (k : AtKind) (x : Nat) : Nat := if k == .i32 then ((BitVec.ofNat 32 x).signExtend 64).toNat else x
/-- Old values on their way back to a warp, and to its twin (R202, R360). -/
def atomicReturn (s : State) (w : Nat) (e : QEntry) (olds : List (Nat × Nat)) (due : Nat) : State :=
  match atomicDst e with
  | none => s
  | some (d, k) =>
    let b := blockOf s (warpOf s w).blk
    let lead := (warpOf s w).lead
    let data := olds.map fun (l, x) => (l, d, BitVec.ofNat 128 (if lead then leadOld k x else x))
    let op (w : Nat) : LoadOp :=
      { id := e.id, warp := w, bundle := 0, remote := false, data, due := some due, late := [], acq := false, home := false, hint := .normal, fill := true, consume := true,
        vf := b.vf, ctx := b.ctx, pc := e.pc, lanes := e.lanes, part := none, refused := none, hosts := [], size := if k.wide || lead then .b64 else .b32, isLead := lead }
    let other := if e.accs.any isGlobal then (counterpart s w).toList else []
    { s with loads := s.loads ++ (w :: other).map op }
/-- A bundle named only by its threads, for a record formed after its issue. -/
def lateBundle (m : Mask) : Bundle := { Bundle.nil with id := 2 ^ 32, lanes := m }
/-- The loads, stores and atomics of a warp that a peer refuses, or that consume poison, after their issue (R341, R355). -/
def lateTrap (s : State) (w : Nat) (lanes : Mask) (pc : Addr) (cause lane addr info : Nat) : State :=
  if cause == 0x18 then poisonTrap s w (lateBundle lanes) pc addr lane 1
  else takeTrap s w (lateBundle lanes) pc cause 5 addr (lane + info)
/-- What an atomic consumes: a poisoned operand of its entry, or poison at a home (R355, R357). -/
def atomicPoison (s : State) (e : QEntry) : Option LaneAcc :=
  e.accs.find? fun a => e.bad.contains (16 * a.lane) || placePoisoned s a.home
/-- An atomic performed at its home. `full` and `back` are the times from its issue and from its home to the data; an acquire joins
once it has been performed (R105, R109). -/
def performAtomic (s : State) (w : Nat) (e : QEntry) (given : List Nat) (full back : Nat) : State :=
  let b := blockOf s (warpOf s w).blk
  let s := touchAccs s (warpOf s w).core b.vf b.ctx e
  match atomicPoison s e with
  | some a => lateTrap s w e.lanes e.pc 0x18 a.lane a.addr 0
  | none =>
    let (s, olds) := atomicLanes (ctxOf s b.vf b.ctx).bankKey e given e.accs s
    let s := refreshL1 s (warpOf s w).core (warpOf s w).blk e.accs
    let s := if e.acq && (e.scope != .core || !(e.accs.any isGlobal)) then joinL1 s w else s
    atomicReturn (wakeParts s e.accs) w e olds (max (e.at' + full) (s.clk + back))

/-! ### The events -/

/-- A global store or REDM enters the holding area, unless its checkpoint has matched and the copy is the twin (R360). -/
def hold (s : State) (w : Nat) (e : QEntry) : State :=
  if e.id < (warpOf s w).matched && !(isPrimary s (warpOf s w).blk) then s else
  let (order, s) := fresh s
  setWarp s w fun x => { x with held := x.held ++ [⟨e, order⟩] }
/-- What the head of a queue does when nothing holds it (R102). -/
def leaveQueue (s : State) (w : Nat) (e : QEntry) : State :=
  let wp := warpOf s w
  let b := blockOf s wp.blk
  let key := (ctxOf s b.vf b.ctx).bankKey
  match e.kind with
  | .fence => (fun s => if e.acq && e.scope != .core then joinL1 s w else s) (popHead s w)
  | .swarm rearm =>
    let s := e.accs.foldl (fun s a => match a.home with
      | .scratch q o => syncArm s key q o (a.data.toNat % 2 ^ 32) rearm | _ => s) s
    popHead (wakeParts (spreadPoison s e) e.accs) w
  | .store =>
    let loc := e.accs.filter (isLocal s wp.core)
    let far := e.accs.filter fun a => !(isLocal s wp.core a)
    let s := dropL1 (updateL1 s wp.core (e.accs.flatMap accWrites)) wp.core (badPlaces e)
    let s := popHead (performStore s wp.core b.vf b.ctx { e with accs := loc }) w
    if isTwin s wp.blk && isHoldable e then hold s w e else sendAccs s w e 0 far
  | _ =>
    if isTwin s wp.blk && isHoldable e then hold (popHead s w) w e
    else if e.accs.all (isLocal s wp.core) then popHead (performAtomic s w e [] (24 + e.passes) (23 + e.passes)) w
    else
      sendAtomic (setWarp s w fun x => { x with queue := { e with sent := true } :: x.queue.drop 1 }) w e
/-- An entry may not leave before an earlier load of one of its threads that the host has still to complete: a store is a release at
CORE scope at least, and an acquire comes before every later access (R107 to R109). -/
def behindLoad (s : State) (w : Nat) (e : QEntry) : Bool :=
  (openLoads s w).any fun l => l.id < e.id && l.lanes &&& e.lanes != 0
/-- A held REDM of a warp is on its way: what follows it waits until it has been performed (R102). -/
def redmOpen (s : State) (w : Nat) : Bool :=
  s.flights.any fun f => f.warp == w && f.op.isNone && f.entry.kind != .store && !((warpOf s w).queue.any fun e => e.id == f.entry.id)
/-- Held stores whose checkpoint has matched leave for their homes in their order, each release when its drain holds (R102, R108,
R360). -/
def sendHeld (w : Nat) : List Held → State → State
  | [], s => s
  | x :: r, s =>
    if x.entry.id < (warpOf s w).matched && releaseHolds s w x.entry x.order && !(redmOpen s w) then
      let s := setWarp s w fun v => { v with held := v.held.filter (· != x) }
      sendHeld w r (if isStore x.entry then sendAccs s w x.entry 0 x.entry.accs (some x.order) else sendAtomic s w x.entry (some x.order))
    else s
/-- A held store that a checkpoint has let go has still to leave. -/
def heldWaits (s : State) (w : Nat) : Bool := let x := warpOf s w; x.held.any fun h => h.entry.id < x.matched
/-- STORE_CORE_VISIBLE: held stores that may go leave first; then the head of a queue leaves it, when its release holds and its passes
are over (R89, R102, R108). The release of a store that is held is waited for when it leaves the holding area (R360). -/
def execStoreCoreVisible (warp : Nat) (s : State) : Host.Outcome State Fault Refusal :=
  let s := sendHeld warp (warpOf s warp).held s
  .next (match (warpOf s warp).queue with
    | [] => s
    | e :: _ =>
      let early : Bool := e.kind == .store && s.clk ≤ e.at' + e.passes
      let kept : Bool := isTwin s (warpOf s warp).blk && isHoldable e
      if e.sent || early || !(kept || releaseHolds s warp e s.nextId) || behindLoad s warp e || heldWaits s warp || redmOpen s warp then s
      else leaveQueue s warp e)

/-- A sector of device memory loses its poison once the writes of one engine operation have covered it (R354). -/
def coverSectors (s : State) (id : Nat) (accs : List LaneAcc) : State :=
  let pas := accs.flatMap fun a => match a.home with | .dev pa => (List.range a.size).map (pa + ·) | _ => []
  let secs := (pas.map (· / 32)).eraseDups.filter s.poison.contains
  if secs.isEmpty then s else
  let had (o : EngOp) (k : Nat) : BitVec 32 := ((o.cover.find? (·.1 == k)).map (·.2)).getD 0
  let got (o : EngOp) (k : Nat) : BitVec 32 := pas.foldl (fun m pa => if pa / 32 == k then m ||| (1#32 <<< (pa % 32)) else m) (had o k)
  let whole := secs.filter fun k => s.ops.any fun o => o.id == id && got o k == BitVec.allOnes 32
  { s with poison := s.poison.filter fun k => !(whole.contains k),
           ops := s.ops.map fun o => if o.id != id then o else
             { o with cover := secs.map (fun k => (k, got o k)) ++ o.cover.filter fun x => !(secs.contains x.1) } }
/-- How a peer ends the stores and atomics of a flight: the access that it refuses (R341), or the atomic that it answers with poisoned
data (R356). -/
def flightRefused (s : State) (f : Flight) : State × Option (LaneAcc × Bool) :=
  match f.entry.accs.find? fun a => isPeer a.home with
  | some a => match outside s a.home with
    | (s, some (.peer _)) => (s, some (a, true))
    | (s, some (.poison _)) => (s, if f.entry.kind == .store then none else some (a, false))
    | (s, _) => (s, none)
  | none => (s, none)
/-- The head of a queue that has been performed leaves it. -/
def popIf (s : State) (f : Flight) : State := if ((warpOf s f.warp).queue.head?.map (·.id)) == some f.entry.id then popHead s f.warp else s
/-- A store that has arrived is performed (R103), and the sync word of a copy counts it (R241). -/
def performArrived (s : State) (f : Flight) : State :=
  let s := performStore s f.core f.vf f.ctx f.entry
  let s := match f.op with | some id => coverSectors s id f.entry.accs | none => s
  match f.arrive with
  | some (p, off, n) => wakeSync (syncArrive s (ctxOf s f.vf f.ctx).bankKey p off n) p
  | none => s
/-- A flight that has arrived is performed (R103); one that a peer refuses changes nothing there, and its thread
traps, or its operation faults as it ends (R333, R341). -/
def performFlight (s : State) (f : Flight) : State :=
  let s := { s with flights := s.flights.filter (·.id != f.id) }
  match flightRefused s f with
  | (s, some (a, refused)) =>
    let s := setWarp s f.warp fun w => { w with pend := w.pend.filter fun p => p.load != some f.entry.id }
    if f.op.isSome then { s with ops := s.ops.map fun o => if some o.id == f.op then { o with refused := true } else o }
    else popIf (lateTrap s f.warp f.entry.lanes f.entry.pc (if refused then 0x16 else 0x18) a.lane a.addr (2 ^ 18)) f
  | (s, none) =>
    match f.entry.kind with
    | .store => performArrived s f
    | .atomic _ _ _ | .cas _ _ =>
      let near := f.entry.accs.all fun a => match a.home with | .dev pa => dieOf pa == f.core / 16 | _ => true
      popIf (performAtomic s f.warp f.entry [] (if near then 236 else 316) (if near then 109 else 149)) f
    | _ => s
/-- STORE_PERFORMED_AT_HOME, for a flight that is due and whose runs are acknowledged. -/
def execStorePerformedAtHome (id : Nat) (s : State) : Host.Outcome State Fault Refusal :=
  .next (match s.flights.find? fun f => f.id == id && !f.host && f.due ≤ s.clk && !(onFabric s f.vf id) with
    | some f => performFlight s f
    | none => s)

/-- A load's data written in its lanes, and its destination no longer pending (R202). A twin's copy of an atomic waits
without a number. -/
def deliver (s : State) (l : LoadOp) : State :=
  let s := l.data.foldl (fun s (lane, d, x) =>
    setThread s l.warp lane fun t => (loadRegs l.size (BitVec.ofNat 8 d) x).foldl (fun t w => w.apply l.isLead t) t) s
  let s := wipe s fun x => match x with
    | .register w k r => w == l.warp && l.data.any fun d => d.1 == k && coversUnit l.isLead (sizeDst l.isLead l.size (BitVec.ofNat 8 d.2.1)) r
    | _ => false
  let twin := isTwin s (warpOf s l.warp).blk && !(isPrimary s (warpOf s l.warp).blk)
  setWarp s l.warp fun w =>
    if w.pend.any fun p => p.load == some l.id then { w with pend := w.pend.filter fun p => p.load != some l.id }
    else if twin then { w with pend := w.pend.eraseP fun p => p.load.isNone && p.due.isNone } else w
def loadDue (s : State) (l : LoadOp) : Bool := match l.due with | some d => d ≤ s.clk && !(onFabric s l.vf l.id) | none => false
/-- A load returns: its data, or what a peer has made of it (R202, R341, R356). -/
def returnLoad (s : State) (l : LoadOp) : State :=
  match l.refused with
  | none => deliver s l
  | some (lane, addr, refused) =>
    let s := setWarp s l.warp fun w => { w with pend := w.pend.filter fun p => p.load != some l.id }
    lateTrap s l.warp l.lanes l.pc (if refused then 0x16 else 0x18) lane addr 0
/-- LOAD_DATA_RETURN. -/
def execLoadDataReturn (id : Nat) (s : State) : Host.Outcome State Fault Refusal :=
  let ls := s.loads.filter fun l => l.id == id && !l.remote && loadDue s l
  .next (ls.foldl returnLoad { s with loads := s.loads.filter fun l => !(ls.contains l) })

/-- Who reads for a load that is performed after its issue: it finds what was in the queue before it (R104). -/
def lateReader (s : State) (l : LoadOp) : Reader :=
  let wp := warpOf s l.warp
  ⟨wp.core, l.vf, l.ctx, wp.blk, wp.part, (ctxOf s l.vf l.ctx).bankKey, wp.queue.filter (·.id < l.id), l.home⟩
/-- Bundles that wait for a remote load. -/
def remoteBundles (s : State) (l : LoadOp) : List Bundle := (warpOf s l.warp).bundles.filter fun b => b.hold == some (.remote l.id)
/-- The named part of a remote load is read (R92): poison, or the bytes that return. -/
def remoteRead (s : State) (l : LoadOp) (q : Nat) : State :=
  let r := lateReader s l
  let at' (d : Nat × Nat × BitVec 128) : Place := .scratch q d.2.2.toNat
  match l.data.find? fun d => readsPoison s r (at' d) l.size.bytes with
  | some d => poisonTrap { s with loads := s.loads.filter (·.id != l.id) } l.warp ((remoteBundles s l).headD (lateBundle l.lanes)) l.pc d.2.2.toNat d.1 1
  | none =>
    let data := l.data.map fun d => (d.1, d.2.1, visibleValue s r (at' d) l.size.bytes)
    { s with loads := s.loads.map fun x => if x.id == l.id then { x with part := none, data } else x }
/-- The data of a remote load return, and its bundle goes on, joined where it acquires (R92, R118). -/
def remoteReturn (s : State) (l : LoadOp) : State :=
  let bns := remoteBundles s l
  let s := deliver { s with loads := s.loads.filter (·.id != l.id) } l
  let s := bns.foldl (fun s b => endWait s l.warp b.id) s
  if l.acq then joinL1 s l.warp else s
/-- A remote load is read, or returns, in this ck. -/
def remoteDue (s : State) (l : LoadOp) : Bool := match l.part with | some (_, t) => t ≤ s.clk | none => loadDue s l
/-- The block of a warp is on a core, and not being saved. -/
def mayReturn (s : State) (w : Nat) : Bool :=
  let b := blockOf s (warpOf s w).blk
  (warpOf s w).present && b.status == .resident && (ctxOf s b.vf b.ctx).run != .stopping
/-- REMOTE_LOAD_RETURN: the read of a remote load, then its return (R92). -/
def execRemoteLoadReturn (id : Nat) (s : State) : Host.Outcome State Fault Refusal :=
  .next (match s.loads.find? fun l => l.id == id && l.remote && remoteDue s l && mayReturn s l.warp with
    | some l => match l.part with
      | some (q, _) => remoteRead s l q
      | none => remoteReturn s l
    | none => s)

/-- RESULT_WRITEBACK: destinations that are due are no longer pending (R178). -/
def execResultWriteback (warp : Nat) (s : State) : Host.Outcome State Fault Refusal :=
  let wp := warpOf s warp
  let whole (x : Site) : Bool := match x with
    | .register w k r => w == warp && wp.pend.any fun p => !(pendOpen s p) && p.lanes.getLsbD k && coversUnit wp.lead p.regs r
    | _ => false
  .next (setWarp (wipe s whole) warp fun w => { w with pend := w.pend.filter (pendOpen s) })

/-- SLEEP_EXPIRY (R184). -/
def execSleepExpiry (warp bundle : Nat) (s : State) : Host.Outcome State Fault Refusal :=
  .next (match bundleOf (warpOf s warp) bundle with
    | some b => if b.hold == some (.sleep 0) && mayRun s warp then endWait s warp bundle else s
    | none => s)

/-! ### Barriers -/

/-- Groups whose members lie in more than one part have natural scope BLOCK (R112). -/
def groupParts (b : Block) (g : Group) : List Nat :=
  (((List.range b.nWarps).filter fun w => g.members.getLsbD w).map fun w => w * b.nParts / b.nWarps).eraseDups
def groupWide (b : Block) (g : Group) : Bool := 1 < (groupParts b g).length
/-- A member warp has arrived: none of its arrivals is still waited for, and each unexited thread has arrived, or it has retired (R35,
R112, R204). -/
def memberArrived (s : State) (b : Block) (g : Group) (idx : Nat) : Bool :=
  let w := b.firstWarp + idx
  let wp := warpOf s w
  let got := (g.arrived.filter (·.1 == w)).foldl (fun m x => m ||| x.2) (0 : Mask)
  !(g.waiting.any fun a => a.warp == w) && (wp.retired || liveLanes wp &&& ~~~got = 0)
def groupMembers (b : Block) (g : Group) : List Nat := (List.range b.nWarps).filter fun w => g.members.getLsbD w
/-- Every member has arrived, not all of them retired (R35). -/
def groupReady (s : State) (b : Block) (g : Group) : Bool :=
  (groupMembers b g).all (memberArrived s b g) && (groupMembers b g).any fun w => !(warpOf s (b.firstWarp + w)).retired

/-- An arrival takes effect: its own entries and loads, its cube operations, and every store of its core (R112). -/
def arrivalHolds (s : State) (wide : Bool) (a : Arrival) : Bool :=
  cubeDone s a.warp a.cube && allGone s a.own && (!wide || noneAhead s (warpOf s a.warp).core .block s.nextId)
/-- The arrivals of a group that now count. -/
def groupArrive (s : State) (b : Block) (g : Group) : Group :=
  let holds := arrivalHolds s (groupWide b g)
  { g with arrived := g.arrived ++ (g.waiting.filter holds).map (fun a => (a.warp, a.lanes)), waiting := g.waiting.filter fun a => !(holds a) }
/-- A group whose last arrival has come completes 6 ck or 48 ck later (R204). -/
def groupStart (s : State) (b : Block) (g : Group) : Group :=
  if g.due.isSome || g.arrived.isEmpty || !(groupReady s b g) then g
  else { g with due := some (s.clk + if groupWide b g then 48 else 6, ((g.arrived.getLast?).map (·.1)).getD 0) }
/-- Arrivals and completions of a block looked at. -/
def checkArrivals (s : State) (blk : Nat) : State :=
  let b := blockOf s blk
  let gs := b.groups.map (groupArrive s b)
  setBlock s blk fun b => { b with groups := gs.map (groupStart s b) }

/-! ### Replay streams -/

/-- A divergence (R397): noted once, signalled, and a stop where it is asked for. -/
def divergence (s : State) (blk g : Nat) : State :=
  let b := blockOf s blk
  let cx := ctxOf s b.vf b.ctx
  let first := !(cx.replstat.getLsbD 0)
  let s := setCtx s b.vf b.ctx fun c =>
    { c with replstat := (if first then (c.replstat &&& 2) ||| BitVec.ofNat 64 (g * 2 ^ 8 + b.lin * 2 ^ 16) else c.replstat) ||| 1 }
  let s := if first then signal s b.vf 6 else s
  if cx.replctl.getLsbD 2 && cx.desc.dbg then stopWithTwin s blk 5 [] else s
def replOverflow (s : State) (vf c : Nat) : State := setCtx s vf c fun x => { x with replstat := x.replstat ||| 2 }
/-- An entry of a block's stream recorded or checked: a check looks at group, phase and count (R396). -/
def replayEntry (s : State) (blk g phase count : Nat) : State :=
  let b := blockOf s blk
  let cx := ctxOf s b.vf b.ctx
  if b.replMode == 0 || b.replMode == 3 || 2 ^ 32 ≤ b.lin then s else
  let n := 2 ^ (cx.replctl.extractLsb' 8 5).toNat
  let e := b.replEntry
  let s := setBlock s blk fun b => { b with replEntry := b.replEntry + 1 }
  let bytes := bytesOf 1 g ++ [0, 0, 0] ++ bytesOf 4 phase ++ bytesOf 8 count
  let va := cx.replva.toNat / 4096 * 4096 + 16 * n * b.lin + 16 * e
  if n ≤ e then (if b.replMode == 1 then replOverflow s b.vf b.ctx else s)
  else if b.replMode == 1 then
    match cpWrite s b.vf b.ctx va bytes with
    | (s, .ok _) => s
    | (s, .err e) => walkPoison (replOverflow s b.vf b.ctx) b.vf b.ctx va e
  else
    match cpRead b.vf b.ctx va 16 s with
    | (s, .ok old) => if old.take 1 == bytes.take 1 && old.drop 4 == bytes.drop 4 then s else divergence s blk g
    | (s, .err e) => walkPoison (replOverflow s b.vf b.ctx) b.vf b.ctx va e

/-- BARRIER_PHASE_COMPLETE (R112, R204, R105, R320): the counter advances, arrivals are cleared, L1 is invalidated at
BLOCK scope, waits on the phase end. -/
def phaseComplete (s : State) (blk : Nat) (g : Group) (by' : Nat) : State :=
  let b := blockOf s blk
  let phase := g.phase + 1
  let s := setBlock s blk fun b => { b with groups := b.groups.map fun x =>
    if x.g == g.g then { x with phase, arrived := [], due := none } else x }
  let members := (groupMembers b g).map (b.firstWarp + ·)
  let s := if groupWide b g then
      ((members.map fun w => (warpOf s w).core).eraseDups).foldl (fun s c => invalidateL1 s c b.vf b.ctx) s else s
  let s := members.foldl asumUpdate s
  let rec' := traceBytes 3 0 false (partOf s (warpOf s by').part).log g.g (warpOf s by').idx phase.toNat (timeNs s) b 0
  let s := traceOffer s b.vf b.ctx 13 rec'
  let s := replayEntry s blk g.g phase.toNat g.retired.toNat
  wakeBlock s blk
def execBarrierPhaseComplete (blk g : Nat) (s : State) : Host.Outcome State Fault Refusal :=
  .next (match groupOf (blockOf s blk) g with
    | some gr => match gr.due with
      | some (ck, by') => if ck ≤ s.clk then phaseComplete s blk gr by' else s
      | none => s
    | none => s)

/-! ### Cube ownership, caches -/

def execCubeOwnershipGrant (core : Nat) (s : State) : Host.Outcome State Fault Refusal := .next (grantCube s core)
/-- L1_SECTOR_EXPIRY (R105). -/
def execL1SectorExpiry (core : Nat) (s : State) : Host.Outcome State Fault Refusal :=
  .next (setCore s core fun c => { c with l1 := c.l1.filter fun x => s.clk < x.fill + Config.l1Life })
/-- L0_LINE_FILL: a line that has arrived, in 64 sets of 8 ways (R10, R400). -/
def execL0LineFill (core line : Nat) (s : State) : Host.Outcome State Fault Refusal :=
  .next (match (coreOf s core).fills.find? fun f => f.1 == line && f.2.1 ≤ s.clk with
    | some f => setCore s core fun c =>
        { c with l0 := insertWays 8 (fun x => sameSet 0 64 x.1 line) (f.1, f.2.2) (c.l0.filter (·.1 != line)), fills := c.fills.filter (·.1 != line) }
    | none => s)
/-- TRANSLATION_WALK: a core translates an address (R80). -/
def execTranslationWalk (core vf c : Nat) (va : Dword) (acc : Access) (s : State) : Host.Outcome State Fault Refusal :=
  .next (translate s core vf c va.toNat acc).1

/-! ### Host memory -/

/-- The lanes' bytes that a completion brings, taken in order. -/
def hostFill (n : Nat) (hosts : List Nat) : List Byte → List (Nat × Nat × BitVec 128) → List (Nat × Nat × BitVec 128)
  | _, [] => []
  | bs, (l, d, x) :: r =>
    if hosts.contains l then (l, d, gather (bs.take n)) :: hostFill n hosts (bs.drop n) r else (l, d, x) :: hostFill n hosts bs r
/-- A completion for a load of host memory (R79, R341): its data, with what its other lanes read in that instant (R101), or PERM. -/
def completeLoad (s : State) (l : LoadOp) (ok : Bool) (bytes : List Byte) : State :=
  let s := { s with loads := s.loads.filter (· != l) }
  let open' (s : State) : State := setWarp s l.warp fun w => { w with pend := w.pend.filter fun p => p.load != some l.id }
  if ok then
    let s := countIo s l.vf 0 bytes.length
    let places := l.late.map fun x => (x.1, x.2.2.2)
    let va (k : Nat) : Nat := ((l.late.find? (·.1 == k)).map (·.2.2.1)).getD 0
    match readLanes s (lateReader s l) l.size.bytes l.fill l.hint places l.consume with
    | (s, .inl k) => lateTrap (open' s) l.warp l.lanes l.pc 0x18 k (va k) 0
    | (s, .inr vs) =>
      let (s, refused) := peerEnd l.vf l.size.bytes places va s
      let data := hostFill l.size.bytes (l.hosts.map (·.1)) bytes l.data ++ l.late.map fun x => (x.1, x.2.1, ((vs.find? (·.1 == x.1)).map (·.2)).getD 0)
      let s := returnLoad s { l with data, refused }
      if l.acq then joinL1 s l.warp else s
  else
    let h := l.hosts.headD (0, 0)
    lateTrap (open' s) l.warp l.lanes l.pc 0x13 h.1 h.2 0
/-- A completion for an atomic on host memory (R199, R341): old values, or ATOMIC. The core's earlier stores to host memory have been
performed before it (R106). -/
def completeAtomic (s : State) (f : Flight) (ok : Bool) (bytes : List Byte) : State :=
  let first := s.flights.filter fun g => g.core == f.core && g.op.isNone && !g.host && g.order < f.order && g.entry.accs.any fun a => isHost a.home
  let s := first.foldl performFlight { s with flights := s.flights.filter (·.id != f.id) }
  let n := match f.entry.accs with | a :: _ => a.size | [] => 4
  popIf (if ok then
      performAtomic (countIo s f.vf 0 bytes.length) f.warp f.entry ((List.range f.entry.accs.length).map fun k => leBytes ((bytes.drop (n * k)).take n)) 0 0
    else
      let a := f.entry.accs.head?
      let s := setWarp s f.warp fun w => { w with pend := w.pend.filter fun p => p.load != some f.entry.id }
      lateTrap s f.warp f.entry.lanes f.entry.pc 0x17 ((a.map (·.lane)).getD 0) ((a.map (·.addr)).getD 0) (2 ^ 18)) f
/-- What host memory holds from an address on, as a host read finds it. -/
def depositHost (s : State) (at' : Nat) (bytes : List Byte) : State := { s with hostMem := memWriteN s.hostMem at' bytes }
/-- HOST_COMPLETION: for a load, for an atomic, or else what host memory holds from an address on (log entry 3). -/
def execHostCompletion (id : Nat) (ok : Bool) (bytes : List Byte) (s : State) : Host.Outcome State Fault Refusal :=
  .next (match s.loads.find? fun l => l.id == id && l.due.isNone with
    | some l => completeLoad s l ok bytes
    | none => match s.flights.find? fun f => f.entry.id == id && f.host with
      | some f => completeAtomic s f ok bytes
      | none => if ok then depositHost s id bytes else s)

end Sys2Proof.Machine
end

