-- ==== Sys2Proof/Machine/Engines.lean ====
section
/-! DEFINITION. Engines at work: starting records, completion (R116, R117, R235), segments (R242), markers (R243), copies
(R239 to R241), the cube (R219 to R227), and the faults that an engine finds (R324, R333 to R335, R348). -/

namespace Sys2Proof.Machine

/-! ### Chains and operations -/

def setOp (s : State) (id : Nat) (f : EngOp → EngOp) : State := { s with ops := s.ops.map fun o => if o.id == id then f o else o }
def opOf (s : State) (id : Nat) : Option EngOp := s.ops.find? (·.id == id)
def EngOp.type (o : EngOp) : Nat := fieldOf o.bytes 0 1
def EngOp.copyRec (o : EngOp) : CopyRec := CopyRec.ofBytes o.bytes
def EngOp.isCube (o : EngOp) : Bool := o.eng == .cube
/-- The record that an operation was started for: a LINK's, for the records of its segment. -/
def opRec (s : State) (o : EngOp) : Option Rec := (chainOf (ctxOf s o.vf o.ctx) o.lcore o.eng).recs.find? (·.slot == o.slot)
/-- When the record of an operation was appended (R117). -/
def opOrder (s : State) (o : EngOp) : Nat := ((opRec s o).map (·.order)).getD 0
/-- A parked operation whose replay has not been asked for (R348). -/
def EngOp.stuck (o : EngOp) : Bool := match o.parked with | some (_, replay) => !replay | none => false

/-- The completion word goes on over the numbers that have completed (R117). -/
def advanceComp : Nat → Nat → List Nat → Nat
  | 0, c, _ => c
  | n + 1, c, done => if done.contains (c + 1) then advanceComp n (c + 1) done else c
/-- Every number of a record has completed. -/
def recDone (comp : Nat) (done : List Nat) (r : Rec) : Bool :=
  (List.range r.count).all fun k => r.seq + k ≤ comp || done.contains (r.seq + k)
/-- Numbers of a chain completed: the word advances, and slots whose records are done are free again (R235). -/
def completeNums (nums : List Nat) (c : Chain) : Chain :=
  let done := nums ++ c.doneNums
  let comp := advanceComp done.length c.comp done
  let recs := (c.recs.map fun r => if recDone comp done r then { r with done := true } else r).filter fun r =>
    !(r.done && r.seq + r.count ≤ comp + 1)
  { c with comp, doneNums := done.filter (comp < ·), recs, head := match recs with | r :: _ => r.slot | [] => c.tail }

/-- A record of an engine fault or park (R333, R348). -/
def engRecord (s : State) (o : EngOp) (ty cause flags sub addr info : Nat) (owner : Owner) : State :=
  let w := if o.bytes.isEmpty then recWarp (warpOf s o.warp) else fieldOf o.bytes (if o.isCube && o.type != 0x0A then 2 else 3) 1
  formRec s o.blk (recKey 0 2 o.id) ⟨ty, cause, 4 + flags, w, (partOf s o.part).log, sub, 0, 0, 0, 0, 0, addr, info⟩ owner
/-- An operation that ends without further effect (R333). A LINK whose own record fails stops the chain as a walk does, all its
numbers still to come (R324, log entry 89). -/
def killOp (s : State) (o : EngOp) : State :=
  let link := (opRec s o).filter (·.link)
  let walk (x : EngOp) : Option (Nat × Nat) := match x.walk with
    | some w => some w
    | none => if x.addr == ringSlot (ctxOf s x.vf x.ctx) x.lcore x.eng x.slot then link.map fun r => (r.count, 0) else none
  setOp s o.id fun x => { x with dead := true, issued := true, parked := none, walk := walk x }
/-- An engine fault: its record, the halt of the issuing block where it is still there, the slice's ERROR for poison
(R324, R333, R355). -/
def engFault (s : State) (o : EngOp) (cause sub info : Nat) : State :=
  let s := engRecord (killOp s o) o 6 cause 0 sub o.addr info .none
  let b := blockOf s o.blk
  if cause == 0x18 then enterError s o.vf o.ctx 2 o.addr
  else if b.status == .resident || b.status == .saved then haltBlock s o.blk false else s
/-- The operation of the other copy of a twin pair at work on the same engine (R361). -/
def mateOp (s : State) (o : EngOp) : Option EngOp :=
  match (blockOf s o.blk).twin with
  | some (p, _) => s.ops.find? fun x => x.blk == p && x.eng == o.eng
  | none => none
/-- A recoverable page fault parks the operation on its chain (R348). Of twins one record is formed, which names the primary's operation
(R361, log entry 45). -/
def engPark (s : State) (o : EngOp) (addr level : Nat) (write : Bool) : State :=
  let replayed := if o.parked.isSome then 1 else 0
  let mate := mateOp s o
  let s := setOp s o.id fun o => { o with parked := some (2 ^ 32, false) }
  if mate.any fun x => x.parked.any fun p => !p.2 then s else
  engRecord s (if o.twin then mate.getD o else o) 2 0x12 replayed 5 addr (level * 2 ^ 16 + if write then 2 ^ 18 else 0) (.op o.id)
/-- What a failed translation does to an operation. -/
def engErr (s : State) (o : EngOp) (addr : Nat) (write : Bool) : XErr → State
  | .page level => engPark s o addr level write
  | e => engFault s o e.cause 0 (e.info write)

/-- Device memory at a place reached, and whether its bytes are poisoned. -/
def engTouch (s : State) (o : EngOp) (p : Place) (n : Nat) : State × Bool :=
  match p with
  | .dev pa => let s := touchHome s o.core o.vf o.ctx .normal pa; (s, (List.range n).any fun k => devPoisoned s (pa + k))
  | .host _ => (countIo s o.vf 0 n, false)
  | .peer _ _ => (countIo s o.vf 3 n, false)
  | _ => (s, (List.range n).any fun k => placePoisoned s (p.plus k))
/-- Bytes that an engine reads at a place, unless they are poisoned or what lies outside the device fails them (R341, R355). -/
def engBytes (s : State) (o : EngOp) (p : Place) (n : Nat) : State × Xl (List Byte) :=
  match outside s p with
  | (s, some e) => (s, .err e)
  | (s, none) =>
    match engTouch s o p n with
    | (s, true) => (s, .err (.poison 0))
    | (s, false) => (s, .ok ((List.range n).map fun k => homeByte s (ctxOf s o.vf o.ctx).bankKey (p.plus k)))
/-- Bytes that an engine reads from global memory through the core's TLB and the context's tables. -/
def engRead (s : State) (o : EngOp) (va n : Nat) : State × Xl (List Byte) :=
  match translate s o.core o.vf o.ctx va .load with
  | (s, .err e) => (s, .err e)
  | (s, .ok p) => engBytes s o p n

/-! ### Form of a record -/

/-- Fields that Table 9-11 reserves in every record: offsets 0x08 and 0x30, and FLAGS [7:3]. -/
def reservedSet (bs : List Byte) : Bool := fieldOf bs 8 8 != 0 || fieldOf bs 0x30 8 != 0 || 8 ≤ fieldOf bs 1 1
/-- A copy or MARK record whose form fails Table 9-11 on an engine (R242, R335): its reserved fields, its type, ARG, and a
combination that is no instruction. Words that its type does not read (SH1 of a CPY, SRC of a CPYFL) are not looked at. -/
def copyFormBad (eng : Engine) (bs : List Byte) : Bool :=
  let r := CopyRec.ofBytes bs
  let mark := r.ty == 0x0A
  reservedSet bs || !(1 ≤ r.ty && r.ty ≤ 0x0A) || r.ty == 9 ||
  (if eng == .fab then !(r.ty == 6 || mark) else if eng == .cube then !mark else r.ty == 6) ||
  (r.ty == 5 && !r.ds) || (r.swe && !r.ds) || (!r.swe && r.swoff != 0) || (r.ty == 6 && (r.ds || r.swe)) ||
  (r.ty == 7 && (r.ds || r.ss || r.swe)) || (mark && r.ss) ||
  (if r.ty == 5 then 16 ≤ r.arg.toNat else if r.ty == 6 then 64 ≤ r.arg.toNat
   else if mark then (if eng == .fab then 64 ≤ r.arg.toNat else r.arg != 0)
   else if r.ty == 8 then 3 ≤ r.arg.toNat else r.arg != 0)
/-- Reserved fields of an operand record (Table 9-7). -/
def OpRec.formBad (r : OpRec) : Bool := r.pad2 != 0 || r.pad3 != 0 || r.fmt == 7
/-- The framing literal of a cube record keeps Table 9-3 for its TYPE: no reserved code, and zero where the table says zero. -/
def frameOk (ty : Nat) (x : Word) : Bool :=
  match Frame.ofBits x with
  | none => false
  | some f =>
    f.toBits == x &&
    (if ty == 0x10 then f.okTmac else if ty == 0x11 then f.okMmac else if ty == 0x12 then f.okTmacv
     else if ty == 0x13 then f.okMmacv else f.okCsp)
/-- A ring record whose TYPE or reserved fields fail (R335). -/
def ringFormBad (eng : Engine) (bs : List Byte) : Bool :=
  let ty := fieldOf bs 0 1
  if eng == .cube && 0x10 ≤ ty && ty ≤ 0x14 then
    fieldOf bs 3 1 != 0 || !(frameOk ty (BitVec.ofNat 32 (fieldOf bs 4 4))) ||
    ((ty == 0x10 || ty == 0x11 || ty == 0x14) && (fieldOf bs 0x11 15 != 0 || fieldOf bs 0x21 15 != 0 || fieldOf bs 0x31 15 != 0)) ||
    ((ty == 0x12 || ty == 0x13) && ((OpRec.ofNat (fieldOf bs 0x10 16)).formBad || (OpRec.ofNat (fieldOf bs 0x20 16)).formBad)) ||
    (ty == 0x12 && (OpRec.ofNat (fieldOf bs 0x30 16)).formBad) || ((ty == 0x11 || ty == 0x13) && fieldOf bs 0x30 16 != 0)
  else if ty == 9 then
    eng == .cube || reservedSet bs || fieldOf bs 2 1 != 0
  else copyFormBad eng bs

/-! ### Starting records -/

/-- Chains of an engine on a physical core: slice, context, chain. -/
def coreChains (s : State) (core : Nat) (eng : Engine) : List (Nat × Nat × Chain) :=
  s.slices.flatMap fun sl =>
    if !sl.used || !(sl.lcores.contains core) || sl.ifst == .error then [] else
    sl.ctxs.flatMap fun c =>
      (c.chains.filter fun h => h.eng == eng && sl.lcores.getD h.lcore 64 == core).map fun h => (sl.vf, c.n, h)
/-- An operation belongs to a chain. -/
def inChain (vf c : Nat) (h : Chain) (o : EngOp) : Bool := o.vf == vf && o.ctx == c && o.lcore == h.lcore && o.eng == h.eng
/-- Engines start records of a context unless it is being saved (R284); a SPLIT runs the chains of the leaving cores out
(R291). -/
def mayStart (s : State) (vf c core : Nat) : Bool :=
  match (ctxOf s vf c).run with
  | .running | .quiescing => true
  | .suspended => (match s.pfShape with | some (.split a m _ _) => a == vf && m.getLsbD (core / 4) | _ => false)
  | .stopping => false
/-- Something of a chain keeps it from going on: a parked operation, or a walk that a fault has ended (R324, R348). -/
def chainHeld (s : State) (vf c : Nat) (h : Chain) : Bool :=
  s.ops.any fun o => inChain vf c h o && (o.stuck || (o.walk.isSome && o.dead))
/-- The next record of a chain, where nothing of the chain holds it back: no park, no walk (R117, R348). -/
def nextRec (s : State) (vf c : Nat) (h : Chain) : Option Rec :=
  if s.ops.any fun o => inChain vf c h o && (o.parked.isSome || o.walk.isSome) then none
  else (h.recs.find? fun r => !r.started).bind fun r => if allGone s r.fork then some r else none
/-- The run that is open to a peer. -/
def openRun (sl : Slice) (p : Nat) : Option Run := sl.runs.find? fun r => r.peer == p && !r.closed
/-- An operation of a context that is being saved, or has been, at rest with its engine free for other contexts: one with operand
records at its chunk boundary, and a CPYF whose started runs are complete (R284, R287). -/
def chunkHeld (s : State) (o : EngOp) : Bool :=
  !(mayStart s o.vf o.ctx o.core) &&
  (o.type == 0x12 || o.type == 0x13 ||
    (o.eng == .fab && !((openRun (sliceOf s o.vf) o.copyRec.arg.toNat).any fun r => r.writes.any fun w => w.2.2 == o.id)))
/-- An engine is at work on an operation: the next one waits. -/
def engBusy (s : State) (core : Nat) (eng : Engine) : Bool :=
  s.ops.any fun o => o.core == core && o.eng == eng && !o.issued && o.parked.isNone && o.walk.isNone && o.type != 0x0A && !(chunkHeld s o)
/-- The records that an engine of a core can start, with their chains. -/
def startable (s : State) (core : Nat) (eng : Engine) : List (Nat × Nat × Nat × Rec) :=
  (coreChains s core eng).filterMap fun (vf, c, h) =>
    if mayStart s vf c core then (nextRec s vf c h).map fun r => (vf, c, h.lcore, r) else none
/-- The oldest append of some records (R117). -/
def oldestRec (rs : List (Nat × Nat × Nat × Rec)) : Option (Nat × Nat × Nat × Rec) :=
  rs.foldl (fun m x => match m with | none => some x | some y => if x.2.2.2.order < y.2.2.2.order then some x else m) none
/-- Units of a copy: 256 bytes of its destination each, the first cut at a 256-byte boundary (R348). -/
def CopyRec.total (r : CopyRec) : Nat := if r.isRows then r.rows * r.rowBytes else if r.ty == 8 then 64 * r.sh0 else r.sh0
def CopyRec.unitCount (r : CopyRec) : Nat := if r.ty == 0x0A then 0 else (r.total + r.dst % 256 + 255) / 256
/-- What the checks at issue find in a tile form as its slot now reads: its classes, its maps, and storage that the part has (R220,
R245; log entry 87). -/
def TileArgs.legal (t : TileArgs) (p : Part) : Option Nat :=
  let cls := ([t.fr.af, t.fr.bf] ++ if t.ty == 0x10 then [t.fr.cf] else []).map fmtClass
  let tiles := [t.a, t.b] ++ (if t.ty == 0x10 || t.ty == 0x14 then [t.c] else []) ++ if t.ty == 0x14 then [t.b + 1] else []
  if (cls.any fun c => c != t.cls) || (t.ty == 0x14 && 3 ≤ t.cls) then some 1
  else if !(mapOk t.fr.beta) || !(mapOk t.fr.kappa) then some 2
  else if p.accs.length ≤ t.acc || tiles.any (p.tiles.length ≤ ·) then some 0 else none
/-- The checks that the instruction of a record makes at issue, on the record as its slot reads: cause and SUB (R240, R242, R335). -/
def recordBad (s : State) (o : EngOp) : Option (Nat × Nat) :=
  let p := partOf s o.part
  if o.type == 9 then
    let va := fieldOf o.bytes 0x10 8
    let m := fieldOf o.bytes 0x20 8
    if va % 64 != 0 || 2 ^ 52 ≤ va || m == 0 || 256 < m then some (3, 1) else none
  else if !o.isCube || o.type == 0x0A then
    (o.copyRec.check (sliceOf s o.vf) p.kib (blockOf s o.blk).nParts).map fun x => (x.1, 1)
  else if o.type == 0x12 || o.type == 0x13 then
    (VArgs.ofBytes o.bytes).bind fun v =>
      (vLegal v.fr p.kib v.a v.b (if o.type == 0x12 then some v.c else none)).map fun sub => (0x0A, sub)
  else (TileArgs.ofBytes o.bytes).bind fun t => (t.legal p).map fun sub => (if sub == 0 then 0x19 else 0x0A, sub)
/-- An operation takes up its record: a LINK becomes a walk; a faulty form is a chain fault, and what the instruction would have
refused is its fault (R242, R335). -/
def loadRecord (s : State) (o : EngOp) (bs : List Byte) : State :=
  let o := { o with bytes := bs, parked := none }
  let s := setOp s o.id fun _ => o
  if ringFormBad o.eng bs then engFault s o 0x19 0 0
  else match recordBad s o with
    | some (cause, sub) => engFault s o cause sub 0
    | none =>
      if o.type == 9 then setOp s o.id fun o => { o with walk := some (fieldOf bs 0x20 8, fieldOf bs 0x10 8), issued := true } else
      let units := if o.isCube then (match VArgs.ofBytes bs with | some v => v.chunks | none => 0) else o.copyRec.unitCount
      setOp s o.id fun o => { o with units }
/-- A record's slot is read, when its operation starts or is replayed. -/
def readSlot (s : State) (o : EngOp) : State :=
  match engRead s o o.addr 64 with
  | (s, .err e) => engErr s o o.addr false e
  | (s, .ok bs) => loadRecord s o bs
/-- The walks of an engine that can go on, the oldest of their LINK records first; a parked operation holds its chain's walk. -/
def openWalks (s : State) (core : Nat) (eng : Engine) : List EngOp :=
  sortBy (fun x y => opOrder s x ≤ opOrder s y) <| s.ops.filter fun l =>
    l.core == core && l.eng == eng && l.walk.isSome && !l.dead && !l.stuck && mayStart s l.vf l.ctx core && (sliceOf s l.vf).ifst != .error &&
    !(s.ops.any fun o => o.id != l.id && o.vf == l.vf && o.ctx == l.ctx && o.lcore == l.lcore && o.eng == l.eng && o.parked.isSome)
/-- The record that an engine starts next: the oldest that can start, where no walk takes an older place (R117). -/
def nextStart (s : State) (core : Nat) (eng : Engine) : Option (Nat × Nat × Nat × Rec) :=
  (oldestRec (startable s core eng)).filter fun r => (openWalks s core eng).all fun l => r.2.2.2.order < opOrder s l
/-- ENGINE_RECORD_START: an idle engine starts the oldest record that can start (R117). -/
def execEngineRecordStart (core : Nat) (eng : Engine) (s : State) : Host.Outcome State Fault Refusal :=
  .next (match s.ops.find? fun o => o.core == core && o.eng == eng && o.bytes.isEmpty && !o.dead && o.parked.isSome && !o.stuck with
    | some o => readSlot s o
    | none =>
      if engBusy s core eng then s else
      match nextStart s core eng with
      | none => s
      | some (vf, c, lc, r) =>
        let (id, s) := fresh s
        let o : EngOp :=
          { id, core, eng, vf, ctx := c, lcore := lc, slot := r.slot, seq := r.seq, blk := r.blk, part := r.part, warp := r.warp,
            addr := ringSlot (ctxOf s vf c) lc eng r.slot, bytes := [], walk := none, unit := 0, units := 0, parked := none,
            issued := false, ready := s.clk, dead := false, twin := r.twin, flags := [], cover := [], refused := false }
        let s := setChain s vf c lc eng fun h => { h with recs := h.recs.map fun x => if x.seq == r.seq && x.slot == r.slot then { x with started := true } else x }
        readSlot { s with ops := s.ops ++ [o] } o)

/-! ### Segments -/

/-- The walk goes on after a record, or ends. -/
def walkOn (s : State) (l : EngOp) (left next : Nat) : State :=
  if left ≤ 1 then { s with ops := s.ops.filter (·.id != l.id) } else setOp s l.id fun o => { o with walk := some (left - 1, next), parked := none }
/-- A segment record that has been read: checked in form and in use, then started (R242). -/
def startSegment (s : State) (l : EngOp) (left va : Nat) (bs : List Byte) : State :=
  let r := CopyRec.ofBytes bs
  let (id, s) := fresh s
  let m := fieldOf l.bytes 0x20 8
  let o : EngOp := { l with id, addr := va, bytes := bs, walk := none, seq := l.seq + min (m - left) (((opRec s l).map (·.count)).getD m - 1), units := r.unitCount, unit := 0,
                            parked := none, issued := false, ready := s.clk, cover := [] }
  let badNext := left != 1 && (r.next == 0 || r.next % 64 != 0)
  if badNext || copyFormBad l.eng bs then engFault s { o with id := l.id } 0x19 0 0
  else match r.check (sliceOf s l.vf) (partOf s l.part).kib (blockOf s l.blk).nParts with
    | some (cause, _) => engFault s { o with id := l.id } cause 1 0
    | none => walkOn { s with ops := s.ops ++ [o] } l left r.next
/-- SEGMENT_RECORD_READ (R242): the next record of a walk, once the engine is free. -/
def execSegmentRecordRead (core : Nat) (eng : Engine) (s : State) : Host.Outcome State Fault Refusal :=
  .next (match (openWalks s core eng).head? with
    | some l =>
      if engBusy s core eng || (nextStart s core eng).isSome then s else
      match l.walk with
      | some (left, va) =>
        if 2 ^ 52 ≤ va then engFault s { l with addr := va } 3 1 0 else
        match engRead s l va 64 with
        | (s, .err e) => engErr s { l with addr := va } va false e
        | (s, .ok bs) => startSegment s l left va bs
      | none => s
    | none => s)
/-- A walk that a fault has ended holds its chain and the numbers that remain until its block is dealt with (R324). -/
def heldByFault (o : EngOp) : Bool := o.dead && o.walk.isSome
/-- Operations of one record: a LINK's walk and its segment. -/
def sameRec (o x : EngOp) : Bool := x.vf == o.vf && x.ctx == o.ctx && x.lcore == o.lcore && x.eng == o.eng && x.slot == o.slot
/-- The numbers that end with an operation: its own, where no other operation of the record has it; all that the record has left,
where none of its operations is left (R117, R335). -/
def numsOf (s : State) (o : EngOp) : List Nat :=
  let others := s.ops.filter fun x => x.id != o.id && sameRec o x
  match others, opRec s o with
  | [], some r => (List.range r.count).map (r.seq + ·)
  | [], none => [o.seq]
  | _, _ => if o.walk.isSome || others.any fun x => x.walk.isNone && x.seq == o.seq then [] else [o.seq]
/-- An operation is gone, and its numbers complete. -/
def endOp (s : State) (o : EngOp) : State :=
  setChain { s with ops := s.ops.filter (·.id != o.id) } o.vf o.ctx o.lcore o.eng (completeNums (numsOf s o))
/-- Walks that a fault has ended give up their remaining numbers once their block is discarded or resumed (R324). -/
def releaseWalks (s : State) (blk : Nat) : State := (s.ops.filter fun o => o.blk == blk && heldByFault o).foldl endOp s
/-- Engine operations of a block that have yet to complete, but for what a fault of the block itself holds (R318, R324). -/
def enginesOpen (s : State) (blk : Nat) : Bool :=
  let b := blockOf s blk
  (s.ops.any fun o => o.blk == blk && !(heldByFault o)) ||
  (ctxOf s b.vf b.ctx).chains.any fun c =>
    !(s.ops.any fun o => inChain b.vf b.ctx c o && o.blk == blk && heldByFault o) && c.recs.any fun r => r.blk == blk && !r.done && !r.started

/-! ### Copies -/

/-- Where byte `x` of a copy's output lies: its row and the byte in it. -/
def CopyRec.at' (r : CopyRec) (x : Nat) : Nat × Nat := if r.isRows then (x / r.rowBytes, x % r.rowBytes) else (0, x)
/-- Address of a byte of the destination, and of the source, the row's index being known (Table 9-14). -/
def CopyRec.dstAddr (r : CopyRec) (x idx : Nat) : Nat :=
  let (row, b) := r.at' x
  if r.ty == 2 then r.dst + row * r.dstride + b else if r.ty == 4 then r.dst + idx * r.rowBytes + b
  else r.dst + x
def CopyRec.srcAddr (r : CopyRec) (x idx : Nat) : Nat :=
  let (row, b) := r.at' x
  if r.ty == 2 then r.src + row * r.sstride + b else if r.ty == 3 then r.src + idx * r.rowBytes + b
  else if r.ty == 8 then r.src + 4 * x else r.src + x

/-- Where an engine's access stops: a cause of Table 17-1, or a range. -/
inductive UnitErr where
  | xl (e : XErr) (addr : Nat) (write : Bool)
  | range
deriving DecidableEq, Repr

/-- One piece of a unit, in runs of 16 bytes: places that its output goes to, by the output byte at which each begins, its address,
and places of its source. A piece has 16 bytes; a block of CPYQ has 64, from 256. -/
structure Piece where
  dsts : List (Nat × Place)
  dstVa : Nat
  srcs : List Place
deriving DecidableEq, Repr

/-- A scratchpad or global place for an engine; an offset out of the allocation stops it (log entry 21). -/
def engPlace (s : State) (o : EngOp) (scr : Bool) (addr n : Nat) (acc : Access) : State × (Place ⊕ UnitErr) :=
  if scr then (s, if (partOf s o.part).kib * 1024 < addr + n then .inr .range else .inl (.scratch o.part addr))
  else if 2 ^ 52 < addr + n then (s, .inr .range)
  else match translate s o.core o.vf o.ctx addr acc with
    | (s, .ok p) => (s, .inl p)
    | (s, .err e) => (s, .inr (.xl e addr (acc == .store)))
/-- The index of a row (CPYG, CPYS). -/
def rowIndex (s : State) (o : EngOp) (r : CopyRec) (x : Nat) : State × (Nat ⊕ UnitErr) :=
  if r.ty == 3 || r.ty == 4 then
    let va := r.sh1 + 4 * (r.at' x).1
    match engRead s o va 4 with
    | (s, .ok bs) => (s, .inl (leBytes bs))
    | (s, .err e) => (s, .inr (.xl e va false))
  else (s, .inl 0)
/-- Scratchpads that a destination names: the part's own, or each of a mask (CPYB). -/
def dstParts (s : State) (o : EngOp) (r : CopyRec) : List Nat :=
  if r.ty == 5 then ((List.range 4).filter fun k => r.arg.getLsbD k).map ((blockOf s o.blk).firstPart + ·) else [o.part]
/-- Places of some 16-byte runs. -/
def engPlaces (o : EngOp) (scr : Bool) (acc : Access) : List Nat → State → State × (List Place ⊕ UnitErr)
  | [], s => (s, .inl [])
  | a :: as, s =>
    match engPlace s o scr a 16 acc with
    | (s, .inr e) => (s, .inr e)
    | (s, .inl p) =>
      match engPlaces o scr acc as s with
      | (s, .inr e) => (s, .inr e)
      | (s, .inl ps) => (s, .inl (p :: ps))
/-- Addresses of the 16-byte runs of `n` bytes. -/
def runsOf (at' n : Nat) : List Nat := (List.range (n / 16)).map fun k => at' + 16 * k
/-- One piece of a copy found. -/
def pieceAt (s : State) (o : EngOp) (r : CopyRec) (x : Nat) : State × (Piece ⊕ UnitErr) :=
  match rowIndex s o r x with
  | (s, .inr e) => (s, .inr e)
  | (s, .inl idx) =>
    match engPlaces o r.ss .load (runsOf (r.srcAddr x idx) (if r.ty == 8 then 256 else 16)) s with
    | (s, .inr e) => (s, .inr e)
    | (s, .inl srcs) =>
      let va := r.dstAddr x idx
      if r.ty == 5 then (s, .inl ⟨(dstParts s o r).map fun q => (0, .scratch q va), va, srcs⟩)
      else if r.ty == 6 then (s, .inl ⟨[], va, srcs⟩)
      else
        match engPlaces o r.ds .store (runsOf va (if r.ty == 8 then 64 else 16)) s with
        | (s, .inr e) => (s, .inr e)
        | (s, .inl ds) => (s, .inl ⟨ds.mapIdx fun k d => (16 * k, d), va, srcs⟩)
/-- The pieces of some output bytes. -/
def piecesAt (o : EngOp) (r : CopyRec) : List Nat → State → State × (List Piece ⊕ UnitErr)
  | [], s => (s, .inl [])
  | x :: xs, s =>
    match pieceAt s o r x with
    | (s, .inr e) => (s, .inr e)
    | (s, .inl p) =>
      match piecesAt o r xs s with
      | (s, .inr e) => (s, .inr e)
      | (s, .inl ps) => (s, .inl (p :: ps))
/-- The output bytes of unit `u`, one for each piece. -/
def CopyRec.unitBytes (r : CopyRec) (u : Nat) : List Nat :=
  let pre := r.dst % 256
  let step := if r.ty == 8 then 64 else 16
  let lo := 256 * u - pre
  let hi := min r.total (256 * (u + 1) - pre)
  ((List.range (256 / step + 1)).map fun k => (lo + step - 1) / step * step + step * k).filter fun x => lo ≤ x && x < hi
/-- The bytes of some 16-byte runs. -/
def readRuns (o : EngOp) : List Place → State → State × Xl (List Byte)
  | [], s => (s, .ok [])
  | p :: ps, s =>
    match engBytes s o p 16 with
    | (s, .err e) => (s, .err e)
    | (s, .ok bs) =>
      match readRuns o ps s with
      | (s, .err e) => (s, .err e)
      | (s, .ok rest) => (s, .ok (bs ++ rest))
/-- A block of CPYQ: 64 F32 values quantised (R64, R65, R240). -/
def quantOut (r : CopyRec) (bs : List Byte) : List Byte :=
  let fmt : LgFmt := if r.arg == 0 then .lg7 else if r.arg == 1 then .lg6 else .lg4
  bytesOf 64 (quantBlock fmt ((List.range 64).map fun e => Fmt.f32.unpack (fieldOf bs (4 * e) 4))).1.toNat
/-- The pieces' sources read: the bytes that each piece writes. -/
def readPieces (o : EngOp) (r : CopyRec) : List Piece → State → State × Xl (List (List Byte))
  | [], s => (s, .ok [])
  | p :: ps, s =>
    match readRuns o p.srcs s with
    | (s, .err e) => (s, .err e)
    | (s, .ok bs) =>
      match readPieces o r ps s with
      | (s, .err e) => (s, .err e)
      | (s, .ok rest) => (s, .ok ((if r.ty == 8 then quantOut r bs else bs) :: rest))
/-- The latency of a unit's read (R403). DESIGN CHOICE (log entry 35): Table 8-8 gives none for a source in host or peer memory, whose
bytes are taken as the unit starts, with 1 ck. -/
def readTime (s : State) (core : Nat) (p : Place) : Nat :=
  match p with | .scratch _ _ => 24 | .dev pa => homeLatency s (core / 16) pa | _ => 1
/-- An engine's write of some pieces to homes of one time: a flight, with its arrival at a sync word (R241). -/
def engFly (s : State) (o : EngOp) (t : Nat) (accs : List LaneAcc) (arrive : Option (Nat × Nat × Nat)) : State :=
  if accs.isEmpty then s else
  let (id, s) := fresh s
  let e : QEntry := { id, kind := .store, accs, lanes := 0, rel := false, acq := false, scope := .core, cube := 0, passes := 0, sent := true,
                      hint := .normal, pc := 0, bad := [], at' := s.clk }
  let f : Flight := { id, core := o.core, warp := o.warp, vf := o.vf, ctx := o.ctx, op := some o.id, entry := e, due := s.clk + t, order := id,
                      host := false, arrive }
  fabAsk { s with flights := s.flights ++ [f] } o.vf o.core id (accs.map fun a => (a.home, a.size))
/-- The writes of a unit sent to their homes: one flight a scratchpad, one for each time of the rest. -/
def sendPieces (s : State) (o : EngOp) (r : CopyRec) (lat : Nat) (ps : List (Place × Nat × List Byte)) : State :=
  let accs := ps.map fun (p, va, bs) =>
    { lane := 0, addr := va, size := bs.length, data := BitVec.ofNat 1024 (leBytes bs), cmp := 0, home := p : LaneAcc }
  let parts := (accs.filterMap fun a => match a.home with | .scratch q _ => some q | _ => none).eraseDups
  let s := parts.foldl (fun s q =>
    let mine := accs.filter fun a => match a.home with | .scratch q' _ => q' == q | _ => false
    let n := mine.foldl (fun n a => n + a.size) 0
    engFly s o (lat + (homeTime s o.core (.scratch q 0)).getD 0) mine (if r.swe then some (q, r.swoff, n) else none)) s
  if o.twin then s else
  let glob := accs.filter isGlobal
  let times := (glob.map fun a => homeTime s o.core a.home).eraseDups
  times.foldl (fun s t =>
    let mine := glob.filter fun a => homeTime s o.core a.home == t
    match t with
    | some t => engFly s o (lat + t) mine none
    | none => let (n, s) := choose s; engFly s o (lat + 1 + n) mine none) s
/-- The lines of a CPYFL unit written back (R86, R240). -/
def flushUnit (s : State) (o : EngOp) (r : CopyRec) (u : Nat) : State :=
  let va := r.dst / 256 * 256 + 256 * u
  match translate s o.core o.vf o.ctx va .load with
  | (s, .err e) => engErr s o va false e
  | (s, .ok (.dev pa)) =>
    let d := match lineAt s (pa / 256) with | some l => if l.mdirty then 8 else (List.range 8).countP l.dirty.getLsbD | none => 0
    let s := if (lineAt s (pa / 256)).isSome then setLine (writeBack s (pa / 256)) (pa / 256) fun l => { l with keep := false, mkeep := false } else s
    setOp (count s o.vf o.ctx 2 13 (32 * d)) o.id fun o => { o with unit := u + 1, parked := none, issued := u + 1 == o.units, ready := s.clk + 1 }
  | (s, .ok _) => setOp s o.id fun o => { o with unit := u + 1, parked := none, issued := u + 1 == o.units, ready := s.clk + 1 }
/-- One unit of a copy (R240, R348): nothing of it is written where an access of it stops. -/
def copyUnit (s : State) (o : EngOp) : State :=
  let r := o.copyRec
  if r.ty == 7 then flushUnit s o r o.unit else
  match piecesAt o r (r.unitBytes o.unit) s with
  | (s, .inr (.xl e a w)) => engErr s o a w e
  | (s, .inr .range) => engFault s o 3 1 0
  | (s, .inl ps) =>
    let lat := ps.foldl (fun m p => p.srcs.foldl (fun m q => max m (readTime s o.core q)) m) 0
    match readPieces o r ps s with
    | (s, .err e) => engErr s o o.addr false e
    | (s, .ok data) =>
      let writes := (ps.zip data).flatMap fun (p, bs) => p.dsts.map fun d => (d.2, p.dstVa + d.1, if r.ty == 8 then (bs.drop d.1).take 16 else bs)
      let n := writes.foldl (fun n x => n + x.2.2.length) 0
      let s := count (count s o.vf o.ctx 3 4 (ps.length * if r.ty == 8 then 256 else 16)) o.vf o.ctx 3 5 n
      let s := sendPieces s o r lat writes
      setOp s o.id fun o => { o with unit := o.unit + 1, parked := none, issued := o.unit + 1 == o.units, ready := s.clk + 1 }
/-- The operation that an engine moves data for. -/
def movingOp (s : State) (core : Nat) (eng : Engine) : Option EngOp :=
  s.ops.find? fun o => o.core == core && o.eng == eng && !o.issued && !o.stuck && o.walk.isNone && !o.bytes.isEmpty && o.type != 0x0A &&
    o.ready ≤ s.clk && (sliceOf s o.vf).ifst != .error && !(chunkHeld s o)
/-- COPY_UNIT_TRANSFER: up to 256 bytes a ck (R240). -/
def execCopyUnitTransfer (core : Nat) (eng : Engine) (s : State) : Host.Outcome State Fault Refusal :=
  .next (if eng == .cube || eng == .fab then s else match movingOp s core eng with | some o => copyUnit s o | none => s)

/-! ### Markers -/

/-- A marker's turn has come: every earlier operation of its chain has completed, and of the engine's other chains those appended
earlier, where their chain is not held (R117, R243; log entry 88). -/
def markerTurn (s : State) (o : EngOp) : Bool :=
  o.type == 0x0A && (chainOf (ctxOf s o.vf o.ctx) o.lcore o.eng).comp + 1 == o.seq &&
  (coreChains s o.core o.eng).all fun (vf, c, h) =>
    inChain vf c h o || chainHeld s vf c h || !(mayStart s vf c o.core) || h.recs.all fun r => r.done || opOrder s o ≤ r.order
/-- CHAIN_MARKER_WRITE (R243): a marker writes its number. One for a peer leaves with the fabric's flits. -/
def execChainMarkerWrite (core : Nat) (eng : Engine) (s : State) : Host.Outcome State Fault Refusal :=
  .next (match s.ops.find? fun o => o.core == core && o.eng == eng && !o.issued && !o.stuck && !o.bytes.isEmpty &&
      o.copyRec.arg == 0 && markerTurn s o && (sliceOf s o.vf).ifst != .error with
    | none => s
    | some o =>
      let r := o.copyRec
      match engPlace s o r.ds r.dst 8 .store with
      | (s, .inr (.xl e a w)) => engErr s o a w e
      | (s, .inr .range) => engFault s o 3 1 0
      | (s, .inl p) =>
        setOp (sendPieces s o r 0 [(p, r.dst, bytesOf 8 o.seq)]) o.id fun o => { o with issued := true, parked := none })

/-! ### The cube -/

/-- An accumulator row as the cube holds it: results on their way stand before the store (R222). -/
def accNow (s : State) (part acc row : Nat) : BitVec 1024 :=
  match s.cores.getD (partOf s part).core (Core.empty 0) |>.cubeRes.reverse.find? fun x => x.part == part && x.acc == acc && x.rows.getLsbD row with
  | some x => x.data.getD row 0
  | none => accRow (partOf s part) acc row
/-- Results of some rows, `t` ck from the write (R222). -/
def putResults (s : State) (o : EngOp) (acc : Nat) (rows : Mask) (res : List (BitVec 1024 × Flags)) (t : Nat) : State :=
  let r : CubeRes := { op := o.id, part := o.part, acc, rows, data := res.map (·.1), flags := res.map (·.2), due := s.clk + t }
  setCore s o.core fun c => { c with cubeRes := c.cubeRes ++ [r] }
/-- The rows that an operation has read at an operand position, tagged (R223). -/
def heldRows (t : TileArgs) (w part o : Nat) : List Latch :=
  let rs := t.reads.filter (·.1 == o)
  (rs.map (·.2.1)).eraseDups.map fun tile => ⟨w, tile, part, maskOf ((rs.filter (·.2.1 == tile)).map (·.2.2))⟩
/-- An operation with RH leaves the rows that it has read in their banks; one without it clears every tag (R223). -/
def holdRows (s : State) (o : EngOp) (t : TileArgs) (rh : Bool) : State :=
  setCore s o.core fun c => { c with latches := c.latches.mapIdx fun k old =>
    if rh then (match heldRows t o.warp o.part k with | [] => old | new => new) else [] }
/-- An operation of another warp clears every tag when it starts (R223). -/
def clearOthers (s : State) (o : EngOp) : State :=
  setCore s o.core fun c => { c with latches := if c.latches.any fun b => b.any (·.warp != o.warp) then c.latches.map fun _ => [] else c.latches }
/-- The hint RH of an operation's record. -/
def opRh (s : State) (o : EngOp) : Bool := match opRec s o with | some r => r.rh | none => false
/-- CUBE_TILE_OPERATION (R219, R222, R245). -/
def tileOperation (s : State) (o : EngOp) (t : TileArgs) : State :=
  let p := partOf s o.part
  let poisoned := (t.reads.any fun x => tilePoisoned s o.part x.2.1 x.2.2) ||
    (!t.fr.za && (lanesOf t.rows).any fun r => accPoisoned s o.part t.acc r)
  let s1 := setCore (clearOthers s o) o.core fun c => { c with cubeFree := s.clk + t.steps }
  let s2 := count s1 o.vf o.ctx 3 0 t.steps
  if poisoned then engFault s2 o 0x18 0 0
  else match t.fault p with
    | some (sub, op, tile, row) => engFault s2 o 0x0B sub (op * 2 ^ 12 + (tile * 256 + row) * 2 ^ 32)
    | none =>
      let res := (List.range 64).map fun i =>
        if t.rows.getLsbD i then addRow (classK t.cls) t.groups (fun j k => t.prod p i j k) t.fr.za (accNow s o.part t.acc i) else (0, 0)
      setOp (holdRows (putResults s2 o t.acc t.rows res (t.steps + 20)) o t (opRh s o)) o.id fun o => { o with issued := true }
def execCubeTileOperation (core : Nat) (s : State) : Host.Outcome State Fault Refusal :=
  .next (match movingOp s core .cube with
    | some o =>
      if s.clk < (coreOf s core).cubeFree || o.type == 0x12 || o.type == 0x13 then s else
      match TileArgs.ofBytes o.bytes with
      | some t => tileOperation s o t
      | none => s
    | none => s)

/-- A row of an operand record read from memory: its bytes, or why not. DESIGN CHOICE (log entry 103): a row of SPACE 0 whose page is not
of MTYPE 0, for which Table 9-7 names no check, is read as an engine reads any source. -/
def operandRow (s : State) (o : EngOp) (r : OpRec) (n : Nat) : State × Xl (BitVec 512) × Nat :=
  let addr := r.base + n * r.stride
  if r.space then
    if scratchPoisoned s o.part addr || (List.range 8).any (fun k => scratchPoisoned s o.part (addr + 8 * k)) then (s, .err (.poison 0), addr)
    else
      let key := (ctxOf s o.vf o.ctx).bankKey
      (s, .ok (BitVec.ofNat 512 (leBytes ((List.range 64).map fun k => homeByte s key (.scratch o.part (addr + k))))), addr)
  else match engRead s o addr 64 with
    | (s, .ok bs) => (s, .ok (BitVec.ofNat 512 (leBytes bs)), addr)
    | (s, .err e) => (s, .err e, addr)
/-- The rows of a chunk, in order, until one cannot be read. -/
def readRows (o : EngOp) (v : VArgs) : List (Nat × Nat) → State → State × (List (Nat × Nat × TileRow) ⊕ XErr × Nat)
  | [], s => (s, .inl [])
  | (k, n) :: r, s =>
    match operandRow s o (v.operand k) n with
    | (s, .err e, a) => (s, .inr (e, a))
    | (s, .ok x, _) =>
      match readRows o v r s with
      | (s, .inr e) => (s, .inr e)
      | (s, .inl xs) => (s, .inl ((k, n, v.rowOf k x) :: xs))
/-- One chunk of an operation with operand records (R227): added whole or not at all. -/
def chunkStep (s : State) (o : EngOp) (v : VArgs) : State :=
  let s := if o.unit == 0 then clearOthers s o else s
  let s := if o.parked.isSome then count s o.vf o.ctx 3 3 1 else s
  let s := setWarp s o.warp fun w => { w with rowprog := BitVec.ofNat 32 o.unit }
  match readRows o v (v.reads o.unit) s with
  | (s, .inr (e, a)) => engErr s o a false e
  | (s, .inl rows) =>
    match rows.find? fun (k, _, r) => (v.operand k).cubeFmt == .log && (blockBad r.data).isSome with
    | some (k, n, r) => engFault s o 0x0B ((blockBad r.data).getD 1) (k * 2 ^ 12 + n * 2 ^ 32)
    | none =>
      if !(v.fr.za && o.unit == 0) && (lanesOf v.rows).any fun r => accPoisoned s o.part v.acc r then engFault s o 0x18 0 0 else
      let kt := classKt v.cls
      let row (k n : Nat) : TileRow := ((rows.find? fun x => x.1 == k && x.2.1 == n).map (·.2.2)).getD TileRow.nil
      let res := (List.range 64).map fun i =>
        if v.rows.getLsbD i then
          addRow (classK v.cls) (kt / classK v.cls) (fun j k => v.prod row i j (o.unit * kt + k)) (v.fr.za && o.unit == 0)
            (accNow s o.part v.acc i)
        else (0, 0)
      let t := v.time o.unit
      let s := count (setCore s o.core fun c => { c with cubeFree := s.clk + t }) o.vf o.ctx 3 0 t
      let s := setWarp (putResults s o v.acc v.rows res (t + 20)) o.warp fun w => { w with rowprog := BitVec.ofNat 32 (o.unit + 1) }
      setOp s o.id fun o => { o with unit := o.unit + 1, parked := none, issued := v.chunks ≤ o.unit + 1, ready := s.clk + t }
/-- CUBE_CHUNK (R227). An operation of a context that is being saved stops at its chunk boundary (R284). -/
def execCubeChunk (core : Nat) (s : State) : Host.Outcome State Fault Refusal :=
  .next (match movingOp s core .cube with
    | some o =>
      if s.clk < (coreOf s core).cubeFree || !(o.type == 0x12 || o.type == 0x13) || !(mayStart s o.vf o.ctx core) then s else
      match VArgs.ofBytes o.bytes with
      | some v => chunkStep s o v
      | none => s
    | none => s)
/-- Results that are due written; their flags wait for the operation's end (R63, R222). -/
def writeResult (s : State) (x : CubeRes) : State :=
  setOp (wipeAcc (setAccRows s x.part x.acc x.rows fun r _ => x.data.getD r 0) x.part x.acc x.rows) x.op fun o =>
    { o with flags := (List.range 64).map fun l => (o.flags.getD l 0) ||| x.flags.getD l 0 }
/-- CUBE_ACCUMULATOR_WRITE (R222). -/
def execCubeAccumulatorWrite (core : Nat) (s : State) : Host.Outcome State Fault Refusal :=
  let due := (coreOf s core).cubeRes.filter fun x => x.due ≤ s.clk
  .next (due.foldl writeResult (setCore s core fun c => { c with cubeRes := c.cubeRes.filter fun x => s.clk < x.due }))

/-! ### Completion -/

/-- Everything of an operation has reached its home (R117). -/
def opQuiet (s : State) (o : EngOp) : Bool :=
  o.issued && o.walk.isNone && !(s.flights.any fun f => f.op == some o.id) &&
  !((coreOf s o.core).cubeRes.any fun x => x.op == o.id) &&
  !((sliceOf s o.vf).runs.any fun r => r.writes.any fun w => w.2.2 == o.id)
/-- The flags of a cube operation, raised in their lanes and logged as it completes, at the PC of its instruction (R63, R70, R319). -/
def raiseFlags (s : State) (o : EngOp) : State :=
  let fs := (o.flags.mapIdx fun l f => (l, f)).filter fun x => x.2 != 0
  if fs.isEmpty then s else
  let s := setThreads s o.warp (maskOf (fs.map (·.1))) fun l t => raise (o.flags.getD l 0) t
  logArith s o.warp (((opRec s o).map (·.pc)).getD 0) true fs
/-- An operation completed: its flags, its numbers, what waits for it (R117, R333, R338). -/
def completeOp (s : State) (o : EngOp) : State := wakeAll (endOp (raiseFlags s o) o)
/-- ENGINE_OPERATION_COMPLETE. An operation of which a peer has refused a write faults first (R341). -/
def execEngineOperationComplete (core : Nat) (eng : Engine) (s : State) : Host.Outcome State Fault Refusal :=
  .next (match s.ops.find? fun o => o.core == core && o.eng == eng && opQuiet s o && !(heldByFault o) with
    | some o => if o.refused && !o.dead then engFault s o 0x16 0 (2 ^ 18) else completeOp s o
    | none => s)

end Sys2Proof.Machine
end

