-- ==== Sys2Proof/Machine/System.lean ====
section
/-! DEFINITION. Status registers, EVT and the counter bank (R209 to R212, R70, R90, R91, R118, R358). -/

namespace Sys2Proof.Machine

/-- Engine of a sequence register. -/
def seqEngine (n : Nat) : Engine := if n == 0x18 then .cube else if n == 0x19 then .cpy0 else if n == 0x1A then .cpy1 else .fab
def isSeqReg (n : Nat) : Bool := 0x18 ≤ n && n ≤ 0x1B
/-- Registers that a twin reads as its primary read them: those whose value is not each copy's own (R358). -/
def twinReads (n : Nat) : Bool := (0x0B ≤ n && n ≤ 0x0D) || (0x10 ≤ n && n ≤ 0x13) || (isSeqReg n || n == 0x1C)
/-- The value of a status register in a thread (Table 8-10). -/
def statusReg (s : State) (i : Iss) (n l : Nat) : Dword :=
  let b := i.block s
  let sl := sliceOf s b.vf
  let pk := (i.launch s).pkt
  let t := threadOf i.wp l
  let nat (x : Nat) : Dword := BitVec.ofNat 64 x
  if n == 0x00 then nat l
  else if n == 0x01 then nat Config.warpw
  else if n == 0x02 then nat i.wp.idx
  else if n == 0x03 then nat (i.part s).log
  else if n == 0x04 then nat b.nParts
  else if n == 0x05 then nat b.bx
  else if n == 0x06 then nat b.by'
  else if n == 0x07 then nat b.bz
  else if n == 0x08 then nat pk.nx
  else if n == 0x09 then nat pk.ny
  else if n == 0x0A then nat pk.nz
  else if n == 0x0B then nat (logicalCore s b.vf i.wp.core)
  else if n == 0x0C then nat sl.lcores.length
  else if n == 0x0D then nat sl.quads.length
  else if n == 0x0E then nat b.vf
  else if n == 0x0F then nat b.ctx
  else if n == 0x10 then sl.topo.zeroExtend 64
  else if n == 0x11 then s.hbeat
  else if n == 0x12 then nat (timeNs s)
  else if n == 0x13 then nat s.clk
  else if n == 0x14 then t.cdepth.zeroExtend 64
  else if n == 0x15 then t.astat.zeroExtend 64
  else if n == 0x16 then nat i.wp.fairt
  else if n == 0x17 then nat (if pk.attr.testBit 0 then 0 else 1)
  else if isSeqReg n then nat (chainOf (ctxOf s b.vf b.ctx) (logicalCore s b.vf i.wp.core) (seqEngine n)).comp
  else if n == 0x1C then i.wp.rowprog.zeroExtend 64
  else if 0x1D ≤ n && n ≤ 0x20 then ((i.part s).swin.getD (n - 0x1D) 0).zeroExtend 64
  else 0
/-- A 64-bit status register. -/
def srWide (n : Nat) : Bool := match srInfo n with | some i => i.wide | none => false

/-- What a twin has still to read, without the first entry of a thread for an instruction. -/
def dropRead (pc : Addr) (l : Nat) : List (Addr × Nat × Dword) → List (Addr × Nat × Dword)
  | [] => []
  | x :: r => if x.1 == pc && x.2.1 == l then r else x :: dropRead pc l r
/-- The value that a thread of the primary has read for an instruction and its twin has not, if there is one. -/
def primaryRead (s : State) (i : Iss) (l : Nat) : Option Dword :=
  (counterpart s i.w).bind fun w => ((warpOf s w).reads.find? fun x => x.1 == i.pc && x.2.1 == l).map (·.2.2)
/-- The values of a register shared with the twin by lane, and the note that the primary keeps of them (R358). -/
def twinValue (s : State) (i : Iss) (n : Nat) : (Nat → Option Dword) × State :=
  if !(twinReads n) || !(isTwin s i.wp.blk) then (fun _ => none, s)
  else if isPrimary s i.wp.blk then
    let now := (lanesOf i.act).map fun l => (i.pc, l, statusReg s i n l)
    (fun _ => none, setWarp s i.w fun x => { x with reads := x.reads ++ now })
  else
    let t := match counterpart s i.w with
      | some w => setWarp s w fun x => { x with reads := (lanesOf i.act).foldl (fun r l => dropRead i.pc l r) x.reads }
      | none => s
    (primaryRead s i, t)
/-- The issue as its counterpart in the primary would make it, for a register that the primary no longer reads itself (R358). -/
def mateIss (s : State) (i : Iss) (n : Nat) : Iss :=
  match counterpart s i.w with
  | some w => if twinReads n && isTwin s i.wp.blk && !(isPrimary s i.wp.blk) then { i with w, wp := warpOf s w } else i
  | none => i
/-- GETSR (R209): each thread's own value; a sequence register is an acquire at SLICE (R118). -/
def execGetsr (h : Hdr) (d n : Byte) (s : State) : Host.Outcome State Fault Refusal := issueH s h fun i =>
  let k := n.toNat
  let (v, s) := twinValue s i k
  let s1 := computeBody s i h.yh h.la.toNat 4 (dstW (srWide k) d i.lead) fun l _ =>
    ([.v d (srWide k) ((v l).getD (statusReg s (mateIss s i k) k l))], 0)
  if isSeqReg k then joinL1 s1 i.w else s1

/-- What SETSR of FAIRT stores (R210). -/
def fairtOf (x : Nat) : Nat := if x == 0 then 2048 else if x < 32 then 32 else min x 65535
/-- A value that a SWIN register refuses (R91). -/
def badSwin (kib : Nat) (x : Word) : Bool :=
  x.extractLsb' 11 5 != 0 || x.extractLsb' 27 5 != 0 || 2 * kib < (swinOf x).1 + (swinOf x).2
/-- SETSR (R209): a thread's own register from each thread, a shared one from the highest active lane. -/
def execSetsr (h : Hdr) (n a : Byte) (s : State) : Host.Outcome State Fault Refusal := issueH s h fun i =>
  let k := n.toNat
  let val (l : Nat) : Word := (rdV i.lead (threadOf i.wp l) a).extractLsb' 0 32
  let top := highest i.act
  let pend (s : State) : State := addPend (finish s i h.yh) i [512 + k] h.la.toNat (some (s.clk + 4)) none
  if k == 0x15 then pend (setThreads s i.w i.act fun l t => { t with astat := astatWrite (val l) })
  else if k == 0x16 then pend (setWarp s i.w fun w => { w with fairt := fairtOf (val top).toNat })
  else if badSwin (i.part s).kib (val top) then takeTrap s i.w i.bn i.pc 0x04 0 0 top
  else pend (setPart s i.wp.part fun p => { p with swin := modAt p.swin (k - 0x1D) fun _ => val top })

/-- EVT (R211). -/
def execEvt (h : Hdr) (g a : Byte) (lit : Option Word) (s : State) : Host.Outcome State Fault Refusal := issueH s h fun i =>
  let b := i.block s
  match groupOf b g.toNat with
  | none => takeTrap s i.w i.bn i.pc 0x07 0 g.toNat (lowAct i)
  | some gr =>
    let x := srcB32 i.lead lit a (threadOf i.wp (lowAct i))
    let r := traceBytes 2 0 false (i.part s).log g.toNat (recWarp i.wp) gr.phase.toNat (timeNs s) b x.toNat
    finish (traceOffer s b.vf b.ctx 12 r) i h.yh

/-! ### Counters -/

/-- An event set asked for, by CNTSEL or by the window of R300: its status, and the bank (R212, R399). -/
def selectSet (s : State) (vf c set : Nat) : Nat × State :=
  if bankHeld s vf c then (1, s)
  else if 4 < set then (2, setCtx s vf c fun x => { x with cntStatus := 2 })
  else (0, setCtx s vf c fun x => { x with cntSet := BitVec.ofNat 16 set, counts16 := List.replicate 16 0, cntStatus := 0 })
/-- A counter in the layout of CNTRD (R212). -/
def counterValue (s : State) (vf c k : Nat) : Dword :=
  let cx := ctxOf s vf c
  let n := cx.counts16.getD k 0
  BitVec.ofNat 64 (n + (if cx.cntSet == 4 then 2 ^ 62 else 0) + (if bankHeld s vf c then 2 ^ 63 else 0))
def execCntsel (h : Hdr) (d a : Byte) (s : State) : Host.Outcome State Fault Refusal := issueH s h fun i =>
  let b := i.block s
  let set := (rdV i.lead (threadOf i.wp (lowAct i)) a).toNat % 2 ^ 16
  let (st, s) := selectSet s b.vf b.ctx set
  computeBody s i h.yh h.la.toNat 8 (dstV d i.lead) fun _ _ => ([.v d false (BitVec.ofNat 64 st)], 0)
def execCntrd (h : Hdr) (d a : Byte) (s : State) : Host.Outcome State Fault Refusal := issueH s h fun i =>
  let b := i.block s
  let k := (rdV i.lead (threadOf i.wp (lowAct i)) a).toNat % 16
  let v := counterValue s b.vf b.ctx k
  computeBody s i h.yh h.la.toNat 8 (dstW true d i.lead) fun _ _ => ([.v d true v], 0)

end Sys2Proof.Machine
end

