-- ==== Sys2Proof/Machine/Sfu.lean ====
section
/-! DEFINITION. The special functions (R66, R67, R171): exact cases and special inputs as Table 3-10 gives them; every
other result is a free value that the model keeps only inside the table's error bound (log entry 6). -/

namespace Sys2Proof.Machine

/-- SFU functions in opcode order. -/
inductive SfuFn where
  | ex2 | lg2 | rcp | rsq | sqt | sin | cos | tanh
deriving DecidableEq, Repr

/-- Number of a function for the free value. -/
def SfuFn.num : SfuFn → Nat
  | .ex2 => 0 | .lg2 => 1 | .rcp => 2 | .rsq => 3 | .sqt => 4 | .sin => 5 | .cos => 6 | .tanh => 7

/-- Integer square root by bits, `n` of them. -/
def isqrtAux : Nat → Nat → Nat → Nat
  | 0, _, r => r
  | n + 1, x, r => if (r + 2 ^ n) * (r + 2 ^ n) ≤ x then isqrtAux n x (r + 2 ^ n) else isqrtAux n x r
/-- ⌊√x⌋. -/
def isqrt (x : Nat) : Nat := isqrtAux (Nat.log2 x / 2 + 1) x 0

/-- Fixed point of 200 fraction bits. -/
def fxOne : Int := 2 ^ 200
/-- m · 2^e in fixed point, truncated. -/
def fxOf (m : Nat) (e : Int) : Int := if -200 ≤ e then m * 2 ^ (e + 200).toNat else m / 2 ^ (-e - 200).toNat
/-- Product in fixed point. -/
def fxMul (a b : Int) : Int := a * b / fxOne
/-- π, 2π and ln 2 (160 fraction bits). -/
def fxTwoPi : Int := 9182885614096437842769610399486622256908310048836 * 2 ^ 40
def fxLn2 : Int := 1013035739299659071135698605846798551586536899366 * 2 ^ 40
/-- P of R67: 2π rounded to nearest with a 64-bit significand, in units of 2^−61. -/
def sfuP : Nat := 14488038916154245685

/-- e^x in fixed point for |x| ≤ 1, `n` terms, from term `t` = x^k / k!. -/
def expFx : Nat → Nat → Int → Int → Int → Int
  | 0, _, _, _, acc => acc
  | n + 1, k, x, t, acc => expFx n (k + 1) x (fxMul t x / ((k : Int) + 1)) (acc + t)
/-- Alternating series of sine or cosine: from term `t` with index `k`, step t ← −t · x² / ((k+1)(k+2)). -/
def trigFx : Nat → Nat → Int → Int → Int → Int
  | 0, _, _, _, acc => acc
  | n + 1, k, x2, t, acc => trigFx n (k + 2) x2 (-(fxMul t x2) / (((k : Int) + 1) * (k + 2))) (acc + t)
/-- Fraction bits of log2 of y in [1, 2), `n` of them, as an integer of n bits. -/
def log2Bits : Nat → Int → Nat → Nat
  | 0, _, acc => acc
  | n + 1, y, acc =>
    let y2 := fxMul y y
    if 2 * fxOne ≤ y2 then log2Bits n (y2 / 2) (2 * acc + 1) else log2Bits n y2 (2 * acc)

/-- An approximation of an exact result: num · 2^exp, off by less than err · 2^exp. -/
structure Approx where
  num : Int
  exp : Int
  err : Int
deriving DecidableEq, Repr

/-- The bounds of Table 3-10. -/
inductive Bound where
  | ulps (n : Nat)
  /-- Absolute 2^−n. -/
  | abs (n : Nat)
deriving DecidableEq, Repr

/-- Units of 2^−400. -/
def u400 (n : Int) (e : Int) : Int := if -400 ≤ e then n * 2 ^ (e + 400).toNat else n / 2 ^ (-e - 400).toNat

/-! ### Order of F32 values -/

/-- Place of an F32 encoding that is no NaN in the order of values; −0 stands right below +0. -/
def ord32 (b : Nat) : Int := if 2 ^ 31 ≤ b then -((b % 2 ^ 31 : Nat) : Int) - 1 else b
/-- The encoding at a place. -/
def ofOrd (o : Int) : Nat := if 0 ≤ o then o.toNat else 2 ^ 31 + (-o - 1).toNat
/-- The place in the reverse order. -/
def flipOrd (o : Int) : Int := -o - 1
/-- The largest F32 magnitude that is not above v · 2^−400, and whether it is v · 2^−400 itself. -/
def floorMag (v : Nat) : Nat × Bool :=
  if v == 0 then (0, true) else
  let t : Int := (Nat.log2 v : Int) - 400
  let q : Nat := ((if t < -126 then -126 else t) - 23 + 400).toNat
  let units := v / 2 ^ q
  let bits := if t < -126 then units else (t + 127).toNat * 2 ^ 23 + units - 2 ^ 23
  if 0x7F7FFFFF < bits then (0x7F7FFFFF, false) else (bits, v % 2 ^ q == 0)
/-- The smallest F32 magnitude that is not below v · 2^−400. -/
def ceilMag (v : Nat) : Nat := let (b, ex) := floorMag v; if ex then b else b + 1
/-- Places of the largest F32 value not above v · 2^−400, and of the smallest not below it. -/
def floorOrd (v : Int) : Int := if 0 ≤ v then ((floorMag v.toNat).1 : Int) else -(ceilMag v.natAbs : Int) - 1
def ceilOrd (v : Int) : Int := if 0 < v then (ceilMag v.toNat : Int) else -((floorMag v.natAbs).1 : Int) - 1

/-- What Table 3-10 says of the result of one finite input: one value, or the places between which it lies. -/
inductive SfuRange where
  | exact (y : Nat) (flags : Flags)
  | between (lo hi : Int)
deriving DecidableEq, Repr

/-- The F32 values within the bound of an approximated result. -/
def boundRange (a : Approx) (b : Bound) : Int × Int :=
  let av := u400 a.num a.exp
  let er := u400 a.err a.exp + 1
  let low := av.natAbs - er.natAbs
  let ulp : Int := match b with
    | .ulps k => let t : Int := (Nat.log2 low : Int) - 400
                 k * 2 ^ ((if t < -126 then -126 else t) - 23 + 400).toNat
    | .abs k => 2 ^ (400 - k)
  (ceilOrd (av - ulp + er), floorOrd (av + ulp - er))
/-- A range cut to the results of the nearest exact inputs on each side (R66, monotonic). -/
def capped (r lim : Int × Int) : SfuRange := .between (max r.1 lim.1) (min r.2 lim.2)

/-- 2^(±m · 2^e). -/
def apEx2 (neg : Bool) (m : Nat) (e : Int) : Approx :=
  let x := if neg then -(fxOf m e) - (if e < -200 then 1 else 0) else fxOf m e
  let n := x / fxOne
  let f := x - n * fxOne
  { num := expFx 60 0 (fxMul f fxLn2) fxOne 0, exp := n - 200, err := 2 ^ 60 }

/-- log2(m · 2^e). -/
def apLg2 (m : Nat) (e : Int) : Approx :=
  let k := Nat.log2 m
  let bits := log2Bits 100 (fxOf m (-(k : Int))) 0
  { num := ((k : Int) + e) * 2 ^ 100 + bits, exp := -100, err := 4 }

/-- 1 / (m · 2^e). -/
def apRcp (neg : Bool) (m : Nat) (e : Int) : Approx :=
  let q : Int := ((2 ^ 150 / m : Nat) : Int)
  { num := if neg then -q else q, exp := -150 - e, err := 1 }

/-- √(m · 2^e) in 100 more bits; the exponent is made even. -/
def apSqt (m : Nat) (e : Int) : Approx :=
  let (m, e) := if e % 2 == 0 then (m, e) else (2 * m, e - 1)
  { num := isqrt (m * 2 ^ 200), exp := e / 2 - 100, err := 1 }

/-- 1 / √(m · 2^e). -/
def apRsq (m : Nat) (e : Int) : Approx :=
  let (m, e) := if e % 2 == 0 then (m, e) else (2 * m, e - 1)
  { num := ((2 ^ 300 / isqrt (m * 2 ^ 300) : Nat) : Int), exp := -150 - e / 2, err := 4 }

/-- The argument of SIN and COS after the reduction of R67, exactly: ±m · 2^e. -/
def sfuReduce (neg : Bool) (m : Nat) (e : Int) : Bool × Nat × Int :=
  if magLt (2 ^ 15) 0 m e then
    let q := min e (-61)
    let xi : Nat := m * 2 ^ (e - q).toNat
    let pi' : Nat := sfuP * 2 ^ (-61 - q).toNat
    let (k, _) := roundUnits .rn false xi 0 0
    let r := (k + pi' / 2) / pi'
    let y : Int := (xi : Int) - (r * pi' : Nat)
    ((y < 0) != neg, y.natAbs, q)
  else (neg, m, e)

/-- sin or cos of ±m · 2^e, taken into (−π, π] first. -/
def apTrig (isCos : Bool) (neg : Bool) (m : Nat) (e : Int) : Approx :=
  let x := fxOf m e
  let k := (x + fxTwoPi / 2) / fxTwoPi
  let y := x - k * fxTwoPi
  let y2 := fxMul y y
  let s := if isCos then trigFx 40 0 y2 fxOne 0 else trigFx 40 1 y2 y 0
  { num := if neg && !isCos then -s else s, exp := -200, err := 2 ^ 80 }

/-- tanh(±m · 2^e): a series for small arguments, otherwise (1 − t) / (1 + t) with t = e^(−2x). -/
def apTanh (neg : Bool) (m : Nat) (e : Int) : Approx :=
  if magLt m e 1 (-20) then
    { num := (if neg then -1 else 1) * ((m : Int) * 2 ^ 120 - (m * m * m * 2 ^ 120 / (3 * 2 ^ (-2 * e).toNat) : Nat)),
      exp := e - 120, err := m * 2 ^ 42 + 2 }
  else
    let x := fxOf m e
    let h := x / 8
    let t := expFx 60 0 (-(h / 2)) fxOne 0
    let sq (a : Int) := fxMul a a
    let t := sq (sq (sq (sq (sq t))))
    let v := (fxOne - t) * fxOne / (fxOne + t)
    { num := if neg then -v else v, exp := -200, err := 2 ^ 100 }

/-- m · 2^e is a power of two; its exponent. -/
def pow2? (m : Nat) (e : Int) : Option Int :=
  let k := Nat.log2 m
  if m == 2 ^ k then some ((k : Int) + e) else none

def f32Zero (neg : Bool) : Nat := Fmt.f32.signBits neg
def f32Inf (neg : Bool) : Nat := Fmt.f32.signBits neg + Fmt.f32.infBits
def f32Int (x : Int) : Nat := (cvtFromInt .f32 .rn x).1
def f32Pow (neg : Bool) (k : Int) : Nat := (Fmt.f32.round .rn false (.fin neg 1 k)).1

/-- Zeros: Table 3-10. -/
def sfuZero (fn : SfuFn) (n : Bool) : Nat × Flags :=
  match fn with
  | .ex2 => (f32Int 1, 0)
  | .lg2 => (f32Inf true, fDZ)
  | .rcp => (f32Inf n, fDZ)
  | .rsq => (f32Inf n, fDZ)
  | .sqt => (f32Zero n, 0)
  | .sin => (f32Zero n, 0)
  | .cos => (f32Int 1, 0)
  | .tanh => (f32Zero n, 0)
/-- The place of ±2^k. -/
def powOrd (k : Int) : Int := ord32 (f32Pow false k)
def intOrd (x : Int) : Int := ord32 (f32Int x)
/-- ⌊log2 (m · 2^e)⌋. -/
def floorLog (m : Nat) (e : Int) : Int := (Nat.log2 m : Int) + e
/-- Results of the exact inputs of SQT next to m · 2^e: a root of 12 significant bits, in units of at least 2^−74. -/
def rootCaps (m : Nat) (e : Int) : Int × Int :=
  let (m, e) := if e % 2 == 0 then (m, e) else (2 * m, e - 1)
  let m := m * 2 ^ 200
  let e := e / 2 - 100
  let r := isqrt m
  let g := max (floorLog r e - 11) (-74)
  let k := r / 2 ^ (g - e).toNat
  (ord32 (Fmt.f32.round .rn false (.fin false k g)).1, ord32 (Fmt.f32.round .rn false (.fin false (k + 1) g)).1)
/-- A finite nonzero input of a function: Table 3-10 and R67. -/
def sfuRange (fn : SfuFn) (n : Bool) (m : Nat) (e : Int) : SfuRange :=
  match fn with
  | .ex2 =>
    let isInt := 0 ≤ e || m % 2 ^ (-e).toNat == 0
    if !n && !(magLt m e 128 0) then .exact (f32Inf false) (fOF ||| fNX)
    else if n && !(magLt m e 150 0) then .exact (f32Zero false) fNX
    else
      let k : Int := if 0 ≤ e then m * 2 ^ e.toNat else m / 2 ^ (-e).toNat
      if isInt then .exact (f32Pow false (if n then -k else k)) 0
      else
        let k := if n then -k - 1 else k
        capped (boundRange (apEx2 n m e) (.ulps 2)) (powOrd k, min 0x7F7FFFFF (powOrd (k + 1)))
  | .lg2 =>
    if n then .exact Fmt.f32.cnan fNV else
    match pow2? m e with
    | some k => .exact (f32Int k) 0
    | none =>
      let near := !(magLt m e 1 (-1)) && !(magLt 2 0 m e)
      let k := floorLog m e
      capped (boundRange (apLg2 m e) (if near then .abs 22 else .ulps 2)) (intOrd k, intOrd (k + 1))
  | .rcp =>
    match pow2? m e with
    | some k => if 127 < -k then .exact (f32Inf n) (fOF ||| fNX) else .exact (f32Pow n (-k)) 0
    | none =>
      -- |x| < 2^−128 makes 1/x exceed the largest finite value
      if magLt m e 1 (-128) then .exact (f32Inf n) (fOF ||| fNX)
      else
        let k := floorLog m e
        let (lo, hi) := (powOrd (-k - 1), min 0x7F7FFFFF (powOrd (-k)))
        capped (boundRange (apRcp n m e) (.ulps 1)) (if n then (flipOrd hi, flipOrd lo) else (lo, hi))
  | .rsq =>
    if n then .exact Fmt.f32.cnan fNV else
    let k := floorLog m e / 2
    let free := capped (boundRange (apRsq m e) (.ulps 2)) (powOrd (-k - 1), powOrd (-k))
    match pow2? m e with
    | some k => if k % 2 == 0 then .exact (f32Pow false (-(k / 2))) 0 else free
    | none => free
  | .sqt =>
    if n then .exact Fmt.f32.cnan fNV else
    let (m', e') := if e % 2 == 0 then (m, e) else (2 * m, e - 1)
    let r := isqrt m'
    if r * r == m' then .exact (Fmt.f32.round .rn false (.fin false r (e' / 2))).1 0
    else capped (boundRange (apSqt m e) (.ulps 1)) (rootCaps m e)
  | .sin =>
    let small := magLt m e 3 0
    let (n', m', e') := sfuReduce n m e
    capped (boundRange (apTrig false n' m' e') (.abs 21))
      (if !small then (-2 ^ 31, 2 ^ 31) else if n then (-2 ^ 31, -1) else (0, 2 ^ 31))
  | .cos =>
    let small := magLt m e 3 0
    let (n', m', e') := sfuReduce n m e
    capped (boundRange (apTrig true n' m' e') (.abs 21)) (-2 ^ 31, if small then intOrd 1 else 2 ^ 31)
  | .tanh =>
    if !(magLt m e 10 0) then .exact (f32Pow n 0) fNX
    else capped (boundRange (apTanh n m e) (.ulps 2)) (if n then (intOrd (-1), -1) else (0, intOrd 1))
/-- The same for the finite input at a place, with the function made increasing. -/
def rangeAt (fn : SfuFn) (falls : Bool) (o : Int) : Int × Int :=
  let r : Int × Int := match Fmt.f32.unpack (ofOrd o) with
    | .fin n m e => if m == 0 then let y := ord32 (sfuZero fn n).1; (y, y) else
      match sfuRange fn n m e with | .exact y _ => (ord32 y, ord32 y) | .between lo hi => (lo, hi)
    | _ => (-2 ^ 31, 2 ^ 31)
  if falls then (flipOrd r.2, flipOrd r.1) else r

/-! ### Monotonic results

Every result is a free value, taken where it lies in its range and between the results of the inputs around it: by halving an
interval on which the exact function is monotonic, so that any assignment that R66 permits can be the one taken. -/

/-- The free value for the input at a place, brought into its range and between two results. -/
def sfuMid (fn : SfuFn) (falls : Bool) (o ya yb : Int) : Int :=
  let c := ord32 (Config.sfuCandidate fn.num (BitVec.ofNat 32 (ofOrd o))).toNat
  let c := if falls then flipOrd c else c
  let (lo, hi) := rangeAt fn falls o
  max ya (min yb (max lo (min hi c)))
/-- The result at a place between two others, whose results are given. -/
def sfuSeek (fn : SfuFn) (falls : Bool) (o : Int) : Nat → Int → Int → Int → Int → Int
  | 0, _, _, ya, _ => ya
  | k + 1, xa, xb, ya, yb =>
    let mid := (xa + xb) / 2
    let y := sfuMid fn falls mid ya yb
    if o == mid then y else if o < mid then sfuSeek fn falls o k xa mid ya y else sfuSeek fn falls o k mid xb y yb
/-- The place of the largest F32 value not above v · 2^−200. -/
def fxFloorOrd (v : Int) : Int := floorOrd (v * 2 ^ 200)
/-- The interval between neighbouring extrema of SIN or COS in which an input lies, by the places around it, and whether the
function falls on it: the extrema are those of the reduced argument above 2^15 (R67), which begins an interval of its own. -/
def trigInterval (isCos : Bool) (o : Int) : Int × Int × Bool :=
  match Fmt.f32.unpack (ofOrd o) with
  | .fin n m e =>
    let far := magLt (2 ^ 15) 0 m e
    let half : Int := if far then (sfuP : Int) * 2 ^ 138 else fxTwoPi / 2
    let x := (if n then -1 else 1) * (m * 2 ^ (e + 200).toNat : Int)
    let k := if isCos then x / half else (x + half / 2) / half
    let lo := fxFloorOrd (if isCos then k * half else k * half - half / 2)
    let hi := fxFloorOrd (if isCos then (k + 1) * half else k * half + half / 2) + 1
    let lim : Int := ord32 (f32Pow false 15)
    let (lo, hi) := if far then (if n then (lo, min hi (flipOrd lim)) else (max lo lim, hi))
      else (max lo (flipOrd lim - 1), min hi (lim + 1))
    (lo, hi, k % 2 == (if isCos then 0 else 1))
  | _ => (o, o, false)
/-- The interval on which the exact function is monotonic, around the place of a finite nonzero input. -/
def sfuInterval (fn : SfuFn) (o : Int) : Int × Int × Bool :=
  let inf : Int := 0x7F800000
  match fn with
  | .ex2 | .tanh => (flipOrd inf, inf, false)
  | .lg2 | .sqt => (0, inf, false)
  | .rsq => (0, inf, true)
  | .rcp => if o < 0 then (flipOrd inf, -1, true) else (0, inf, true)
  | .sin => trigInterval false o
  | .cos => trigInterval true o
/-- The result at a place of such an interval, between two results at its ends. -/
def sfuOn (fn : SfuFn) (o ya yb : Int) : Int :=
  let (xa, xb, falls) := sfuInterval fn o
  sfuSeek fn falls o 33 xa xb ya yb
/-- The free result of a finite nonzero input: an interval of SIN or COS that 2^15 cuts goes on from the result there. -/
def sfuPick (fn : SfuFn) (x : Word) : Nat :=
  let o := ord32 x.toNat
  let (xa, xb, falls) := sfuInterval fn o
  let lim : Int := ord32 (f32Pow false 15)
  let trig : Bool := fn == .sin || fn == .cos
  let ya : Int := if trig && xa == lim then sfuOn fn xa (-2 ^ 31) (2 ^ 31) else -2 ^ 31
  let yb : Int := if trig && xb == flipOrd lim then sfuOn fn xb (-2 ^ 31) (2 ^ 31) else 2 ^ 31
  let y := sfuOn fn o ya yb
  ofOrd (if falls then flipOrd y else y)
/-- A finite nonzero input of a function. -/
def sfuFin (fn : SfuFn) (x : Word) (n : Bool) (m : Nat) (e : Int) : Nat × Flags :=
  match sfuRange fn n m e with
  | .exact y fl => (y, fl)
  | .between _ _ => (sfuPick fn x, fNX)

/-- Infinities: Table 3-10. -/
def sfuInf (fn : SfuFn) (n : Bool) : Nat × Flags :=
  match fn with
  | .ex2 => (if n then f32Zero false else f32Inf false, 0)
  | .lg2 => if n then (Fmt.f32.cnan, fNV) else (f32Inf false, 0)
  | .rcp => (f32Zero n, 0)
  | .rsq => if n then (Fmt.f32.cnan, fNV) else (f32Zero false, 0)
  | .sqt => if n then (Fmt.f32.cnan, fNV) else (f32Inf false, 0)
  | .sin => (Fmt.f32.cnan, fNV)
  | .cos => (Fmt.f32.cnan, fNV)
  | .tanh => (f32Pow n 0, 0)

/-- An SFU function of an F32 encoding (R66, R67), with .FTZ (R49). -/
def sfu (fn : SfuFn) (ftz : Bool) (x : Word) : Word × Flags :=
  let (y, fl) := match Fmt.f32.flushIn ftz (Fmt.f32.unpack x.toNat) with
    | .nan => (Fmt.f32.cnan, 0)
    | .inf n => sfuInf fn n
    | .fin n m e => if m == 0 then sfuZero fn n else sfuFin fn x n m e
  if ftz && y % 2 ^ 31 != 0 && y % 2 ^ 31 < 2 ^ 23 then (BitVec.ofNat 32 (y / 2 ^ 31 * 2 ^ 31), fl ||| fUF ||| fNX)
  else (BitVec.ofNat 32 y, fl)

end Sys2Proof.Machine
end

