-- ==== Sys2Proof/Machine/Float.lean ====
section
/-! DEFINITION. Float arithmetic, packed forms, dot products and special functions (R163 to R165, R171). -/

namespace Sys2Proof.Machine

/-- The 32 bits of a register, of operand B or its literal. -/
def wordOf (t : Thread) (f : Byte) : Nat := (vreg t f.toNat).toNat
def wordB (lit : Option Word) (b : Byte) (t : Thread) : Nat := (srcB32 false lit b t).toNat
/-- A 32-bit result with flags. -/
def wordRes (d : Byte) (r : Nat × Flags) : LaneRes := ([.v d false (BitVec.ofNat 64 r.1)], r.2)
/-- Element `i` of a packed register, and operand B of it: an L-form gives LIT[15:0] to both (R165). -/
def halfOf (x i : Nat) : Nat := x / 2 ^ (16 * i) % 2 ^ 16
def halfB (o : FOp) (t : Thread) (i : Nat) : Nat :=
  match o.lit with | some l => l.toNat % 2 ^ 16 | none => halfOf (wordOf t o.b) i
def packFmt (o : FOp) : Fmt := if o.hb then .bf16 else .f16
/-- Both elements of a packed form (R165). -/
def packRes (d : Byte) (f : Nat → Nat × Flags) : LaneRes :=
  let r0 := f 0
  let r1 := f 1
  ([.v d false (BitVec.ofNat 64 (r0.1 + r1.1 * 2 ^ 16))], r0.2 ||| r1.2)

def execFadd (h : Hdr) (o : FOp) (s : State) := compute s h 4 (dstV o.d) fun _ t =>
  wordRes o.d (Fmt.f32.addF o.rm o.sat o.ftz (wordOf t o.a) (wordB o.lit o.b t))
def execFsub (h : Hdr) (o : FOp) (s : State) := compute s h 4 (dstV o.d) fun _ t =>
  wordRes o.d (Fmt.f32.subF o.rm o.sat o.ftz (wordOf t o.a) (wordB o.lit o.b t))
def execFmul (h : Hdr) (o : FOp) (s : State) := compute s h 4 (dstV o.d) fun _ t =>
  wordRes o.d (Fmt.f32.mulF o.rm o.sat o.ftz (wordOf t o.a) (wordB o.lit o.b t))
def execFfma (h : Hdr) (o : FOp) (s : State) := compute s h 4 (dstV o.d) fun _ t =>
  wordRes o.d (Fmt.f32.fmaF o.rm o.sat o.ftz (wordOf t o.a) (wordB o.lit o.b t) (wordOf t o.c))
def execFmin (h : Hdr) (o : FOp) (s : State) := compute s h 4 (dstV o.d) fun _ t =>
  wordRes o.d (Fmt.f32.minmax o.ftz false (wordOf t o.a) (wordB o.lit o.b t), 0)
def execFmax (h : Hdr) (o : FOp) (s : State) := compute s h 4 (dstV o.d) fun _ t =>
  wordRes o.d (Fmt.f32.minmax o.ftz true (wordOf t o.a) (wordB o.lit o.b t), 0)
/-- A float comparison; subnormals read as zero under .FTZ (R156, R164). -/
def fcond (ftz : Bool) (cc a b : Nat) : Bool :=
  condFloat (condOf cc) (Fmt.f32.flushIn ftz (Fmt.f32.unpack a)) (Fmt.f32.flushIn ftz (Fmt.f32.unpack b))
def execFcmp (h : Hdr) (o : FOp) (s : State) := compute s h 4 (dstP o.d) fun _ t =>
  ([.p o.d.toNat (fcond o.ftz o.sub.toNat (wordOf t o.a) (wordB o.lit o.b t))], 0)
def execFset (h : Hdr) (o : FOp) (s : State) := compute s h 4 (dstV o.d) fun _ t =>
  wordRes o.d (if fcond o.ftz o.sub.toNat (wordOf t o.a) (wordB o.lit o.b t) then 0x3F800000 else 0, 0)
def execFclass (h : Hdr) (o : FOp) (s : State) := compute s h 4 (dstV o.d) fun _ t =>
  wordRes o.d (fclass (wordOf t o.a), 0)
def execFrnd (h : Hdr) (o : FOp) (s : State) := compute s h 4 (dstV o.d) fun _ t =>
  wordRes o.d (frnd o.rm o.ftz (wordOf t o.a), 0)
def execFscale (h : Hdr) (o : FOp) (s : State) := compute s h 4 (dstV o.d) fun _ t =>
  wordRes o.d (fscale o.rm o.sat o.ftz (wordOf t o.a) (srcB32 false o.lit o.b t).toInt)
def execFexp (h : Hdr) (o : FOp) (s : State) := compute s h 4 (dstV o.d) fun _ t =>
  let r := fexp (wordOf t o.a)
  wordRes o.d (r.1.toNat, r.2)
def execHadd2 (h : Hdr) (o : FOp) (s : State) := compute s h 4 (dstV o.d) fun _ t =>
  packRes o.d fun i => (packFmt o).addF o.rm o.sat o.ftz (halfOf (wordOf t o.a) i) (halfB o t i)
def execHmul2 (h : Hdr) (o : FOp) (s : State) := compute s h 4 (dstV o.d) fun _ t =>
  packRes o.d fun i => (packFmt o).mulF o.rm o.sat o.ftz (halfOf (wordOf t o.a) i) (halfB o t i)
def execHfma2 (h : Hdr) (o : FOp) (s : State) := compute s h 4 (dstV o.d) fun _ t =>
  packRes o.d fun i =>
    (packFmt o).fmaF o.rm o.sat o.ftz (halfOf (wordOf t o.a) i) (halfB o t i) (halfOf (wordOf t o.c) i)
def execHmnx2 (h : Hdr) (o : FOp) (s : State) := compute s h 4 (dstV o.d) fun _ t =>
  packRes o.d fun i => ((packFmt o).minmax o.ftz (o.sub == 1) (halfOf (wordOf t o.a) i) (halfB o t i), 0)
def execFdot2 (h : Hdr) (o : FOp) (s : State) := compute s h 4 (dstV o.d) fun _ t =>
  wordRes o.d (fdot o.rm o.sat o.ftz (packFmt o)
    ((List.range 2).map fun i => (halfOf (wordOf t o.a) i, halfOf (wordOf t o.b) i)) (wordOf t o.c))
def execFdot4 (h : Hdr) (o : FOp) (s : State) := compute s h 4 (dstV o.d) fun _ t =>
  let byte (x i : Nat) : Nat := x / 2 ^ (8 * i) % 256
  wordRes o.d (fdot o.rm o.sat o.ftz (if o.hb then .e5m2 else .e4m3)
    ((List.range 4).map fun i => (byte (wordOf t o.a) i, byte (wordOf t o.b) i)) (wordOf t o.c))

/-! ### Special functions -/

/-- ck for which an issue of `n` lanes holds the scheduler's SFU (R171). -/
def sfuCk (n : Nat) : Nat := (n + 15) / 16
/-- The scheduler's SFU held from this ck (R171). -/
def holdSfu (s : State) (core sched n : Nat) : State :=
  setCore s core fun c => { c with sfuHeld := modAt c.sfuHeld sched fun _ => s.clk + sfuCk n }
/-- An SFU issue: results in every active lane, then the hold and the latency of Table 7-10. -/
def sfuIssue (fn : SfuFn) (h : Hdr) (o : SfuOp) (s : State) : Host.Outcome State Fault Refusal :=
  issueH s h fun i =>
    let n := countBits i.act
    holdSfu (computeBody s i h.yh h.la.toNat (sfuCk n - 1 + 16) (dstV o.d false) fun _ t =>
      let r := sfu fn o.ftz (vreg t o.a.toNat)
      wordRes o.d (r.1.toNat, r.2)) i.wp.core i.wp.sched n

def execEx2 (h : Hdr) (o : SfuOp) (s : State) := sfuIssue .ex2 h o s
def execLg2 (h : Hdr) (o : SfuOp) (s : State) := sfuIssue .lg2 h o s
def execRcp (h : Hdr) (o : SfuOp) (s : State) := sfuIssue .rcp h o s
def execRsq (h : Hdr) (o : SfuOp) (s : State) := sfuIssue .rsq h o s
def execSqt (h : Hdr) (o : SfuOp) (s : State) := sfuIssue .sqt h o s
def execSin (h : Hdr) (o : SfuOp) (s : State) := sfuIssue .sin h o s
def execCos (h : Hdr) (o : SfuOp) (s : State) := sfuIssue .cos h o s
def execTanh (h : Hdr) (o : SfuOp) (s : State) := sfuIssue .tanh h o s

end Sys2Proof.Machine
end

