-- ==== Sys2Proof/Machine/Convert.lean ====
section
/-! DEFINITION. Conversions and quantisation in registers (R166 to R170). -/

namespace Sys2Proof.Machine

/-- The bits of a register that a float format reads (R166). -/
def fmtBits (ff : FFmt) (x : Nat) : Nat := x % 2 ^ (ffmtOf ff).width

def execCvti (h : Hdr) (o : CiOp) (s : State) := compute s h 6 (dstW o.ty.wide o.d) fun _ t =>
  let r := cvtToInt o.ty o.rm ((ffmtOf o.ff).unpack (fmtBits o.ff (wordOf t o.a)))
  ([.v o.d o.ty.wide (tyRes o.ty r.1)], r.2)
def execCvtf (h : Hdr) (o : CiOp) (s : State) := compute s h 6 (dstV o.d) fun lead t =>
  wordRes o.d (cvtFromInt (ffmtOf o.ff) o.rm (tyVal o.ty (rdW lead o.ty.wide t o.a)))
def execCvtff (h : Hdr) (o : CffOp) (s : State) := compute s h 6 (dstV o.d) fun _ t =>
  wordRes o.d (cvtFloat (ffmtOf o.fs) (ffmtOf o.fd) o.rm o.sat (fmtBits o.fs (wordOf t o.a)))
def execCvtpk (h : Hdr) (o : CpkOp) (s : State) := compute s h 6 (dstV o.d) fun _ t =>
  let f := ffmtOf o.fd
  let a := cvtFloat .f32 f o.rm o.sat (wordOf t o.a)
  let b := cvtFloat .f32 f o.rm o.sat (wordOf t o.b)
  let old := wordOf t o.d
  let two := a.1 + b.1 * 2 ^ f.width
  wordRes o.d (if f.width == 16 then two else if o.h then old % 2 ^ 16 + two * 2 ^ 16 else old / 2 ^ 16 * 2 ^ 16 + two,
    a.2 ||| b.2)

/-- The 64 elements that QNT reads: A of an active lane, +0.0 for every other (R169). -/
def quantInputs (i : Iss) (a : Byte) : List Val :=
  (List.range 64).map fun e => if i.act.getLsbD e then Fmt.f32.unpack (wordOf (threadOf i.wp e) a) else Fmt.f32.unpack 0
def execQnt (h : Hdr) (o : QnOp) (s : State) : Host.Outcome State Fault Refusal := issueH s h fun i =>
  let q := quantBlock o.fmt (quantInputs i o.a)
  computeBody s i h.yh h.la.toNat 20 (dstV o.d false) fun l _ =>
    wordRes o.d ((q.1.extractLsb' (8 * l) 8).toNat, q.2.getD l 0)

/-- The block that DQNT reads: A[7:0] of every lane of the warp, active or not (R170). -/
def quantBytes (w : Warp) (a : Byte) : BitVec 512 :=
  BitVec.ofNat 512 ((List.range 64).foldl (fun x e => x + wordOf (threadOf w e) a % 256 * 2 ^ (8 * e)) 0)
def execDqnt (h : Hdr) (o : DaOp) (s : State) : Host.Outcome State Fault Refusal := issueH s h fun i =>
  let blk := quantBytes i.wp o.a
  match blockBad blk with
  | some sub => takeTrap s i.w i.bn i.pc 0x0B sub 0 (sub - 1)
  | none => computeBody s i h.yh h.la.toNat 10 (dstV o.d false) fun l _ =>
      wordRes o.d (Fmt.f32.round .rn false (logValue (blockCode blk) (blockElem blk (blockCode blk) l) (sbyte (blockScale blk))))

end Sys2Proof.Machine
end

