-- ==== Sys2Proof/Machine/Integer.lean ====
section
/-! DEFINITION. Integer and logic instructions, and NOP (R157 to R162). -/

namespace Sys2Proof.Machine

/-- The result of an exact value under R155: saturated or wrapped, then extended. -/
def arith (ty : IntTy) (sat : Bool) (x : Int) : Dword × Flags :=
  if sat then (tyRes ty (tySat ty x).1, (tySat ty x).2) else (tyRes ty x, 0)
/-- A result of the operand's type in D. -/
def arithI (o : IOp) (x : Int) : LaneRes :=
  let r := arith o.ty o.sat x
  ([.v o.d o.ty.wide r.1], r.2)
/-- Operand values of a lane under the type. -/
def valA (lead : Bool) (o : IOp) (t : Thread) : Int := tyVal o.ty (opA lead o t)
def valB (lead : Bool) (o : IOp) (t : Thread) : Int := tyVal o.ty (opB lead o t)
def valC (lead : Bool) (o : IOp) (t : Thread) : Int := tyVal o.ty (opC lead o t)
/-- A bit pattern of the operand's type in D. -/
def bitsI (o : IOp) (x : Nat) : LaneRes := ([.v o.d o.ty.wide (tyRes o.ty x)], 0)
/-- A 32-bit number in D. -/
def word32 (d : Byte) (x : Nat) : LaneRes := ([.v d false (BitVec.ofNat 64 (x % 2 ^ 32))], 0)
def predRes (d : Byte) (b : Bool) : LaneRes := ([.p d.toNat b], 0)
/-- Shift counts and bit fields: the 32-bit operand B (R157). -/
def cntI (lead : Bool) (o : IOp) (t : Thread) : Nat := (srcB32 lead o.lit o.b t).toNat

/-- Product bits [2w−1:w] (IMULH). -/
def mulHigh (ty : IntTy) (a b : Int) : Int := a * b / 2 ^ ty.width
/-- IDIV (R158). -/
def divide (ty : IntTy) (sat : Bool) (a b : Int) : Dword × Flags :=
  if b = 0 then
    (tyRes ty (if !ty.signed then 2 ^ ty.width - 1 else if 0 ≤ a then 2 ^ (ty.width - 1) - 1 else -(2 ^ (ty.width - 1))), fDZ)
  else arith ty sat (a.tdiv b)
/-- IREM (R158). -/
def remainder (ty : IntTy) (a b : Int) : Dword × Flags :=
  if b = 0 then (tyRes ty a, fDZ) else (tyRes ty (a.tmod b), 0)
/-- SHL, SHR, SAR and ROTL on `w` bits (R159). -/
def shiftLeft (w a n : Nat) : Nat := if w ≤ n then 0 else a * 2 ^ n % 2 ^ w
def shiftRight (w a n : Nat) : Nat := if w ≤ n then 0 else a / 2 ^ n
def shiftArith (w a n : Nat) : Nat :=
  let v : Int := if 2 ^ (w - 1) ≤ a then (a : Int) - 2 ^ w else a
  (v / 2 ^ (min n w) % 2 ^ w).toNat
def rotLeft (w a n : Nat) : Nat :=
  let k := n % w
  (a * 2 ^ k % 2 ^ w) + a / 2 ^ (w - k)
/-- SHF.R and SHF.L (R159). -/
def funnel (left : Bool) (c a n : Nat) : Nat :=
  let x := c * 2 ^ 32 + a
  let k := n % 32
  if left then x * 2 ^ k / 2 ^ 32 % 2 ^ 32 else x / 2 ^ k % 2 ^ 32
/-- BFE (R159): positions at 32 and above read as `top`. -/
def bitField (signed : Bool) (a b : Nat) : Nat :=
  let pos := b % 256
  let len := min (b / 256 % 256) 32
  let top := signed && a.testBit 31
  let ext := a + (if top then (2 ^ 300 - 2 ^ 32) else 0)
  let f := ext / 2 ^ pos % 2 ^ len
  if len = 0 then 0 else if signed && f.testBit (len - 1) then f + (2 ^ 32 - 2 ^ len) else f
/-- BFI (R159). -/
def bitInsert (a b c : Nat) : Nat :=
  let pos := b % 256
  let len := min (b / 256 % 256) 32
  if len = 0 || 32 ≤ pos then c
  else
    let top := min (pos + len) 32
    c - c / 2 ^ pos % 2 ^ (top - pos) * 2 ^ pos + a * 2 ^ pos % 2 ^ top
/-- Bit counts of `w` bits. -/
def popCount (w a : Nat) : Nat := (List.range w).countP (a.testBit ·)
def leadZeros (w a : Nat) : Nat := if a = 0 then w else w - 1 - Nat.log2 a
def trailZeros (w a : Nat) : Nat := ((List.range w).find? (a.testBit ·)).getD w
def bitReverse (w a : Nat) : Nat := (List.range w).foldl (fun x n => x + if a.testBit n then 2 ^ (w - 1 - n) else 0) 0
/-- A three-input table, bit by bit (R157). -/
def table3 (w : Nat) (tab : Byte) (a b c : Nat) : Nat :=
  (List.range w).foldl (fun x n =>
    x + if tab.getLsbD ((a.testBit n).toNat + 2 * (b.testBit n).toNat + 4 * (c.testBit n).toNat) then 2 ^ n else 0) 0
/-- The parts of a dot product: `n` elements of `w` bits (R160). -/
def dotInt (signed : Bool) (n w a b : Nat) : Int :=
  let e (x i : Nat) : Int :=
    let u := x / 2 ^ (w * i) % 2 ^ w
    if signed && 2 ^ (w - 1) ≤ u then (u : Int) - 2 ^ w else u
  (List.range n).foldl (fun x i => x + e a i * e b i) 0

def tabTy (o : TabOp) : IntTy := if o.wide then .b64 else .b32
def tabSrc (lead : Bool) (o : TabOp) (t : Thread) (f : Byte) : Nat := tyBits (tabTy o) (rdW lead o.wide t f)
def tabB (lead : Bool) (o : TabOp) (t : Thread) : Nat :=
  match o.lit with | some l => l.toNat | none => tabSrc lead o t o.b

/-- Meanings. -/
def execNop (h : Hdr) (s : State) := compute s h 4 (fun _ => []) fun _ _ => ([], 0)
def execIadd (h : Hdr) (o : IOp) (s : State) := compute s h 4 (dstW o.ty.wide o.d) fun lead t =>
  arithI o (valA lead o t + valB lead o t)
def execIsub (h : Hdr) (o : IOp) (s : State) := compute s h 4 (dstW o.ty.wide o.d) fun lead t =>
  arithI o (valA lead o t - valB lead o t)
def execIaddc (h : Hdr) (o : IOp) (s : State) :=
  compute s h 4 (fun lead => dstW o.ty.wide o.d lead ++ dstP o.c lead) fun lead t =>
    let x := tyBits o.ty (opA lead o t) + tyBits o.ty (opB lead o t) + (rdP t o.c.toNat).toNat
    ([.v o.d o.ty.wide (tyRes o.ty x), .p o.c.toNat (2 ^ o.ty.width ≤ x)], 0)
def execIsubb (h : Hdr) (o : IOp) (s : State) :=
  compute s h 4 (fun lead => dstW o.ty.wide o.d lead ++ dstP o.c lead) fun lead t =>
    let x : Int := (tyBits o.ty (opA lead o t) : Int) - tyBits o.ty (opB lead o t) - (rdP t o.c.toNat).toNat
    ([.v o.d o.ty.wide (tyRes o.ty x), .p o.c.toNat (x < 0)], 0)
def execImul (h : Hdr) (o : IOp) (s : State) := compute s h 6 (dstW o.ty.wide o.d) fun lead t =>
  arithI o (valA lead o t * valB lead o t)
def execImulh (h : Hdr) (o : IOp) (s : State) := compute s h 6 (dstW o.ty.wide o.d) fun lead t =>
  ([resI o (mulHigh o.ty (valA lead o t) (valB lead o t))], 0)
def execImad (h : Hdr) (o : IOp) (s : State) := compute s h 6 (dstW o.ty.wide o.d) fun lead t =>
  arithI o (valA lead o t * valB lead o t + valC lead o t)
def execImadw (h : Hdr) (o : IOp) (s : State) := compute s h 6 (dstW true o.d) fun lead t =>
  let wide : IntTy := if o.ty == .i32 then .i64 else .n64
  let r := arith wide o.sat (valA lead o t * valB lead o t + tyVal wide (rdD lead t o.c))
  ([.v o.d true r.1], r.2)
def execIdiv (h : Hdr) (o : IOp) (s : State) :=
  compute s h (if o.ty.wide then 68 else 36) (dstW o.ty.wide o.d) fun lead t =>
    let r := divide o.ty o.sat (valA lead o t) (valB lead o t)
    ([.v o.d o.ty.wide r.1], r.2)
def execIrem (h : Hdr) (o : IOp) (s : State) :=
  compute s h (if o.ty.wide then 68 else 36) (dstW o.ty.wide o.d) fun lead t =>
    let r := remainder o.ty (valA lead o t) (valB lead o t)
    ([.v o.d o.ty.wide r.1], r.2)
def execIneg (h : Hdr) (o : IOp) (s : State) := compute s h 4 (dstW o.ty.wide o.d) fun lead t => arithI o (-(valA lead o t))
def execIabs (h : Hdr) (o : IOp) (s : State) := compute s h 4 (dstW o.ty.wide o.d) fun lead t =>
  arithI o (valA lead o t).natAbs
def execImin (h : Hdr) (o : IOp) (s : State) := compute s h 4 (dstW o.ty.wide o.d) fun lead t =>
  ([resI o (min (valA lead o t) (valB lead o t))], 0)
def execImax (h : Hdr) (o : IOp) (s : State) := compute s h 4 (dstW o.ty.wide o.d) fun lead t =>
  ([resI o (max (valA lead o t) (valB lead o t))], 0)
def execIclamp (h : Hdr) (o : IOp) (s : State) := compute s h 4 (dstW o.ty.wide o.d) fun lead t =>
  ([resI o (min (max (valA lead o t) (valB lead o t)) (valC lead o t))], 0)
def execAnd (h : Hdr) (o : IOp) (s : State) := compute s h 4 (dstW o.ty.wide o.d) fun lead t =>
  bitsI o (opA lead o t &&& opB lead o t).toNat
def execOr (h : Hdr) (o : IOp) (s : State) := compute s h 4 (dstW o.ty.wide o.d) fun lead t =>
  bitsI o (opA lead o t ||| opB lead o t).toNat
def execXor (h : Hdr) (o : IOp) (s : State) := compute s h 4 (dstW o.ty.wide o.d) fun lead t =>
  bitsI o (opA lead o t ^^^ opB lead o t).toNat
def execNot (h : Hdr) (o : IOp) (s : State) := compute s h 4 (dstW o.ty.wide o.d) fun lead t =>
  bitsI o (~~~(opA lead o t)).toNat
def execBtab3 (h : Hdr) (o : TabOp) (s : State) := compute s h 4 (dstW o.wide o.d) fun lead t =>
  ([.v o.d o.wide (tyRes (tabTy o) (table3 (tabTy o).width o.tab (tabSrc lead o t o.a) (tabB lead o t) (tabSrc lead o t o.c)))], 0)
def execShl (h : Hdr) (o : IOp) (s : State) := compute s h 4 (dstW o.ty.wide o.d) fun lead t =>
  bitsI o (shiftLeft o.ty.width (tyBits o.ty (opA lead o t)) (cntI lead o t))
def execShr (h : Hdr) (o : IOp) (s : State) := compute s h 4 (dstW o.ty.wide o.d) fun lead t =>
  bitsI o (shiftRight o.ty.width (tyBits o.ty (opA lead o t)) (cntI lead o t))
def execSar (h : Hdr) (o : IOp) (s : State) := compute s h 4 (dstW o.ty.wide o.d) fun lead t =>
  bitsI o (shiftArith o.ty.width (tyBits o.ty (opA lead o t)) (cntI lead o t))
def execShf (h : Hdr) (o : IOp) (s : State) := compute s h 4 (dstW false o.d) fun lead t =>
  bitsI o (funnel (o.sub == 1) (tyBits .b32 (rdV lead t o.c)) (tyBits .b32 (rdV lead t o.a)) (cntI lead o t))
def execRotl (h : Hdr) (o : IOp) (s : State) := compute s h 4 (dstW o.ty.wide o.d) fun lead t =>
  bitsI o (rotLeft o.ty.width (tyBits o.ty (opA lead o t)) (cntI lead o t))
def execBfe (h : Hdr) (o : IOp) (s : State) := compute s h 4 (dstW false o.d) fun lead t =>
  bitsI o (bitField (o.ty == .i32) (tyBits .b32 (rdV lead t o.a)) (cntI lead o t))
def execBfi (h : Hdr) (o : IOp) (s : State) := compute s h 4 (dstW false o.d) fun lead t =>
  bitsI o (bitInsert (tyBits .b32 (rdV lead t o.a)) (cntI lead o t) (tyBits .b32 (rdV lead t o.c)))
def execPopc (h : Hdr) (o : IOp) (s : State) := compute s h 4 (dstW false o.d) fun lead t =>
  word32 o.d (popCount o.ty.width (tyBits o.ty (opA lead o t)))
def execClz (h : Hdr) (o : IOp) (s : State) := compute s h 4 (dstW false o.d) fun lead t =>
  word32 o.d (leadZeros o.ty.width (tyBits o.ty (opA lead o t)))
def execCtz (h : Hdr) (o : IOp) (s : State) := compute s h 4 (dstW false o.d) fun lead t =>
  word32 o.d (trailZeros o.ty.width (tyBits o.ty (opA lead o t)))
def execBrev (h : Hdr) (o : IOp) (s : State) := compute s h 4 (dstW o.ty.wide o.d) fun lead t =>
  bitsI o (bitReverse o.ty.width (tyBits o.ty (opA lead o t)))
def execIcmp (h : Hdr) (o : IOp) (s : State) := compute s h 4 (dstP o.d) fun lead t =>
  predRes o.d (condInt (condOf o.sub.toNat) (valA lead o t) (valB lead o t))
def execIset (h : Hdr) (o : IOp) (s : State) := compute s h 4 (dstW false o.d) fun lead t =>
  word32 o.d (condInt (condOf o.sub.toNat) (valA lead o t) (valB lead o t)).toNat
def execSel (h : Hdr) (o : IOp) (s : State) := compute s h 4 (dstW o.ty.wide o.d) fun lead t =>
  bitsI o (if rdP t o.c.toNat then opA lead o t else opB lead o t).toNat
def execMov (h : Hdr) (o : IOp) (s : State) := compute s h 4 (dstW o.ty.wide o.d) fun lead t =>
  bitsI o (match o.lit with | some l => litDword o.ty l | none => opA lead o t).toNat
def execMovi (h : Hdr) (o : IOp) (s : State) := compute s h 4 (dstW true o.d) fun lead t =>
  let old := rdD lead t o.d
  let l := o.lit.getD 0
  ([.v o.d true (if o.sub == 0 then old.extractLsb' 32 32 ++ l else l ++ old.extractLsb' 0 32)], 0)
def execLea (h : Hdr) (o : IOp) (s : State) := compute s h 4 (dstW o.ty.wide o.d) fun lead t =>
  let b := srcB32 lead o.lit o.b t
  let x : Int := if o.ty.signed then b.toInt else b.toNat
  ([resI o (valA lead o t + x * 2 ^ o.sub.toNat)], 0)
/-- C and D of a dot product are 32-bit (R160). -/
def dotRes (h : Hdr) (o : IOp) (n w : Nat) (s : State) := compute s h 6 (dstW false o.d) fun lead t =>
  let ty : IntTy := if o.ty.signed then .i32 else .n32
  let r := arith ty o.sat (tyVal ty (rdV lead t o.c) +
    dotInt o.ty.signed n w (tyBits .b32 (rdV lead t o.a)) (tyBits .b32 (rdV lead t o.b)))
  ([.v o.d false r.1], r.2)
def execIdot4 (h : Hdr) (o : IOp) (s : State) := dotRes h o 4 8 s
def execIdot2 (h : Hdr) (o : IOp) (s : State) := dotRes h o 2 16 s
def execPmov (h : Hdr) (o : IOp) (s : State) :=
  compute s h 4 (fun lead => if o.sub == 0 then dstW false o.d lead else (List.range 7).map (256 + ·)) fun lead t =>
    if o.sub == 0 then word32 o.d (t.p ||| 0x80#8).toNat
    else ((List.range 7).map fun i => .p i ((rdV lead t o.a).getLsbD i), 0)
def execPtab3 (h : Hdr) (o : TabOp) (s : State) := compute s h 4 (dstP o.d) fun _ t =>
  predRes o.d (o.tab.getLsbD ((rdP t o.a.toNat).toNat + 2 * (rdP t o.b.toNat).toNat + 4 * (rdP t o.c.toNat).toNat))

end Sys2Proof.Machine
end

