-- ==== Sys2Proof/Machine/Sform.lean ====
section
/-! DEFINITION. S-forms (R122 to R124): each S opcode's work on its threads, as an instruction of its own or as a group
issue of an XISSUE (R187). -/

namespace Sys2Proof.Machine

/-- What an S opcode does in its threads: a computation with its latency and whether it is an SFU function, a load or a
store of own scratchpad. -/
inductive SWork where
  | comp (d : Byte) (lat : Nat) (sfu : Bool) (f : Thread → LaneRes)
  | load (d : Byte) (off : Thread → Word)
  | store (b : Byte) (off : Thread → Word)

/-- The integer operands of an S-form. -/
def sInt (ty : IntTy) (d a b : Byte) : IOp := ⟨ty, false, 0, d, a, b, 0, none⟩

/-! ### The S opcodes (Table 6-3) -/

def workIaddS (d a b : Byte) : SWork := .comp d 4 false fun t =>
  let o := sInt .i32 d a b
  arithI o (valA false o t + valB false o t)
def workIsubS (d a b : Byte) : SWork := .comp d 4 false fun t =>
  let o := sInt .i32 d a b
  arithI o (valA false o t - valB false o t)
def workImulS (d a b : Byte) : SWork := .comp d 6 false fun t =>
  let o := sInt .i32 d a b
  arithI o (valA false o t * valB false o t)
def workIminS (d a b : Byte) : SWork := .comp d 4 false fun t =>
  let o := sInt .i32 d a b
  ([resI o (min (valA false o t) (valB false o t))], 0)
def workImaxS (d a b : Byte) : SWork := .comp d 4 false fun t =>
  let o := sInt .i32 d a b
  ([resI o (max (valA false o t) (valB false o t))], 0)
def workAndS (d a b : Byte) : SWork := .comp d 4 false fun t =>
  let o := sInt .b32 d a b
  bitsI o (opA false o t &&& opB false o t).toNat
def workOrS (d a b : Byte) : SWork := .comp d 4 false fun t =>
  let o := sInt .b32 d a b
  bitsI o (opA false o t ||| opB false o t).toNat
def workXorS (d a b : Byte) : SWork := .comp d 4 false fun t =>
  let o := sInt .b32 d a b
  bitsI o (opA false o t ^^^ opB false o t).toNat
def workShlS (d a b : Byte) : SWork := .comp d 4 false fun t =>
  let o := sInt .b32 d a b
  bitsI o (shiftLeft 32 (tyBits o.ty (opA false o t)) (cntI false o t))
def workShrS (d a b : Byte) : SWork := .comp d 4 false fun t =>
  let o := sInt .b32 d a b
  bitsI o (shiftRight 32 (tyBits o.ty (opA false o t)) (cntI false o t))
def workSarS (d a b : Byte) : SWork := .comp d 4 false fun t =>
  let o := sInt .i32 d a b
  bitsI o (shiftArith 32 (tyBits o.ty (opA false o t)) (cntI false o t))
def workRotlS (d a b : Byte) : SWork := .comp d 4 false fun t =>
  let o := sInt .b32 d a b
  bitsI o (rotLeft 32 (tyBits o.ty (opA false o t)) (cntI false o t))
def workMovS (d a : Byte) : SWork := .comp d 4 false fun t =>
  let o := sInt .b32 d a 0
  bitsI o (opA false o t).toNat
def workNotS (d a : Byte) : SWork := .comp d 4 false fun t =>
  let o := sInt .b32 d a 0
  bitsI o (~~~(opA false o t)).toNat
def workInegS (d a : Byte) : SWork := .comp d 4 false fun t =>
  let o := sInt .i32 d a 0
  arithI o (-(valA false o t))
def workPopcS (d a : Byte) : SWork := .comp d 4 false fun t =>
  let o := sInt .b32 d a 0
  word32 o.d (popCount 32 (tyBits o.ty (opA false o t)))
def workClzS (d a : Byte) : SWork := .comp d 4 false fun t =>
  let o := sInt .b32 d a 0
  word32 o.d (leadZeros 32 (tyBits o.ty (opA false o t)))
def workBrevS (d a : Byte) : SWork := .comp d 4 false fun t =>
  let o := sInt .b32 d a 0
  bitsI o (bitReverse 32 (tyBits o.ty (opA false o t)))
def workIsetltS (d a b : Byte) : SWork := .comp d 4 false fun t =>
  let o := sInt .i32 d a b
  word32 o.d (condInt .lt (valA false o t) (valB false o t)).toNat
def workIseteqS (d a b : Byte) : SWork := .comp d 4 false fun t =>
  let o := sInt .i32 d a b
  word32 o.d (condInt .eq (valA false o t) (valB false o t)).toNat
def workNminS (d a b : Byte) : SWork := .comp d 4 false fun t =>
  let o := sInt .n32 d a b
  ([resI o (min (valA false o t) (valB false o t))], 0)
def workNmaxS (d a b : Byte) : SWork := .comp d 4 false fun t =>
  let o := sInt .n32 d a b
  ([resI o (max (valA false o t) (valB false o t))], 0)
def workFaddS (d a b : Byte) : SWork := .comp d 4 false fun t =>
  wordRes d (Fmt.f32.addF .rn false false (wordOf t a) (wordOf t b))
def workFsubS (d a b : Byte) : SWork := .comp d 4 false fun t =>
  wordRes d (Fmt.f32.subF .rn false false (wordOf t a) (wordOf t b))
def workFmulS (d a b : Byte) : SWork := .comp d 4 false fun t =>
  wordRes d (Fmt.f32.mulF .rn false false (wordOf t a) (wordOf t b))
def workFminS (d a b : Byte) : SWork := .comp d 4 false fun t =>
  wordRes d ((Fmt.f32.minmax false false (wordOf t a) (wordOf t b), 0))
def workFmaxS (d a b : Byte) : SWork := .comp d 4 false fun t =>
  wordRes d ((Fmt.f32.minmax false true (wordOf t a) (wordOf t b), 0))
def workFsetltS (d a b : Byte) : SWork := .comp d 4 false fun t =>
  wordRes d ((if condFloat .lt (Fmt.f32.unpack (wordOf t a)) (Fmt.f32.unpack (wordOf t b)) then 0x3F800000 else 0, 0))
def workFnegS (d a : Byte) : SWork := .comp d 4 false fun t =>
  wordRes d ((if (Fmt.f32.unpack (wordOf t a)).isNan then Fmt.f32.cnan else Nat.xor (wordOf t a) (2 ^ 31), 0))
def workFabsS (d a : Byte) : SWork := .comp d 4 false fun t =>
  wordRes d ((if (Fmt.f32.unpack (wordOf t a)).isNan then Fmt.f32.cnan else wordOf t a % 2 ^ 31, 0))
def workCvtfS (d a : Byte) : SWork := .comp d 6 false fun t =>
  wordRes d (cvtFromInt .f32 .rn (tyVal .i32 (rdV false t a)))
def workCvtiS (d a : Byte) : SWork := .comp d 6 false fun t =>
  let r := cvtToInt .i32 .rn (Fmt.f32.unpack (wordOf t a))
  ([.v d false (tyRes .i32 r.1)], r.2)
def workHadd2S (d a b : Byte) : SWork := .comp d 4 false fun t =>
  packRes d fun i => Fmt.f16.addF .rn false false (halfOf (wordOf t a) i) (halfOf (wordOf t b) i)
def workHmul2S (d a b : Byte) : SWork := .comp d 4 false fun t =>
  packRes d fun i => Fmt.f16.mulF .rn false false (halfOf (wordOf t a) i) (halfOf (wordOf t b) i)
def workEx2S (d a : Byte) : SWork := .comp d 16 true fun t =>
  let r := sfu .ex2 false (vreg t a.toNat)
  wordRes d (r.1.toNat, r.2)
def workLg2S (d a : Byte) : SWork := .comp d 16 true fun t =>
  let r := sfu .lg2 false (vreg t a.toNat)
  wordRes d (r.1.toNat, r.2)
def workRcpS (d a : Byte) : SWork := .comp d 16 true fun t =>
  let r := sfu .rcp false (vreg t a.toNat)
  wordRes d (r.1.toNat, r.2)
def workRsqS (d a : Byte) : SWork := .comp d 16 true fun t =>
  let r := sfu .rsq false (vreg t a.toNat)
  wordRes d (r.1.toNat, r.2)
def workLdsS (d a b : Byte) : SWork := .load d fun t => vreg t a.toNat + 4 * vreg t b.toNat
def workStsS (a b : Byte) : SWork := .store b fun t => vreg t a.toNat
def workNopS : SWork := .comp 255 4 false fun _ => ([], 0)

/-- The guard and the work of an S-form. -/
def sWork : Instr → Option (Bool × SWork)
  | .iaddS g d a b => some (g, workIaddS d a b)
  | .isubS g d a b => some (g, workIsubS d a b)
  | .imulS g d a b => some (g, workImulS d a b)
  | .iminS g d a b => some (g, workIminS d a b)
  | .imaxS g d a b => some (g, workImaxS d a b)
  | .andS g d a b => some (g, workAndS d a b)
  | .orS g d a b => some (g, workOrS d a b)
  | .xorS g d a b => some (g, workXorS d a b)
  | .shlS g d a b => some (g, workShlS d a b)
  | .shrS g d a b => some (g, workShrS d a b)
  | .sarS g d a b => some (g, workSarS d a b)
  | .rotlS g d a b => some (g, workRotlS d a b)
  | .movS g d a => some (g, workMovS d a)
  | .notS g d a => some (g, workNotS d a)
  | .inegS g d a => some (g, workInegS d a)
  | .popcS g d a => some (g, workPopcS d a)
  | .clzS g d a => some (g, workClzS d a)
  | .brevS g d a => some (g, workBrevS d a)
  | .isetltS g d a b => some (g, workIsetltS d a b)
  | .iseteqS g d a b => some (g, workIseteqS d a b)
  | .nminS g d a b => some (g, workNminS d a b)
  | .nmaxS g d a b => some (g, workNmaxS d a b)
  | .faddS g d a b => some (g, workFaddS d a b)
  | .fsubS g d a b => some (g, workFsubS d a b)
  | .fmulS g d a b => some (g, workFmulS d a b)
  | .fminS g d a b => some (g, workFminS d a b)
  | .fmaxS g d a b => some (g, workFmaxS d a b)
  | .fsetltS g d a b => some (g, workFsetltS d a b)
  | .fnegS g d a => some (g, workFnegS d a)
  | .fabsS g d a => some (g, workFabsS d a)
  | .cvtfS g d a => some (g, workCvtfS d a)
  | .cvtiS g d a => some (g, workCvtiS d a)
  | .hadd2S g d a b => some (g, workHadd2S d a b)
  | .hmul2S g d a b => some (g, workHmul2S d a b)
  | .ex2S g d a => some (g, workEx2S d a)
  | .lg2S g d a => some (g, workLg2S d a)
  | .rcpS g d a => some (g, workRcpS d a)
  | .rsqS g d a => some (g, workRsqS d a)
  | .ldsS g d a b => some (g, workLdsS d a b)
  | .stsS g a b => some (g, workStsS a b)
  | .nopS g => some (g, workNopS)
  | _ => none

/-! ### Running the work -/

/-- Flags of the active lanes, as an issue records them. -/
def laneFlags (i : Iss) (f : Thread → LaneRes) : List (Nat × Flags) := (lanesOf i.act).map fun l => (l, (f (threadOf i.wp l)).2)
/-- The work of an S opcode in the active threads of an issue. `go` stands for what the issue does around it; `bad` for
what a run-time fault does. Answers the ck by which it completes (R178, Table 8-8). -/
def runWork (s : State) (i : Iss) (la : Nat) (x : SWork) (go : State → State) (bad : State → AccFault → State)
    (poison : State → Nat → Nat → State) : State × Nat :=
  let p := i.part s
  match x with
  | .comp d lat sfu f =>
    let fs := laneFlags i f
    let s1 := writeLanes s i fun _ t => f t
    let s2 := if fs.all (fun x => enabled (threadOf i.wp x.1) x.2 == 0) then s1 else logArith s1 i.w i.pc false fs
    let n := countBits i.act
    let due := s.clk + lat + if sfu then sfuCk n - 1 else 0
    let s3 := addPend (go s2) i (dstV d false) la (some due) none
    (if sfu then holdSfu s3 i.wp.core i.wp.sched n else s3, due)
  | .load d off =>
    match scratchCheck i p.kib p.swin 0 4 off with
    | some f => (bad s f, s.clk)
    | none =>
      let offs := laneOffs i p.swin 0 off
      match scratchValues s i 4 offs with
      | .inl l => (poison s (off (threadOf i.wp l)).toNat l, s.clk)
      | .inr vs =>
        let x := extraPasses s i p.swin 4 offs
        let due := s.clk + 24 + x
        let s1 := countPasses s i x
        (addPend (go (loadStart s1 (loadOp s1 i .b32 (vs.map fun v => (v.1, d.toNat, v.2)) (some due)))) i (dstV d false) la none
          (some s1.nextId), due)
  | .store b off =>
    match scratchCheck i p.kib p.swin 0 4 off with
    | some f => (bad s f, s.clk)
    | none =>
      let offs := laneOffs i p.swin 0 off
      let accs := storeAccs i .b32 b (fun t => (off t).toNat) (offs.map fun x => (x.1, .scratch i.wp.part x.2))
      let x := extraPasses s i p.swin 4 offs
      let (id, s1) := fresh (countPasses s i x)
      (go (enqueue (signAccs s1 i.w accs) i.w (mkEntry s.clk i id .store accs .plain .core .normal x)), s.clk)

/-- An S-form as an instruction of its own: lookahead 0, no hint (R122). -/
def sIssue (g : Bool) (x : SWork) (s : State) : Host.Outcome State Fault Refusal :=
  issueWith s (sGuard g) false fun i =>
    (runWork s i 0 x (finish · i false) (fun s f => accTrap s i f) fun s a l => poisonTrap s i.w i.bn i.pc a l 1).1


def execIaddS (g : Bool) (d a b : Byte) (s : State) := sIssue g (workIaddS d a b) s
def execIsubS (g : Bool) (d a b : Byte) (s : State) := sIssue g (workIsubS d a b) s
def execImulS (g : Bool) (d a b : Byte) (s : State) := sIssue g (workImulS d a b) s
def execIminS (g : Bool) (d a b : Byte) (s : State) := sIssue g (workIminS d a b) s
def execImaxS (g : Bool) (d a b : Byte) (s : State) := sIssue g (workImaxS d a b) s
def execAndS (g : Bool) (d a b : Byte) (s : State) := sIssue g (workAndS d a b) s
def execOrS (g : Bool) (d a b : Byte) (s : State) := sIssue g (workOrS d a b) s
def execXorS (g : Bool) (d a b : Byte) (s : State) := sIssue g (workXorS d a b) s
def execShlS (g : Bool) (d a b : Byte) (s : State) := sIssue g (workShlS d a b) s
def execShrS (g : Bool) (d a b : Byte) (s : State) := sIssue g (workShrS d a b) s
def execSarS (g : Bool) (d a b : Byte) (s : State) := sIssue g (workSarS d a b) s
def execRotlS (g : Bool) (d a b : Byte) (s : State) := sIssue g (workRotlS d a b) s
def execMovS (g : Bool) (d a : Byte) (s : State) := sIssue g (workMovS d a) s
def execNotS (g : Bool) (d a : Byte) (s : State) := sIssue g (workNotS d a) s
def execInegS (g : Bool) (d a : Byte) (s : State) := sIssue g (workInegS d a) s
def execPopcS (g : Bool) (d a : Byte) (s : State) := sIssue g (workPopcS d a) s
def execClzS (g : Bool) (d a : Byte) (s : State) := sIssue g (workClzS d a) s
def execBrevS (g : Bool) (d a : Byte) (s : State) := sIssue g (workBrevS d a) s
def execIsetltS (g : Bool) (d a b : Byte) (s : State) := sIssue g (workIsetltS d a b) s
def execIseteqS (g : Bool) (d a b : Byte) (s : State) := sIssue g (workIseteqS d a b) s
def execNminS (g : Bool) (d a b : Byte) (s : State) := sIssue g (workNminS d a b) s
def execNmaxS (g : Bool) (d a b : Byte) (s : State) := sIssue g (workNmaxS d a b) s
def execFaddS (g : Bool) (d a b : Byte) (s : State) := sIssue g (workFaddS d a b) s
def execFsubS (g : Bool) (d a b : Byte) (s : State) := sIssue g (workFsubS d a b) s
def execFmulS (g : Bool) (d a b : Byte) (s : State) := sIssue g (workFmulS d a b) s
def execFminS (g : Bool) (d a b : Byte) (s : State) := sIssue g (workFminS d a b) s
def execFmaxS (g : Bool) (d a b : Byte) (s : State) := sIssue g (workFmaxS d a b) s
def execFsetltS (g : Bool) (d a b : Byte) (s : State) := sIssue g (workFsetltS d a b) s
def execFnegS (g : Bool) (d a : Byte) (s : State) := sIssue g (workFnegS d a) s
def execFabsS (g : Bool) (d a : Byte) (s : State) := sIssue g (workFabsS d a) s
def execCvtfS (g : Bool) (d a : Byte) (s : State) := sIssue g (workCvtfS d a) s
def execCvtiS (g : Bool) (d a : Byte) (s : State) := sIssue g (workCvtiS d a) s
def execHadd2S (g : Bool) (d a b : Byte) (s : State) := sIssue g (workHadd2S d a b) s
def execHmul2S (g : Bool) (d a b : Byte) (s : State) := sIssue g (workHmul2S d a b) s
def execEx2S (g : Bool) (d a : Byte) (s : State) := sIssue g (workEx2S d a) s
def execLg2S (g : Bool) (d a : Byte) (s : State) := sIssue g (workLg2S d a) s
def execRcpS (g : Bool) (d a : Byte) (s : State) := sIssue g (workRcpS d a) s
def execRsqS (g : Bool) (d a : Byte) (s : State) := sIssue g (workRsqS d a) s
def execLdsS (g : Bool) (d a b : Byte) (s : State) := sIssue g (workLdsS d a b) s
def execStsS (g : Bool) (a b : Byte) (s : State) := sIssue g (workStsS a b) s
def execNopS (g : Bool) (s : State) := sIssue g workNopS s

end Sys2Proof.Machine
end

