-- ==== Sys2Proof/Machine/Xissue.lean ====
section
/-! DEFINITION. XISSUE (R186 to R191, R336, R337): steps, group issues, illegal words. -/

namespace Sys2Proof.Machine

/-- A lane's word as an S-form, where R188 finds it legal. -/
def wordInstr (al : Allot) (x : Word) : Option Instr :=
  if x.getLsbD 1 then none else
  match decodeBits ⟨false, false⟩ (x.zeroExtend 96) with
  | .ok i => if i.rangeOk false al then some i else none
  | .bad _ => none
/-- What a launch allots. -/
def allotOf (p : Packet) : Allot := ⟨p.vregs, p.lregs, p.tiles, p.accs⟩
def allotOfWarp (s : State) (w : Warp) : Allot := allotOf (launchOf s (blockOf s w.blk).launch).pkt
/-- The progress of a bundle changed. -/
def setXi (s : State) (w id : Nat) (f : Xi → Xi) : State := setBundle s w id fun b => { b with xi := b.xi.map f }
/-- The scheduler's slot held for a bundle, or given up (R191, R257). -/
def holdSlot (s : State) (w id : Nat) (h : Bool) : State :=
  let wp := warpOf s w
  setCore s wp.core fun c => { c with xiHold := modAt c.xiHold wp.sched fun _ => if h then some (w, id) else none }

/-- The words of a step read; illegal ones leave (R187, R188). -/
def xiStart (s : State) (w : Nat) (b : Bundle) (x : Xi) : State :=
  let wp := warpOf s w
  let al := allotOfWarp s wp
  let words := (lanesOf x.remaining).map fun l => (l, vreg (threadOf wp l) (x.w + x.step))
  let badW := words.filter fun z => (wordInstr al z.2).isNone
  let m := maskOf (badW.map (·.1))
  let s := setThreads s w m fun _ t => { t with astat := t.astat ||| astatIllw }
  let rest := x.remaining &&& ~~~m
  setXi s w b.id fun x =>
    { x with remaining := rest, left := rest, words, bad := x.bad ++ badW.map (fun z => (z.1, x.step, z.2)), started := true,
             ready := s.clk }

/-- After a halt the words of the lanes not yet issued are read again (R190). -/
def xiReread (s : State) (w : Nat) (b : Bundle) (x : Xi) : State :=
  if !x.started then s else
  let wp := warpOf s w
  let al := allotOfWarp s wp
  let fresh := (lanesOf x.left).map fun l => (l, vreg (threadOf wp l) (x.w + x.step))
  let badW := fresh.filter fun z => (wordInstr al z.2).isNone
  let m := maskOf (badW.map (·.1))
  let s := setThreads s w m fun _ t => { t with astat := t.astat ||| astatIllw }
  setXi s w b.id fun x =>
    { x with remaining := x.remaining &&& ~~~m, left := x.left &&& ~~~m, words := fresh,
             bad := x.bad ++ badW.map fun z => (z.1, x.step, z.2) }
def xiResume (s : State) (w : Nat) : State :=
  (warpOf s w).bundles.foldl (fun s b => match b.xi with | some x => xiReread s w b x | none => s) s

/-- One 8-byte entry of an ILLCONT record (R316). -/
def illEntry (e : Nat × Nat × Word) : List Byte := bytesOf 8 (e.2.2.toNat + e.1 * 2 ^ 32 + e.2.1 * 2 ^ 40)
/-- Records of eight entries each, of TYPE-less layout as R316 gives. -/
def illConts : Nat → List (Nat × Nat × Word) → List (List Byte)
  | 0, _ => []
  | n + 1, es =>
    if es.isEmpty then [] else
    let here := (es.take 8).flatMap illEntry
    (here ++ List.replicate (64 - here.length) 0) :: illConts n (es.drop 8)
/-- The ILLWORD record and its continuations, one unit (R336). -/
def illWord (s : State) (w : Nat) (lanes : Mask) (pc own : Addr) (bad : List (Nat × Nat × Word)) : State :=
  let wp := warpOf s w
  let b := blockOf s wp.blk
  let es := sortBy (fun a b => a.1 ≤ b.1) bad
  match es with
  | [] => s
  | e :: _ =>
    let (si, sc) := skidOf s wp
    let r : RecIn := ⟨4, 0x02, 0, wp.idx, (partOf s wp.part).log, 0, si, sc, pc.toNat, lanes, liveLanes wp &&& ~~~lanes, own.toNat,
                      e.1 + e.2.1 * 256 + es.length * 2 ^ 16⟩
    formUnit s b.vf b.ctx (warpKey 0 s wp) (recordBytes r b.bx b.by' b.bz (timeNs s) :: illConts 8 es) (.block wp.blk)

/-- Removed lanes are reported, and the bundle traps (R336). -/
def xiTrap (s : State) (w : Nat) (lanes : Mask) (pc own : Addr) (bad : List (Nat × Nat × Word)) : State :=
  let s := illWord s w lanes pc own bad
  haltBlock (setWarp s w fun x => { x with halt := .trapped, window := none }) (warpOf s w).blk false
/-- An XISSUE that has ended goes on at the following instruction; removed lanes make the bundle trap there. -/
def xiDone (s : State) (w : Nat) (b : Bundle) (x : Xi) : State :=
  let pc := pcOf (warpOf s w) b
  let s := setBundle (holdSlot s w b.id false) w b.id fun b => { b with xi := none }
  let s := movePc s w b.id b.lanes 0 fun _ t => t.pc + 8
  if x.bad.isEmpty then s else xiTrap s w b.lanes (pc + 8) pc x.bad

/-- A run-time fault of a group ends the XISSUE there, its progress kept (R189, R337). -/
def xiFault (s : State) (w : Nat) (b : Bundle) (x : Xi) (record : State → State) : State :=
  let pc := pcOf (warpOf s w) b
  let s := holdSlot (record s) w b.id false
  let s := if x.bad.isEmpty then s else illWord s w b.lanes pc pc x.bad
  haltBlock (setXi s w b.id fun x => { x with bad := [] }) (warpOf s w).blk false
/-- What a group issue counts: it is an instruction of its bundle for wait counts, windows and flags (R26, R27, R366), an
issue of the threads of its group (R256, R304), and itself (Table 12-3). The group that issues in the ck of its XISSUE shares
that issue's slot, and counts no second issue in a skid. -/
def groupNote (s : State) (w id : Nat) (m : Mask) : State :=
  let wp := warpOf s w
  let b := blockOf s wp.blk
  let late := !wp.issued && match b.halt with | some h => h.ck < s.clk | none => false
  let s := setWarp s w (issuedWarp id m false b.halt.isNone late)
  let ids := (wp.bundles.filter fun x => x.lanes &&& m != 0).map fun x => (w, x.id)
  let s := setBlock s wp.blk fun b =>
    { b with issued := true, idle := 0, idleRec := false,
             step := b.step.map fun st => { st with left := st.left.filter fun x => !(ids.contains x) } }
  count (retire s wp.blk wp.idx false (countBits m)) b.vf b.ctx 1 15 1

/-- Why a group cannot issue now: an earlier window, its registers, the SFU, or the queue (R191, R256). -/
def groupHeld (s : State) (w : Nat) (wp : Warp) (b : Bundle) (m : Mask) (ins : Instr) (x : SWork) : Bool :=
  windowStall s wp m || hazardStall s wp m (touchedRegs false ins) ||
  match x with
  | .comp _ _ sfu _ => sfu && sfuBusy s wp
  | .store _ _ => Config.storeQueueSize ≤ wp.queue.length
  | .load _ off => openBehind s w m || behindNoted wp b || behindQueue wp.queue false 4 ((lanesOf m).map fun l => (off (threadOf wp l)).toNat)
/-- The entries that a group's load waits for (R104). -/
def groupBehind (wp : Warp) (m : Mask) : SWork → List Nat
  | .load _ off => behindIds wp.queue false 4 ((lanesOf m).map fun l => (off (threadOf wp l)).toNat)
  | _ => []
/-- One group issues to its threads; a poisoned source register is a run-time fault of the group (R189, R357). -/
def groupIssue (s : State) (w : Nat) (b : Bundle) (x : Xi) (m : Mask) (ins : Instr) : State :=
  let wp := warpOf s w
  match sWork ins with
  | none => s
  | some (g, work) =>
    if groupHeld s w wp b m ins work then
      let blk := blockOf s wp.blk
      let full : Bool := match work with | .store _ _ => Config.storeQueueSize ≤ wp.queue.length | _ => false
      let s := if full then count s blk.vf blk.ctx 2 12 1 else s
      let ids := groupBehind wp m work
      let s := if b.behind.isEmpty && !ids.isEmpty then setBundle s w b.id fun b => { b with behind := ids } else s
      holdSlot (setWarp (count s blk.vf blk.ctx 0 14 1) w fun x => { x with stall := 14 }) w b.id true
    else
      let i : Iss := { w, wp, bn := { b with lanes := m }, len := 8, act := activeLanes wp m (sGuard g) }
      let info : Nat := lowest m + x.step * 256
      let left := x.left &&& ~~~m
      let la := if x.step + 1 == x.n then x.la else 0
      let note (s : State) : State := setXi (groupNote s w b.id m) w b.id fun x => { x with left }
      let bad (s : State) (f : AccFault) : State :=
        xiFault s w b x fun s => trapRecord s w b (pcOf wp b) f.1 f.2.1 f.2.2.1 info
      let poison (s : State) (a _ : Nat) : State :=
        let blk := blockOf s wp.blk
        enterError (xiFault s w b x fun s => trapRecord s w b (pcOf wp b) 0x18 0 a info) blk.vf blk.ctx 1 a
      if i.act = 0 then holdSlot (note s) w b.id (left != 0)
      else if (poisonedLane s w wp i.act ins).isSome then poison s 0 0
      else
        let r := runWork s i la work note bad poison
        if (warpOf r.1 w).halt == .trapped then r.1
        else holdSlot (setXi r.1 w b.id fun x => { x with ready := max x.ready r.2 }) w b.id (left != 0)

/-- One ck of an XISSUE: a step starts once the one before has completed, a group issues, or the XISSUE ends. -/
def xiGo (s : State) (w id : Nat) : State :=
  match bundleOf (warpOf s w) id with
  | none => s
  | some b =>
    match b.xi with
    | none => s
    | some x0 =>
      if !x0.started && s.clk < x0.ready then s else
      let s := if x0.started then s else xiStart s w b x0
      match (bundleOf (warpOf s w) id).bind (·.xi) with
      | none => s
      | some x =>
        let l := lowest x.left
        let word := ((x.words.find? (·.1 == l)).map (·.2)).getD 0
        let m := maskOf ((lanesOf x.left).filter fun k => ((x.words.find? (·.1 == k)).map (·.2)).getD 0 == word)
        let s := if x.left = 0 then s else
          match wordInstr (allotOfWarp s (warpOf s w)) word with
          | some ins => groupIssue s w b x m ins
          | none => setXi s w id fun x => { x with left := x.left &&& ~~~m }
        if (warpOf s w).halt == .trapped then s else
        match (bundleOf (warpOf s w) id).bind (·.xi) with
        | none => s
        | some x =>
          if x.left != 0 then s
          else if x.remaining = 0 then xiDone s w b x
          else if x.step + 1 < x.n then setXi s w id fun x => { x with step := x.step + 1, started := false }
          else if x.bad.isEmpty || x.ready ≤ s.clk then xiDone s w b x else s

/-- XISSUE at issue: its first group issues in the same ck (Table 8-3). -/
def execXissue (h : Hdr) (w : Byte) (n1 : BitVec 3) (s : State) : Host.Outcome State Fault Refusal := issueH s h fun i =>
  let s1 := noteIssue s i h.yh
  let x : Xi := { w := w.toNat, n := n1.toNat + 1, step := 0, remaining := i.act, left := 0, words := [], bad := [],
                  started := false, ready := s.clk, active := i.act, la := h.la.toNat }
  xiGo (setBundle s1 i.w i.bn.id fun b => { b with xi := some x }) i.w i.bn.id
/-- Whether an XISSUE has something to do: a group to issue, a step to start, or its end (R191). -/
def xiReady (s : State) (x : Xi) : Bool := (x.started && x.left != 0) || x.ready ≤ s.clk
/-- The next group of a bundle's XISSUE cannot issue in this ck, so that the bundle holds its slot without issuing (R191). -/
def xiStuck (s : State) (w : Nat) (b : Bundle) : Bool :=
  let wp := warpOf s w
  match b.xi with
  | none => false
  | some x =>
    let word (l : Nat) : Word := if x.started then ((x.words.find? (·.1 == l)).map (·.2)).getD 0 else vreg (threadOf wp l) (x.w + x.step)
    let al := allotOfWarp s wp
    let rest := (lanesOf (if x.started then x.left else x.remaining)).filter fun l => (wordInstr al (word l)).isSome
    match rest.head? with
    | none => false
    | some l =>
      match (wordInstr al (word l)).bind sWork with
      | some (_, work) => match wordInstr al (word l) with
        | some ins => groupHeld s w wp b (maskOf (rest.filter fun k => word k == word l)) ins work
        | none => false
      | none => false
/-- The next group issue of the XISSUE that has its scheduler's slot (R187, R257). -/
def execXissueGroupIssue (warp : Nat) (s : State) : Host.Outcome State Fault Refusal :=
  let wp := warpOf s warp
  .next (match (coreOf s wp.core).xiHold.getD wp.sched none with
    | some (w, id) => if w == warp then xiGo s warp id else s
    | none => s)

end Sys2Proof.Machine
end

