-- ==== Sys2Proof/Machine/Fetch.lean ====
section
/-! DEFINITION. Instruction fetch through L0 (R400, R401), the checks of Table 6-11 on what was fetched (R138, R328), and
why a bundle or lead cannot issue (R198, R231, R236, R256 to R259). -/

namespace Sys2Proof.Machine

/-! ### Fetch -/

/-- What L0 gives at an address: bytes, or the first byte whose line is missing. -/
inductive Fetched where
  | bytes (bs : List Byte)
  | missing (va : Nat)
deriving DecidableEq, Repr

/-- The place of a line that L0 holds. -/
def l0Place (s : State) (core key : Nat) : Option Place := ((coreOf s core).l0.find? (·.1 == key)).map (·.2)
/-- Bytes from an address on, each from the home of its line (log entry 13). -/
def fetchFrom (s : State) (core : Nat) (b : Block) : Nat → Nat → Fetched
  | _, 0 => .bytes []
  | va, n + 1 =>
    match l0Place s core (constKey b va) with
    | none => .missing va
    | some p =>
      match fetchFrom s core b ((va + 1) % 2 ^ 52) n with
      | .bytes bs => .bytes (homeByte s 0 (p.plus (va % 128)) :: bs)
      | m => m
/-- The bytes of the instruction at an address: its first word tells its length (R121, R122). -/
def fetched (s : State) (w : Warp) (pc : Addr) : Fetched :=
  let b := blockOf s w.blk
  match fetchFrom s w.core b pc.toNat 4 with
  | .bytes f => fetchFrom s w.core b pc.toNat (formLength (BitVec.ofNat 96 (leBytes f)))
  | m => m
/-- A missing line asked for, unless it is on its way; a fault of its translation parks or traps the bundle, and advances no miss
counter (R400, R401). -/
def requestLine (s : State) (w : Nat) (bn : Bundle) (va : Nat) : State :=
  let wp := warpOf s w
  let b := blockOf s wp.blk
  let key := constKey b va
  if (coreOf s wp.core).fills.any (·.1 == key) then s else
  match translate s wp.core b.vf b.ctx (va / 128 * 128) .fetch with
  | (s, .err e) => xlateFault s w bn (pcOf wp bn) 0 va (lowest bn.lanes) 0 false e
  | (s, .ok p) =>
    match outside s p with
    | (s, some e) => xlateFault s w bn (pcOf wp bn) 0 va (lowest bn.lanes) 0 false e
    | (s, none) =>
    let s := count s b.vf b.ctx 2 11 1
    let (lat, s) := match p with
      | .dev pa => (homeLatency s (wp.core / 16) pa, touchHome s wp.core b.vf b.ctx .normal pa)
      | _ => let (n, s) := choose (countIo s b.vf (if isHost p then 0 else 3) 128); (1 + n, s)
    setCore s wp.core fun c => { c with fills := (key, s.clk + lat, p) :: c.fills }

/-! ### What stands at a PC -/

/-- The instruction at a PC with its length, or the failing check of Table 6-11 (SUB). -/
inductive AtPc where
  | ok (i : Instr) (len : Nat)
  | bad (sub len : Nat)
deriving DecidableEq, Repr

def rejectSub : Reject → Nat
  | .opcode => 1 | .form => 2 | .field => 3 | .operand => 4
/-- The kind of code, and whether CSPMAC is an opcode in it (R136, R328). -/
def decCtx (s : State) (w : Warp) : DecCtx :=
  ⟨w.lead, s.stepping == 0x11 && (launchOf s (blockOf s w.blk).launch).expmask.getLsbD 0⟩
/-- Checks 1 to 5 on fetched bytes (R138). -/
def atPc (s : State) (w : Warp) (bs : List Byte) : AtPc :=
  match (decode (decCtx s w) bs).1 with
  | .bad r => .bad (rejectSub r) bs.length
  | .ok i => if i.rangeOk w.lead (allotOfWarp s w) then .ok i bs.length else .bad 5 bs.length

/-! ### Stalls -/

/-- The charge of a wait (Tables 2-7 and 10-4); none for an access whose replay has been asked for. -/
def holdReason : Wait → Option Nat
  | .barrier _ _ => some 4
  | .dqEmpty _ _ _ | .dqFull _ => some 7
  | .sync _ => some 5
  | .seq _ _ _ => some 6
  | .remote _ | .twin => some 3
  | .page _ replay _ => if replay then none else some 15
  | .cacq => some 8
  | .sleep _ => some 13
  | .dusk => some 15
  | .fencesc _ _ _ => some 12

/-- The engine whose chain an instruction appends to. -/
def chainEngine : Instr → Option Engine
  | .tmac .. | .mmac .. | .tmacv .. | .mmacv .. | .cspmac .. => some .cube
  | .cpy _ o | .cpy2 _ o | .cpyg _ o | .cpys _ o | .cpyb _ o | .cpyfl _ o | .cpyq _ o => some (cpyEngine o)
  | .cpyf .. => some .fab
  | .chlink _ o => some o.eng
  | .chmark _ o => some o.eng
  | _ => none
/-- Instructions that take a store-queue entry (R108, R198). -/
def takesEntry : Instr → Bool
  | .st .. | .sts .. | .stsr .. | .atom .. | .atoms .. | .acas .. | .acass .. | .redm .. | .swarm .. | .tst .. | .ast ..
  | .stsS .. => true
  | .fence _ o _ => o == .rel || o == .ar
  | _ => false
/-- SFU functions (R171). -/
def usesSfu : Instr → Bool
  | .ex2 .. | .lg2 .. | .rcp .. | .rsq .. | .sqt .. | .sin .. | .cos .. | .tanh .. | .ex2S .. | .lg2S .. | .rcpS .. | .rsqS .. => true
  | _ => false
/-- A warp's earlier cube operations that name some storage have not completed, on whichever core they were issued (R119, R231). -/
def cubeBusyOn (s : State) (i : Iss) (regs : List Nat) : Bool :=
  let b := i.block s
  (ctxOf s b.vf b.ctx).chains.any fun c => c.eng == .cube && c.recs.any fun r =>
    r.warp == i.w && !r.done && r.uses.any fun u => regs.contains u
/-- A thread has already arrived at the pending phase of a group (R204). -/
def arrivedAlready (s : State) (i : Iss) (g : Nat) : Bool :=
  match groupOf (i.block s) g with
  | none => false
  | some gr => (gr.arrived.any fun a => a.1 == i.w && a.2 &&& i.act != 0) ||
      gr.waiting.any fun a => a.warp == i.w && a.lanes &&& i.act != 0
/-- Accesses of a warp's or lead's stores that are not at their homes. -/
def openAccs (s : State) (w : Nat) : List LaneAcc :=
  (((warpOf s w).queue ++ (warpOf s w).held.map (·.entry)).filter isStore).flatMap (·.accs) ++
  (s.flights.filter fun f => f.warp == w && f.op.isNone && f.entry.kind == .store).flatMap (·.entry.accs)
/-- A load that is performed at a home outside the core waits for its own earlier stores to the same bytes, which it may not pass
(R104, R106, log entry 16); `part` for LDSR. -/
def behindFar (accs : List LaneAcc) (part : Option Nat) (n : Nat) (addrs : List Nat) : Bool :=
  let near (m x y k : Nat) : Bool := x % m < y % m + k && y % m < x % m + n
  accs.any fun a => match a.home, part with
    | .scratch q o, some p => q == p && addrs.any fun x => near (2 ^ 32) x o a.size
    | .host _, none => addrs.any fun x => near (2 ^ 16) x a.addr a.size
    | .peer _ _, none => addrs.any fun x => near (2 ^ 16) x a.addr a.size
    | _, _ => false
/-- REDMs of a copy of a twin pair that have left its queue and whose checkpoint has matched, not yet performed (R102, R360). -/
def openRedms (s : State) (w : Nat) : List QEntry :=
  let x := warpOf s w
  if !(isTwin s x.blk) then [] else
  ((x.held.map (·.entry)).filter fun e => e.id < x.matched && !(isStore e)) ++
  (s.flights.filter fun f => f.warp == w && f.op.isNone && !(isStore f.entry)).map (·.entry)
/-- The bytes that a load reads: global or scratchpad, how many from each address. -/
def loadBytes (s : State) (i : Iss) : Instr → Option (Bool × Nat × List Nat)
  | .ld _ o => some (true, o.sz.bytes, (lanesOf i.act).map fun l => (addrGlobal i.lead (threadOf i.wp l) o.a o.b o.lit).toNat)
  | .lds _ o => some (false, o.sz.bytes, (laneOffs i (i.part s).swin o.c fun t => addrLocal i.lead t o.a o.b o.lit).map (·.2))
  | .ldsr _ o => some (false, o.sz.bytes, (laneOffs i (i.part s).swin o.c fun t => addrLocal false t o.a o.b o.lit).map (·.2))
  | .ldsS _ _ a b => some (false, 4, (lanesOf i.act).map fun l => (vreg (threadOf i.wp l) a.toNat + 4 * vreg (threadOf i.wp l) b.toNat).toNat)
  | .tld _ o => some (false, 64, (rowOffs i 64 o.a o.b o.rstr).map (·.2))
  | .ald _ o => some (false, 128, (rowOffs i 128 o.a o.b o.rstr).map (·.2))
  | _ => none
/-- A load that waits: behind an earlier one, behind its own queue, or behind its own stores on their way. -/
def loadBehind (s : State) (i : Iss) (ins : Instr) : Bool :=
  match ins, loadBytes s i ins with
  | .ldc _ _, _ => openBehind s i.w i.bn.lanes || i.wp.queue.any (·.acq)
  | .fence _ o _, _ => o == .acq && openBehind s i.w i.bn.lanes
  | _, none => false
  | _, some (g, n, xs) =>
    openBehind s i.w i.bn.lanes || behindNoted i.wp i.bn || behindQueue i.wp.queue g n xs || match ins with
      | .ld _ _ => behindFar (openAccs s i.w) none n xs || behindQueue (openRedms s i.w) g n xs
      | .ldsr _ o => behindFar (openAccs s i.w) (namedPart s i o.part) n xs
      | _ => false
/-- An access to the own storage, or a look at sync words, comes after every acquire before it: one still in the queue, or that of a
load which the host has still to complete (R109, R110). -/
def behindAcquire (s : State) (i : Iss) (ins : Instr) : Bool :=
  let own : Bool := (touchedRegs i.lead ins).any (1024 ≤ ·) || match ins with | .syncw _ _ _ => true | _ => false
  own && (chainEngine ins).isNone && ((i.wp.queue.any (·.acq)) || s.loads.any fun l => l.warp == i.w && l.due.isNone && l.acq && l.lanes &&& i.bn.lanes != 0)
/-- SETSR of a window register waits for the warp's own scratchpad entries (R91, log entry 19). -/
def swinWait (i : Iss) : Instr → Bool
  | .setsr _ n _ => 0x1D ≤ n.toNat && n.toNat ≤ 0x20 && i.wp.queue.any fun e => e.accs.any fun a => !(isGlobal a)
  | _ => false
/-- A thread's counterpart reads nothing more before the two copies compare: it has exited, or waits at a checkpoint. -/
def pastReading (s : State) (w l : Nat) : Bool :=
  match counterpart s w with
  | none => true
  | some v => (threadOf (warpOf s v) l).exited || (warpOf s v).bundles.any fun b => b.lanes.getLsbD l && b.hold == some .twin
/-- A twin's thread reads a shared register only after its counterpart has (R358). -/
def twinWait (s : State) (i : Iss) : Instr → Bool
  | .getsr _ _ n => twinReads n.toNat && isTwin s i.wp.blk && !(isPrimary s i.wp.blk) &&
      (lanesOf i.act).any fun l => (primaryRead s i l).isNone && !(pastReading s i.w l)
  | _ => false
/-- ASTAT is still to be written by a computation on its way. -/
def astatWait (s : State) (i : Iss) : Instr → Bool
  | .getsr _ _ n | .setsr _ n _ => n.toNat == 0x15 && (openPends s i.wp i.bn.lanes).any fun p => p.due.isSome
  | _ => false
/-- Meanings of the instructions that append to a chain. -/
def appendTry (s : State) : Instr → Host.Outcome State Fault Refusal
  | .tmac h o => execTmac h o s
  | .mmac h o => execMmac h o s
  | .tmacv h o => execTmacv h o s
  | .mmacv h o => execMmacv h o s
  | .cspmac h o => execCspmac h o s
  | .cpy h o => execCpy h o s
  | .cpy2 h o => execCpy2 h o s
  | .cpyg h o => execCpyg h o s
  | .cpys h o => execCpys h o s
  | .cpyb h o => execCpyb h o s
  | .cpyf h o => execCpyf h o s
  | .cpyfl h o => execCpyfl h o s
  | .cpyq h o => execCpyq h o s
  | .chlink h o => execChlink h o s
  | .chmark h o => execChmark h o s
  | _ => .fault .noIssuer
/-- An engine instruction waits for its slot once its run-time checks have passed (R236, steps 3 and 4): one that fails them goes on to
its fault. -/
def ringStall (s : State) (i : Iss) (ins : Instr) : Bool :=
  match chainEngine ins with
  | none => false
  | some e => slotBusy (chainFor s i e) &&
      match appendTry { s with cur := some ⟨i.w, i.bn.id, i.len⟩ } ins with
      | .next t => (warpOf t i.w).halt != .trapped
      | _ => true
/-- Addresses that an instruction has translated by its core's TLB (R80). -/
def globalVas (s : State) (i : Iss) (ins : Instr) : List Nat :=
  let at' (a b : Byte) (lit : Option Word) : List Nat := (lanesOf i.act).map fun l => (addrGlobal i.lead (threadOf i.wp l) a b lit).toNat
  match ins with
  | .ld _ o | .st _ o => at' o.a o.b o.lit
  | .atom _ o | .acas _ o | .redm _ o => at' o.a o.b o.lit
  | .ldc _ o => (lanesOf i.act).map fun l => (constBank s i (o.part.getLsbD 0)).1 + (addrLocal i.lead (threadOf i.wp l) o.a o.b o.lit).toNat
  | .pref _ o => at' o.a o.b o.lit
  | .ipref _ o => (at' o.a o.b o.lit).map fun a => (a + i.pc.toNat) % 2 ^ 64
  | _ => match chainEngine ins with
    | some e =>
      let b := i.block s
      [ringSlot (ctxOf s b.vf b.ctx) (logicalCore s b.vf i.wp.core) e (chainFor s i e).tail]
    | none => []
/-- Misses of the TLB for which the slice's 64 walkers do not suffice (R80). -/
def walkerWait (s : State) (w : Warp) (vas : List Nat) : Bool :=
  let b := blockOf s w.blk
  let busy := walkersBusy s b.vf
  busy != 0 && 64 < busy + ((vas.filter fun va => va < 2 ^ 52 && (tlbHit s w.core b.vf b.ctx va).isNone).map (· / 2 ^ 16)).eraseDups.length
/-- The entry at the head of the own queue is a release that waits for cube operations (R108, Table 10-4). -/
def headOnCube (s : State) (i : Iss) : Bool :=
  match i.wp.queue.head? with
  | some e => (e.rel || e.kind == .fence) && !(cubeDone s i.w e.cube)
  | none => false
/-- The cube is no longer awaited: not by an owner whose grant is not yet usable, nor by a restored one (R214, R215). A warp that
does not own it goes on to its fault. -/
def cubeUsable (s : State) (i : Iss) : Bool :=
  let c := coreOf s i.wp.core
  if c.owner == some i.w then c.ownerFrom ≤ s.clk else i.wp.owned.isNone
/-- The reasons that an instruction's own needs give, in the order of R258. -/
def needStall (s : State) (i : Iss) (ins : Instr) : Option Nat :=
  let regs := (touchedRegs i.lead ins).filter (1024 ≤ ·)
  let early := match ins with | .bar _ g => arrivedAlready s i g.toNat | .bara _ g _ => arrivedAlready s i g.toNat | _ => false
  let cube := chainEngine ins == some .cube
  let leaving := match ins with | .exit _ => !(cubeDone s i.w i.wp.cubeSeq) | _ => false
  let full := takesEntry ins && Config.storeQueueSize ≤ i.wp.queue.length
  let behind := loadBehind s i ins || behindAcquire s i ins
  if early then some 4
  else if ringStall s i ins || leaving || (!cube && !regs.isEmpty && cubeBusyOn s i regs) then some 6
  else if (full || behind) && headOnCube s i then some 6
  else if cube && !(cubeUsable s i) then some 8
  else if full || behind || swinWait i ins || twinWait s i ins || walkerWait s i.wp (globalVas s i ins) then some 3
  else none
/-- A store queue is full for the next instruction (Table 12-3, set 2). -/
def queueFull (w : Warp) (ins : Instr) : Bool := takesEntry ins && Config.storeQueueSize ≤ w.queue.length

/-- The guard of an instruction. -/
def guardOf (i : Instr) : Thread → Bool :=
  match i.hdr? with
  | some h => hdrGuard h
  | none => match i.sGuard? with | some g => sGuard g | none => fun _ => true
/-- Why the instruction at a bundle's PC cannot issue: a unit that is held, then the window, then the registers inside it
(R171, R256, R258). -/
def issueStall (s : State) (w : Nat) (b : Bundle) (ins : Instr) (len : Nat) : Option Nat :=
  let wp := warpOf s w
  let i : Iss := { w, wp, bn := b, len, act := activeLanes wp b.lanes (guardOf ins) }
  let need := if i.act = 0 then none else needStall s i ins
  match need with
  | some r => some r
  | none =>
    if usesSfu ins && sfuBusy s wp then some 2
    else if windowStall s wp b.lanes then some 1
    else if hazardStall s wp b.lanes (touchedRegs wp.lead ins) || astatWait s i ins then some 2
    else none
/-- The warp waits at a checkpoint of another of its bundles (R360). -/
def ckptHolds (w : Warp) (b : Bundle) : Bool := w.ckpt.any fun c => !c.passed && c.bundle != b.id
/-- Why a bundle or lead cannot issue in this ck; none when it is ready (R25, R254, R258). A line is looked up once the bundle
would otherwise be ready (R400). -/
def stallOf (s : State) (w : Nat) (b : Bundle) : Option Nat :=
  let wp := warpOf s w
  match b.hold.bind holdReason with
  | some r => some r
  | none =>
    if bundleHeld wp b then some (if b.xi.isSome then 14 else 9) else
    match b.xi with
    | some x => if xiReady s x then none else some 14
    | none =>
      if ckptHolds wp b then some 3 else
      match fetched s wp (pcOf wp b) with
      | .missing _ => if windowStall s wp b.lanes then some 1 else some 11
      | .bytes bs =>
        match atPc s wp bs with
        | .bad _ _ => if windowStall s wp b.lanes then some 1 else none
        | .ok ins len => issueStall s w b ins len

/-- Whether a bundle or lead may issue at all: it is in a core, its block runs, is stepping it, or is within its skid
(R303, R317, R394). -/
def mayIssue (s : State) (w : Nat) (b : Bundle) : Bool :=
  let wp := warpOf s w
  let blk := blockOf s wp.blk
  wp.present && !wp.retired && blk.status == .resident && (ctxOf s blk.vf blk.ctx).run != .stopping &&
  (match wp.halt with | .running | .skid _ => true | _ => false) &&
  (match blk.step with
    | some st => st.left.contains (w, b.id)
    | none => blk.stop.isNone || (match b.hold with | some (.page _ replay fetch) => replay && !fetch | _ => false))

end Sys2Proof.Machine
end

