-- ==== Sys2Proof/Machine/Sched.lean ====
section
/-! DEFINITION. Selection of what issues in a ck (R22 to R28, R254 to R259), and the monitor of R365 to R368. -/

namespace Sys2Proof.Machine

/-! ### Candidates -/

def readyBundles (s : State) (w : Nat) : List Bundle :=
  (warpOf s w).bundles.filter fun b => mayIssue s w b && (stallOf s w b).isNone
/-- The bundle of a list with the lowest PC. -/
def lowestPc (w : Warp) (bs : List Bundle) : Option Bundle := lowestBundle { w with bundles := bs }
/-- The candidate of a warp among its ready bundles (R25). -/
def candidateOf (w : Warp) (ready : List Bundle) : Option Bundle :=
  match w.window.bind fun x => ready.find? (·.id == x.1) with
  | some b => some b
  | none =>
    let pool := ready.filter fun b => !b.yielded
    lowestPc w (if pool.isEmpty then ready else pool)
/-- Warps, or leads, resident on a core. -/
def residents (s : State) (core : Nat) (lead : Bool) : List Nat :=
  (List.range s.warps.length).filter fun w =>
    let x := warpOf s w
    x.core == core && x.lead == lead && x.present && !x.retired && (blockOf s x.blk).status == .resident
/-- Reason(u) of R258 for a warp without a candidate; a warp that is stopped is charged PARKED (log entry 20). -/
def reasonOf (s : State) (w : Nat) : Nat :=
  match lowestBundle (warpOf s w) with
  | none => 9
  | some b =>
    let stopped : Bool := match (warpOf s w).halt with | .stopped | .trapped => true | _ => false
    if stopped then 15 else match stallOf s w b with | some r => r | none => 15
/-- A warp or lead waits for a walker (R80, Table 12-3). -/
def onWalker (s : State) (w : Nat) : Bool :=
  let wp := warpOf s w
  walkersBusy s (blockOf s wp.blk).vf != 0 && match lowestBundle wp with
    | none => false
    | some b => match fetched s wp (pcOf wp b) with
      | .missing va => walkerWait s wp [va]
      | .bytes bs => match atPc s wp bs with
        | .ok ins len => walkerWait s wp (globalVas s { w, wp, bn := b, len, act := activeLanes wp b.lanes (guardOf ins) } ins)
        | .bad _ _ => false
/-- A warp's stall reason; a wait for a walker is counted once, when it begins. -/
def setStall (s : State) (w r : Nat) : State :=
  let wp := warpOf s w
  let b := blockOf s wp.blk
  let s1 := if (r == 3 || r == 11) && wp.stall != r && onWalker s w then count s b.vf b.ctx 2 8 1 else s
  setWarp s1 w fun x => { x with stall := r }
/-- A charge: the warp's stall reason, and the counts of the context. -/
def chargeWarp (s : State) (w r : Nat) : State :=
  let b := blockOf s (warpOf s w).blk
  let s := count (setStall s w r) b.vf b.ctx 0 r 1
  let full : Bool := match lowestBundle (warpOf s w) with
    | some bn => match fetched s (warpOf s w) (pcOf (warpOf s w) bn) with
      | .bytes bs => match atPc s (warpOf s w) bs with | .ok i _ => queueFull (warpOf s w) i | _ => false
      | _ => false
    | none => false
  if r == 3 && full then count s b.vf b.ctx 2 12 1 else if r == 8 then count s b.vf b.ctx 3 2 1 else s

/-! ### Counts of bundles passed over -/

/-- The counts of a bundle that is ready while another bundle of its warp issues (R26, R366). -/
def passOver (promise run : Bool) (ready : List Bundle) (chosen : Nat) (b : Bundle) : Bundle :=
  if !run || b.id == chosen || !(ready.any (·.id == b.id)) then b
  else { b with wait := if promise then b.wait + 1 else b.wait, starve := b.starve + 1 }
/-- The monitor's threshold of a context in ck (Table 18-1). -/
def monLimit (cx : Ctx) : Nat := (cx.monctl.extractLsb' 16 16).toNat * 1024

/-- A monitor record (Table 18-2) for a bundle of a warp or lead; with HALT it halts the block in place of a trap
(R368). -/
def monitorRec (s : State) (w : Nat) (b : Bundle) (kind addr : Nat) : State :=
  let wp := warpOf s w
  let blk := blockOf s wp.blk
  let cx := ctxOf s blk.vf blk.ctx
  let info := lowest b.lanes + kind * 2 ^ 12 + (if kind < 2 then monLimit cx / 1024 * 2 ^ 16 else 0) + (if kind < 3 then wp.stall * 2 ^ 32 else 0)
  let halt := kind < 2 && cx.monctl.getLsbD 1
  let r : RecIn := ⟨8, 0x1C, recFlags wp, recWarp wp, (partOf s wp.part).log, 0, 0, 0, (pcOf wp b).toNat, b.lanes,
                    liveLanes wp &&& ~~~b.lanes, addr, info⟩
  let s := formRec s wp.blk (warpKey 1 s wp) r .none
  if halt then haltBlock (setWarp s w fun x => { x with halt := .trapped, window := none }) wp.blk false else s

/-- STARVATION_RECORD (R366): a count at its limit, reported once. -/
def execStarvationRecord (warp bundle : Nat) (s : State) : Host.Outcome State Fault Refusal :=
  let wp := warpOf s warp
  let blk := blockOf s wp.blk
  let cx := ctxOf s blk.vf blk.ctx
  .next (match bundleOf wp bundle with
    | some b =>
      if cx.monctl.getLsbD 0 && !b.starved && monLimit cx ≤ b.starve && wp.halt == .running then
        monitorRec (setBundle s warp bundle fun b => { b with starved := true }) warp b 0 wp.issuePc.toNat
      else s
    | none => s)

/-- Nothing of a block is under way that could end its wait (R367). -/
def blockIdle (s : State) (blk : Nat) : Bool :=
  let b := blockOf s blk
  let cx := ctxOf s b.vf b.ctx
  let quietBundle (w : Warp) (x : Bundle) : Bool := match x.hold with
    | some (.sleep _) | some (.page _ _ _) | some (.remote _) => false
    | some .cacq => (coreOf s w.core).owner.isNone
    | _ => true
  b.status == .resident && !b.issued && b.halt.isNone && b.stop.isNone && cx.run == .running &&
  (cx.chains.all fun c => c.recs.all fun r => r.blk != blk || r.done) &&
  (liveWarps s b).all fun w => (warpOf s w).bundles.all (quietBundle (warpOf s w))
/-- BLOCK_IDLE_RECORD (R367): for the lowest-indexed warp with unexited threads, or the first lead where no warp has. -/
def execBlockIdleRecord (blk : Nat) (s : State) : Host.Outcome State Fault Refusal :=
  let b := blockOf s blk
  let cx := ctxOf s b.vf b.ctx
  .next (if cx.monctl.getLsbD 0 && !b.idleRec && monLimit cx ≤ b.idle && b.status == .resident then
      let s := setBlock s blk fun b => { b with idleRec := true }
      match (liveWarps s b).findSome? fun w => (lowestBundle (warpOf s w)).map fun x => (w, x) with
      | some (w, x) => monitorRec s w x 1 0
      | none => s
    else s)

/-! ### Regrouping and windows -/

/-- Whether a block's schedulers keep their counts: not while it halts or is stopped (R363, R392). -/
def countsRun (s : State) (blk : Nat) : Bool :=
  let b := blockOf s blk
  b.halt.isNone && b.stop.isNone && b.step.isNone && b.status == .resident
/-- A warp takes part in a regrouping: not in a stop (R392), nor once it has stopped or trapped in a halt (log entry 37). -/
def regroups (s : State) (w : Nat) : Bool :=
  let b := blockOf s (warpOf s w).blk
  b.stop.isNone && b.step.isNone && (match (warpOf s w).halt with | .running | .skid _ => true | _ => false)
/-- BUNDLE_REGROUPING of a core's warps (R22). -/
def execBundleRegrouping (core : Nat) (s : State) : Host.Outcome State Fault Refusal :=
  .next ((residents s core false).foldl (fun s w => if regroups s w then setWarp s w regroup else s) s)
/-- FAIRNESS_WINDOW_GRANT (R26): the highest count at FAIRT or above, the lowest PC of those. -/
def execFairnessWindowGrant (warp : Nat) (s : State) : Host.Outcome State Fault Refusal :=
  let wp := warpOf s warp
  let promise := !((launchOf s (blockOf s wp.blk).launch).pkt.attr.testBit 0)
  let due := wp.bundles.filter fun b => wp.fairt ≤ b.wait && !(bundleHeld wp b)
  let top := due.foldl (fun m b => max m b.wait) 0
  .next (if promise && wp.window.isNone && !wp.lead && countsRun s wp.blk then
      match lowestPc wp (due.filter (·.wait == top)) with
      | some b => setWarp s warp fun x => { x with window := some (b.id, 16) }
      | none => s
    else s)
/-- THROTTLE_WITHHOLD (R18): the core withholds its next ck. -/
def execThrottleWithhold (core : Nat) (s : State) : Host.Outcome State Fault Refusal :=
  .next (setCore s core fun c => { c with withholdNext := true })

/-! ### Selection -/

/-- A load that finds an atomic or SWARM entry to its bytes notes every entry to them that it waits for (R104). -/
def noteBehind (s : State) (w : Nat) (b : Bundle) (bs : List Byte) : State :=
  let wp := warpOf s w
  if wp.queue.isEmpty || !b.behind.isEmpty then s else
  match atPc s wp bs with
  | .bad _ _ => s
  | .ok ins len =>
    match loadBytes s { w, wp, bn := b, len, act := activeLanes wp b.lanes (guardOf ins) } ins with
    | none => s
    | some (g, n, xs) =>
      let ids := behindIds wp.queue g n xs
      if ids.isEmpty then s else setBundle s w b.id fun b => { b with behind := ids }
/-- The lines of an instruction that are missing are asked for in one ck: the one that holds byte `va`, and, where that is its first,
the next one too if the instruction goes on there. -/
def requestLines (s : State) (w : Nat) (b : Bundle) (va : Nat) : State :=
  let ask (s : State) (va : Nat) : State := if walkerWait s (warpOf s w) [va] then s else requestLine s w b va
  let wp := warpOf s w
  let pc := (pcOf wp b).toNat
  let key (va : Nat) : Nat := constKey (blockOf s wp.blk) va
  let next := (va / 128 * 128 + 128) % 2 ^ 52
  let s := ask s va
  match (coreOf s wp.core).fills.find? (·.1 == key va) with
  | some f =>
    let word := leBytes ((List.range 4).map fun k => homeByte s 0 (f.2.2.plus (pc % 128 + k)))
    if va == pc && 128 < pc % 128 + formLength (BitVec.ofNat 96 word) && (l0Place s wp.core (key next)).isNone then ask s next else s
  | none => s
/-- A bundle whose fetch parked, in a block that has stopped, and whose replay has been asked for (R392). -/
def fetchInStop (s : State) (w : Nat) (b : Bundle) : Bool :=
  let k := blockOf s (warpOf s w).blk
  (warpOf s w).present && k.status == .resident && k.stop.isSome && k.step.isNone &&
  match b.hold with | some (.page _ replay fetch) => replay && fetch | _ => false
/-- The replay of a parked fetch in a stop: the line is asked for, and once it is there the bundle stands at the stop (R392). -/
def replayFetch (s : State) (w : Nat) (b : Bundle) : State :=
  match fetched s (warpOf s w) (pcOf (warpOf s w) b) with
  | .missing va => if walkerWait s (warpOf s w) [va] then s else requestLine s w b va
  | .bytes _ => setBundle s w b.id fun b => { b with hold := none, holdLen := 0, holdAct := 0 }
/-- Missing lines of the bundles that would otherwise be ready are asked for (R400). -/
def fetchBundle (s : State) (w id : Nat) : State :=
  match bundleOf (warpOf s w) id with
  | none => s
  | some b =>
    if fetchInStop s w b then replayFetch s w b
    else if !(mayIssue s w b) || ckptHolds (warpOf s w) b || (b.hold.bind holdReason).isSome || b.xi.isSome || bundleHeld (warpOf s w) b ||
        windowStall s (warpOf s w) b.lanes then s
    else match fetched s (warpOf s w) (pcOf (warpOf s w) b) with
      | .missing va => requestLines s w b va
      | .bytes bs => noteBehind s w b bs
def fetchWarp (s : State) (w : Nat) : State := (warpOf s w).bundles.foldl (fun s b => fetchBundle s w b.id) s

/-- An issue chosen for a warp or lead: its instruction, or the next group of its XISSUE, after the selections of the other cores. -/
def chooseIssue (s : State) (w : Nat) (b : Bundle) : State :=
  if b.xi.isSome then
    let first (i : Instr) : Bool := match i with | .schedulerSelection _ => true | _ => false
    { holdSlot s w b.id true with agenda := s.agenda.takeWhile first ++ .xissueGroupIssue w :: s.agenda.dropWhile first }
  else { s with issuing := s.issuing ++ [⟨w, b.id, 0⟩] }
/-- The oldest of some warps: by the age of the block, then the index (R252). -/
def oldest (s : State) (ws : List Nat) : Option Nat :=
  ws.foldl (fun m w => match m with
    | none => some w
    | some x =>
      let a := (blockOf s (warpOf s w).blk).age
      let b := (blockOf s (warpOf s x).blk).age
      if a < b || (a == b && (warpOf s w).idx < (warpOf s x).idx) then some w else some x) none
/-- A ready bundle with a lower PC is passed over for a window (R26). -/
def fairnessPassed (w : Warp) (ready : List Bundle) (b : Bundle) : Bool :=
  (match w.window with | some x => x.1 == b.id | none => false) && ready.any fun x => (pcOf w x).toNat < (pcOf w b).toNat
/-- A starvation count has reached its limit: the record is formed in this ck, after the issue (R366, R369). -/
def noteStarved (s : State) (w : Nat) : State :=
  let wp := warpOf s w
  let b := blockOf s wp.blk
  let cx := ctxOf s b.vf b.ctx
  let full := wp.bundles.filter fun x => cx.monctl.getLsbD 0 && !x.starved && monLimit cx ≤ x.starve
  if full.isEmpty then s else { s with agenda := s.agenda ++ full.map fun x => .starvationRecord w x.id }
/-- The chosen warp of a scheduler: counts of its other bundles, a FAIRNESS charge, and the issue; a group that cannot issue
holds the slot and passes nothing over (R191). -/
def takeSlot (s : State) (w : Nat) (ready : List Bundle) (b : Bundle) : State :=
  if xiStuck s w b then chooseIssue s w b else
  let wp := warpOf s w
  let blk := blockOf s wp.blk
  let promise := !((launchOf s blk.launch).pkt.attr.testBit 0)
  let s := setWarp s w fun x => { x with stall := 0, bundles := x.bundles.map (passOver promise (countsRun s wp.blk) ready b.id) }
  let s := if fairnessPassed wp ready b then count s blk.vf blk.ctx 0 10 1 else s
  noteStarved (chooseIssue s w b) w
/-- One scheduler's ck (R257). -/
def schedulerCk (core : Nat) (s : State) (sched : Nat) : State :=
  let mine := (residents s core false).filter fun w => (warpOf s w).sched == sched
  let holder := ((coreOf s core).xiHold.getD sched none).bind fun x =>
    ((readyBundles s x.1).find? fun b => b.id == x.2 && b.xi.isSome && mine.contains x.1).map fun b => (x.1, b)
  match holder with
  | some (w, b) => takeSlot s w (readyBundles s w) b
  | none =>
    let s := setCore s core fun c => { c with xiHold := modAt c.xiHold sched fun _ => none }
    let cands := mine.filterMap fun w =>
      let r := readyBundles s w
      (candidateOf (warpOf s w) r).map fun b => (w, r, b)
    let bucket := cands.length
    let ctxs := (mine.map fun w => let b := blockOf s (warpOf s w).blk; (b.vf, b.ctx)).eraseDups
    let s := ctxs.foldl (fun s x => count s x.1 x.2 1 (min bucket 12) 1) s
    let reasons := mine.map fun w => (w, if cands.any (·.1 == w) then 0 else reasonOf s w)
    let s1 := reasons.foldl (fun s x => setStall s x.1 x.2) s
    match oldest s (cands.map (·.1)) with
    | none =>
      match oldest s mine with
      | some w => chargeWarp s1 w (reasonOf s w)
      | none => s
    | some w =>
      let s2 := reasons.foldl (fun s x => if x.1 == w then s else chargeWarp s x.1 x.2) s1
      match cands.find? (·.1 == w) with
      | some (_, r, b) => takeSlot s2 w r b
      | none => s2
/-- The lead processor's ck (R254): the first lead that can issue, counting up from the slot after the last. -/
def leadCk (core : Nat) (s : State) : State :=
  let ls := residents s core true
  let start := match (coreOf s core).leadSlot with | some k => (k + 1) % 8 | none => 0
  let slots := (List.range 8).map fun k => (start + k) % 8
  let pick := slots.findSome? fun k => ls.findSome? fun w =>
    if (warpOf s w).slot == k then (readyBundles s w).head?.map fun b => (w, b) else none
  let s := ls.foldl (fun s w =>
    let r := if (readyBundles s w).isEmpty then reasonOf s w else 0
    setStall s w r) s
  match pick with
  | some (w, b) => chooseIssue s w b
  | none => s
/-- SCHEDULER_SELECTION: the schedulers and the lead processor of a core choose what issues in this ck (R254 to R257); a
withheld ck chooses nothing (R18, R255). -/
def execSchedulerSelection (core : Nat) (s : State) : Host.Outcome State Fault Refusal :=
  let all := residents s core false
  .next (if (coreOf s core).withheld then
      let ctxs := (all.map fun w => let b := blockOf s (warpOf s w).blk; (b.vf, b.ctx)).eraseDups
      ctxs.foldl (fun s x => count s x.1 x.2 1 13 1) s
    else
      let s := (all ++ residents s core true).foldl fetchWarp s
      leadCk core ([0, 1, 2, 3].foldl (schedulerCk core) s))

/-! ### Samples -/

/-- PC_SAMPLE (R298): the next warp of the context in slot order, on a scheduler, for a trace unit. -/
def execPcSample (core sched vf unit : Nat) (s : State) : Host.Outcome State Fault Refusal :=
  let sl := sliceOf s vf
  let held := sl.trchold.getLsbD unit
  let c := if held then (sl.hvforce.extractLsb' 0 6).toNat else (((sl.trace.getD unit TraceUnit.reset).ctl).extractLsb' 1 6).toNat
  let mine := (residents s core false).filter fun w =>
    (warpOf s w).sched == sched && (blockOf s (warpOf s w).blk).vf == vf && (blockOf s (warpOf s w).blk).ctx == c
  let last := (coreOf s core).sampled.getD sched 0
  let next := (List.range 12).findSome? fun k => mine.find? fun w => (warpOf s w).slot == (last + 1 + k) % 12
  .next (match next with
    | none => s
    | some w =>
      let wp := warpOf s w
      let b := blockOf s wp.blk
      let pc := match lowestBundle wp with | some x => (pcOf wp x).toNat | none => 0
      let dusk := match lowestBundle wp with | some x => x.hold == some .dusk | none => false
      let rec' := traceBytes 1 wp.stall dusk (partOf s wp.part).log 0 wp.idx (phaseOf b 0).toNat (timeNs s) b pc
      let s := setCore s core fun k => { k with sampled := modAt k.sampled sched fun _ => wp.slot }
      setSlice s vf fun sl =>
        if held then heldTake unit rec' sl else { sl with trace := modAt sl.trace unit (unitTake rec') })

end Sys2Proof.Machine
end

