-- ==== Sys2Proof/Machine/Halts.lean ====
section
/-! DEFINITION. Records on their way to the fault queue and the trace rings (R313, R314, R297), halting blocks (R317,
R318), replays (R346), the end of blocks and launches (R32, R37, R249), and twin checkpoints (R360). -/

namespace Sys2Proof.Machine

/-! ### The fault queue -/

/-- Every block of a context. -/
def ctxBlocks (s : State) (vf c : Nat) : List Nat :=
  (List.range s.blocks.length).filter fun b => (blockOf s b).vf == vf && (blockOf s b).ctx == c
/-- A context stops as a class (R314, R321): its blocks halt, and nothing more is recorded or read for it. -/
def stopContext (s : State) (vf c : Nat) : State :=
  let s := setCtx s vf c fun x => { x with stopped := true, fqPend := [] }
  (ctxBlocks s vf c).foldl (fun s b =>
    if (blockOf s b).status == .resident || (blockOf s b).status == .saved then haltBlock s b false else s) s
/-- Address of a fault-queue slot (R313). -/
def fqAddr (cx : Ctx) (n : Nat) : Nat := cx.desc.save + cx.desc.savesize - 65536 + 64 * (n % Config.faultSlots)
/-- Records written in consecutive slots; a fault of a slot's write stops the context (R314). -/
def writeRecs (vf c : Nat) : List (List Byte) → State → State
  | [], s => s
  | r :: rs, s =>
    let cx := ctxOf s vf c
    match cpWrite s vf c (fqAddr cx cx.fqCount.toNat) r with
    | (s, .err e) => walkPoison (stopContext s vf c) vf c (fqAddr cx cx.fqCount.toNat) e
    | (s, .ok _) => writeRecs vf c rs (signal (setCtx s vf c fun x => { x with fqCount := x.fqCount + 1 }) vf 2)
/-- The work that a PAGE record reports learns the record's index (R345, R348). -/
def tellOwner (s : State) (idx : Nat) : Owner → State
  | .none | .block _ => s
  | .bundle w b => setBundle s w b fun x => match x.hold with
      | some (.page _ replay fetch) => { x with hold := some (.page idx replay fetch) }
      | _ => x
  | .op id => setOp s id fun o => { o with parked := o.parked.map fun p => (idx, p.2) }
/-- The oldest waiting unit, written where the ring has room for it (R314, R316). -/
def writeUnit (s : State) (vf c : Nat) : State :=
  let cx := ctxOf s vf c
  match cx.fqPend with
  | [] => s
  | u :: r =>
    if Config.faultSlots < (cx.fqCount - cx.fqRead).toNat + u.1.length then s
    else writeRecs vf c u.1 (tellOwner (setCtx s vf c fun x => { x with fqPend := r }) cx.fqCount.toNat u.2)
/-- A record of a block waits in PEND, so that the block stays halted or parked (R314). -/
def recordWaits (s : State) (blk : Nat) : Bool :=
  let b := blockOf s blk
  (ctxOf s b.vf b.ctx).fqPend.any fun u => match u.2 with
    | .block x => x == blk
    | .bundle w _ => (warpOf s w).blk == blk
    | .op id => s.ops.any fun o => o.id == id && o.blk == blk
    | .none => false
/-- FAULT_RECORD_WRITE. -/
def execFaultRecordWrite (vf c : Nat) (s : State) : Host.Outcome State Fault Refusal := .next (writeUnit s vf c)
/-- A unit joins its queue; a 65th that must wait stops the context (R314). -/
def enterUnit (s : State) (u : Formed) : State :=
  let cx := ctxOf s u.vf u.ctx
  if cx.stopped || !cx.exists' then s else
  let s := setCtx s u.vf u.ctx fun x => { x with fqPend := x.fqPend ++ [(u.unit, u.owner)] }
  let s := writeUnit s u.vf u.ctx
  if 64 < (ctxOf s u.vf u.ctx).fqPend.length then stopContext s u.vf u.ctx else s
/-- The records formed in a ck enter their queues in the order of R314. -/
def flushFormed (s : State) : State :=
  (sortBy (fun a b => a.key ≤ b.key) s.formed).foldl enterUnit { s with formed := [] }
/-- FQRD (R313): a count outside the last 1,024 written is ignored. -/
def execFqrdWrite (vf c : Nat) (val : Dword) (s : State) : Host.Outcome State Fault Refusal :=
  let v := val.extractLsb' 0 32
  .next (if ((ctxOf s vf c).fqCount - v).toNat ≤ Config.faultSlots then setCtx s vf c fun x => { x with fqRead := v } else s)

/-- A replay is asked for in a bundle, where its latest record lies below a count (R346). -/
def replayBundle (upto : Nat) (b : Bundle) : Bundle :=
  match b.hold with
  | some (.page r _ fetch) => if r < upto then { b with hold := some (.page r true fetch) } else b
  | _ => b
/-- The PCs at which a warp's replays have been asked for. -/
def replayPcs (w : Warp) (upto : Nat) : List Addr :=
  (w.bundles.filter fun b => match b.hold with | some (.page r _ _) => r < upto | _ => false).map (pcOf w)
/-- The parks of a twin are replayed with its primary's (R361). -/
def replayTwin (w : Warp) (pcs : List Addr) : Warp :=
  { w with bundles := w.bundles.map fun b => match b.hold with
      | some (.page r _ fetch) => if pcs.contains (pcOf w b) then { b with hold := some (.page r true fetch) } else b
      | _ => b }
/-- FQREPLAY (R346, R347, R348): it names nothing of a suspended context. An access of a block that a quiesce has not saved yet is
replayed, and the quiesce waits for its blocks once more (R372). -/
def execFqreplay (vf c : Nat) (val : Dword) (s : State) : Host.Outcome State Fault Refusal :=
  let upto := (val.extractLsb' 0 32).toNat
  let named (o : EngOp) : Bool := o.vf == vf && o.ctx == c && match o.parked with | some (r, _) => r < upto | none => false
  .next (if (ctxOf s vf c).run == .suspended then s else
    let ws := (ctxBlocks s vf c).flatMap fun b => blockWarps (blockOf s b)
    let hit (w : Nat) : Bool := (blockOf s (warpOf s w).blk).status == .resident && !(replayPcs (warpOf s w) upto).isEmpty
    let s := if (ctxOf s vf c).run == .stopping && ws.any hit then setCtx s vf c fun x => { x with run := .quiescing } else s
    let twins := ws.filterMap fun w => (counterpart s w).map fun x => (x, replayPcs (warpOf s w) upto)
    let s := ws.foldl (fun s w => setWarp s w fun x => { x with bundles := x.bundles.map (replayBundle upto) }) s
    let s := twins.foldl (fun s x => setWarp s x.1 fun w => replayTwin w x.2) s
    { s with ops := s.ops.map fun o =>
        if named o || (o.parked.isSome && (mateOp s o).any named) then { o with parked := o.parked.map fun p => (p.1, true) } else o })
/-- ASUM (R320): a write of 1 clears a bit. -/
def execAsumWrite (vf c : Nat) (val : Dword) (s : State) : Host.Outcome State Fault Refusal :=
  .next (setCtx s vf c fun x => { x with asum := x.asum &&& ~~~(val.extractLsb' 0 6) })
/-- REPLSTAT (R395). -/
def execReplstatWrite (vf c : Nat) (val : Dword) (s : State) : Host.Outcome State Fault Refusal :=
  .next (setCtx s vf c fun x => { x with replstat := x.replstat &&& ~~~(val &&& 3) })
/-- The window of R300: a write at 0x80 selects as CNTSEL does. -/
def execCounterPageSelect (vf c : Nat) (val : Dword) (s : State) : Host.Outcome State Fault Refusal :=
  .next (selectSet s vf c (val.extractLsb' 0 16).toNat).2

/-! ### Trace rings -/

/-- What TRCCTL stores (Table 12-1). -/
def trcctlOf (x : Dword) : Dword :=
  let sper := (x.extractLsb' 7 5).toNat
  if 10 ≤ sper && sper ≤ 20 then x &&& 0x3FFF else x &&& 0x307F
/-- TRCCTL (R296, R399). -/
def trcctlPut (val : Dword) (u : TraceUnit) : TraceUnit :=
  if u.ctl.getLsbD 0 then (if val.getLsbD 0 then u else { u with ctl := trcctlOf val })
  else if val.getLsbD 0 then { u with ctl := trcctlOf val, wr := 0, lost := 0, lostFlag := false }
  else { u with ctl := trcctlOf val }
def execTrcctlWrite (vf unit : Nat) (val : Dword) (s : State) : Host.Outcome State Fault Refusal :=
  .next (setSlice s vf fun sl => if sl.trchold.getLsbD unit then sl else { sl with trace := modAt sl.trace unit (trcctlPut val) })
/-- The record with LOST (Table 12-2). -/
def markLost (lost : Bool) (r : List Byte) : List Byte := if lost then modAt r 1 fun b => b ||| 0x20 else r
/-- Address of the slot that a ring's count names. -/
def ringAddr (buf : Dword) (n : Nat) : Nat :=
  (buf.extractLsb' 12 40).toNat * 4096 + 32 * (n % (128 * ((buf.extractLsb' 0 12).toNat + 1)))
/-- One record written by a trace unit of the guest (R297). -/
def writeTrace (s : State) (vf unit : Nat) : State :=
  let u := (sliceOf s vf).trace.getD unit TraceUnit.reset
  match u.waiting with
  | [] => s
  | r :: rest =>
    let put (f : TraceUnit → TraceUnit) (s : State) : State := setSlice s vf fun sl => { sl with trace := modAt sl.trace unit f }
    match cpWrite s vf (u.ctl.extractLsb' 1 6).toNat (ringAddr u.buf u.wr.toNat) (markLost u.lostFlag r) with
    | (s, .ok _) => put (fun u => { u with waiting := rest, wr := u.wr + 1, lostFlag := false }) s
    | (s, .err e) =>
      walkPoison (put (fun u => { u with waiting := rest, lost := u.lost + 1, ctl := u.ctl &&& ~~~1 }) s) vf (u.ctl.extractLsb' 1 6).toNat
        (ringAddr u.buf u.wr.toNat) e
/-- One record of the held units written into the ring on the PF's side, in host memory (R398). -/
def writeHeld (s : State) (vf : Nat) : State :=
  let sl := sliceOf s vf
  match sl.hvheld with
  | [] => s
  | r :: rest =>
    let s := { s with hostMem := memWriteN s.hostMem (ringAddr sl.hvbuf sl.hvwr.toNat) (markLost sl.hvmark r.2) }
    setSlice s vf fun sl => { sl with hvheld := rest, hvwr := sl.hvwr + 1, hvmark := false }
/-- TRACE_RECORD_WRITE. -/
def execTraceRecordWrite (vf unit : Nat) (s : State) : Host.Outcome State Fault Refusal :=
  .next (if (sliceOf s vf).trchold.getLsbD unit then writeHeld s vf else writeTrace s vf unit)

/-! ### The end of blocks and launches -/

/-- A bundle of a warp has issued a FENCESC that has not completed (R114): no blocking point, it completes like any other instruction
in a halt or a stop, before the dump (R303, R363). -/
def fenceOpen (s : State) (w : Nat) : Bool :=
  (warpOf s w).bundles.any fun b => match b.hold with | some (.fencesc _ _ _) => true | _ => false
/-- What an instruction issued by a warp has still to do. -/
def issuedDone (s : State) (w : Nat) : Bool :=
  let err := (sliceOf s (blockOf s (warpOf s w).blk).vf).ifst == .error
  ((warpOf s w).pend.all fun p => match p.due with | some d => d ≤ s.clk | none => true) &&
  (err || !(fenceOpen s w)) &&
  !(s.loads.any fun l => l.warp == w && !(err && l.due.isNone))
/-- Every store that a warp has issued has been performed at its home (R102). -/
def drained (s : State) (w : Nat) : Bool :=
  (warpOf s w).queue.isEmpty && !(s.flights.any fun f => f.warp == w && f.op.isNone) && !(heldWaits s w)
/-- Every warp and lead of a halted block has stopped. -/
def blockStopped (s : State) (blk : Nat) : Bool :=
  (liveWarps s (blockOf s blk)).all fun w => match (warpOf s w).halt with | .stopped | .trapped => true | _ => false
/-- Warps of a block leave its cores: queue places, ownership, loads on their way. -/
def leaveCores (s : State) (blk : Nat) : State :=
  let ws := blockWarps (blockOf s blk)
  let s := ws.foldl (fun s w =>
    let core := (warpOf s w).core
    let s := setCore s core fun c => { c with cubeq := c.cubeq.filter (·.warp != w) }
    if (coreOf s core).owner == some w then giveUpCube s core else s) s
  { s with loads := s.loads.filter fun l => !(ws.contains l.warp) }
/-- A block's storage is released (R32, R318). -/
def freeBlock (s : State) (blk : Nat) : State :=
  let b := blockOf s blk
  let s := leaveCores s blk
  let s := (blockWarps b).foldl (fun s w => setWarp s w fun x =>
    { x with present := false, retired := true, bundles := [], queue := [], held := [], pend := [], ckpt := none, window := none }) s
  (List.range b.nParts).foldl (fun s p => setPart s (b.firstPart + p) fun x =>
    { x with released := true, freed := true, scratch := [], tiles := [], accs := [], dq := [] }) s
/-- Some block of a launch has been placed and has not retired. -/
def openLaunch (s : State) (l : Nat) : Bool :=
  s.blocks.any fun b => b.launch == l && (b.status == .resident || b.status == .reserved || b.status == .saved)
/-- A launch whose last block has gone (R37, R249, R318). -/
def finishLaunch (s : State) (l : Nat) : State :=
  let x := launchOf s l
  if !x.alive || x.next < x.total || openLaunch s l then s else
  let s := setLaunch s l fun x => { x with alive := false }
  if x.discarded then launchRec s x.vf x.ctx 0x48 x.index.toNat 0
  else if x.pkt.done == 0 || (sliceOf s x.vf).ifst == .error then s
  else match cpWrite s x.vf x.ctx x.pkt.done (bytesOf 8 x.pkt.doneval.toNat) with
    | (s, .ok _) => s
    | (s, .err e) => walkPoison (launchRec s x.vf x.ctx 0x4A x.index.toNat x.pkt.done) x.vf x.ctx x.pkt.done e
/-- A block goes without retiring. -/
def dropBlock (s : State) (x : Nat) : State :=
  freeBlock (setBlock (releaseWalks s x) x fun b => { b with status := .discarded, halt := none, stop := none, step := none }) x
/-- A halted block is discarded, and with it what its launch has not placed (R318). -/
def discardBlock (s : State) (blk : Nat) : State :=
  let b := blockOf s blk
  let mates := (launchOf s b.launch).saved.flatMap fun x => match (blockOf s x).twin with | some (o, _) => [x, o] | none => [x]
  let s := mates.foldl dropBlock (dropBlock s blk)
  finishLaunch (setLaunch s b.launch fun l => { l with discarded := true, next := l.total, saved := [] }) b.launch
/-- Held stores of a block that goes without a mismatch count as matched: those of the primary leave for their homes, those of the twin
are dropped (R102; DESIGN CHOICE, log entry 45). -/
def letHeldGo (s : State) (blk : Nat) : State :=
  if !(isTwin s blk) then s else
  (blockWarps (blockOf s blk)).foldl (fun s w => setWarp s w fun x =>
    { x with matched := s.nextId, held := if isPrimary s blk then x.held else [] }) s
/-- BLOCK_DISCARD (R318, R375, R378), once every record of the block is in the fault queue (R314): in a slice in ERROR neither the
records nor the engines are waited for. -/
def execBlockDiscard (blk : Nat) (s : State) : Host.Outcome State Fault Refusal :=
  let b := blockOf s blk
  let err := (sliceOf s b.vf).ifst == .error
  let force := match b.halt with | some h => h.force || err || (!((ctxOf s b.vf b.ctx).desc.dbg) && !(recordWaits s blk)) | none => false
  .next (if b.status == .resident && force && blockStopped s blk && (err || !(enginesOpen s blk)) then
      let s := letHeldGo s blk
      if (blockWarps b).all (fun w => issuedDone s w && (err || drained s w)) then discardBlock s blk else s
    else s)
/-- BLOCK_RETIRE (R32): everything has exited, the engines have completed, and every store is at its home, as the write of
DONE requires. -/
def execBlockRetire (blk : Nat) (s : State) : Host.Outcome State Fault Refusal :=
  let b := blockOf s blk
  let ws := blockWarps b
  .next (if b.status == .resident && b.halt.isNone && b.stop.isNone && ws.all (fun w => (warpOf s w).retired && drained s w) &&
      !(enginesOpen s blk) then
      let s := replayEntry s blk 0 0xFFFFFFFF (match groupOf b 0 with | some g => g.retired.toNat | none => 0)
      -- a divergence stops the block here, its retirement entry done with (R397)
      if (blockOf s blk).stop.isSome then setBlock s blk fun b => { b with replMode := 0 } else
      let s := freeBlock (setBlock s blk fun b => { b with status := .retired }) blk
      finishLaunch s b.launch
    else s)

/-! ### The halt -/

/-- BLOCK_HALT_WARP_STOP (R317, R363): no later than the bounds allow; a free choice lets it fall earlier. -/
def execBlockHaltWarpStop (warp : Nat) (s : State) : Host.Outcome State Fault Refusal :=
  let wp := warpOf s warp
  .next (match wp.halt, (blockOf s wp.blk).halt with
    | .skid n, some h =>
      let (k, s) := choose s
      if 8 ≤ n || h.ck + 96 ≤ s.clk || warpBlocked wp || warpAllHeld wp || k % 2 == 1 then stopWarp s warp else s
    | _, _ => s)

/-! ### Twin checkpoints -/

/-- A checkpoint has matched: the primary's stores may leave for their homes, the twin's are dropped, and the instruction goes
on; an atomic is left to the primary (R360). -/
def passPrimary (s : State) (w : Nat) (c : Ckpt) : State :=
  let s := setWarp s w fun x => { x with matched := s.nextId }
  setWarp (setBundle s w c.bundle fun b => { b with hold := none, holdLen := 0 }) w fun x => { x with ckpt := some { c with passed := true } }
def passTwin (s : State) (w : Nat) (c : Ckpt) : State :=
  let s := setWarp s w fun x => { x with held := [], matched := s.nextId }
  match c.skip, bundleOf (warpOf s w) c.bundle with
  | some (len, dst, la), some b =>
    let i : Iss := { w, wp := warpOf s w, bn := { b with hold := none }, len, act := b.holdAct }
    addPend (finish (setWarp s w fun x => { x with ckpt := none }) i false) i dst la none none
  | _, _ =>
    setWarp (setBundle s w c.bundle fun b => { b with hold := none, holdLen := 0 }) w fun x => { x with ckpt := some { c with passed := true } }
/-- The signatures differ, or the two copies have come to different checkpoints: no store since the last match reaches its home, and both
copies halt (R360). What L1 has taken of those stores leaves it. -/
def twinMismatch (s : State) (p t : Nat) (cp ct : Ckpt) : State :=
  let clear (c : Ckpt) (w : Warp) : Warp :=
    { w with held := w.held.filter fun x => x.entry.id < w.matched, queue := w.queue.filter fun e => e.id < w.matched || !(isHoldable e),
             ckpt := none, bundles := w.bundles.map fun b => if b.id == c.bundle then { b with hold := none, holdLen := 0 } else b }
  let s := joinL1 (joinL1 (setWarp (setWarp s p (clear cp)) t (clear ct)) p) t
  let bn := (bundleOf (warpOf s p) cp.bundle).getD Bundle.nil
  let s := takeTrap s p bn cp.pc 0x1A 0 (cp.sig ^^^ ct.sig).toNat (lowest bn.lanes)
  haltBlock s (warpOf s t).blk false
/-- TWIN_CHECKPOINT_COMPARE (R360), named by a warp of either copy, once both copies are at a checkpoint; the signatures cover the stores
ahead of it from their issues on, wherever these stand. Copies at different PCs are not at the same checkpoint, and never will be
(log entry 45). -/
def execTwinCheckpointCompare (warp : Nat) (s : State) : Host.Outcome State Fault Refusal :=
  .next (match counterpart s warp with
    | none => s
    | some o =>
      let (p, t) := if isPrimary s (warpOf s warp).blk then (warp, o) else (o, warp)
      match (warpOf s p).ckpt, (warpOf s t).ckpt with
      | some a, some b =>
        if a.passed || b.passed || !(mayEnd s p) || !(mayEnd s t) then s
        else if a.pc == b.pc && a.sig == b.sig then passTwin (passPrimary s p a) t b
        else twinMismatch s p t a b
      | _, _ => s)

end Sys2Proof.Machine
end

