-- ==== Sys2Proof/Machine/SaveArea.lean ====
section
/-! DEFINITION. What a save or a stop dump writes into a context's save area (R260, R285, R303, R304), in the order of R260. The
packing of the items and the place of a block in the area are the model's own (log entry 12). -/

namespace Sys2Proof.Machine

/-! ### The items -/

/-- A word of 8 bytes. -/
def saveWord (x : Nat) : List Byte := bytesOf 8 x
/-- A thread's or lead's own state (Table 11-10, R44). -/
def threadBytes (t : Thread) : List Byte :=
  t.v.flatMap (fun x => bytesOf 4 x.toNat) ++ t.s.flatMap (fun x => saveWord x.toNat) ++
  [t.p.toNat, t.pc.toNat, t.lk.toNat, t.cdepth.toNat, t.mt.toNat, if t.exited then 1 else 0, t.astat.toNat].flatMap saveWord
/-- An optional number: 0, or one more than it. -/
def optWord (x : Option Nat) : Nat := (x.map (· + 1)).getD 0
/-- A wake condition (Table 2-7): its kind, and what it waits for. -/
def waitWords : Wait → List Nat
  | .barrier g phases => 1 :: g :: phases.map (·.toNat)
  | .dqEmpty d la order => [2, d.toNat, la, order]
  | .dqFull e => [3, optWord e.tag, e.val.toNat]
  | .sync ws => 4 :: ws.flatMap fun x => [x.1, x.2.toNat]
  | .seq e l n => [5, engIndex e, l, n]
  | .remote _ => [6]
  | .page r replay fetch => [7, r, if replay then 1 else 0, if fetch then 1 else 0]
  | .cacq => [8]
  | .sleep n => [9, n]
  | .dusk => [10]
  | .fencesc _ _ tick => [11, optWord tick]
  | .twin => [12]
/-- A bundle: its threads, yielded flag, wait count, blocking point and XISSUE progress. -/
def bundleWords (b : Bundle) : List Nat :=
  let xi := match b.xi with | some x => [1, x.w, x.n, x.step, x.remaining.toNat, x.left.toNat] | none => [0]
  [b.id, b.lanes.toNat, if b.yielded then 1 else 0, b.wait, b.holdLen, b.holdAct.toNat] ++ xi ++ ((b.hold.map waitWords).getD [0])
/-- A warp or lead with its threads and bundles, and its position at the cube (R215). -/
def warpBytes (w : Warp) : List Byte :=
  w.threads.flatMap threadBytes ++
  ([w.fairt, optWord (w.window.map (·.1)), optWord (w.window.map (·.2)), w.stall, w.rowprog.toNat] ++ w.bundles.flatMap bundleWords).flatMap saveWord
def cubeWords (w : Warp) : List Nat := [optWord w.owned, optWord (w.queued.map (·.1)), optWord (w.queued.map (·.2))]
/-- A warp's place at its core's cube (R42, R215). -/
def cubePlace (s : State) (w : Nat) : Warp :=
  let x := warpOf s w
  let c := coreOf s x.core
  { x with owned := if c.owner == some w then some c.ownerLevel else x.owned,
           queued := (c.cubeq.findIdx? (·.warp == w)).map fun i => (((c.cubeq.getD i ⟨0, 0⟩).level), i) }
/-- A part in the order of R260: threads and leads with their bundles, the decision queue, the cube position, then scratchpad with the
sync words in it, tiles with sidecars, accumulators, and the windows. -/
def partBytes (s : State) (b : Block) (p : Nat) : List Byte :=
  let x := partOf s p
  let ws := (blockWarps b).map (cubePlace s) |>.filter (·.part == p)
  let key := (ctxOf s b.vf b.ctx).bankKey
  ws.flatMap warpBytes ++ (x.dq.flatMap fun e => [optWord e.tag, e.val.toNat]).flatMap saveWord ++ (ws.flatMap cubeWords).flatMap saveWord ++
  (List.range (1024 * x.kib)).map (fun o => homeByte s key (.scratch p o)) ++
  x.tiles.flatMap (fun t => t.flatMap fun r => bytesOf 64 r.data.toNat ++ [r.sc]) ++
  x.accs.flatMap (fun a => a.flatMap fun r => bytesOf 128 r.toNat) ++ (x.swin.map (·.toNat)).flatMap saveWord
/-- A group: phase, arrivals, those whose release condition is waited for among them, and its retired count (R303, R304). -/
def groupWords (g : Group) : List Nat :=
  [g.g, g.phase.toNat, g.retired.toNat] ++ (g.arrived ++ g.waiting.map fun a => (a.warp, a.lanes)).flatMap fun a => [a.1, a.2.toNat]
/-- A block as it is saved or dumped. -/
def blockImage (s : State) (blk : Nat) : List Byte :=
  let b := blockOf s blk
  (List.range b.nParts).flatMap (fun k => partBytes s b (b.firstPart + k)) ++
  ([b.lin, b.replEntry, (b.stop.map (·.cause)).getD 0, if b.halt.isSome then 1 else 0] ++ b.groups.flatMap groupWords).flatMap saveWord

/-! ### The write -/

/-- Where a block's image begins in the area of its context. -/
def saveBase (cx : Ctx) (blk : Nat) : Nat := cx.desc.save + 2 ^ 24 * (blk % 15)
/-- Bytes written line by line; false at the first line that cannot be. -/
def saveLines (vf c : Nat) : Nat → Nat → List Byte → State → State × Bool
  | 0, _, _, s => (s, true)
  | n + 1, va, bs, s =>
    match cpWrite s vf c va (bs.take 256) with
    | (s, .ok _) => saveLines vf c n (va + 256) (bs.drop 256) s
    | (s, .err e) => (walkPoison s vf c va e, false)
/-- A block's image in the save area of its context (R260, R292), as far as it can be written, and whether all of it was. -/
def putSaved (s : State) (blk : Nat) : State × Bool :=
  let b := blockOf s blk
  let bs := blockImage s blk
  saveLines b.vf b.ctx ((bs.length + 255) / 256) (saveBase (ctxOf s b.vf b.ctx) blk) bs s
/-- A block's state written to the save area (R260, R303); a fault of it stops the context (R321). -/
def saveImage (s : State) (blk : Nat) : State :=
  let b := blockOf s blk
  match putSaved s blk with
  | (s, true) => s
  | (s, false) => stopContext s b.vf b.ctx

end Sys2Proof.Machine
end

