-- ==== Sys2Proof/Machine/Debug.lean ====
section
/-! DEFINITION. Precise stops, their dump, resuming and stepping (R302, R303, R392 to R394). -/

namespace Sys2Proof.Machine

/-! ### Reporting a stop -/

/-- A STOP record goes to every unit that records the context (R303). -/
def offerStop (c : Nat) (r : List Byte) (sl : Slice) (u : Nat) : Slice :=
  if sl.trchold.getLsbD u then (if (sl.hvforce.extractLsb' 0 6).toNat == c then heldTake u r sl else sl)
  else { sl with trace := modAt sl.trace u fun x => if x.ctl.getLsbD 0 && (x.ctl.extractLsb' 1 6).toNat == c then unitTake r x else x }
/-- Order of triggering bundles (R393): block warp index, then PC, leads after warps; leads at one PC by their parts. -/
def trigKey (s : State) (x : Nat × Nat) : Nat :=
  let w := warpOf s x.1
  let pc := match bundleOf w x.2 with | some b => (pcOf w b).toNat | none => 0
  if w.lead then 2 ^ 68 + 4 * pc + (partOf s w.part).log % 4 else w.idx * 2 ^ 60 + 4 * pc
/-- The triggering bundle that the registers name. -/
def firstTrig (s : State) (trig : List (Nat × Nat)) : Option (Nat × Nat) :=
  (sortBy (fun a b => trigKey s a ≤ trigKey s b) trig).head?
/-- DBGTRIG and DBGMASK (Table 20-2). -/
def dbgTrigOf (s : State) (trig : List (Nat × Nat)) : Dword × Dword :=
  match firstTrig s trig with
  | none => (0, 0)
  | some (w, id) =>
    let wp := warpOf s w
    match bundleOf wp id with
    | none => (0, 0)
    | some b =>
      (BitVec.ofNat 64 ((pcOf wp b).toNat + recWarp wp * 2 ^ 52 + (partOf s wp.part).log % 4 * 2 ^ 60 +
        (if 1 < trig.length then 2 ^ 62 else 0) + 2 ^ 63), b.lanes)
/-- A stop or a step of a context's block is still under way, a halt of CAUSE 4 among them (R318, Table 12-4). -/
def dbgPending (s : State) (vf c : Nat) : Bool :=
  (ctxBlocks s vf c).any fun b =>
    let k := blockOf s b
    let halted : Bool := (ctxOf s vf c).desc.dbg && (k.halt.any fun h => !h.force) && (sliceOf s vf).ifst != .error &&
      !(k.stop.any fun st => st.cause == 4 && st.dumped)
    k.status == .resident && ((k.stop.any fun st => !st.dumped) || k.step.isSome || halted)

/-- The dump of a stopped block (R303): the save area, the STOP record, and the registers. -/
def dumpStop (s : State) (blk : Nat) (st : Stop) : State :=
  let b := blockOf s blk
  let s := saveImage s blk
  let (tr, m) := dbgTrigOf s st.trig
  let (w, pc) : Nat × Nat := match firstTrig s st.trig with
    | some (w, id) => (w, match bundleOf (warpOf s w) id with | some x => (pcOf (warpOf s w) x).toNat | none => 0)
    | none => (b.firstWarp, match lowestBundle (warpOf s b.firstWarp) with | some x => (pcOf (warpOf s b.firstWarp) x).toNat | none => 0)
  let wp := warpOf s w
  let r := traceBytes 4 wp.stall false (partOf s wp.part).log 0 (recWarp wp) (phaseOf b 0).toNat (timeNs s) b pc
  let s := setSlice s b.vf fun sl => [0, 1, 2, 3].foldl (offerStop b.ctx r) sl
  let s := setBlock s blk fun b => { b with stop := some { st with dumped := true }, step := none }
  setCtx s b.vf b.ctx fun x => { x with dbgCause := st.cause, dbgTrig := tr, dbgMask := m }
/-- Everything that a block has issued has completed, its stores at their homes (R102, R260, R303). -/
def blockDone (s : State) (blk : Nat) : Bool := (blockWarps (blockOf s blk)).all fun w => issuedDone s w && drained s w
/-- DEBUG_STOP_DUMP (R303); a halted block of a context with DBG stops with CAUSE 4, whatever stop it was in (R318). -/
def execDebugStopDump (blk : Nat) (s : State) : Host.Outcome State Fault Refusal :=
  let b := blockOf s blk
  .next (if b.status != .resident || !(blockDone s blk) then s else
    match b.stop, b.halt with
    | some st, none => if st.dumped then s else dumpStop s blk st
    | stop, some h =>
      if (ctxOf s b.vf b.ctx).desc.dbg && !h.force && (sliceOf s b.vf).ifst != .error && blockStopped s blk &&
          !(stop.any fun st => st.cause == 4 && st.dumped) then
        dumpStop s blk ⟨4, h.trig, false⟩
      else s
    | none, none => s)

/-- BREAKPOINT_STOP (R303): the bundle stands at an armed address. -/
def execBreakpointStop (warp bundle : Nat) (s : State) : Host.Outcome State Fault Refusal :=
  let wp := warpOf s warp
  let b := blockOf s wp.blk
  let cx := ctxOf s b.vf b.ctx
  .next (match bundleOf wp bundle with
    | some x =>
      if cx.desc.dbg && b.status == .resident && b.stop.isNone && cx.dbgbp.any (fun r =>
          r.getLsbD 63 && r.extractLsb' 2 50 == (pcOf wp x).extractLsb' 2 50) then
        stopWithTwin s wp.blk 2 [(warp, bundle)]
      else s
    | none => s)

/-! ### Commands -/

/-- A block has stopped: its dump is complete. -/
def dumped (s : State) (b : Nat) : Bool := (blockOf s b).status == .resident && (blockOf s b).stop.any (·.dumped)
/-- Stopped blocks of a context; the copies of a twin pair count once both have stopped (R392). -/
def stoppedBlocks (s : State) (vf c : Nat) : List Nat :=
  (ctxBlocks s vf c).filter fun b => dumped s b && (blockOf s b).twin.all fun x => dumped s x.1 || (blockOf s x.1).status != .resident
/-- Those that a debugger lets go on: no record of theirs waits in PEND (R314). -/
def freeToGo (s : State) (vf c : Nat) : List Nat :=
  (stoppedBlocks s vf c).filter fun b => !(recordWaits s b) && (blockOf s b).twin.all fun x => !(recordWaits s x.1)
/-- DBG_STOP (R303): every resident block. -/
def execDbgStop (vf c : Nat) (s : State) : Host.Outcome State Fault Refusal :=
  .next (if !((ctxOf s vf c).desc.dbg) then s else
    let bs := (ctxBlocks s vf c).filter fun b => (blockOf s b).status == .resident && (blockOf s b).stop.isNone && (blockOf s b).halt.isNone
    bs.foldl (fun s b => stopBlock s b 0 []) s)
/-- Bundles that stand at an instruction, not in a wait, pass a BKPT or breakpoint there once. -/
def passBreak (w : Warp) : Warp :=
  { w with bundles := w.bundles.map fun b => if b.hold.isNone && b.xi.isNone then { b with skipBp := true } else b }
/-- DBG_RESUME (R303, R340, R324). -/
def resumeBlock (s : State) (blk : Nat) : State :=
  let s := resumeHalt (releaseWalks s blk) blk
  wakeBlock ((liveWarps s (blockOf s blk)).foldl (fun s w => xiResume (setWarp s w passBreak) w) s) blk
/-- A debugger may let blocks of a context go on: only DESTROY leaves a context that has stopped as a class (R302, R321). -/
def debugs (s : State) (vf c : Nat) : Bool := (ctxOf s vf c).desc.dbg && !(ctxOf s vf c).stopped
def execDbgResume (vf c : Nat) (s : State) : Host.Outcome State Fault Refusal :=
  .next (if !(debugs s vf c) then s else (freeToGo s vf c).foldl resumeBlock s)

/-! ### Stepping -/

/-- A permitted bundle that issues nothing: it waits, or it is gone (R394). -/
def stepIdle (s : State) (x : Nat × Nat) : Bool :=
  let w := warpOf s x.1
  match bundleOf w x.2 with
  | some b =>
    -- a checkpoint that the other copy has come to as well is about to end
    let open' : Bool := b.hold == some .twin && ((counterpart s x.1).any fun v => (warpOf s v).ckpt.any fun c => !c.passed)
    bundleHeld w b || ((b.hold.bind holdReason).isSome && !open')
  | none => true
/-- The bundles that hold the lowest threads of the stepped ones. -/
def nextTrig (s : State) (trig : List (Nat × Nat)) : List (Nat × Nat) :=
  (trig.filterMap fun x => ((warpOf s x.1).bundles.find? fun b => b.lanes.getLsbD x.2).map fun b => (x.1, b.id)).eraseDups
/-- A step ends once every permitted bundle has issued or waits and what was issued has completed (R394). -/
def stepCheck (s : State) (blk : Nat) : State :=
  let b := blockOf s blk
  match b.step with
  | none => s
  | some st =>
    if b.halt.isSome || !(st.left.all (stepIdle s)) || !(blockDone s blk) then s
    else dumpStop s blk ⟨3, nextTrig s st.trig, false⟩
/-- STEP_END. -/
def execStepEnd (blk : Nat) (s : State) : Host.Outcome State Fault Refusal := .next (stepCheck s blk)
/-- A step of a stopped block: of its triggering bundles, or of all (R394). -/
def stepBlock (every : Bool) (s : State) (blk : Nat) : State :=
  let b := blockOf s blk
  let trig := match b.stop with | some st => st.trig | none => []
  let all := (liveWarps s b).flatMap fun w => (warpOf s w).bundles.map fun x => (w, x.id)
  let low := trig.filterMap fun x => (bundleOf (warpOf s x.1) x.2).map fun y => (x.1, lowest y.lanes)
  let s := resumeHalt (releaseWalks s blk) blk
  let s := (liveWarps s b).foldl xiResume s
  let left := if every || trig.isEmpty then all else nextTrig s low
  let s := left.foldl (fun s x => match bundleOf (warpOf s x.1) x.2 with | some y => wakeBundle s x.1 y | none => s) s
  let s := ((left.map fun x => (warpOf s x.1).core).eraseDups).foldl grantCube s
  let s := left.foldl (fun s x => setBundle s x.1 x.2 fun y => if y.hold.isNone && y.xi.isNone then { y with skipBp := true } else y) s
  stepCheck (setBlock s blk fun b => { b with step := some ⟨left, low⟩ }) blk
def execDbgStep (vf c : Nat) (s : State) : Host.Outcome State Fault Refusal :=
  .next (if !(debugs s vf c) then s else (freeToGo s vf c).foldl (stepBlock false) s)
def execDbgBstep (vf c : Nat) (s : State) : Host.Outcome State Fault Refusal :=
  .next (if !(debugs s vf c) then s else (freeToGo s vf c).foldl (stepBlock true) s)

end Sys2Proof.Machine
end

