-- ==== Sys2Proof/Machine/Place.lean ====
section
/-! DEFINITION. Blocks on cores: what fits where (R251), the start of a block (R19, R20, R28, R29, R31, R32, R33), leaving a core
and coming back (R42, R215, R260, R261). -/

namespace Sys2Proof.Machine

/-! ### What a core has left -/

/-- Parts that hold storage of a core. -/
def coreParts (s : State) (core : Nat) : List Nat :=
  (List.range s.parts.length).filter fun p => (partOf s p).core == core && !(partOf s p).freed
/-- Warps that hold slots and registers of a core (R21, R32). -/
def coreWarps (s : State) (core : Nat) : List Nat :=
  (List.range s.warps.length).filter fun w => let x := warpOf s w; x.core == core && x.present && !x.retired && !x.lead
/-- What a launch allots to a part's block. -/
def partPkt (s : State) (p : Nat) : Packet := (launchOf s (blockOf s (partOf s p).blk).launch).pkt
/-- A part has exited (R32). -/
def partExited (s : State) (p : Nat) : Bool :=
  let b := blockOf s (partOf s p).blk
  (blockWarps b).all fun w => (warpOf s w).part != p || (warpOf s w).retired
/-- First offset at which some KiB are free, among ranges in use (R251). -/
def firstFit (used : List (Nat × Nat)) (n : Nat) : Option Nat :=
  (List.range 769).find? fun b => b + n ≤ 768 && used.all fun u => b + n ≤ u.1 || u.1 + u.2 ≤ b || n == 0
/-- Free slots of a scheduler. -/
def freeSlots (s : State) (core sched : Nat) : List Nat :=
  (List.range 12).filter fun k => !((coreWarps s core).any fun w => (warpOf s w).sched == sched && (warpOf s w).slot == k)
/-- Scratchpad ranges in use. -/
def usedScratch (s : State) (core : Nat) : List (Nat × Nat) := (coreParts s core).map fun p => ((partOf s p).base, (partOf s p).kib)
def sumOf (l : List Nat) : Nat := l.foldl (· + ·) 0
/-- Table 10-3 for one part of `w` warps. -/
def coreFits (s : State) (core w : Nat) (k : Packet) : Bool :=
  let ps := coreParts s core
  (coreOf s core).inService && ps.length < 8 &&
  ((List.range 4).all fun j => (w + 3 - j) / 4 ≤ (freeSlots s core j).length) &&
  sumOf ((coreWarps s core).map fun x => (partPkt s (warpOf s x).part).vregs) + w * k.vregs ≤ 4096 &&
  (firstFit (usedScratch s core) k.scratch).isSome &&
  sumOf (ps.map fun p => (partPkt s p).tiles) + k.tiles ≤ 32 && sumOf (ps.map fun p => (partPkt s p).accs) + k.accs ≤ 64 &&
  sumOf (ps.map fun p => if partExited s p then 0 else (partPkt s p).lregs) + k.lregs ≤ 512

/-- Warps of a block. -/
def Packet.warps (k : Packet) : Nat := (k.threads + 63) / 64
/-- Cores of a quad for the parts of a block, in the slice's order (R251). -/
def quadCores (s : State) (sl : Slice) (quad : Nat) (k : Packet) : Option (List Nat) :=
  let cs := (sl.lcores.filter fun c => c / 4 == quad && coreFits s c (k.warps / k.parts) k).take k.parts
  if cs.length == k.parts then some cs else none
/-- Quads on which a launch may place: a quad kept for another launch of the table is left out (R253). -/
def openQuads (s : State) (sl : Slice) (launch : Nat) : List Nat :=
  sl.quads.filter fun q => match sl.victimQuad with | some (v, l) => q != v || l == launch || !((launchOf s l).alive) | none => true
/-- Fits (R251, R358): cores for a block, and for its twin on another quad. -/
def fits (s : State) (sl : Slice) (launch : Nat) (k : Packet) : Option (List Nat × List Nat) :=
  let qs := openQuads s sl launch
  qs.findSome? fun q => (quadCores s sl q k).bind fun cs =>
    if k.attr.testBit 1 then (qs.filter (· != q)).findSome? fun r => (quadCores s sl r k).map fun ds => (cs, ds)
    else some (cs, [])

/-! ### The start of a block -/

/-- A thread at block start (Table 2-1, R46). -/
def startThread (pc : Nat) (out : Bool) (k : Packet) : Thread :=
  { pc := BitVec.ofNat 52 pc, lk := 0, cdepth := 0, mt := 0xFFFFFFFFFFFFF, exited := out, v := List.replicate k.vregs 0, s := [],
    p := 0x80, astat := 0 }
/-- A lead at part start (Table 2-4). -/
def startLead (pc : Nat) (out : Bool) (k : Packet) (dev : Nat) (gen : Dword) : Thread :=
  let all : List Dword := [BitVec.ofNat 64 k.param, BitVec.ofNat 64 dev, gen] ++ List.replicate 61 0
  { pc := BitVec.ofNat 52 pc, lk := 0, cdepth := 0, mt := 0xFFFFFFFFFFFFF, exited := out, v := [], s := all.take k.lregs, p := 0x80,
    astat := 0 }
/-- A warp or lead at its start, with one bundle of its unexited threads. -/
def startWarp (lead : Bool) (blk part idx core sched slot fairt : Nat) (ts : List Thread) : Warp :=
  let live := maskOf ((List.range ts.length).filter fun l => !((ts.getD l Thread.nil).exited))
  { Warp.nil with lead, blk, part, idx, core, sched, slot, present := true, retired := live == 0, threads := ts,
                  bundles := if live == 0 then [] else [{ Bundle.nil with lanes := live }], nextBundle := 1, fairt }
/-- Threads of warp `x` of a block: lanes beyond THREADS start exited (R20). -/
def warpThreads (k : Packet) (x : Nat) : List Thread :=
  (List.range 64).map fun l => startThread (k.code + k.wentry) (k.threads ≤ 64 * x + l) k
/-- A part with its storage cleared (R32, R87). -/
def startPart (s : State) (blk log core lead : Nat) (k : Packet) : Part :=
  let ps := coreParts s core
  { blk, log, core, slot := ((List.range 8).find? fun n => !(ps.any fun p => (partOf s p).slot == n)).getD 0,
    base := (firstFit (usedScratch s core) k.scratch).getD 0, kib := k.scratch, scratch := [],
    tiles := List.replicate k.tiles (List.replicate 64 ⟨0, 0⟩), accs := List.replicate k.accs (List.replicate 64 0),
    swin := [0, 0, 0, 0], dq := [], lead, released := false, freed := false }
/-- FAIRT at start (R28). -/
def Packet.fairtAt (k : Packet) : Nat := if k.fairt == 0 then 2048 else k.fairt
/-- One part joins its core, with its warps and its lead. -/
def addPart (s : State) (blk log core first lead : Nat) (k : Packet) (dev : Nat) (gen : Dword) : State :=
  let p := s.parts.length
  let part := startPart s blk log core lead k
  let w := k.warps / k.parts
  let s := { s with parts := s.parts ++ [part] }
  let ws := (List.range w).map fun x =>
    startWarp false blk p (w * log + x) core (x % 4) ((freeSlots s core (x % 4)).getD (x / 4) 0) k.fairtAt (warpThreads k (w * log + x))
  let none' := k.lentry == 0xFFFFFFFF
  let ld := startWarp true blk p 0xFF core 0 part.slot 0 [startLead (k.code + k.lentry) none' k dev gen]
  { s with warps := ((s.warps.take (first + w * log)) ++ ws ++ s.warps.drop (first + w * (log + 1))).mapIdx fun i x => if i == lead then ld else x }
/-- The groups of a block (R33): entry 0 is the whole block. -/
def startGroups (l : Launch) : List Group :=
  ((0, BitVec.ofNat 192 (2 ^ l.pkt.warps - 1)) :: l.groups).map fun (g, m) =>
    { g, members := m, phase := 0, arrived := [], waiting := [], retired := 0, due := none }
/-- One copy of a block placed on some cores: its tables are made, then its parts (R31, R250, R395). -/
def addBlock (s : State) (li : Nat) (lin : Nat) (cores : List Nat) (status : BlockSt) (twin : Option (Nat × Bool)) : State :=
  let l := launchOf s li
  let k := l.pkt
  let blk := s.blocks.length
  let first := s.warps.length
  let lead := first + k.warps
  let (dev, gen) : Nat × Dword := match l.repl with | some r => (r.dev, r.gen) | none => (0, 0)
  let age := (sliceOf s l.vf).placeCount
  let b : Block :=
    { Block.nil with launch := li, vf := l.vf, ctx := l.ctx, lin, bx := lin % k.nx, by' := lin / k.nx % k.ny, bz := lin / k.nx / k.ny,
                     firstWarp := first, nWarps := k.warps, firstLead := lead, firstPart := s.parts.length, nParts := k.parts,
                     groups := startGroups l, age, status, replMode := ((ctxOf s l.vf l.ctx).replctl.extractLsb' 0 2).toNat, twin }
  let s := { s with blocks := s.blocks ++ [b], warps := s.warps ++ List.replicate (k.warps + k.parts) Warp.nil }
  let s := (cores.mapIdx fun p c => (p, c)).foldl (fun s (p, c) => addPart s blk p c first (lead + p) k dev gen) s
  setSlice s l.vf fun sl => { sl with placeCount := sl.placeCount + 1 }
/-- A new block of a launch, with its twin. -/
def placeBlock (s : State) (li : Nat) (cs : List Nat × List Nat) : State :=
  let l := launchOf s li
  let st : BlockSt := match l.repl with | some r => if r.started then .resident else .reserved | none => .resident
  let n := s.blocks.length
  let s := setLaunch s li fun l => { l with next := l.next + 1 }
  if cs.2.isEmpty then addBlock s li l.next cs.1 st none
  else addBlock (addBlock s li l.next cs.1 st (some (n + 1, true))) li l.next cs.2 st (some (n, false))

/-! ### Leaving and coming back -/

/-- A parked bundle whose replay has been asked for: it is about to leave its blocking point (R372). -/
def replayDue (b : Bundle) : Bool := match b.hold with | some (.page _ replay _) => replay | _ => false
/-- A block is at a blocking point (R42, R364, R372, R392). -/
def blockAtPoint (s : State) (blk : Nat) : Bool :=
  let b := blockOf s blk
  (match b.stop with | some st => st.dumped | none => false) || (b.halt.isSome && blockStopped s blk) ||
  (b.step.isNone && b.stop.isNone && (liveWarps s b).all fun w => warpBlocked (warpOf s w) && !((warpOf s w).bundles.any replayDue))
/-- What a block has issued has completed, apart from remote loads, which are replayed, and its stores are at home
(R260). -/
def blockQuiet (s : State) (blk : Nat) : Bool :=
  (blockWarps (blockOf s blk)).all fun w =>
    drained s w && ((warpOf s w).pend.all fun p => match p.due with | some d => d ≤ s.clk | none => p.load.isNone || s.loads.any fun l => some l.id == p.load && l.remote) &&
    !(fenceOpen s w) && !(s.loads.any fun l => l.warp == w && !l.remote)
/-- A block is saved, its cores freed (R260). -/
def saveBlock (s : State) (blk : Nat) : State :=
  let b := blockOf s blk
  let s := saveImage ((blockWarps b).foldl (fun s w => let x := cubePlace s w; setWarp s w fun _ => x) s) blk
  let s := (blockWarps b).foldl (fun s w => setWarp s w fun x => { x with present := false }) s
  let s := leaveCores s blk
  let s := (List.range b.nParts).foldl (fun s p => setPart s (b.firstPart + p) fun x => { x with freed := true }) s
  setBlock s blk fun b => { b with status := .saved, victim := false }
/-- A saved bundle looks at its wake condition again (R42, R261, R347, R372); its starvation count starts at 0. A remote load is
replayed, its issue counted already (R304). -/
def wakeSaved (b : Bundle) : Bundle :=
  let b := { b with starve := 0, starved := false }
  match b.hold with
  | some (.remote _) => { b with hold := none, holdLen := 0, holdAct := 0, fenced := b.lanes }
  | some (.page r _ fetch) => { b with hold := some (.page r true fetch) }
  | _ => b
/-- Waiters return behind those present, an owner at the head of its level (R42, R215). -/
def returnCube (s : State) (ws : List Nat) : State :=
  let owners := ws.filterMap fun w => (warpOf s w).owned.map fun l => (w, l)
  let waiters := sortBy (fun a b => a.2.2 ≤ b.2.2) (ws.filterMap fun w => (warpOf s w).queued.map fun q => (w, q.1, q.2))
  let s := owners.foldl (fun s x => setCore s (warpOf s x.1).core fun c => { c with cubeq := ⟨x.1, x.2⟩ :: c.cubeq }) s
  let s := waiters.foldl (fun s x => setCore s (warpOf s x.1).core fun c => { c with cubeq := c.cubeq ++ [⟨x.1, x.2.1⟩] }) s
  ws.foldl (fun s w => setWarp s w fun x => { x with queued := none }) s
/-- One part of a saved block takes its place on a core again, whose L1 lets the context's sectors go: they may be older than what its
threads have read (R106). -/
def returnPart (s : State) (blk p core : Nat) : State :=
  let b := blockOf s blk
  let k := (launchOf s b.launch).pkt
  let new := startPart s blk p core 0 k
  let mine := (blockWarps b).filter fun w => (warpOf s w).part == b.firstPart + p && !(warpOf s w).retired
  let s := mine.foldl (fun s w =>
    let x := warpOf s w
    let j := x.idx % (k.warps / k.parts)
    let slot := if x.lead then new.slot else (freeSlots s core (j % 4)).headD 0
    setWarp s w fun x => { x with core, slot, sched := if x.lead then 0 else j % 4, present := true, bundles := x.bundles.map wakeSaved, pend := [] }) s
  let s := invalidateL1 s core b.vf b.ctx
  setPart s (b.firstPart + p) fun x => { x with core, slot := new.slot, base := new.base, freed := false }
/-- A saved block is resident again on some cores (R252, R261). -/
def restoreBlock (s : State) (blk : Nat) (cores : List Nat) : State :=
  let b := blockOf s blk
  let s := (cores.mapIdx fun p c => (p, c)).foldl (fun s (p, c) => returnPart s blk p c) s
  let age := (sliceOf s b.vf).placeCount
  let waiting : Bool := match (launchOf s b.launch).repl with | some r => !r.started | none => false
  let status : BlockSt := if waiting then .reserved else .resident
  let s := setSlice (setBlock s blk fun b => { b with status, age, victim := false }) b.vf fun sl => { sl with placeCount := sl.placeCount + 1 }
  let s := (blockWarps b).foldl xiResume (returnCube s (blockWarps b))
  wakeBlock s blk

end Sys2Proof.Machine
end

