-- ==== Sys2Proof/Machine/Launch.lean ====
section
/-! DEFINITION. Launches: doorbells (R248, R322), packets (R36, R37, R248, R249), placement (R250), victims (R253), evictions
(R260), and replicated launches (R38, R39). -/

namespace Sys2Proof.Machine

/-! ### Packets -/

/-- A packet's fields (Table 2-6). -/
def Packet.ofBytes (bs : List Byte) : Packet :=
  { code := fieldOf bs 0 8, wentry := fieldOf bs 8 4, lentry := fieldOf bs 0x0C 4, param := fieldOf bs 0x10 8, gtab := fieldOf bs 0x18 8,
    nx := fieldOf bs 0x20 4, ny := fieldOf bs 0x24 4, nz := fieldOf bs 0x28 4, threads := fieldOf bs 0x2C 2, parts := fieldOf bs 0x2E 1,
    prio := fieldOf bs 0x2F 1, vregs := fieldOf bs 0x30 1, lregs := fieldOf bs 0x31 1, tiles := fieldOf bs 0x32 1,
    accs := fieldOf bs 0x33 1, scratch := fieldOf bs 0x34 2, fairt := fieldOf bs 0x36 2, attr := fieldOf bs 0x38 4,
    repl := fieldOf bs 0x3C 1, done := fieldOf bs 0x40 8, doneval := BitVec.ofNat 64 (fieldOf bs 0x48 8) }
/-- Check 1 of R37: the ranges of Table 2-6. DESIGN CHOICE (log entry 94): a CODE or GTAB with any of bits [63:52] set, which no table
bars, fails this check. -/
def Packet.rangesOk (k : Packet) : Bool :=
  k.code % 256 == 0 && k.code < 2 ^ 52 && k.wentry % 4 == 0 && (k.lentry % 4 == 0 || k.lentry == 0xFFFFFFFF) && k.gtab % 256 == 0 &&
  k.gtab < 2 ^ 52 && 1 ≤ k.nx && 1 ≤ k.ny && k.ny ≤ 65535 && 1 ≤ k.nz && k.nz ≤ 65535 && 1 ≤ k.threads && k.threads ≤ 12288 &&
  1 ≤ k.parts && k.parts ≤ 4 && k.prio ≤ 3 && 1 ≤ k.vregs && k.vregs ≤ 255 && 1 ≤ k.lregs && k.lregs ≤ 64 && k.tiles ≤ 32 &&
  k.accs ≤ 64 && k.scratch ≤ 768 && (k.fairt == 0 || 32 ≤ k.fairt) && k.attr < 4 && 1 ≤ k.repl && k.repl ≤ 64
/-- Check 2: reserved bytes. -/
def reservedZero (bs : List Byte) : Bool := fieldOf bs 0x3D 3 == 0 && fieldOf bs 0x50 48 == 0
/-- Check 3: warps, parts and registers. -/
def Packet.shapeOk (k : Packet) : Bool :=
  k.warps % k.parts == 0 && k.warps / k.parts ≤ 48 && k.warps / k.parts * k.vregs ≤ 4096
/-- An entry of the group table: none when not valid, false when it fails (Table 2-5, R37). -/
def groupEntry (w : Nat) (bs : List Byte) : Option (Option (BitVec 192)) :=
  if !((bs.getD 24 0).getLsbD 0) then some none
  else if fieldOf bs 24 1 != 1 || fieldOf bs 25 7 != 0 || 2 ^ w ≤ fieldOf bs 0 24 then none
  else some (some (BitVec.ofNat 192 (fieldOf bs 0 24)))
/-- Entries from one on (R33): entry 0 is not read. -/
def groupEntries (w : Nat) : Nat → Nat → List Byte → Option (List (Nat × BitVec 192))
  | 0, _, _ => some []
  | n + 1, g, bs =>
    match groupEntry w (bs.take 32), groupEntries w n (g + 1) (bs.drop 32) with
    | some (some m), some r => some ((g, m) :: r)
    | some none, some r => some r
    | _, _ => none
/-- Check 4: the group table, read once (R34). -/
def readGroups (s : State) (vf c : Nat) (k : Packet) : State × Option (List (Nat × BitVec 192)) :=
  if k.gtab == 0 then (s, some []) else
  match cpRead vf c (k.gtab + 32) (255 * 32) s with
  | (s, .err _) => (s, none)
  | (s, .ok bs) =>
    match groupEntries k.warps 255 1 bs with
    | some gs => if (List.range k.warps).all fun w => (gs.countP fun g => g.2.getLsbD w) ≤ 4 then (s, some gs) else (s, none)
    | none => (s, none)
/-- Check 5: an admitted code object, with the entries inside its code section. -/
def findCode (cx : Ctx) (k : Packet) : Option Code :=
  cx.codes.find? fun o =>
    let inside (e : Nat) : Bool := o.codeOff ≤ e && e < o.codeOff + o.codeSize
    o.addr == k.code && inside k.wentry && (k.lentry == 0xFFFFFFFF || inside k.lentry)
/-- R37: the cause of a rejection, or what the launch takes from memory. -/
def validate (s : State) (vf c : Nat) (bs : List Byte) : State × (Nat ⊕ (List (Nat × BitVec 192) × Code)) :=
  let k := Packet.ofBytes bs
  if !k.rangesOk then (s, .inl 0x40)
  else if !(reservedZero bs) then (s, .inl 0x41)
  else if !k.shapeOk then (s, .inl 0x42)
  else match readGroups s vf c k with
    | (s, none) => (s, .inl 0x43)
    | (s, some gs) =>
      match findCode (ctxOf s vf c) k with
      | none => (s, .inl 0x44)
      | some o => (s, .inr (gs, o))
/-- Messages of the machine (State.sent): a packet for a peer, a ready report, a start instant, the end of a launch. -/
def post (s : State) (kind a b : Nat) (data : List (BitVec 256)) : State := { s with sent := s.sent ++ [⟨kind, a, b, data⟩] }
/-- Bytes as message words. -/
def msgWords (bs : List Byte) : List (BitVec 256) := (List.range ((bs.length + 31) / 32)).map fun i => BitVec.ofNat 256 (leBytes ((bs.drop (32 * i)).take 32))
/-- Constant-cache lines of a context leave the slice's cores when a launch of it is accepted (R10). -/
def dropConstants (s : State) (vf c : Nat) : State :=
  { s with cores := s.cores.map fun k => if (sliceOf s vf).lcores.contains k.n then
      { k with ccache := k.ccache.filter fun x => x / 2 ^ 45 != vf * 64 + c } else k }
/-- An accepted packet joins the launch table (R248, R249). -/
def acceptLaunch (s : State) (vf c : Nat) (index : Word) (k : Packet) (gs : List (Nat × BitVec 192)) (o : Code) (repl : Option Repl) : State :=
  let sl := sliceOf s vf
  let l : Launch :=
    { vf, ctx := c, index, pkt := k, groups := gs, expmask := o.expmask, constAt := o.addr + o.constOff, constSize := o.constSize,
      order := sl.acceptCount, next := 0, total := k.nx * k.ny * k.nz, saved := [], pass := 0, failSince := none, discarded := false,
      alive := true, repl }
  let s := setSlice (dropConstants s vf c) vf fun sl => { sl with acceptCount := sl.acceptCount + 1 }
  { s with launches := s.launches ++ [l] }
/-- Launches in a slice's table. -/
def launchTable (s : State) (vf : Nat) : List Nat :=
  (List.range s.launches.length).filter fun l => (launchOf s l).vf == vf && (launchOf s l).alive
/-- ck from the sending of a replicated packet to its timeout: 10 ms (R39). -/
def replLimit : Nat := 17000000
/-- The packet goes out to the peers under the next generation (R38). -/
def replicate (s : State) (vf : Nat) (k : Packet) (bs : List Byte) : State × Option Repl :=
  if k.repl ≤ 1 then (s, none) else
  let g := (sliceOf s vf).gen + 1
  let s := setSlice s vf fun sl => { sl with gen := g }
  let s := (List.range (k.repl - 1)).foldl (fun s p => post s 1 vf (p + 1) (g.zeroExtend 256 :: msgWords bs)) s
  (s, some { dev := 0, gen := g, ready := [], deadline := s.clk + replLimit, t0 := none, started := false })
/-- A device rejects a replicated packet: the cause that it finds, and REPLFAIL, which every device records (R37, R39). -/
def rejectRepl (s : State) (vf c : Nat) (idx : Nat) (cause : Option Nat) : State :=
  launchRec (match cause with | some k => launchRec s vf c k idx 0 | none => s) vf c 0x47 idx 0
/-- The issuing device tells its peers that a launch has failed (R39). -/
def tellPeers (s : State) (vf n : Nat) (gen : Dword) : State :=
  (List.range (n - 1)).foldl (fun s p => post s 4 vf (p + 1) [gen.zeroExtend 256]) s
/-- A rejection whose cause is a group table that a poisoned entry of the walk kept from being read: the slice enters ERROR after it
(R37, R376). -/
def groupPoison (before : State) (vf c cause : Nat) (k : Packet) (s : State) : State :=
  if cause != 0x43 then s else
  match (cpRead vf c (k.gtab + 32) (255 * 32) before).2 with | .err e => walkPoison s vf c (k.gtab + 32) e | .ok _ => s
/-- A packet that has been read: one for several devices goes out before it is checked, and each device, this one too, checks that its
generation is above the last one accepted (R37, R38). -/
def takePacket (s : State) (vf c : Nat) (index : Word) (bs : List Byte) : State :=
  let k := Packet.ofBytes bs
  let (s, r) := if k.repl ≤ 64 then replicate s vf k bs else (s, none)
  match validate s vf c bs, r with
  | (t, .inl cause), none => groupPoison s vf c cause k (launchRec t vf c cause index.toNat 0)
  | (t, .inl cause), some r => groupPoison s vf c cause k (tellPeers (rejectRepl t vf c index.toNat (some cause)) vf k.repl r.gen)
  | (t, .inr (gs, o)), none => acceptLaunch t vf c index k gs o none
  | (t, .inr (gs, o)), some r =>
    if r.gen.toNat ≤ (sliceOf t vf).lastGen.toNat then tellPeers (rejectRepl t vf c index.toNat (some 0x46)) vf k.repl r.gen
    else acceptLaunch (setSlice t vf fun sl => { sl with lastGen := r.gen }) vf c index k gs o (some r)
/-- The next context with a packet to read, after the one read last (R248). -/
def nextQueue (sl : Slice) : Option Nat :=
  ((List.range 64).map fun k => (sl.lastCtx + 1 + k) % 64).find? fun c =>
    let x := sl.ctxs.getD c (Ctx.none c)
    x.exists' && x.run == .running && !x.stop && !x.stopped && x.head != x.tail
/-- A slice that reads and places: in Noon stage, and not in ERROR (R15, R378), and no shared unit has failed (R381). -/
def sliceWorks (s : State) (vf : Nat) : Bool := s.stage == 2 && !s.sharedFail && (sliceOf s vf).used && (sliceOf s vf).ifst != .error
/-- LAUNCH_PACKET_READ. -/
def execLaunchPacketRead (vf : Nat) (s : State) : Host.Outcome State Fault Refusal :=
  .next (if !(sliceWorks s vf) || 256 ≤ (launchTable s vf).length then s else
    match nextQueue (sliceOf s vf) with
    | none => s
    | some c =>
      let cx := ctxOf s vf c
      let va := cx.desc.lqbase + 128 * (cx.head.toNat % 2 ^ cx.desc.lqlog2)
      let s := setSlice s vf fun sl => { sl with lastCtx := c }
      match cpRead vf c va 128 s with
      | (s, .err e) => walkPoison (launchRec (setCtx s vf c fun x => { x with stop := true }) vf c 0x45 cx.head.toNat va) vf c va e
      | (s, .ok bs) => setCtx (takePacket s vf c cx.head bs) vf c fun x => { x with head := x.head + 1 })
/-- LQ_DOORBELL (R248, R322, R378). -/
def execLqDoorbell (vf c : Nat) (tail : Word) (s : State) : Host.Outcome State Fault Refusal :=
  let cx := ctxOf s vf c
  .next (if (sliceOf s vf).ifst == .error || !cx.exists' then s
    else if (tail - cx.head).toNat ≤ 2 ^ cx.desc.lqlog2 then setCtx s vf c fun x => { x with tail, stop := false }
    else launchRec (setCtx s vf c fun x => { x with stop := true }) vf c 0x49 cx.head.toNat 0)

/-! ### Placement -/

/-- Placement order (R250): descending PRIO, then acceptance. -/
def pending (s : State) (vf : Nat) : List Nat :=
  let first (a b : Nat) : Bool :=
    let x := launchOf s a
    let y := launchOf s b
    y.pkt.prio < x.pkt.prio || (x.pkt.prio == y.pkt.prio && x.order ≤ y.order)
  sortBy first ((launchTable s vf).filter fun l =>
    let x := launchOf s l
    let cx := ctxOf s vf x.ctx
    !x.discarded && (x.next < x.total || !x.saved.isEmpty) && cx.run == .running && !cx.stopped)
/-- The launches that one attempt examines (R250): no lower PRIO, 64 at most, and the first alone once it has been passed
over 64 times. -/
def examined (s : State) (vf : Nat) : List Nat :=
  match pending s vf with
  | [] => []
  | f :: r =>
    if 64 ≤ (launchOf s f).pass then [f]
    else f :: ((r.takeWhile fun l => (launchOf s f).pkt.prio ≤ (launchOf s l).pkt.prio).take 63)
/-- The copies of a block that leave together. -/
def copiesOf (s : State) (blk : Nat) : List Nat := match (blockOf s blk).twin with | some (o, true) => [blk, o] | some (o, false) => [o, blk] | none => [blk]
/-- Fits for the next block of a launch (R251). A block that was evicted by priority comes back to the quad that it left, while the slice
still holds it (R253, R372; log entry 78). -/
def fitsNext (s : State) (sl : Slice) (l : Nat) : Option (List Nat × List Nat) :=
  let k := (launchOf s l).pkt
  match (launchOf s l).saved with
  | b :: _ =>
    let homes := (copiesOf s b).map fun x => (partOf s (blockOf s x).firstPart).core / 4
    if (blockOf s b).victim && homes.all sl.quads.contains then fits s { sl with quads := homes } l k else fits s sl l k
  | [] => fits s sl l k
/-- The next block of a launch placed: an evicted one first (R253). -/
def placeNext (s : State) (l : Nat) (cs : List Nat × List Nat) : State :=
  match (launchOf s l).saved with
  | b :: r =>
    let s := restoreBlock (setLaunch s l fun x => { x with saved := r }) b cs.1
    match (blockOf s b).twin with
    | some (t, _) => restoreBlock s t cs.2
    | none => s
  | [] => placeBlock s l cs
/-- T0 from the reports (R38): 5,000 ns after the latest, rounded up to a multiple of 80 ns. -/
def startInstant (ready : List (Nat × Dword)) : Nat :=
  let m := ready.foldl (fun m x => max m x.2.toNat) 0
  (m + 5000 + 79) / 80 * 80
/-- All reports are in. -/
def replSettle (s : State) (l : Nat) : State :=
  let x := launchOf s l
  match x.repl with
  | some r =>
    if r.dev == 0 && r.t0.isNone && x.alive && x.pkt.repl ≤ (r.ready.map (·.1)).eraseDups.length then
      let t := BitVec.ofNat 64 (startInstant r.ready)
      let s := setLaunch s l fun y => { y with repl := some { r with t0 := some t } }
      (List.range (x.pkt.repl - 1)).foldl (fun s p => post s 3 x.vf (p + 1) [t.zeroExtend 256]) s
    else s
  | none => s
/-- Placed blocks' bookkeeping: pass counts, the end of a victim quad, and the report of a replicated launch (R38, R250,
R253). DESIGN CHOICE (log entry 61): a device reports ready once the first block of its launch is reserved, since R38 says only
"its first blocks". -/
def notePlaced (s : State) (vf f l : Nat) : State :=
  let s := setLaunch s f fun x => { x with pass := if f == l then 0 else x.pass + 1 }
  let s := setSlice s vf fun sl => match sl.victimQuad with | some (_, x) => if x == l then { sl with victimQuad := none } else sl | none => sl
  match (launchOf s l).repl with
  | some r =>
    if r.started || (launchOf s l).next != 1 then s
    else if r.dev == 0 then
      replSettle (setLaunch s l fun x => { x with repl := x.repl.map fun r => { r with ready := (0, BitVec.ofNat 64 (timeNs s)) :: r.ready } }) l
    else post s 2 vf l [BitVec.ofNat 256 (timeNs s)]
  | none => s
/-- Since when the first pending launch has failed Fits, attempt upon attempt (R253). -/
def noteFails (s : State) (vf f : Nat) (failed : Bool) : State :=
  { s with launches := s.launches.mapIdx fun l x => if x.vf != vf then x else
      { x with failSince := if l == f && failed then (if x.failSince.isNone then some s.clk else x.failSince) else none } }
/-- BLOCK_PLACEMENT_ATTEMPT (R250): the first launch whose next block fits. -/
def execBlockPlacementAttempt (vf : Nat) (s : State) : Host.Outcome State Fault Refusal :=
  .next (if !(sliceWorks s vf) || (sliceOf s vf).quiesce.any (fun q => q.lost.isSome) then s else
    match examined s vf with
    | [] => s
    | f :: r =>
      match (f :: r).findSome? fun l => (fitsNext s (sliceOf s vf) l).map fun cs => (l, cs) with
      | some (l, cs) => notePlaced (placeNext (noteFails s vf f (l != f)) l cs) vf f l
      | none => noteFails s vf f true)

/-! ### Victims -/

/-- Resident blocks of lower PRIO on a quad. -/
def lowerBlocks (s : State) (vf quad prio : Nat) : List Nat :=
  (List.range s.blocks.length).filter fun b =>
    let x := blockOf s b
    x.vf == vf && x.status == .resident && (launchOf s x.launch).pkt.prio < prio && (partOf s x.firstPart).core / 4 == quad
/-- The state without some blocks, to ask what would then fit. -/
def without (s : State) (bs : List Nat) : State :=
  bs.foldl (fun s b =>
    let x := blockOf s b
    let s := (blockWarps x).foldl (fun s w => setWarp s w fun y => { y with present := false }) s
    (List.range x.nParts).foldl (fun s p => setPart s (x.firstPart + p) fun y => { y with freed := true }) s) s
/-- The fewest blocks of a quad's that must leave for the next block of a launch to fit, a twin or one with a home quad too. -/
def fewest (s : State) (sl : Slice) (l : Nat) (bs : List Nat) : Option Nat :=
  (List.range (bs.length + 1)).find? fun n => (bs.sublistsLen n).any fun x => (fitsNext (without s (x.flatMap (copiesOf s))) sl l).isSome
/-- PRIORITY_VICTIM_MARK (R253): after 20 µs, 34,000 ck. -/
def execPriorityVictimMark (vf : Nat) (s : State) : Host.Outcome State Fault Refusal :=
  let sl := sliceOf s vf
  .next (match pending s vf with
    | [] => s
    | f :: _ =>
      let x := launchOf s f
      let late := match x.failSince with | some t => t + 34000 ≤ s.clk | none => false
      if !(sliceWorks s vf) || !late || sl.victimQuad.isSome || (fitsNext s sl f).isSome then s else
      let costs := sl.quads.filterMap fun q =>
        let bs := lowerBlocks s vf q x.pkt.prio
        if bs.isEmpty then none else (fewest s sl f bs).map fun n => (n, q)
      match costs.foldl (fun (m : Option (Nat × Nat)) c => match m with | none => some c | some y => if c.1 < y.1 then some c else m) none with
      | none => s
      | some (_, q) =>
        let s := (lowerBlocks s vf q x.pkt.prio).foldl (fun s b => setBlock s b fun y => { y with victim := true }) s
        setSlice s vf fun sl => { sl with victimQuad := some (q, f) })
/-- BLOCK_EVICT (R253, R260). -/
def execBlockEvict (blk : Nat) (s : State) : Host.Outcome State Fault Refusal :=
  let bs := copiesOf s blk
  .next (if (blockOf s blk).victim && bs.all (fun b => (blockOf s b).status == .resident && blockAtPoint s b && blockQuiet s b) then
      let s := bs.foldl (fun s b => setBlock (saveBlock s b) b fun x => { x with victim := true }) s
      setLaunch s (blockOf s blk).launch fun l => { l with saved := bs.headD blk :: l.saved }
    else s)

/-! ### Replicated launches -/

/-- A launch fails everywhere (R39): its reserved blocks go, and REPLFAIL is recorded. -/
def replFail (s : State) (l : Nat) : State :=
  let x := launchOf s l
  let mine := (List.range s.blocks.length).filter fun b => (blockOf s b).launch == l && (blockOf s b).status == .reserved
  let s := mine.foldl (fun s b => freeBlock (setBlock s b fun y => { y with status := .discarded }) b) s
  let s := setLaunch s l fun y => { y with alive := false }
  launchRec s x.vf x.ctx 0x47 x.index.toNat 0
/-- The issuing device tells the peers. -/
def replNotice (s : State) (l : Nat) : State :=
  let x := launchOf s l
  match x.repl with
  | some r => if r.dev == 0 then tellPeers s x.vf x.pkt.repl r.gen else s
  | none => s
/-- A replicated launch that has not started. -/
def replWaiting (s : State) (l : Nat) : Bool := (launchOf s l).alive && match (launchOf s l).repl with | some r => !r.started | none => false
/-- REPL_START (R38): the first ck at which TIME is T0 or later; nothing starts in a slice in ERROR (R378). -/
def execReplStart (launch : Nat) (s : State) : Host.Outcome State Fault Refusal :=
  .next (match (launchOf s launch).repl with
    | some r => match r.t0 with
      | some t =>
        let x := launchOf s launch
        if replWaiting s launch && t.toNat ≤ timeNs s && sliceWorks s x.vf && !(ctxOf s x.vf x.ctx).stopped then
          let s := setLaunch s launch fun l => { l with repl := some { r with started := true } }
          { s with blocks := s.blocks.map fun b => if b.launch == launch && b.status == .reserved then { b with status := .resident } else b }
        else s
      | none => s
    | none => s)
/-- REPL_TIMEOUT (R39), on the issuing device. -/
def execReplTimeout (launch : Nat) (s : State) : Host.Outcome State Fault Refusal :=
  .next (match (launchOf s launch).repl with
    | some r => if replWaiting s launch && r.dev == 0 && r.t0.isNone && r.deadline ≤ s.clk then replFail (replNotice s launch) launch else s
    | none => s)
/-- REPL_PACKET_RECEIVE: a peer's launch is checked here (R37, R38). DESIGN CHOICE (log entry 61): a device without the context, or whose
launch table is full, rejects the packet at once, with no cause of R37. Which replica this device is, no rule says where it learns: a
free choice (log entry 9). -/
def execReplPacketReceive (vf c : Nat) (gen : Dword) (pkt : List Byte) (s : State) : Host.Outcome State Fault Refusal :=
  let k := Packet.ofBytes pkt
  let reject (s : State) (cause : Option Nat) : State := post (rejectRepl s vf c 0 cause) 4 vf 0 [gen.zeroExtend 256]
  let cx := ctxOf s vf c
  .next (if !(sliceWorks s vf) || !cx.exists' || cx.stopped || 256 ≤ (launchTable s vf).length then reject s none else
    match validate s vf c pkt with
    | (t, .inl cause) => groupPoison s vf c cause k (reject t (some cause))
    | (s, .inr (gs, o)) =>
      if gen.toNat ≤ (sliceOf s vf).lastGen.toNat then reject s (some 0x46) else
      let (n, s) := choose s
      let s := setSlice s vf fun sl => { sl with lastGen := gen }
      acceptLaunch s vf c 0 k gs o (some { dev := 1 + n % max 1 (k.repl - 1), gen, ready := [], deadline := s.clk + replLimit, t0 := none, started := false }))
/-- REPL_READY_REPORT. -/
def execReplReadyReport (launch dev : Nat) (time : Dword) (s : State) : Host.Outcome State Fault Refusal :=
  let s1 := setLaunch s launch fun x =>
    { x with repl := x.repl.map fun r => if r.dev == 0 && dev < x.pkt.repl then { r with ready := (dev, time) :: r.ready } else r }
  .next (replSettle s1 launch)
/-- REPL_T0_RECEIVE. -/
def execReplT0Receive (launch : Nat) (t0 : Dword) (s : State) : Host.Outcome State Fault Refusal :=
  .next (setLaunch s launch fun x => { x with repl := x.repl.map fun r => if r.t0.isNone && !r.started then { r with t0 := some t0 } else r })
/-- REPL_REJECTION (R39). -/
def execReplRejection (launch : Nat) (s : State) : Host.Outcome State Fault Refusal :=
  .next (if replWaiting s launch then replFail (replNotice s launch) launch else s)

end Sys2Proof.Machine
end

