-- ==== Sys2Proof/Machine/Context.lean ====
section
/-! DEFINITION. Keys, contexts and code loading: bank keys (R88, R269), CREATE and DESTROY (R273, R275), and the loader (R149, R150,
R276). -/

namespace Sys2Proof.Machine

/-! ### Keys -/

/-- Row `i` of a bank key. -/
def keyRow (k : BitVec 84) (i : Nat) : Nat := (k.extractLsb' (6 * i) 6).toNat
/-- Some rows are linearly independent over GF(2). -/
def independent (rows : List Nat) : Bool :=
  (List.range (2 ^ rows.length)).all fun m =>
    m == 0 || ((rows.mapIdx fun i r => if m.testBit i then r else 0).foldl Nat.xor 0) != 0
/-- Row `i` may follow some rows (R88): the low i + 1 bits of the first rows are independent, and so are any six rows in a row. -/
def rowFits (rows : List Nat) (x : Nat) : Bool :=
  let i := rows.length
  if i < 5 then independent ((rows ++ [x]).map (· % 2 ^ (i + 1))) else independent (rows.drop (i - 5) ++ [x])
/-- The two properties of R88. -/
def bankKeyOk (k : BitVec 84) : Bool := (List.range 14).all fun i => rowFits ((List.range i).map (keyRow k)) (keyRow k i)
/-- Each row has 32 values to choose from, so that five bits of a draw choose one, every key as likely as any other (R88). -/
def keyRows (n : Nat) : Nat → List Nat
  | 0 => []
  | i + 1 =>
    let rows := keyRows n i
    rows ++ [((List.range 64).filter (rowFits rows)).getD (n / 32 ^ i % 32) 0]
/-- The bank key of a number of 70 bits. -/
def bankKeyAt (n : Nat) : BitVec 84 := BitVec.ofNat 84 ((keyRows n 14).foldr (fun r k => r + 64 * k) 0)
/-- The bank keys of the contexts that exist. -/
def bankKeys (s : State) : List (BitVec 84) := s.slices.flatMap fun sl => (sl.ctxs.filter (·.exists')).map (·.bankKey)
/-- A key that no context has, from a number on. -/
def unusedKey (used : List (BitVec 84)) : Nat → Nat → BitVec 84
  | 0, n => bankKeyAt n
  | fuel + 1, n => if used.contains (bankKeyAt n) then unusedKey used fuel (n + 1) else bankKeyAt n
/-- A bank key drawn (R88): contexts' keys differ. -/
def drawBankKey (s : State) : BitVec 84 × State :=
  let (n, s) := drawKey s
  (unusedKey (bankKeys s) (bankKeys s).length ((Config.randomBits n).extractLsb' 0 70).toNat, s)

/-! ### CREATE and DESTROY -/

/-- The logical counts that a slice offers (Tables 1-3 and 18-6): 32 tile registers and 64 accumulator tiles a core. -/
def sliceCounts (sl : Slice) : Counts :=
  { cores := sl.lcores.length, warpw := Config.warpw, tiles := 32, accs := 64, ways := 8 * sl.quads.length, chans := 24 * sl.quads.length }
/-- A descriptor's fields (Table 11-7). -/
def CtxDesc.ofBytes (bs : List Byte) : CtxDesc :=
  { ptbase := fieldOf bs 0 8, lqbase := fieldOf bs 8 8, lqlog2 := fieldOf bs 0x10 1, dbg := (bs.getD 0x11 0).getLsbD 0,
    chain := fieldOf bs 0x18 8, chainsize := fieldOf bs 0x20 8, save := fieldOf bs 0x28 8, savesize := fieldOf bs 0x30 8,
    alog := fieldOf bs 0x38 8, alogsize := fieldOf bs 0x40 8 }
/-- Limits of Table 11-7, with the alignments of R74 and R246. -/
def descOk (bs : List Byte) : Bool :=
  let d := CtxDesc.ofBytes bs
  let mib4 := 2 ^ 22
  fieldOf bs 0x11 1 < 2 && fieldOf bs 0x12 6 == 0 && fieldOf bs 0x48 56 == 0 && d.ptbase % 4096 == 0 && 3 ≤ d.lqlog2 && d.lqlog2 ≤ 16 &&
  d.lqbase % (128 * 2 ^ d.lqlog2) == 0 && d.chain % mib4 == 0 && d.chainsize != 0 && d.chainsize % mib4 == 0 &&
  d.save % 65536 == 0 && 2 ^ 28 ≤ d.savesize && d.alog % 4096 == 0 && d.alogsize != 0 && d.alogsize % 4096 == 0
/-- A descriptor read through the slice map; none where it cannot be read. -/
def readDesc (s : State) (vf c : Nat) : State × Option (List Byte) :=
  let ia := ((sliceOf s vf).ctxdesc.extractLsb' 0 52).toNat
  if ia % 128 != 0 || 2 ^ 40 ≤ ia then (s, none) else
  match sliceMap s vf c ia 0 with
  | (s, .err _) => (s, none)
  | (s, .ok pa) =>
    let s := touchLine s pa .normal
    if (List.range 128).any fun k => devPoisoned s (pa + k) then (s, none) else (s, some (devRead s pa 128))
/-- A slice whose contexts can be managed. -/
def sliceOpen (s : State) (vf : Nat) : Bool :=
  let sl := sliceOf s vf
  s.stage == 2 && sl.used && sl.ifst != .error && sl.resetting.isNone
/-- CTXSTAT after a command (R275). DESIGN CHOICE (log entry 27): CREATE and DESTROY end in the step of their write, so that BUSY reads 0. -/
def setCtxStat (s : State) (vf st : Nat) : State := setSlice s vf fun sl => { sl with ctxstat := BitVec.ofNat 64 (256 * st) }
/-- What CREATE makes of a context (R275): what the guest has set up for its number stays. -/
def createCtx (s : State) (vf c : Nat) (d : CtxDesc) : State :=
  let (k, s) := drawBankKey s
  let counts := sliceCounts (sliceOf s vf)
  setCtx s vf c fun x =>
    { x with exists' := true, run := .running, dusk := false, stopped := false, desc := d, bankKey := k, att := 0, next := 0, codes := [],
             counts, moved := false, tail := 0, head := 0, stop := false, fqCount := 0, fqPend := [], fqRead := 0, alcnt := 0, asum := 0,
             dbgCause := 0, dbgTrig := 0, dbgMask := 0, replstat := 0, skips := 0, chains := [] }
/-- CREATE. -/
def execCreate (vf ctx : Nat) (s : State) : Host.Outcome State Fault Refusal :=
  .next (if s.stage != 2 || !(sliceOf s vf).used then s
    else if (ctxOf s vf ctx).exists' then setCtxStat s vf 2
    else if !(sliceOpen s vf) then setCtxStat s vf 1
    else match readDesc s vf ctx with
      | (s, some bs) => if descOk bs then setCtxStat (createCtx s vf ctx (CtxDesc.ofBytes bs)) vf 0 else setCtxStat s vf 1
      | (s, none) => setCtxStat s vf 1)

/-- Entries of a context leave the core caches and TLBs (R80, R105). -/
def dropCaches (s : State) (vf c : Nat) : State :=
  let other (x : Nat) : Bool := x / 2 ^ 45 != vf * 64 + c
  { s with cores := s.cores.map fun k =>
      { k with l0 := k.l0.filter fun x => other x.1, fills := k.fills.filter fun x => other x.1, ccache := k.ccache.filter other,
               l1 := k.l1.filter fun x => !(x.vf == vf && x.ctx == c), tlb := k.tlb.filter fun x => !(x.vf == vf && x.ctx == c) } }
/-- A block goes, but for what stands in its store queues and, of a primary, in its holding areas (R102). -/
def dropButStores (s : State) (x : Nat) : State :=
  let s := letHeldGo s x
  (blockWarps (blockOf s x)).foldl (fun t w => setWarp t w fun y =>
    { y with queue := (warpOf s w).queue, held := (warpOf s w).held, matched := (warpOf s w).matched }) (dropBlock s x)
/-- What a context has under way is discarded, with no DONE (R275). Its stores go on to their homes (R102). -/
def discardWork (s : State) (vf c : Nat) : State :=
  let gone (o : EngOp) : Bool := o.vf == vf && o.ctx == c
  let ids := (s.ops.filter gone).map (·.id)
  let s := { s with launches := s.launches.map fun l => if l.vf == vf && l.ctx == c then
                      { l with alive := false, discarded := true, next := l.total, saved := [], repl := none } else l }
  let live := (ctxBlocks s vf c).filter fun b => match (blockOf s b).status with | .resident | .reserved | .saved => true | _ => false
  let s := live.foldl dropButStores s
  { s with ops := s.ops.filter fun o => !(gone o), loads := s.loads.filter fun l => !(l.vf == vf && l.ctx == c),
           formed := s.formed.filter fun u => !(u.vf == vf && u.ctx == c),
           slices := modAt s.slices vf fun sl =>
             { sl with runs := sl.runs.map fun r => { r with writes := r.writes.map fun w => if ids.contains w.2.2 then (w.1, w.2.1, 0) else w } },
           cores := s.cores.map fun k => { k with cubeRes := k.cubeRes.filter fun r => !(ids.contains r.op) } }
/-- DESTROY's effect on a context: the registers of its fault queue stay until CREATE (R372). -/
def destroyCtx (s : State) (vf c : Nat) : State :=
  let s := dropCaches (discardWork s vf c) vf c
  setCtx s vf c fun x =>
    { x with exists' := false, run := .running, dusk := false, stopped := false, codes := [], tail := 0, head := 0, stop := false,
             fqPend := [], att := 0, next := 0, chains := [] }
/-- DESTROY. -/
def execDestroy (vf ctx : Nat) (s : State) : Host.Outcome State Fault Refusal :=
  .next (if s.stage != 2 || !(sliceOf s vf).used then s
    else if !((ctxOf s vf ctx).exists') then setCtxStat s vf 3
    else setCtxStat (destroyCtx s vf ctx) vf 0)

/-! ### Code loading -/

/-- Checks 1 to 5 of Table 6-16 on a header: the status of the first that fails. DESIGN CHOICE (log entry 95): with CONSTSIZE 0 a
CONSTOFF other than 0 fails, although it be a multiple of 16. -/
def headerStatus (stepping : Byte) (h : List Byte) : Nat :=
  let f (o n : Nat) : Nat := fieldOf h o n
  let exp := f 8 2
  let total := f 0x0C 4
  let inside (o n : Nat) : Bool := o + n ≤ total
  if f 0 4 != 0x36534B5A || f 4 1 != 1 then 1
  else if f 5 1 != 2 then 2
  else if f 6 1 != 0xFF && f 6 1 != stepping.toNat then 3
  else if (if stepping == 0x11 then 2 ≤ exp else exp != 0) || (exp != 0 && f 6 1 == 0xFF) then 4
  else if f 7 1 != 0 || f 0x2C 84 != 0 || total % 256 != 0 || total < 128 || f 0x10 4 % 128 != 0 || !(inside (f 0x10 4) (f 0x14 4)) ||
      65536 < f 0x1C 4 || (if f 0x1C 4 == 0 then f 0x18 4 != 0 else f 0x18 4 % 16 != 0 || !(inside (f 0x18 4) (f 0x1C 4))) ||
      f 0x0A 2 == 0 || 1024 < f 0x0A 2 || f 0x20 4 % 32 != 0 || !(inside (f 0x20 4) (32 * f 0x0A 2)) || !(inside (f 0x24 4) (f 0x28 4)) then 5
  else 0
/-- Check 5 on a kernel descriptor. -/
def kernelLayoutOk (total : Nat) (d : List Byte) : Bool :=
  let g := fieldOf d 8 4
  fieldOf d 0x13 1 == 0 && fieldOf d 0x16 2 == 0 && (g == 0 || (g % 256 == 0 && g + 8192 ≤ total))
/-- Check 6 on a kernel descriptor. -/
def kernelOk (off size : Nat) (d : List Byte) : Bool :=
  let f (o n : Nat) : Nat := fieldOf d o n
  let entry (e : Nat) : Bool := off ≤ e && e < off + size && e % 4 == 0
  entry (f 0 4) && (f 4 4 == 0xFFFFFFFF || entry (f 4 4)) && 1 ≤ f 0x0C 2 && f 0x0C 2 ≤ 12288 && 1 ≤ f 0x0E 1 && f 0x0E 1 ≤ 4 &&
  1 ≤ f 0x0F 1 && f 0x0F 1 ≤ 255 && 1 ≤ f 0x10 1 && f 0x10 1 ≤ 64 && f 0x11 1 ≤ 32 && f 0x12 1 ≤ 64 && f 0x14 2 ≤ 768 && f 0x18 4 ≤ 3
/-- The kernel descriptors of an object. -/
def kernels (bs : List Byte) : List (List Byte) := (List.range (fieldOf bs 0x0A 2)).map fun i => (bs.drop (fieldOf bs 0x20 4 + 32 * i)).take 32
/-- Checks on the whole object after those on its header. -/
def objectStatus (bs : List Byte) : Nat :=
  if !((kernels bs).all (kernelLayoutOk (fieldOf bs 0x0C 4))) then 5
  else if !((kernels bs).all (kernelOk (fieldOf bs 0x10 4) (fieldOf bs 0x14 4))) then 6 else 0
/-- An object at an address refused: what was admitted there is removed (R37). -/
def refuseCode (s : State) (vf c va : Nat) : State := setCtx s vf c fun x => { x with codes := x.codes.filter (·.addr != va) }
/-- An admitted object: ATT and NEXT extended together (R276, R388), its sections kept (R37, R328). -/
def admitCode (s : State) (vf c va : Nat) (bs : List Byte) : State :=
  let code : Code := ⟨va, fieldOf bs 0x10 4, fieldOf bs 0x14 4, fieldOf bs 0x18 4, fieldOf bs 0x1C 4, BitVec.ofNat 16 (fieldOf bs 8 2)⟩
  setCtx s vf c fun x =>
    { x with att := reg256 (sha256 (bytesOf 32 x.att.toNat ++ sha256 bs)), next := x.next + 1, codes := code :: x.codes.filter (·.addr != va) }
/-- The object at an address read and checked: the status, and the state (R149, R276). -/
def loadCode (s : State) (vf c va : Nat) : State × Nat :=
  if !((ctxOf s vf c).exists') || !(sliceOpen s vf) then (s, 7) else
  match cpRead vf c va 128 s with
  | (s, .err e) => (walkPoison s vf c va e, 7)
  | (s, .ok h) =>
    let st := headerStatus s.stepping h
    if st != 0 then (refuseCode s vf c va, st)
    else if va % 256 != 0 then (refuseCode s vf c va, 5)
    else match cpRead vf c va (fieldOf h 0x0C 4) s with
      | (s, .err e) => (walkPoison s vf c va e, 7)
      | (s, .ok bs) =>
        let st := objectStatus bs
        if st != 0 then (refuseCode s vf c va, st) else (admitCode s vf c va bs, 0)
/-- CODE_LOAD (R275, R276). DESIGN CHOICE (log entry 27): a load ends in the step of its write, so that LOADSTAT.BUSY reads 0. -/
def execCodeLoad (vf ctx : Nat) (s : State) : Host.Outcome State Fault Refusal :=
  .next (if s.stage != 2 || !(sliceOf s vf).used then s else
    let (s, st) := loadCode s vf ctx ((sliceOf s vf).loadaddr.extractLsb' 0 52).toNat
    setSlice s vf fun sl => { sl with loadstat := BitVec.ofNat 64 (256 * st + (ctxOf s vf ctx).next.toNat * 2 ^ 32) })

end Sys2Proof.Machine
end

