-- ==== Sys2Proof/Machine/Slices.lean ====
section
/-! DEFINITION. Slices: the PF mailbox (R263, R264), assignment and release (R262, R270, R379), quiesce and resume (R283 to R289, R370
to R373), merge and split (R290, R291), the removal of a core (R374, R375), and the commands that set a slice up (R77, R278 to R281,
R385). -/

namespace Sys2Proof.Machine

/-! ### The mailbox -/

/-- A command ends with a status (R263). -/
def pfDone (s : State) (status : Nat) : State := signal { s with pfBusy := false, pfStatus := BitVec.ofNat 8 status } 0 0
/-- A write of PFCMD: ignored while BUSY or before Dawn stage, refused before Noon stage (R15, R263). Once a shared unit has failed every
command ends with STATE (R381, log entry 101). -/
def pfCommand (s : State) (go : State → State) : Host.Outcome State Fault Refusal :=
  .next (if s.stage == 0 || s.pfBusy then s else if s.stage != 2 then pfDone s 1 else if s.sharedFail then pfDone s 5 else go s)
/-- A slice in ERROR or in a reset. -/
def sliceDown (s : State) (vf : Nat) : Bool := let sl := sliceOf s vf; sl.used && (sl.ifst == .error || sl.resetting.isSome)
/-- A command on a slice: VFBUSY where there is none, STATE where it is in ERROR or in a reset (R378). -/
def onSlice (s : State) (vf : Nat) (go : State → State) : State :=
  if !(sliceOf s vf).used then pfDone s 4 else if sliceDown s vf then pfDone s 5 else go s
/-- The configuration is locked (R266). -/
def sliceLocked (sl : Slice) : Bool := sl.ifst == .locked || sl.ifst == .run
/-- A command that a lock refuses, and logs with the PFCMD value as it was written (R385). -/
def lockRefused (s : State) (vf op : Nat) (cmd : PfArg) : State :=
  pfDone (lockLog s vf 0x0400 1 (BitVec.ofNat 64 (op + (vf - 1) * 2 ^ 8 + cmd.unused.toNat * 2 ^ 12 + cmd.arg.toNat * 2 ^ 32))) 6
/-- PFCMD with a reserved code. -/
def execPfcmdReserved (_op : Byte) (s : State) : Host.Outcome State Fault Refusal := pfCommand s fun s => pfDone s 2

/-! ### Quads, measurement 3, policy -/

/-- Quads of a mask, ascending. -/
def maskQuads (m : Half) : List Nat := (List.range 16).filter m.getLsbD
def quadsMask (qs : List Nat) : Nat := qs.foldl (fun m q => m + 2 ^ q) 0
/-- Cores in service of some quads, in the order of the quads. -/
def coresOf (s : State) (qs : List Nat) : List Nat := qs.flatMap fun q => ((List.range 4).map (4 * q + ·)).filter fun c => (coreOf s c).inService
/-- Every context of a slice is suspended (R282). -/
def suspended (sl : Slice) : Bool := sl.ctxs.all fun c => !c.exists' || c.run == .suspended
/-- Measurement 3 (Table 11-6): the order of the register images is the model's (log entry 23). -/
def measure3 (sl : Slice) : BitVec 256 :=
  reg256 (sha256 (bytesOf 2 (quadsMask sl.quads) ++ bytesOf 4 sl.slpolicy.toNat ++ bytesOf 2 sl.allow ++ bytesOf 1 sl.runlen ++
    sl.routes.flatMap (fun r => bytesOf 2 r.1.toNat ++ bytesOf 4 r.2.toNat) ++ sl.peers.flatMap fun p => bytesOf 2 p.entry.toNat))
def remeasure (s : State) (vf : Nat) : State := setSlice s vf fun sl => { sl with meas3 := measure3 sl }
/-- A slice's policy admits some quads (Table 11-5). -/
def policyAdmits (sl : Slice) (qs : List Nat) : Bool :=
  let p := sl.slpolicy
  qs.all (fun q => p.getLsbD q) && (p.extractLsb' 16 5).toNat ≤ qs.length && qs.length ≤ (p.extractLsb' 21 5).toNat
/-- Units of send allowance of the slices other than some (R281). -/
def unitsBut (s : State) (vfs : List Nat) : Nat := (s.slices.filter fun sl => !(vfs.contains sl.vf)).foldl (fun n sl => n + sl.allow) 0
/-- A quad of no slice whose channels carry no flag (R262, R382). -/
def quadIdle (s : State) (q : Nat) : Bool := !(s.slices.any fun sl => sl.used && sl.quads.contains q) && (quadChans q).all fun c => !(chanReg s c).pend

/-! ### Keys and scrubs -/

/-- Memory keys installed in the channels of some quads (R269). -/
def installKey (s : State) (qs : List Nat) (k : Nat) : State := (qs.flatMap quadChans).foldl (fun s c => setChan s c fun x => { x with key := k }) s
/-- ck within which a sweep of 2 GiB at 100 GB/s ends: the model takes the whole of it (R379, log entry 4). -/
def sweepCk : Nat := 36507222
/-- Nothing of some quads is left in L2 or the memory-side cache. -/
def forget (s : State) (qs : List Nat) : State := dropLines s qs
/-- A Midnight scrub of some quads starts (R270, R382): flags first, then the key is destroyed and a fresh one drawn, and the sweep
begins. -/
def startScrub (s : State) (qs : List Nat) : State :=
  let (k, s) := drawKey s
  forget ((qs.flatMap quadChans).foldl (fun s c => setChan s c fun x => { x with pend := true, key := k, sweep := some (s.clk + sweepCk) }) s) qs
/-- Bytes, poison and DRAM errors of some addresses, by a test, swept to zero. -/
def sweepBytes (s : State) (here : Nat → Bool) : State :=
  { s with mem := memClear s.mem here, poison := s.poison.filter fun k => !(here (32 * k)), dramErr := s.dramErr.filter fun e => !(here (64 * e.1)) }

/-! ### Assignment and slice reset -/

/-- Slice VF `vf` made of some quads (R262, Table 11-2). -/
def makeSlice (s : State) (vf : Nat) (qs : List Nat) (allow : Nat) : State :=
  let (k, s) := drawKey s
  let lcores := coresOf s qs
  let s := setSlice s vf fun sl => { Slice.none vf with used := true, quads := qs, lcores, key := k, allow, hvclaim := sl.hvclaim }
  remeasure (installKey s qs k) vf
/-- ASSIGN; one that names a VF in ERROR or in a reset answers STATE (R378). -/
def execAssign (vfa : Nat) (qmask : Half) (s : State) : Host.Outcome State Fault Refusal := pfCommand s fun s =>
  let qs := maskQuads qmask
  if sliceDown s vfa then pfDone s 5
  else if qs.isEmpty then pfDone s 2
  else if (sliceOf s vfa).used then pfDone s 4
  else if !(qs.all (quadIdle s)) then pfDone s 3
  else pfDone (makeSlice s vfa qs (min (16 * qs.length) (256 - unitsBut s []))) 0
/-- Step 5 of R375. -/
def noteLost (s : State) (core : Nat) : State := signal { s with replreq := true, corelost := s.corelost ||| (1#64 <<< core) } 0 2
/-- Cores of a slice that are out of service and still have their logical numbers leave it by step 5 alone, there being no context to
shrink (R380). -/
def dropLost (s : State) (vf : Nat) : State :=
  let out := (sliceOf s vf).lcores.filter fun c => !((coreOf s c).inService)
  out.foldl noteLost (setSlice s vf fun sl => { sl with lcores := sl.lcores.filter fun c => !(out.contains c) })
/-- A slice reset begins (R379): contexts destroyed, lines invalidated, channels scrubbed. `release` says what follows it; it
clears SLERR but for ERR, which stands until the interface leaves ERROR (R377). -/
def startReset (s : State) (vf : Nat) (release : Bool) : State :=
  let s := if (sliceOf s vf).quiesce.any (·.mailbox) then pfDone s 5 else s
  let s := (liveCtxs (sliceOf s vf)).foldl (fun s c => destroyCtx s vf c) s
  let s := startScrub (dropLost s vf) (sliceOf s vf).quads
  setSlice s vf fun sl =>
    { sl with resetting := some release, ctxs := (List.range 64).map Ctx.none, runs := [], fabOut := [], quiesce := none, reshaped := false, victimQuad := none,
              trace := List.replicate 4 TraceUnit.reset, hvheld := [], gen := 0, lastGen := 0, lastCtx := 63, ctxstat := 0, loadstat := 0,
              peers := sl.peers.map fun p => { p with keys := false, rxHeld := [] },
              slerr := if release then sl.slerr &&& 1 else sl.slerr, erraddr := if release then 0 else sl.erraddr }
/-- What follows once every channel of a slice in reset is swept (R270, R379): a RELEASE has then ended. Nothing is left that could
still write to them. None succeeds once a shared unit has failed (R381). -/
def endReset (s : State) (vf : Nat) : State :=
  let sl := sliceOf s vf
  match sl.resetting with
  | none => s
  | some release =>
    if s.sharedFail || s.pfShape.any (fun x => match x with | .merge _ b => b == vf | _ => false) || (sl.quads.flatMap quadChans).any fun c => (chanReg s c).pend then s
    else
    let s := { s with flights := s.flights.filter (·.vf != vf),
                      warps := s.warps.map fun w => if (blockOf s w.blk).vf == vf then { w with queue := [], held := [] } else w }
    if release then pfDone (setSlice s vf fun _ => { Slice.none vf with hvclaim := sl.hvclaim }) 0
    else
      let k := (chanReg s ((quadChans (sl.quads.headD 0)).headD 0)).key
      setSlice (installKey s sl.quads k) vf fun sl => { sl with resetting := none, ifst := .unlocked, key := k, slerr := sl.slerr &&& ~~~1 }
/-- RELEASE, which an interface in ERROR accepts (R378, R379); none succeeds once a shared unit has failed (R381). -/
def execRelease (vfa : Nat) (s : State) : Host.Outcome State Fault Refusal := pfCommand s fun s =>
  let sl := sliceOf s vfa
  if !sl.used then pfDone s 4
  else if sl.resetting.isSome || s.sharedFail then pfDone s 5
  else { startReset s vfa true with pfBusy := true }

/-! ### Quiesce -/

/-- Contexts that ARG names: those that exist, or one. -/
def argCtxs (sl : Slice) (arg : Word) : List Nat := if arg.getLsbD 6 then liveCtxs sl else [(arg.extractLsb' 0 6).toNat]
/-- Step 1 of R283: queues are no longer read, dusk arming applies. -/
def beginQuiesce (s : State) (vf : Nat) (cs : List Nat) (mailbox : Bool) (ck : Nat) (lost : Option Nat) : State :=
  let s := cs.foldl (fun s c => setCtx s vf c fun x => { x with run := .quiescing, dusk := true }) s
  let s := { s with launches := s.launches.map fun l => if l.vf == vf && cs.contains l.ctx then { l with failSince := none } else l }
  setSlice s vf fun sl => { sl with quiesce := some ⟨cs, mailbox, s.clk + ck, lost⟩ }
/-- QUIESCE: 1 µs is 1,700 ck. -/
def execQuiesce (vfa : Nat) (arg : Word) (s : State) : Host.Outcome State Fault Refusal := pfCommand s fun s => onSlice s vfa fun s =>
  let sl := sliceOf s vfa
  let all := argCtxs sl arg
  let running (c : Nat) : Bool := (ctxOf s vfa c).exists' && (ctxOf s vfa c).run == .running
  let cs := all.filter running
  let us := (arg.extractLsb' 8 24).toNat
  if sl.quiesce.isSome || (cs.isEmpty && (!(arg.getLsbD 6) || !all.isEmpty)) then pfDone s 5
  else { beginQuiesce s vfa cs true (1700 * if us == 0 then 10000 else us) none with pfBusy := true }
/-- Resident blocks of some contexts. -/
def residentOf (s : State) (vf : Nat) (cs : List Nat) : List Nat :=
  (List.range s.blocks.length).filter fun b => let x := blockOf s b; x.vf == vf && cs.contains x.ctx && x.status == .resident
/-- An operation stands at its checkpoint (R284, R348). -/
def opAtRest (s : State) (o : EngOp) : Bool :=
  !(s.flights.any fun f => f.op == some o.id) && !((coreOf s o.core).cubeRes.any fun x => x.op == o.id) &&
  !((sliceOf s o.vf).runs.any fun r => r.writes.any fun w => w.2.2 == o.id) &&
  (o.parked.isSome || o.walk.isSome || (!o.issued && !o.bytes.isEmpty && (o.type == 0x12 || o.type == 0x13 || o.type == 6 ||
    (o.type == 0x0A && (o.copyRec.arg != 0 || !(markerTurn s o))))))
/-- The engines of some contexts are at their checkpoints. -/
def enginesAtRest (s : State) (vf : Nat) (cs : List Nat) : Bool := s.ops.all fun o => o.vf != vf || !(cs.contains o.ctx) || opAtRest s o
/-- Step 4: every block saved, reserved ones too, and the contexts suspended. -/
def saveAll (s : State) (vf : Nat) (cs : List Nat) : State :=
  let bs := (List.range s.blocks.length).filter fun b =>
    let x := blockOf s b
    x.vf == vf && cs.contains x.ctx && (x.status == .resident || x.status == .reserved)
  let s := bs.foldl saveBlock s
  let counts := sliceCounts (sliceOf s vf)
  let s := { s with launches := s.launches.map fun l => if l.vf == vf && cs.contains l.ctx then { l with failSince := none } else l }
  cs.foldl (fun s c => setCtx s vf c fun x => { x with run := .suspended, counts }) s

/-! ### Renumbering and resuming -/

/-- The bytes of one logical core's rings, slot by slot; none where they cannot be read. -/
def readRings (s : State) (vf c lc : Nat) : State × List (Option (List Byte)) :=
  (List.range 1024).foldl (fun (a : State × List (Option (List Byte))) k =>
    let cx := ctxOf a.1 vf c
    match cpRead vf c (cx.desc.chain + 65536 * lc + 64 * k) 64 a.1 with
    | (s, .ok bs) => (s, a.2 ++ [some bs])
    | (s, .err e) => (walkPoison s vf c (cx.desc.chain + 65536 * lc + 64 * k) e, a.2 ++ [none])) (s, [])
def writeRings (s : State) (vf c lc : Nat) (slots : List (Option (List Byte))) : State :=
  (slots.mapIdx fun k x => (k, x)).foldl (fun s (k, x) => match x with
    | some bs =>
      let va := (ctxOf s vf c).desc.chain + 65536 * lc + 64 * k
      match cpWrite s vf c va bs with
      | (s, .ok _) => s
      | (s, .err e) => walkPoison s vf c va e
    | none => s) s
/-- The rings of a context move with their logical cores (R274, R291, R375). -/
def moveRings (s : State) (vf c : Nat) (moves : List (Nat × Nat)) : State :=
  let (s, old) := moves.foldl (fun (a : State × List (Nat × List (Option (List Byte)))) (m : Nat × Nat) =>
    let (s, x) := readRings a.1 vf c m.1
    (s, a.2 ++ [(m.2, x)])) (s, [])
  old.foldl (fun s (n, x) => writeRings s vf c n x) s
/-- A saved wait on a number under new logical numbers; one on a core that is gone is over (R287, R375). -/
def renumberBundle (f : Nat → Option Nat) (b : Bundle) : Bundle :=
  match b.hold with
  | some (.seq e l n) => match f l with
    | some m => { b with hold := some (.seq e m n) }
    | none => { b with hold := some (.seq e 0 0) }
  | _ => b
/-- Logical cores of a slice take new numbers; none is a core that is gone (R288, R291, R375). -/
def renumber (s : State) (vf n : Nat) (f : Nat → Option Nat) : State :=
  let moves := (List.range n).filterMap fun i => (f i).bind fun j => if i == j then none else some (i, j)
  let s := (liveCtxs (sliceOf s vf)).foldl (fun s c =>
    let s := moveRings s vf c moves
    setCtx s vf c fun x => { x with chains := x.chains.filterMap fun h => (f h.lcore).map fun l => { h with lcore := l } }) s
  { s with warps := s.warps.map fun w => if (blockOf s w.blk).vf == vf then { w with bundles := w.bundles.map (renumberBundle f) } else w,
           ops := s.ops.filterMap fun o => if o.vf == vf then (f o.lcore).map fun l => { o with lcore := l } else some o }
/-- The figures of a slice's suspended contexts follow its shape (R293). -/
def recount (s : State) (vf : Nat) : State :=
  let counts := sliceCounts (sliceOf s vf)
  (liveCtxs (sliceOf s vf)).foldl (fun s c => setCtx s vf c fun x => { x with counts, moved := true }) s
/-- Cores of a block's parts. -/
def partCores (s : State) (blk : Nat) : List Nat := (List.range (blockOf s blk).nParts).map fun p => (partOf s ((blockOf s blk).firstPart + p)).core
/-- A block can stay where it was (R288): its cores are still the slice's, and have room. -/
def canStay (s : State) (blk : Nat) : Bool :=
  let b := blockOf s blk
  let k := (launchOf s b.launch).pkt
  (partCores s blk).all fun c => (sliceOf s b.vf).lcores.contains c && coreFits s c (k.warps / k.parts) k
/-- Blocks that a quiesce has saved: not those that wait to be placed again after an eviction. A twin goes with its primary. -/
def quiesced (s : State) (vf c : Nat) : List Nat :=
  (ctxBlocks s vf c).filter fun b =>
    let x := blockOf s b
    x.status == .saved && !((launchOf s x.launch).saved.contains b) && (match x.twin with | some (_, false) => false | _ => true)
/-- Step 6 for a context (R283, R287, R288, R372). -/
def resumeCtx (s : State) (vf c : Nat) : State :=
  let moved := (ctxOf s vf c).moved
  let s := setCtx s vf c fun x => { x with run := .running, dusk := false, moved := false }
  let lcores := (sliceOf s vf).lcores
  let s := { s with ops := s.ops.map fun o => if o.vf == vf && o.ctx == c then
      { o with core := lcores.getD o.lcore o.core, parked := o.parked.map fun p => (p.1, true), ready := s.clk } else o }
  let stay (s : State) (b : Nat) : State :=
    if moved && (copiesOf s b).all (canStay s) then (copiesOf s b).foldl (fun s x => restoreBlock s x (partCores s x)) s else s
  let s := (quiesced s vf c).foldl stay s
  (quiesced s vf c).reverse.foldl (fun s b => setLaunch s (blockOf s b).launch fun l => { l with saved := b :: l.saved }) s
/-- TLB entries of a slice, and lines that a core has fetched through them, are discarded before its contexts resume (R77). -/
def dropTlb (s : State) (vf : Nat) : State :=
  let other (x : Nat) : Bool := x / 2 ^ 45 / 64 != vf
  { s with cores := s.cores.map fun k =>
      { k with tlb := k.tlb.filter (·.vf != vf), l0 := k.l0.filter fun x => other x.1, fills := k.fills.filter fun x => other x.1,
               ccache := k.ccache.filter other } }
/-- The figures of an image fit a slice (Table 18-6). -/
def offers (sl : Slice) (n : Counts) : Bool :=
  let x := sliceCounts sl
  n.cores ≤ x.cores && n.warpw == x.warpw && n.tiles == x.tiles && n.accs == x.accs && n.ways ≤ x.ways && n.chans ≤ x.chans
/-- RESUME. -/
def execResume (vfa : Nat) (arg : Word) (s : State) : Host.Outcome State Fault Refusal := pfCommand s fun s => onSlice s vfa fun s =>
  let sl := sliceOf s vfa
  let cs := (argCtxs sl arg).filter fun c => (ctxOf s vfa c).exists' && (ctxOf s vfa c).run == .suspended
  if sl.quiesce.isSome || (cs.isEmpty && (!(arg.getLsbD 6) || !(liveCtxs sl).isEmpty)) then pfDone s 5
  else if !(cs.all fun c => offers sl (ctxOf s vfa c).counts) then pfDone s 9
  else
    let s := setSlice (dropTlb s vfa) vfa fun sl => { sl with topo := if sl.reshaped then sl.topo + 1 else sl.topo, reshaped := false }
    pfDone (cs.foldl (fun s c => resumeCtx s vfa c) (signal s vfa 1)) 0

/-! ### A core lost -/

/-- The slice that holds a core. -/
def sliceOfCore (s : State) (core : Nat) : Option Nat := (s.slices.find? fun sl => sl.used && sl.lcores.contains core).map (·.vf)
/-- The record of a block that a removed core ends (Table 18-2, kind 3). -/
def lostRec (s : State) (blk core : Nat) : State :=
  let log := ((partCores s blk).findIdx? (· == core)).getD 0
  formRec s blk (recKey 1 2 0) ⟨8, 0x1C, 0, 0xFF, log, 0, 0, 0, 0, 0, 0, core, 3 * 2 ^ 12⟩ .none
/-- A core is removed (R374, R375, R380): it issues nothing more, and the blocks on it halt to be discarded. A slice left without
a core in service enters ERROR; a core of no slice changes CORELOST and DEVSTAT alone. -/
def removeCore (s : State) (core : Nat) : State :=
  if !((coreOf s core).inService) then s else
  let s := setCore s core fun c => { c with inService := false, xiHold := [none, none, none, none] }
  match sliceOfCore s core with
  | none => { s with replreq := true, corelost := s.corelost ||| (1#64 <<< core) }
  | some vf =>
    let sl := sliceOf s vf
    if sliceDown s vf then dropLost s vf
    else if sl.lcores.all fun c => !((coreOf s c).inService) then dropLost (enterError s vf 0 5 0) vf
    else
      let mine := (List.range s.blocks.length).filter fun b =>
        ((blockOf s b).status == .resident || (blockOf s b).status == .reserved) && (partCores s b).contains core
      mine.foldl (fun s b => haltBlock (lostRec s b core) b true) s
/-- CORE_SELF_TEST (R374): the test of an idle core has ended. -/
def execCoreSelfTest (core : Nat) (pass : Bool) (s : State) : Host.Outcome State Fault Refusal :=
  .next (if s.stage == 0 || pass then s else removeCore s core)
/-- A core of a slice that is out of service and still has its logical number. -/
def lostCore (s : State) (sl : Slice) : Option Nat := sl.lcores.find? fun c => !((coreOf s c).inService)
/-- The lost core's records that have not ended complete without effect (R375, step 3). -/
def endChains (s : State) (vf lc : Nat) : State :=
  let gone (o : EngOp) : Bool := o.vf == vf && o.lcore == lc
  let s := { s with ops := s.ops.filter fun o => !(gone o) }
  (liveCtxs (sliceOf s vf)).foldl (fun s c => setCtx s vf c fun x =>
    { x with chains := x.chains.map fun h => if h.lcore == lc then { h with comp := h.seq, recs := [], doneNums := [], head := h.tail } else h }) s
/-- Steps 3 to 5 of R375, every context being suspended. -/
def finishLost (s : State) (vf core : Nat) (cs : List Nat) : State :=
  let sl := sliceOf s vf
  let lc := logicalCore s vf core
  let last := sl.lcores.length - 1
  let s := endChains s vf lc
  let mine := (List.range s.blocks.length).filter fun b =>
    (blockOf s b).vf == vf && ((blockOf s b).status == .resident || (blockOf s b).status == .saved) && (partCores s b).contains core &&
    (blockOf s b).halt.any (·.force)
  let s := mine.foldl discardBlock s
  let s := renumber s vf (last + 1) fun i => if i == lc then none else if i == last then some lc else some i
  let lcores := (modAt sl.lcores lc fun _ => sl.lcores.getD last core).take last
  let s := recount (setSlice s vf fun sl => { sl with lcores, quiesce := none, topo := sl.topo + 1 }) vf
  noteLost (cs.foldl (fun s c => resumeCtx s vf c) (signal (dropTlb s vf) vf 1)) core
/-- QUIESCE_SAVE (R283, R284, R375): steps 2 to 4, each as soon as it can be done. A core that has been lost starts a quiesce of its
own. -/
def execQuiesceSave (vf : Nat) (s : State) : Host.Outcome State Fault Refusal :=
  let sl := sliceOf s vf
  .next (match sl.quiesce with
    | none =>
      match lostCore s sl with
      | some core =>
        if sliceDown s vf then dropLost s vf else if s.pfShape.isSome then s else
        beginQuiesce s vf ((liveCtxs sl).filter fun c => (ctxOf s vf c).run == .running) false 17000000 (some core)
      | none => s
    | some q =>
      let cs := q.ctxs.filter fun c => (ctxOf s vf c).exists'
      if sl.ifst == .error then
        let s := dropLost (setSlice s vf fun sl => { sl with quiesce := none }) vf
        if q.mailbox then pfDone s 5 else s
      else if cs.any fun c => (ctxOf s vf c).run == .quiescing then
        if (residentOf s vf cs).all (blockAtPoint s) then cs.foldl (fun s c => setCtx s vf c fun x => { x with run := .stopping }) s else s
      else if !(enginesAtRest s vf cs) || !((residentOf s vf cs).all (blockQuiet s)) then s
      else
        let s := saveAll s vf cs
        match q.lost with
        | some core => finishLost s vf core cs
        | none => pfDone (setSlice s vf fun sl => { sl with quiesce := none }) 0)
/-- The warp or lead of a block that a timeout names, and its bundle (R371). -/
def lateWarp (s : State) (blk : Nat) : Option (Nat × Bundle) :=
  (liveWarps s (blockOf s blk)).findSome? fun w =>
    let wp := warpOf s w
    if warpBlocked wp then none
    else (lowestBundle { wp with bundles := wp.bundles.filter fun b => !(bundleBlocked b || bundleHeld wp b) }).map fun b => (w, b)
/-- The kind 2 records of a timeout. -/
def timeoutRecs (s : State) (bs : List Nat) : State :=
  bs.foldl (fun s b => match lateWarp s b with | some (w, x) => monitorRec s w x 2 0 | none => s) s
/-- QUIESCE_TIMEOUT (R370, R371, R375): dusk parks end as the next ck begins. -/
def execQuiesceTimeout (vf : Nat) (s : State) : Host.Outcome State Fault Refusal :=
  .next (match (sliceOf s vf).quiesce with
    | none => s
    | some q =>
      let cs := q.ctxs.filter fun c => (ctxOf s vf c).run == .quiescing
      if cs.isEmpty || s.clk < q.deadline then s else
      let late := (residentOf s vf cs).filter fun b => !(blockAtPoint s b) && (blockOf s b).halt.isNone
      let s := timeoutRecs s late
      if q.lost.isSome then
        late.foldl (fun s b => haltBlock s b true) (setSlice s vf fun sl => { sl with quiesce := some { q with deadline := 2 ^ 64 } })
      else
        let s := cs.foldl (fun s c => setCtx s vf c fun x => { x with run := .running, dusk := false }) s
        pfDone (setSlice s vf fun sl => { sl with quiesce := none }) 8)

/-! ### Merge and split -/

/-- Steps 4 to 7 of R290, the absorbed channels having been swept. -/
def finishMerge (s : State) (vfa vfb : Nat) : State :=
  let a := sliceOf s vfa
  let b := sliceOf s vfb
  let new := sortBy (fun x y => x ≤ y) b.quads
  if (new.flatMap quadChans).any fun c => (chanReg s c).sweep.isSome then s else
  let s := installKey (setSlice s vfb fun _ => { Slice.none vfb with hvclaim := b.hvclaim }) new a.key
  let lcores := a.lcores ++ coresOf s new
  let s := setSlice s vfa fun sl => { sl with quads := sl.quads ++ new, lcores, allow := sl.allow + b.allow, reshaped := true }
  pfDone (remeasure (recount { s with pfShape := none } vfa) vfa) 0
/-- MIDNIGHT_SCRUB_END (R270, R382): the last line is written and the flag clears. A slice reset, a RELEASE or a MERGE whose last
channel this was comes to its end. -/
def execMidnightScrubEnd (ch : Nat) (s : State) : Host.Outcome State Fault Refusal :=
  .next (match (chanReg s ch).sweep with
    | none => s
    | some t =>
      if s.clk < t then s else
      let s := (List.range 17).foldl endReset (setChan (sweepBytes s fun a => chanOf a == ch) ch fun c => { c with pend := false, sweep := none })
      match s.pfShape with
      | some (.merge a b) => finishMerge s a b
      | _ => s)

/-- MERGE (R290), steps 1 to 3: nothing of the absorbed quads is left in a cache, and their channels are swept under the survivor's
key. What was the absorbed VF takes no request meanwhile. -/
def execMerge (vfa vfb : Nat) (s : State) : Host.Outcome State Fault Refusal := pfCommand s fun s =>
  let a := sliceOf s vfa
  let b := sliceOf s vfb
  if sliceDown s vfa || sliceDown s vfb then pfDone s 5
  else if vfa == vfb then pfDone s 2
  else if !b.used then pfDone s 4
  else onSlice s vfa fun s =>
    if b.ifst != .unlocked || b.resetting.isSome || !(liveCtxs b).isEmpty || !(suspended a) || a.quiesce.isSome || b.quiesce.isSome then pfDone s 5
    else if !(policyAdmits a (a.quads ++ b.quads)) then pfDone s 6
    else
      let chans := b.quads.flatMap quadChans
      let s := chans.foldl (fun s c => setChan s c fun x => { x with key := a.key, sweep := some (s.clk + sweepCk) }) (forget s b.quads)
      { setSlice s vfb fun sl => { sl with resetting := some true, runs := [], fabOut := [] } with pfBusy := true, pfShape := some (.merge vfa vfb) }

/-- Chains of a slice on some cores are empty. -/
def chainsEmpty (s : State) (vf : Nat) (cores : List Nat) : Bool :=
  let sl := sliceOf s vf
  !(s.ops.any fun o => o.vf == vf && cores.contains o.core) &&
  sl.ctxs.all fun c => c.chains.all fun h => !(cores.contains (sl.lcores.getD h.lcore 64)) || h.recs.isEmpty
/-- An operation of a slice on some cores is parked. -/
def parkedOn (s : State) (vf : Nat) (cores : List Nat) : Bool := s.ops.any fun o => o.vf == vf && cores.contains o.core && o.parked.isSome
/-- A line stands in an L2 way of some quads (R9). -/
def inWays (qs : List Nat) (l : CacheLine) : Bool :=
  match l.l2 with | some w => qs.contains (4 * dieOf (l.line * 256) + w / 8) | none => false
/-- Steps 2 and 3 of R291: the leaving ways are written back and emptied, the leaving channels scrubbed. -/
def splitScrub (s : State) (qs : List Nat) : State :=
  startScrub ((s.lines.filter (inWays qs)).foldl (fun s l => evictL2 s l.line) s) qs
/-- Steps 4 to 7 of R291. -/
def finishSplit (s : State) (vfa vfb : Nat) (qs : List Nat) : State :=
  let a := sliceOf s vfa
  let quads := sortBy (fun x y => x ≤ y) (a.quads.filter fun q => !(qs.contains q))
  let keep := sortBy (fun x y => x ≤ y) (a.lcores.filter fun c => !(qs.contains (c / 4)))
  let s := renumber s vfa a.lcores.length fun i => keep.findIdx? (· == a.lcores.getD i 64)
  let units := 16 * qs.length
  let left := max 1 (a.allow - units)
  let s := setSlice s vfa fun sl => { sl with quads, lcores := keep, allow := left, reshaped := true }
  let s := makeSlice s vfb qs (min units (256 - unitsBut s [vfb]))
  pfDone (remeasure (recount { s with pfShape := none } vfa) vfa) 0
/-- A SPLIT under way goes on. -/
def splitOn (s : State) (vfa : Nat) (qs : List Nat) (vfb : Nat) (scrub : Bool) : State :=
  let cores := (sliceOf s vfa).lcores.filter fun c => qs.contains (c / 4)
  if scrub then (if (qs.flatMap quadChans).any fun c => (chanReg s c).pend then s else finishSplit s vfa vfb qs)
  else if (sliceOf s vfa).ifst == .error || (sliceOf s vfa).resetting.isSome || parkedOn s vfa cores then pfDone { s with pfShape := none } 5
  else if chainsEmpty s vfa cores then { splitScrub s qs with pfShape := s.pfShape.map fun x => match x with | .split a m b _ => .split a m b true | x => x }
  else s
/-- What a ck does to a SPLIT under way. -/
def splitCk (s : State) : State :=
  match s.pfShape with
  | some (.split a m b scrub) => splitOn s a (maskQuads m) b scrub
  | _ => s
/-- SPLIT (R291). DESIGN CHOICE (log entry 64): a QMASK that is empty, takes the whole slice or names a quad that it does not hold, and a
VFB that is VFA, are operands out of range, answered with BADOP ahead of VFBUSY and STATE. -/
def execSplit (vfa : Nat) (qmask : Half) (vfb : Nat) (s : State) : Host.Outcome State Fault Refusal := pfCommand s fun s => onSlice s vfa fun s =>
  let a := sliceOf s vfa
  let qs := maskQuads qmask
  let rest := a.quads.filter fun q => !(qs.contains q)
  let cores := a.lcores.filter fun c => qs.contains (c / 4)
  let named (e : Half) : Bool := e.getLsbD 15 && qs.contains ((e.extractLsb' 0 10).toNat / 48)
  if sliceDown s vfb then pfDone s 5
  else if qs.isEmpty || !(qs.all a.quads.contains) || rest.isEmpty || vfa == vfb then pfDone s 2
  else if (sliceOf s vfb).used then pfDone s 4
  else if !(suspended a) || a.quiesce.isSome || parkedOn s vfa cores then pfDone s 5
  else if a.slicemap.any named then pfDone s 7
  else if !(policyAdmits a rest) then pfDone s 6
  else splitOn { s with pfBusy := true, pfShape := some (.split vfa qmask vfb false) } vfa qs vfb false

/-! ### Setting a slice up -/

/-- SETALLOW (R281, R385). -/
def execSetallow (vfa : Nat) (cmd : PfArg) (s : State) : Host.Outcome State Fault Refusal := pfCommand s fun s => onSlice s vfa fun s =>
  let n := (cmd.arg.extractLsb' 0 9).toNat
  if sliceLocked (sliceOf s vfa) then lockRefused s vfa 9 cmd
  else if n == 0 || 256 < n || 256 < unitsBut s [vfa] + n then pfDone s 2
  else pfDone (setSlice s vfa fun sl => { sl with allow := n }) 0
/-- SETROUTE (R280, R385). -/
def execSetroute (vfa : Nat) (cmd : PfArg) (s : State) : Host.Outcome State Fault Refusal := pfCommand s fun s => onSlice s vfa fun s =>
  if sliceLocked (sliceOf s vfa) then lockRefused s vfa 0xA cmd
  else if cmd.arg.extractLsb' 17 15 != 0 || s.pfdata.extractLsb' 24 8 != 0 then pfDone s 2
  else
    let e : Half × Word := ((cmd.arg.extractLsb' 6 11).zeroExtend 16, (s.pfdata.extractLsb' 0 24).zeroExtend 32)
    pfDone (setSlice s vfa fun sl => { sl with routes := modAt sl.routes (cmd.arg.extractLsb' 0 6).toNat fun _ => e }) 0
/-- SETMAP (R77, R264). -/
def execSetmap (vfa : Nat) (arg : Word) (s : State) : Host.Outcome State Fault Refusal := pfCommand s fun s => onSlice s vfa fun s =>
  if !(suspended (sliceOf s vfa)) then pfDone s 5
  else pfDone (setSlice s vfa fun sl => { sl with slicemap := modAt sl.slicemap (arg.extractLsb' 16 10).toNat fun _ => arg.extractLsb' 0 16 }) 0
/-- SETPEER (R264, R278, R279, R385): new pair keys are agreed for a valid entry; both sides count anew. DESIGN CHOICE (log entry 64): the
lock is looked at first, then the argument, then whether the slice is suspended. -/
def execSetpeer (vfa : Nat) (cmd : PfArg) (s : State) : Host.Outcome State Fault Refusal := pfCommand s fun s => onSlice s vfa fun s =>
  let sl := sliceOf s vfa
  let p := (cmd.arg.extractLsb' 16 6).toNat
  let e := cmd.arg.extractLsb' 0 16
  let same := (sl.peers.getD p Peer.none).entry == e
  if sliceLocked sl && !same then lockRefused s vfa 0xC cmd
  else if p == 0 || cmd.arg.getLsbD 15 || cmd.arg.extractLsb' 22 10 != 0 then pfDone s 2
  else if !(suspended sl) then pfDone s 5
  else
    let (k, s) := drawKey s
    let new : Peer := { Peer.none with entry := e, keys := e.getLsbD 14, key := k, pair := (Config.openData 34 k).extractLsb' 0 32 }
    let s := setSlice s vfa fun sl => { sl with peers := modAt sl.peers p fun _ => new, runs := sl.runs.filter (·.peer != p), fabOut := sl.fabOut.filter (·.peer != p) }
    pfDone (if same then s else remeasure s vfa) 0
/-- SETRUN (R278, R385). -/
def execSetrun (vfa : Nat) (cmd : PfArg) (s : State) : Host.Outcome State Fault Refusal := pfCommand s fun s => onSlice s vfa fun s =>
  let n := (cmd.arg.extractLsb' 0 7).toNat
  if sliceLocked (sliceOf s vfa) then lockRefused s vfa 0xD cmd
  else if 64 < n then pfDone s 2
  else pfDone (setSlice s vfa fun sl => { sl with runlen := if n == 0 then 16 else n }) 0

end Sys2Proof.Machine
end

