-- ==== Sys2Proof/Machine/EccEvents.lean ====
section
/-! DEFINITION. Errors in DRAM and on chip (R350 to R357, R374): codeword errors, the patrol scrub, neighbour refreshes, soft errors. -/

namespace Sys2Proof.Machine

/-- The entry of a codeword among the DRAM errors: none when it has no error. -/
def putErr (s : State) (cw : Nat) (e : List Byte) : State :=
  let rest := s.dramErr.filter (·.1 != cw)
  { s with dramErr := if e.all (· == 0) then rest else (cw, e) :: rest }
def errAt (s : State) (cw : Nat) : List Byte := ((s.dramErr.find? (·.1 == cw)).map (·.2)).getD (List.replicate 80 0)
/-- CODEWORD_ERROR (R351): more errors in a codeword held in DRAM. -/
def execCodewordError (cw : Nat) (syms : List Byte) (s : State) : Host.Outcome State Fault Refusal :=
  .next (if 768 * 2 ^ 24 ≤ cw then s else putErr s cw ((List.range 80).map fun i => (errAt s cw).getD i 0 ^^^ syms.getD i 0))
/-- The patrol scrub reads one codeword (R352): a correction goes back to DRAM, an uncorrectable codeword is marked poisoned there. -/
def scrubCodeword (s : State) (cw : Nat) : State :=
  let err := errAt s cw
  let ch := chanOf (cw * 64)
  let ue (s : State) : State := setChan s ch fun c => { c with ue := satInc c.ue, ueaddr := cw * 64, uevalid := true }
  -- what is delivered as data is poisoned no longer, unless a cache holds the line (R354)
  let data (s : State) : State := if isCached s (cw / 4) then s else { s with poison := s.poison.filter fun x => x / 2 != cw }
  match eccDecode err with
  | .clean => s
  | .poisoned => ue s
  | .uncorrectable => putErr (ue s) cw poisonPattern
  | .corrected fix g => setChan (putErr (data s) cw ((err.zip fix).map fun (a, b) => a ^^^ b)) ch fun c => { c with ce := satInc c.ce, lastpg := g }
/-- PATROL_SCRUB_READ. -/
def execPatrolScrubRead (line : Nat) (s : State) : Host.Outcome State Fault Refusal :=
  .next (if s.stage != 2 then s else (List.range 4).foldl (fun s k => scrubCodeword s (4 * line + k)) s)
/-- NEIGHBOUR_REFRESH (R352): a row with 1,024 activations. -/
def execNeighbourRefresh (ch bank row : Nat) (s : State) : Host.Outcome State Fault Refusal :=
  .next (if 1024 ≤ rowCount s ch bank row then refreshRows s ch bank row else s)

/-! ### Soft errors -/

/-- A core's counts of corrections and detections (R357). -/
def countCore (s : State) (core : Nat) (double : Bool) : State :=
  setCore s core fun c => if double then { c with det := c.det + 1 } else { c with corr := c.corr + 1 }
def countDie (s : State) (die : Nat) (double : Bool) : State :=
  { s with dieErr := modAt s.dieErr die fun x => if double then (x.1, x.2 + 1) else (x.1 + 1, x.2) }
/-- A correction in the register file or scratchpad of a core: more than 1,000 within any second remove it (R374). -/
def countRecent (s : State) (core : Nat) : State :=
  let near := s.clk :: (coreOf s core).recent.filter fun t => s.clk < t + 1700000000
  let s := setCore s core fun c => { c with recent := near }
  if 1000 < near.length then removeCore s core else s
/-- Eight bytes of a core's storage: corrected, or poisoned in place. -/
def hitCore (s : State) (core : Nat) (double near : Bool) (bad : State → State) : State :=
  let s := countCore s core double
  if double then bad s else if near then countRecent s core else s
/-- A site joins the poisoned ones. -/
def poisonSite (x : Site) (s : State) : State := { s with chipPoison := x :: s.chipPoison.filter (· != x) }
/-- A line holds data in one level that no level below it holds: one sector of it, or any. -/
def dirtyIn (s : State) (line : Nat) (l2 : Bool) (sector : Option Nat) : Bool :=
  (lineAt s line).any fun l =>
    if l2 then (match sector with | some k => l.dirty.getLsbD k | none => l.dirty != 0) else l.mdirty
/-- What a soft error does (Table 17-7). -/
def softError (s : State) (double : Bool) : Site → State
  | .coreCache core => setCore (countCore s core true) core fun c => { c with l0 := [], l1 := [], tlb := [], ccache := [] }
  | .cacheData sector l2 =>
    if !(heldIn s (sector / 8) l2) then s else
    let s := countDie s (dieOf (sector * 32)) double
    if !double then s
    else if dirtyIn s (sector / 8) l2 (some (sector % 8)) then { s with poison := sector :: s.poison.filter (· != sector) }
    -- a clean sector of a line that holds dirty ones is read anew, and they stay
    else if dirtyIn s (sector / 8) l2 none then s
    else dropLevel s (sector / 8) l2
  | .cacheTag line l2 =>
    if !(heldIn s line l2) then s else
    let s := countDie s (dieOf (line * 256)) double
    if !double then s
    else
      let lost := dirtyIn s line l2 none
      let owner := s.slices.find? fun sl => sl.used && sl.quads.contains (quadOf (line * 256))
      let s := dropLevel s line l2
      match owner with
      | some sl => if lost then enterError s sl.vf 0 3 0 else s
      | none => s
  | .register w l r => hitCore s (warpOf s w).core double true (poisonSite (.register w l r))
  | .scratch p off => hitCore s (partOf s p).core double true (poisonSite (.scratch p (off / 8 * 8)))
  | .tile p t row k => hitCore s (partOf s p).core double false (poisonSite (.tile p t row k))
  | .accum p t row k => hitCore s (partOf s p).core double false (poisonSite (.accum p t row k))
  | .dqueue p i => hitCore s (partOf s p).core double false fun s => setPart s p fun x => { x with dq := modAt x.dq i fun e => { e with bad := true } }
  | .squeue w i l k => hitCore s (warpOf s w).core double false fun s =>
      setWarp s w fun x => { x with queue := modAt x.queue i fun e => { e with bad := (16 * l + k) :: e.bad.filter (· != 16 * l + k) } }
  | .issueState core => (fun s => if double then removeCore s core else s) (countCore s core double)
/-- SOFT_ERROR. -/
def execSoftError (site : Site) (double : Bool) (s : State) : Host.Outcome State Fault Refusal := .next (if s.stage == 0 then s else softError s double site)

end Sys2Proof.Machine
end

