-- ==== Sys2Proof/Machine/Fabric.lean ====
section
/-! DEFINITION. The fabric (R277 to R281, R386, R387): flits against credit, runs and their tags, retries, what arrives from peers
(R79, R378), and the keys of links and pairs (R271, R278). -/

namespace Sys2Proof.Machine

def setPeer (s : State) (vf p : Nat) (f : Peer → Peer) : State := setSlice s vf fun sl => { sl with peers := modAt sl.peers p f }
def peerOf (s : State) (vf p : Nat) : Peer := (sliceOf s vf).peers.getD p Peer.none
def setRun (s : State) (vf p seq : Nat) (f : Run → Run) : State :=
  setSlice s vf fun sl => { sl with runs := sl.runs.map fun r => if r.peer == p && r.seq == seq then f r else r }
/-- Bytes of a flit (R278). -/
def flitBytes : Nat := 640
/-- Most credit of a slice: 16 ticks' worth (R281). -/
def creditCap (sl : Slice) : Nat := 16 * 750 * sl.allow

/-! ### Sending -/

/-- What a core's fabric send unit works on: a CPYF, or a marker for a peer once its turn has come (R240, R243). For a context that is
being saved it completes the runs that it has started (R284). -/
def fabOp (s : State) (core : Nat) : Option EngOp :=
  s.ops.find? fun o => o.core == core && o.eng == .fab && !o.issued && !o.stuck && o.walk.isNone && !o.bytes.isEmpty && o.ready ≤ s.clk &&
    (sliceOf s o.vf).ifst != .error && !(chunkHeld s o) &&
    (o.type == 6 || (o.copyRec.arg != 0 && markerTurn s o))
/-- A flit may join a run to a peer: the pair has keys with nonces left, and the replay store has room (R278, R386). -/
def roomToSend (sl : Slice) (p : Nat) : Bool :=
  let x := sl.peers.getD p Peer.none
  x.keys && x.counter < 2 ^ 62 && ((openRun sl p).isSome || sl.runs.countP (·.peer == p) < 64)
/-- The ports by which a slice's traffic to a device leaves (R280). -/
def portsTo (sl : Slice) (e : Half) : List Nat :=
  match sl.routes.find? fun r => r.1.getLsbD 10 && r.1.extractLsb' 0 10 == e.extractLsb' 0 10 && r.2 != 0 with
  | some r => (List.range 24).filter r.2.getLsbD
  | none => []
/-- A new run: its number and nonce, and the next port in turn (R278, R280, R386). -/
def newRun (s : State) (vf p : Nat) (ws : List (Nat × List Byte × Nat)) : State :=
  let sl := sliceOf s vf
  let x := sl.peers.getD p Peer.none
  let ports := portsTo sl x.entry
  let r : Run := { peer := p, seq := x.nextSeq, pair := x.pair, counter := x.counter, port := ports.getD (x.nextSeq % max 1 ports.length) 0,
                   flits := 1, writes := ws, attempts := 1, closed := sl.runlen ≤ 1, again := 0, last := s.clk }
  setSlice (setPeer s vf p fun y => { y with nextSeq := (y.nextSeq + 1) % 2 ^ 32, counter := y.counter + 1 }) vf fun sl => { sl with runs := sl.runs ++ [r] }
/-- Flits leave: their credit is spent, their bytes are counted (R281, Table 12-3). -/
def spendFlits (s : State) (vf n : Nat) : State :=
  countIo (setSlice s vf fun sl => { sl with credit := sl.credit - flitBytes * n }) vf 2 (flitBytes * n)
/-- A flit joins the open run, or begins one; a run of RUNLEN flits is closed. -/
def addFlit (s : State) (vf p : Nat) (ws : List (Nat × List Byte × Nat)) : State :=
  let sl := sliceOf s vf
  let s := spendFlits s vf 1
  match openRun sl p with
  | some r => setRun s vf p r.seq fun x =>
      { x with flits := x.flits + 1, writes := x.writes ++ ws, last := s.clk, closed := sl.runlen ≤ x.flits + 1 }
  | none => newRun s vf p ws
/-- A run that a notice asks for goes out again flit by flit, each against credit as those of a new run: a new nonce, the same number
(R281, R386). It waits for keys whose counter is spent to be renewed (R278). -/
def sendAgain (s : State) (vf : Nat) (r : Run) : State :=
  let sl := sliceOf s vf
  let x := sl.peers.getD r.peer Peer.none
  let first := r.again == r.flits
  if !x.keys || (first && 2 ^ 62 ≤ x.counter) then s
  else if sl.credit < flitBytes then countShared s vf 7 1
  else
    let s := setRun (spendFlits s vf 1) vf r.peer r.seq fun y => { y with again := y.again - 1 }
    if !first then s else
    setRun (setPeer s vf r.peer fun p => { p with counter := p.counter + 1 }) vf r.peer r.seq fun y => { y with pair := x.pair, counter := x.counter }
/-- A flit of an access leaves its core's send unit (R278, R281). -/
def sendRequest (s : State) (vf : Nat) (q : FabReq) : State :=
  let sl := sliceOf s vf
  if !(roomToSend sl q.peer) then s
  else if sl.credit < flitBytes then countShared s vf 7 1
  else addFlit (setSlice s vf fun sl => { sl with fabOut := sl.fabOut.erase q }) vf q.peer [(0, [], q.id)]
/-- One flit of an operation: two units of 256 bytes of a CPYF (log entry 25), or a marker's 8 bytes. A twin sends nothing (R360). -/
def sendFlit (s : State) (o : EngOp) : State :=
  let r := o.copyRec
  let p := r.arg.toNat
  if r.ty == 0x0A then
    let s := if o.twin then s else count (addFlit s o.vf p [(r.dst, bytesOf 8 o.seq, o.id)]) o.vf o.ctx 3 6 8
    setOp s o.id fun o => { o with issued := true }
  else
    let n := min 2 (o.units - o.unit)
    match piecesAt o r ((List.range n).flatMap fun k => r.unitBytes (o.unit + k)) s with
    | (s, .inr (.xl e a w)) => engErr s o a w e
    | (s, .inr .range) => engFault s o 3 1 0
    | (s, .inl ps) =>
      match readPieces o r ps s with
      | (s, .err e) => engErr s o o.addr false e
      | (s, .ok data) =>
        let ws := (ps.zip data).map fun (q, bs) => (q.dstVa, bs, o.id)
        let m := ws.foldl (fun m x => m + x.2.1.length) 0
        let s := count s o.vf o.ctx 3 4 m
        let s := if o.twin then s else count (addFlit s o.vf p ws) o.vf o.ctx 3 6 m
        setOp s o.id fun o => { o with unit := o.unit + n, parked := none, issued := o.unit + n == o.units, ready := s.clk + 1 }
/-- A run of a slice that has flits to send again. -/
def runAgain (sl : Slice) : Option Run := sl.runs.find? (·.again != 0)
/-- FABRIC_FLIT_SEND (R281): a flit leaves only against credit. DESIGN CHOICE (log entry 25): a run to be sent again goes first, then the
accesses of threads and copy engines, then the send unit's own operations. -/
def execFabricFlitSend (core : Nat) (s : State) : Host.Outcome State Fault Refusal :=
  .next (match (sliceOfCore s core).bind fun vf => (runAgain (sliceOf s vf)).map fun r => (vf, r) with
    | some (vf, r) => if (sliceOf s vf).ifst == .error then s else sendAgain s vf r
    | none =>
      match (sliceOfCore s core).bind fun vf => ((sliceOf s vf).fabOut.find? (·.core == core)).map fun q => (vf, q) with
      | some (vf, q) => if (sliceOf s vf).ifst == .error then s else sendRequest s vf q
      | none =>
      match fabOp s core with
      | none => s
      | some o =>
        let sl := sliceOf s o.vf
        if o.twin then sendFlit s o
        else if !(roomToSend sl o.copyRec.arg.toNat) then s
        else if sl.credit < flitBytes then countShared s o.vf 7 1
        else sendFlit s o)
/-- FABRIC_RUN_CLOSE (R278). -/
def execFabricRunClose (vf peer : Nat) (s : State) : Host.Outcome State Fault Refusal :=
  .next (match openRun (sliceOf s vf) peer with
    | some r => if r.last + 256 ≤ s.clk then setRun s vf peer r.seq fun x => { x with closed := true } else s
    | none => s)
/-- A closed run on its way to a peer, all of whose flits have left. -/
def sentRun (s : State) (vf peer seq : Nat) : Option Run :=
  (sliceOf s vf).runs.find? fun r => r.peer == peer && r.seq == seq && r.closed && r.again == 0
/-- FABRIC_RUN_ACKNOWLEDGED (R386): the run's bytes are at their homes on the peer, as messages of the machine say, and its place is free.
The peer performs runs in the order of their numbers, so the oldest is the one acknowledged. -/
def execFabricRunAcknowledged (vf peer seq : Nat) (s : State) : Host.Outcome State Fault Refusal :=
  .next (match sentRun s vf peer seq with
    | none => s
    | some r =>
      if ((sliceOf s vf).runs.find? (·.peer == peer)).any (·.seq != seq) then s else
      let s := (r.writes.filter fun w => !w.2.1.isEmpty).foldl (fun s w => post s 5 peer w.1 (msgWords w.2.1)) s
      setSlice s vf fun sl => { sl with runs := sl.runs.filter fun x => !(x.peer == peer && x.seq == seq) })
/-- The pair keys are withdrawn and the slice fails (R387). -/
def withdrawKeys (s : State) (vf peer : Nat) : State :=
  let dev := ((peerOf s vf peer).entry.extractLsb' 0 10).toNat
  enterError (setPeer s vf peer fun p => { p with keys := false }) vf 0 6 dev
/-- FABRIC_RETRY_NOTICE (R386, R387). -/
def execFabricRetryNotice (vf peer seq : Nat) (s : State) : Host.Outcome State Fault Refusal :=
  .next (match sentRun s vf peer seq with
    | none => s
    | some r =>
      if 4 ≤ r.attempts then withdrawKeys s vf peer
      else setRun s vf peer seq fun x => { x with attempts := x.attempts + 1, again := x.flits })
/-- PAIR_KEY_RENEWAL (R278). -/
def execPairKeyRenewal (vf peer : Nat) (s : State) : Host.Outcome State Fault Refusal :=
  .next (if (peerOf s vf peer).keys && 2 ^ 62 ≤ (peerOf s vf peer).counter then
      let (k, s) := drawKey s
      setPeer s vf peer fun p => { p with key := k, counter := 0 }
    else s)
/-- LINK_REKEY (R271): a link whose keystream counter would repeat takes a fresh key. -/
def execLinkRekey (link : Nat) (s : State) : Host.Outcome State Fault Refusal := .next (if linkSpent s link then rekeyLink s link else s)

/-! ### Receiving -/

/-- Places of bytes from an IA on, through the slice map (R79). -/
def iaPlaces (vf : Nat) : Nat → List Byte → State → State × Option (List (Place × Byte))
  | _, [], s => (s, some [])
  | ia, b :: bs, s =>
    if 2 ^ 40 ≤ ia then (s, none) else
    match sliceMap s vf 0 ia 0 with
    | (s, .err _) => (s, none)
    | (s, .ok pa) =>
      match iaPlaces vf (ia + 1) bs s with
      | (s, none) => (s, none)
      | (s, some ps) => (s, some ((.dev pa, b) :: ps))
/-- Bytes that a peer writes: at an IA, or, with bit 63, at a VA of the context in [57:52], as a CPYF gives it (log entry 26). -/
def peerWrite (s : State) (vf : Nat) (ia : Dword) (bytes : List Byte) : State × Bool :=
  if ia.getLsbD 63 then
    let c := (ia.extractLsb' 52 6).toNat
    let va := (ia.extractLsb' 0 52).toNat
    match cpWrite s vf c va bytes with
    | (s, .ok _) => (s, true)
    | (s, .err e) => (walkPoison s vf c va e, false)
  else match iaPlaces vf ia.toNat bytes s with
    | (s, some ps) => (homeWrite (ps.foldl (fun s p => match p.1 with | .dev pa => touchLine s pa .normal | _ => s) s) 0 ps, true)
    | (s, none) => (s, false)
/-- Runs performed in the order of their numbers, as far as they have come (R386). -/
def performRuns (vf peer : Nat) : Nat → State → State
  | 0, s => s
  | n + 1, s =>
    let p := peerOf s vf peer
    match p.rxHeld.find? (·.1 == p.rxNext) with
    | none => s
    | some (k, ia, bs) =>
      let s := setPeer s vf peer fun x => { x with rxNext := (k + 1) % 2 ^ 32, rxHeld := x.rxHeld.filter (·.1 != k) }
      performRuns vf peer n (peerWrite s vf (BitVec.ofNat 64 ia) bs).1
/-- FABRIC_RUN_RECEIVE (R378, R386, R387): a slice in ERROR answers with a failed completion; a failed tag discards the run and is answered with a notice; the fourth fails the pair. -/
def execFabricRunReceive (vf peer seq : Nat) (tagOk : Bool) (ia : Dword) (bytes : List Byte) (s : State) : Host.Outcome State Fault Refusal :=
  let sl := sliceOf s vf
  let p := peerOf s vf peer
  .next (if !sl.used || sl.ifst == .error || sl.resetting.isSome then post s 7 vf 0 []
    else if !p.keys || 64 < (seq + 2 ^ 32 - p.rxNext) % 2 ^ 32 then s
    else if tagOk then
      let s := countIo s vf 3 bytes.length
      performRuns vf peer 65 (setPeer s vf peer fun x => { x with rxHeld := (seq, ia.toNat, bytes) :: x.rxHeld.filter (·.1 != seq), rxFails := x.rxFails.filter (·.1 != seq) })
    else
      let n := ((p.rxFails.find? (·.1 == seq)).map (·.2)).getD 0 + 1
      let s := countShared (setPeer s vf peer fun x => { x with rxFails := (seq, n) :: x.rxFails.filter (·.1 != seq) }) vf 6 1
      let s := post s 6 vf peer [BitVec.ofNat 256 seq]
      if 4 ≤ n then withdrawKeys s vf peer else s)
/-- PEER_REQUEST_RECEIVE (R79, R378): served through the slice map, or answered with a failed completion. -/
def execPeerRequestReceive (vf : Nat) (ia : Dword) (wr : Option (List Byte)) (len : Nat) (s : State) : Host.Outcome State Fault Refusal :=
  let sl := sliceOf s vf
  .next (if !sl.used || sl.ifst == .error || sl.resetting.isSome then post s 7 vf 0 []
    else match wr with
      | some bs =>
        let (s, ok) := peerWrite (countIo s vf 3 bs.length) vf (ia &&& ~~~(1#64 <<< 63)) bs
        post s 7 vf (if ok then 1 else 0) []
      | none =>
        match iaPlaces vf ia.toNat (List.replicate len 0) (countIo s vf 2 len) with
        | (s, some ps) =>
          let s := ps.foldl (fun s p => match p.1 with | .dev pa => touchLine s pa .normal | _ => s) s
          if ps.any fun p => placePoisoned s p.1 then post s 7 vf 0 [] else post s 7 vf 1 (msgWords (ps.map fun p => homeByte s 0 p.1))
        | (s, none) => post s 7 vf 0 [])

end Sys2Proof.Machine
end

