-- ==== Sys2Proof/Machine/Images.lean ====
section
/-! DEFINITION. Sealed images (R285, R292, R293): what EXPORT takes and writes, and what IMPORT reads and installs. The bytes of a
sealed chunk, for which the manual gives no layout, are free values (log entry 12). -/

namespace Sys2Proof.Config

/-- Free value: what bytes unseal to that no image of this device stands for: the image that another device has sealed in the
session, if they are one (log entry 12). -/
opaque foreignImage : Nat → (Nat → BitVec 8) → Option Machine.Image

end Sys2Proof.Config

namespace Sys2Proof.Machine

/-! ### Sealed bytes -/

/-- Bytes of a header or chunk (R292). -/
def chunkBytes : Nat := 65536
/-- Bytes of a sealed image. -/
def Image.size (i : Image) : Nat := chunkBytes * (1 + i.chunks)
/-- Byte `k` of host memory from PFADDR on (R79). -/
def pfByte (s : State) (k : Nat) : Byte := memRead s.hostMem (hostPlace 0 (s.pfaddr.toNat + k))
/-- The first bytes at PFADDR are those of a sealed image. -/
def standsThere (s : State) (n : Nat) (i : Image) : Bool := (List.range n).all fun k => pfByte s k == Config.sealByte i.num k
/-- An image of this device stands at PFADDR with no chunk missing, repeated, out of order or altered; or, where not even a header of
this device's stands there, another device's does. -/
def imageThere (s : State) : Option Image :=
  let mine := s.images.filter (·.session == s.sessionCount)
  match mine.find? fun i => standsThere s i.size i with
  | some i => some i
  | none => if mine.any (standsThere s chunkBytes) then none else Config.foreignImage s.sessionCount (pfByte s)
/-- What IMPORT finds for a granule or for the state: anything else than an image of just that is BADIMG. -/
def importable (s : State) (arg : Word) : Option Image :=
  (imageThere s).bind fun i => if (if arg == 0xFFFFFFFF then i.isState else !i.isState && i.index == arg.toNat) then some i else none

/-! ### EXPORT -/

/-- Some entries of a table with their numbers. -/
def pick {α : Type} (l : List α) (ns : List Nat) (d : α) : List (Nat × α) := ns.map fun n => (n, l.getD n d)
/-- An image is sealed and written at PFADDR. -/
def putImage (s : State) (i : Image) : State :=
  { s with images := i :: s.images, nextId := s.nextId + 1,
           hostMem := memWriteN s.hostMem (hostPlace 0 s.pfaddr.toNat) ((List.range i.size).map (Config.sealByte i.num)) }
/-- The sites of soft errors that belong to some warps and parts. -/
def Site.inside (ws ps : List Nat) : Site → Bool
  | .register w _ _ | .squeue w _ _ _ => ws.contains w
  | .scratch p _ | .tile p _ _ _ | .accum p _ _ _ | .dqueue p _ => ps.contains p
  | .coreCache _ | .cacheData _ _ | .cacheTag _ _ | .issueState _ => false
/-- The image of a slice's contexts (Table 11-10). -/
def stateImage (s : State) (vf : Nat) : Image :=
  let sl := sliceOf s vf
  let cs := liveCtxs sl
  let ls := (List.range s.launches.length).filter fun l => (launchOf s l).vf == vf && (launchOf s l).alive
  let bs := (List.range s.blocks.length).filter fun b => (blockOf s b).vf == vf && (blockOf s b).status == .saved
  let ws := bs.flatMap fun b => blockWarps (blockOf s b)
  let ps := bs.flatMap fun b => (List.range (blockOf s b).nParts).map ((blockOf s b).firstPart + ·)
  { num := s.nextId, chunks := 1 + Config.sealChunks s.nextId % 16384, isState := true, index := 0, granule := [], poison := [],
    ctxs := cs.map fun c => ctxOf s vf c, launches := pick s.launches ls Launch.nil, blocks := pick s.blocks bs Block.nil,
    warps := pick s.warps ws Warp.nil, parts := pick s.parts ps Part.nil, ops := s.ops.filter (·.vf == vf),
    sites := s.chipPoison.filter (Site.inside ws ps), lcores := sl.lcores, quads := sl.quads, peers := sl.peers.map (·.entry),
    topo := sl.topo, counts := sliceCounts sl, session := s.sessionCount }
/-- The image of one granule: its bytes by offset. -/
def granuleImage (s : State) (index base : Nat) : Image :=
  let here (a : Nat) : Bool := base ≤ a && a < base + 2 ^ 30
  { num := s.nextId, chunks := 16384, isState := false, index, granule := (s.mem.filter fun c => here c.1).map fun c => (c.1 - base, c.2),
    poison := (s.poison.filter fun k => here (32 * k)).map fun k => k - base / 32, ctxs := [], launches := [], blocks := [], warps := [],
    parts := [], ops := [], sites := [], lcores := [], quads := [], peers := [], topo := 0, counts := ⟨0, 0, 0, 0, 0, 0⟩, session := s.sessionCount }
/-- The physical base of a granule that a slice-map entry names within the slice. -/
def granuleBase (sl : Slice) (idx : Nat) : Option Nat :=
  let e := sl.slicemap.getD idx 0
  let g := (e.extractLsb' 0 10).toNat
  if e.getLsbD 15 && sl.quads.contains (g / 48) && g < 768 && idx < 1024 then some (g * 2 ^ 30) else none
/-- A migration session is open between the security processors (R292). DESIGN CHOICE (log entry 100): it is the secured session of
function 0, and EXPORT and IMPORT without one answer STATE. -/
def migrating (s : State) : Bool := (s.sessions.getD 0 Session.none).secured
/-- EXPORT. -/
def execSealImage (vfa : Nat) (arg : Word) (s : State) : Host.Outcome State Fault Refusal := pfCommand s fun s => onSlice s vfa fun s =>
  let sl := sliceOf s vfa
  if !(suspended sl) || !(migrating s) then pfDone s 5
  else if !(sl.slpolicy.getLsbD 26) then pfDone s 6
  else if arg == 0xFFFFFFFF then pfDone (putImage s (stateImage s vfa)) 0
  else match granuleBase sl arg.toNat with
    | some base => pfDone (putImage (linkGranule s base) (granuleImage s arg.toNat base)) 0
    | none => pfDone s 2

/-! ### IMPORT -/

/-- New numbers for the entries of an image: each table's entries follow those already there. -/
structure Renum where
  l : Nat → Nat
  b : Nat → Nat
  w : Nat → Nat
  p : Nat → Nat
def newNum {α : Type} (base : Nat) (xs : List (Nat × α)) (n : Nat) : Nat := base + ((xs.findIdx? (·.1 == n)).getD 0)
def renumOf (s : State) (i : Image) : Renum :=
  ⟨newNum s.launches.length i.launches, newNum s.blocks.length i.blocks, newNum s.warps.length i.warps, newNum s.parts.length i.parts⟩
def Renum.trig (r : Renum) (t : List (Nat × Nat)) : List (Nat × Nat) := t.map fun x => (r.w x.1, x.2)
def Renum.group (r : Renum) (g : Group) : Group :=
  { g with arrived := g.arrived.map fun a => (r.w a.1, a.2), waiting := g.waiting.map fun a => { a with warp := r.w a.warp },
           due := g.due.map fun d => (d.1, r.w d.2) }
def Renum.block (r : Renum) (vf : Nat) (b : Block) : Block :=
  { b with vf, launch := r.l b.launch, firstWarp := r.w b.firstWarp, firstLead := r.w b.firstWarp + b.nWarps, firstPart := r.p b.firstPart,
           groups := b.groups.map r.group, twin := b.twin.map fun t => (r.b t.1, t.2),
           halt := b.halt.map fun h => { h with trig := r.trig h.trig }, stop := b.stop.map fun t => { t with trig := r.trig t.trig },
           step := b.step.map fun t => { t with left := r.trig t.left, trig := r.trig t.trig } }
def Renum.record (r : Renum) (x : Rec) : Rec := { x with blk := r.b x.blk, part := r.p x.part, warp := r.w x.warp, fork := [] }
/-- A poisoned unit under the new numbers (R357). -/
def Renum.site (r : Renum) : Site → Site
  | .register w l k => .register (r.w w) l k
  | .squeue w i l k => .squeue (r.w w) i l k
  | .scratch p k => .scratch (r.p p) k
  | .tile p t row k => .tile (r.p p) t row k
  | .accum p t row k => .accum (r.p p) t row k
  | .dqueue p k => .dqueue (r.p p) k
  | x => x
def Renum.ctx (r : Renum) (counts : Counts) (c : Ctx) : Ctx :=
  { c with counts, moved := false, run := .suspended, chains := c.chains.map fun h => { h with recs := h.recs.map r.record } }
/-- A state image installed in a slice (R292, R293): cores and channel groups of the place map become the slice's own, and the
hypervisor has written its fabric peers. The blocks' images go to the save area, as far as the context's tables, which are granules of
their own, already reach it (log entry 100). -/
def installState (s : State) (vf : Nat) (i : Image) : State :=
  let r := renumOf s i
  let counts := sliceCounts (sliceOf s vf)
  let other := i.ctxs.any fun c => c.counts != counts
  let n := (sliceOf s vf).acceptCount
  let launches := i.launches.mapIdx fun k x => { x.2 with vf, order := n + k, saved := x.2.saved.map r.b }
  let ops := i.ops.mapIdx fun k o => { o with id := s.nextId + k, vf, blk := r.b o.blk, part := r.p o.part, warp := r.w o.warp }
  let s := { s with launches := s.launches ++ launches, blocks := s.blocks ++ i.blocks.map (fun x => r.block vf x.2),
                    warps := s.warps ++ i.warps.map (fun x => { x.2 with blk := r.b x.2.blk, part := r.p x.2.part }),
                    parts := s.parts ++ i.parts.map (fun x => { x.2 with blk := r.b x.2.blk, lead := r.w x.2.lead }),
                    ops := s.ops ++ ops, nextId := s.nextId + ops.length, chipPoison := i.sites.map r.site ++ s.chipPoison }
  let s := setSlice s vf fun sl => { sl with acceptCount := n + launches.length, topo := i.topo, reshaped := sl.reshaped || other }
  let s := i.ctxs.foldl (fun s c => setCtx s vf c.n fun _ => r.ctx counts c) s
  (i.blocks.map fun x => r.b x.1).foldl (fun s b => (putSaved s b).1) s
/-- A granule installed under the slice's own key. -/
def installGranule (s : State) (base : Nat) (i : Image) : State :=
  let s := sweepBytes (linkGranule s base) fun a => base ≤ a && a < base + 2 ^ 30
  { s with mem := i.granule.foldl (fun m c => memWrite m (base + c.1) c.2) s.mem, poison := i.poison.map (· + base / 32) ++ s.poison }
/-- IMPORT. DESIGN CHOICE (log entry 69): MIGOK is asked for in a slice that is locked; an unlocked one takes the image. -/
def execUnsealImage (vfa : Nat) (arg : Word) (s : State) : Host.Outcome State Fault Refusal := pfCommand s fun s => onSlice s vfa fun s =>
  let sl := sliceOf s vfa
  let whole := arg == 0xFFFFFFFF
  if !(suspended sl) || !(migrating s) || (whole && !(liveCtxs sl).isEmpty) then pfDone s 5
  else if sliceLocked sl && !(sl.slpolicy.getLsbD 26) then pfDone s 6
  else if !whole && (granuleBase sl arg.toNat).isNone then pfDone s 2
  else match importable s arg with
    | none => pfDone s 10
    | some i =>
      if whole then (if offers sl i.counts && i.ctxs.all fun c => offers sl c.counts then pfDone (installState s vfa i) 0 else pfDone s 9)
      else match granuleBase sl arg.toNat with
        | some base => pfDone (installGranule s base i) 0
        | none => pfDone s 2

end Sys2Proof.Machine
end

