-- ==== Sys2Proof/Machine/Power.lean ====
section
/-! DEFINITION. Power, resets and start (R14, R15, R379 to R383, R389), the heartbeat (R114, R281), the time base (R301), and the
multiplex rotation (R399). -/

namespace Sys2Proof.Machine

/-! ### Resets -/

/-- Cores removed for good: those recorded, and those that a slice was about to lose when the reset came (R374). -/
def lostMask (s : State) : Dword := (s.cores.filter fun k => !k.inService).foldl (fun m k => m ||| (1#64 <<< k.n)) s.corelost
/-- What a reset of the device leaves: the cores removed for good (R374), what is outside it, and the numbers of draws made. DESIGN
CHOICE (log entry 96): REPLREQ reads 1 after the reset of a device that has lost a core. -/
def afterReset (s : State) : State :=
  { State.reset with
      corelost := lostMask s, replreq := lostMask s != 0, stepping := s.stepping, keyCount := s.keyCount,
      cores := (List.range 64).map fun n => { Core.empty n with inService := !((lostMask s).getLsbD n) },
      hostMem := s.hostMem, peerMem := s.peerMem, images := s.images, msi := s.msi, sent := s.sent, inputs := s.inputs, nextId := s.nextId,
      free := s.free, timeSrc := s.timeSrc }
/-- WARM_RESET (R383): flags are set and keys destroyed first; SCRUBINT says whether a scrub was cut short. -/
def warmReset (s : State) : State :=
  if s.powered then { afterReset s with scrubint := s.channels.any (·.pend) } else s
def execWarmReset (s : State) : Host.Outcome State Fault Refusal := .next (warmReset s)
/-- PF_FLR (R376): a warm reset. -/
def execPfFlr (s : State) : Host.Outcome State Fault Refusal := .next (if s.stage == 0 then s else warmReset s)
/-- POWER_LOSS (R382, R383): keys and flags are lost. -/
def execPowerLoss (s : State) : Host.Outcome State Fault Refusal :=
  let off (c : Channel) : Channel := { c with pend := false, key := 0, sweep := none }
  .next { afterReset s with powered := false, channels := (afterReset s).channels.map off, dieErr := List.replicate 4 (0, 0) }
/-- COLD_POWER_UP (R14, R383): power is applied where there was none. -/
def execColdPowerUp (s : State) : Host.Outcome State Fault Refusal := .next (if s.powered then s else afterReset s)
/-- HBM training of the 12 stacks, the memory sweep and the self-tests of the 64 cores begin: each takes a free number of cks (R14). -/
def beginStart (s : State) : State :=
  { s with startup := (List.range 77).map fun k => s.clk + Config.startupCk (s.free + k), free := s.free + 77 }
/-- Training, sweep and self-tests have ended. -/
def started (s : State) : Bool := s.startup.all (· ≤ s.clk)
/-- DAWN_STAGE (R14, R271, R383): link keys are drawn, and every channel's scrub begins. The ROM has verified the firmware; whether an
image failed, so that the recovery image runs, is a free choice at each start (R389, log entry 102). -/
def execDawnStage (s : State) : Host.Outcome State Fault Refusal :=
  .next (if !s.powered || s.stage != 0 then s else
    let (n, s) := choose { s with recovery := false }
    let s := { s with recovery := n % 2 == 1 }
    let (k, s) := drawKey s
    let keys := (List.range 12).map fun i => k + 1 + i
    let s := { beginStart s with stage := 1, linkKeys := keys, linkCount := List.replicate 12 0, keyCount := s.keyCount + 12 }
    { s with channels := s.channels.map fun c => { c with pend := true, key := k, sweep := some (s.clk + sweepCk) } })
/-- NOON_STAGE (R14, R15, R389): once training, the memory sweep, the self-tests and every scrub have ended; the recovery image never
reaches it. -/
def execNoonStage (s : State) : Host.Outcome State Fault Refusal :=
  .next (if s.powered && s.stage == 1 && !s.recovery && started s && !(s.channels.any (·.pend)) then { s with stage := 2 } else s)
/-- VF_FLR (R379): the slice reset in CONFIG_UNLOCKED, otherwise ERROR with CAUSE 0. -/
def execVfFlr (vf : Nat) (s : State) : Host.Outcome State Fault Refusal :=
  let sl := sliceOf s vf
  .next (if !sl.used || sl.resetting.isSome then s else
    match sl.ifst with
    | .unlocked => if s.sharedFail then s else startReset s vf false
    | .locked | .run => enterError s vf 0 0 0
    | .error => s)
/-- INTERNAL_UNCORRECTABLE_ERROR (R376, R381). A RELEASE under way has not succeeded, and answers STATE. -/
def execInternalUncorrectableError (s : State) : Host.Outcome State Fault Refusal :=
  .next (if s.stage == 0 then s else
    let s := if s.pfBusy && (s.slices.any fun sl => sl.resetting == some true) then { pfDone s 5 with pfShape := none } else s
    (List.range 17).foldl (fun s vf => if sliceLocked (sliceOf s vf) then enterError s vf 0 7 0 else s) { s with aer := true, sharedFail := true })

/-! ### Heartbeat -/

/-- A warp is in a core, and its block has not been dumped: what it has issued completes, also in a halt, a stop or a step (R303, R363). -/
def mayComplete (s : State) (w : Nat) : Bool :=
  let b := blockOf s (warpOf s w).blk
  (warpOf s w).present && !(warpOf s w).retired && b.status == .resident && !(b.stop.any (·.dumped))
/-- FENCESCs whose tick has come end, with the join (R114, R118). -/
def endFences (s : State) (w : Nat) : State :=
  (warpOf s w).bundles.foldl (fun s b => match b.hold with
    | some (.fencesc _ _ (some n)) => if n ≤ s.hbeat.toNat && mayComplete s w then joinL1 (endWait s w b.id) w else s
    | _ => s) s
/-- Send credit of a tick (R281): it stops rising at the cap. -/
def addCredit (sl : Slice) : Slice := { sl with credit := max sl.credit (min (sl.credit + 750 * sl.allow) (creditCap sl)) }
/-- HEARTBEAT_TICK (R114, R281): every 136 ck. -/
def execHeartbeatTick (s : State) : Host.Outcome State Fault Refusal :=
  .next (if s.clk < (s.hbeat.toNat + 1) * Config.heartbeatCk then s else
    let s := { s with hbeat := s.hbeat + 1, slices := s.slices.map addCredit }
    (List.range s.warps.length).foldl endFences s)

/-! ### The time base -/

/-- A time received from the source in use: a step before Noon stage, a slew from then on. The servo reports LOCKED only where TIME lies
within 50 ns of the source's (R301). -/
def disciplineTime (s : State) (ns : Dword) (lock : Bool) : State :=
  let u := 85000 * ns.toNat
  if s.stage != 2 then { s with timeU := u, slew := 0, timeLocked := lock }
  else { s with slew := (u : Int) - (s.timeU : Int), timeLocked := lock && u ≤ s.timeU + 4250000 && s.timeU ≤ u + 4250000 }
/-- The PF selects the source (R301). The manual does not say by what means: whether the PF has changed its selection since the last
message is a free choice (log entry 76). -/
def selectSource (s : State) : State :=
  let (n, s) := choose s
  if n % 2 == 1 then { s with timeSrc := !s.timeSrc } else s
/-- PTP_MESSAGE and PTM_RESPONSE (R301): only the source that the PF has selected disciplines TIME. -/
def timeMessage (ptm : Bool) (time : Dword) (lock : Bool) (s : State) : State :=
  if s.stage == 0 then s else
  let s := selectSource s
  if s.timeSrc == ptm then disciplineTime s time lock else s
def execPtpMessage (time : Dword) (lock : Bool) (s : State) : Host.Outcome State Fault Refusal := .next (timeMessage false time lock s)
def execPtmResponse (time : Dword) (lock : Bool) (s : State) : Host.Outcome State Fault Refusal := .next (timeMessage true time lock s)
/-- TIME over one ck: 1/1.7 ns, slewed by at most 200 ppm (R301). -/
def timeCk (s : State) : State :=
  let d := max (-10) (min 10 s.slew)
  { s with timeU := (50000 + d).toNat + s.timeU, slew := s.slew - d }

/-! ### Claims of the hypervisor -/

/-- A slice's claim in force at a rotation (R398, R399). -/
def rotate (s : State) (vf : Nat) : State :=
  let sl := sliceOf s vf
  let old := sl.hvforce
  let new := sl.hvclaim
  let bank (x : Dword) : Dword := x &&& 0x0000FFFF0000007F
  let units := new.extractLsb' 7 4
  let s := if units == 0 then (List.range sl.hvheld.length).foldl (fun s _ => writeHeld s vf) s else s
  setSlice s vf fun x =>
    let begin := x.trchold == 0 && units != 0
    { x with hvforce := new, trchold := units, hvwr := if begin then 0 else x.hvwr, hvlost := if begin then 0 else x.hvlost,
             hvcounts := if new.getLsbD 6 && bank old != bank new then List.replicate 16 0 else x.hvcounts }
/-- MULTIPLEX_ROTATION. -/
def execMultiplexRotation (s : State) : Host.Outcome State Fault Refusal :=
  .next ((List.range 17).foldl (fun s vf => if (sliceOf s vf).used then rotate s vf else s) s)

end Sys2Proof.Machine
end

