-- ==== Sys2Proof/Machine/Trust.lean ====
section
/-! DEFINITION. The security processor: TDISP (R265, R266, R390), SPDM (R268, R388, R389), and the keys of IDE streams (R267). The
contents of responses that the manual does not give are free values (log entry 7). -/

namespace Sys2Proof.Machine

/-- An answer to function `fn` on a request `code`: its state words and its data. A failed one is an error response. -/
def answer (s : State) (fn code : Nat) (data : List (BitVec 256)) : State := post s 9 fn code data
def refuse (s : State) (fn code : Nat) : State := post s 10 fn code []
/-- An answer whose contents are a free value. -/
def openAnswer (s : State) (fn code : Nat) : State := { answer s fn code [Config.openData code s.free] with free := s.free + 1 }
/-- From Dawn stage on the security processor answers (R14). -/
def fromDawn (s : State) (go : State → State) : Host.Outcome State Fault Refusal := .next (if s.stage == 0 then s else go s)

/-! ### TDISP -/

def stateCode : IfSt → Nat
  | .unlocked => 0 | .locked => 1 | .run => 2 | .error => 3
def execGetTdispVersion (vf : Nat) (s : State) : Host.Outcome State Fault Refusal := fromDawn s fun s => openAnswer s vf 1
def execGetTdispCapabilities (vf : Nat) (s : State) : Host.Outcome State Fault Refusal := fromDawn s fun s => openAnswer s vf 2
/-- LOCK_INTERFACE_REQUEST (R266, R377, R384, R388): the lock point. -/
def execLockInterfaceRequest (vf : Nat) (s : State) : Host.Outcome State Fault Refusal := fromDawn s fun s =>
  let sl := sliceOf s vf
  if !sl.used || sl.ifst != .unlocked || sl.resetting.isSome then refuse s vf 3
  else answer (remeasure (setSlice s vf fun sl => { sl with ifst := .locked, slerr := 0, erraddr := 0 }) vf) vf 3 []
/-- What the interface report says of the registers that a lock covers: SLPOLICY, and those written, with their offsets (R384). -/
def reportOf (sl : Slice) : List (BitVec 256) :=
  sl.slpolicy.zeroExtend 256 :: sl.regs.map fun r => BitVec.ofNat 256 (r.1 + r.2.toNat * 2 ^ 32)
/-- GET_DEVICE_INTERFACE_REPORT: beside what the manual does not lay out, the writes applied before the lock (R384). -/
def execGetDeviceInterfaceReport (vf : Nat) (s : State) : Host.Outcome State Fault Refusal := fromDawn s fun s =>
  { answer s vf 4 (Config.openData 4 s.free :: reportOf (sliceOf s vf)) with free := s.free + 1 }
/-- GET_DEVICE_INTERFACE_STATE. -/
def execGetDeviceInterfaceState (vf : Nat) (s : State) : Host.Outcome State Fault Refusal := fromDawn s fun s =>
  answer s vf 5 [BitVec.ofNat 256 (stateCode (sliceOf s vf).ifst)]
/-- START_INTERFACE_REQUEST (R390): only over a Secure stream. -/
def execStartInterfaceRequest (vf : Nat) (s : State) : Host.Outcome State Fault Refusal := fromDawn s fun s =>
  let sl := sliceOf s vf
  if sl.used && sl.ifst == .locked && sl.resetting.isNone && sl.ide then answer (setSlice s vf fun sl => { sl with ifst := .run }) vf 6 []
  else refuse s vf 6
/-- STOP_INTERFACE_REQUEST (R265, R379, R381). -/
def execStopInterfaceRequest (vf : Nat) (s : State) : Host.Outcome State Fault Refusal := fromDawn s fun s =>
  let sl := sliceOf s vf
  if !sl.used || sl.resetting.isSome || s.sharedFail then refuse s vf 7
  else if sl.ifst == .unlocked then answer s vf 7 []
  else answer (startReset s vf false) vf 7 []

/-! ### SPDM -/

def sessionOf (s : State) (fn : Nat) : Session := s.sessions.getD fn Session.none
def setSession (s : State) (fn : Nat) (f : Session → Session) : State := { s with sessions := modAt s.sessions fn f }
/-- A request that needs an earlier step of the exchange: without it, an error response and no change (R390). -/
def afterStep (s : State) (fn code : Nat) (ok : Session → Bool) (go : State → State) : Host.Outcome State Fault Refusal :=
  fromDawn s fun s => if ok (sessionOf s fn) then go s else refuse s fn code
/-- GET_VERSION begins an exchange anew. -/
def execGetVersion (fn : Nat) (s : State) : Host.Outcome State Fault Refusal := fromDawn s fun s =>
  openAnswer (setSession s fn fun x => { Session.none with version := true, secured := x.secured }) fn 16
def execGetCapabilities (fn : Nat) (s : State) : Host.Outcome State Fault Refusal := afterStep s fn 17 (·.version) fun s =>
  openAnswer (setSession s fn fun x => { x with caps := true }) fn 17
def execNegotiateAlgorithms (fn : Nat) (s : State) : Host.Outcome State Fault Refusal := afterStep s fn 18 (·.caps) fun s =>
  openAnswer (setSession s fn fun x => { x with algs := true }) fn 18
def execGetDigests (fn : Nat) (s : State) : Host.Outcome State Fault Refusal := afterStep s fn 19 (·.algs) fun s => openAnswer s fn 19
def execGetCertificate (fn : Nat) (s : State) : Host.Outcome State Fault Refusal := afterStep s fn 20 (·.algs) fun s => openAnswer s fn 20
def execChallenge (fn : Nat) (s : State) : Host.Outcome State Fault Refusal := afterStep s fn 21 (·.algs) fun s => openAnswer s fn 21
/-- A measurement that a function may see (Table 11-6, R268, R388): value and extend count. -/
def measurement (s : State) (fn idx : Nat) : Option (BitVec 256 × Nat) :=
  let cx := ctxOf s fn (idx - 0x40)
  if idx == 1 then some (Config.openData 32 (if s.recovery then 1 else 0), 0)
  else if idx == 2 then some (Config.openData 33 0, 0)
  else if fn == 0 || !(sliceOf s fn).used then none
  else if idx == 3 then some ((sliceOf s fn).meas3, 0)
  else if 0x40 ≤ idx && idx < 0x80 && cx.exists' then some (cx.att, cx.next.toNat)
  else none
/-- GET_MEASUREMENTS (R388): taken at one instant; the signature over it is a free value. -/
def execGetMeasurements (fn idx : Nat) (s : State) : Host.Outcome State Fault Refusal := afterStep s fn 22 (·.algs) fun s =>
  match measurement s fn idx with
  | some (v, n) => { answer s fn 22 [v, BitVec.ofNat 256 n, Config.openData 22 s.free] with free := s.free + 1 }
  | none => refuse s fn 22
def execKeyExchange (fn : Nat) (s : State) : Host.Outcome State Fault Refusal := afterStep s fn 23 (·.algs) fun s =>
  openAnswer (setSession s fn fun x => { x with pendingKex := true }) fn 23
/-- FINISH ends the key exchange: the session is secured. A session of the PF has a number of its own (R292). -/
def execFinish (fn : Nat) (s : State) : Host.Outcome State Fault Refusal := afterStep s fn 24 (·.pendingKex) fun s =>
  let s := setSession s fn fun x => { x with pendingKex := false, secured := true }
  openAnswer { s with sessionCount := if fn == 0 then s.sessionCount + 1 else s.sessionCount } fn 24
def execEndSession (fn : Nat) (s : State) : Host.Outcome State Fault Refusal := afterStep s fn 25 (·.secured) fun s =>
  answer (setSession s fn fun x => { x with secured := false }) fn 25 []
/-- IDE_KM (R267, R390): keys programmed in a secured session make the function's stream Secure; function 0 has the link stream. -/
def execIdeKm (fn : Nat) (s : State) : Host.Outcome State Fault Refusal := afterStep s fn 26 (·.secured) fun s =>
  answer (setSlice s fn fun sl => { sl with ide := true }) fn 26 []

end Sys2Proof.Machine
end

