-- ==== Sys2Proof/Machine/HostReq.lean ====
section
/-! DEFINITION. Requests of the host: registers written (R4, R16, R81, R247, R263, R266, R275, R296, R300, R302, R313, R320, R345, R365,
R395, R398) and read, configuration requests, writes of device memory (R354), and requests that IDE refuses (R267, R384, R390). -/

namespace Sys2Proof.Machine

/-! ### Registers of a VF -/

/-- TLBINV (R81): the entries go at once, so that BUSY reads 0. Lines fetched through them go as well (log entry 27). -/
def tlbInvalidate (s : State) (vf : Nat) (val : Dword) : State :=
  let c := (val.extractLsb' 0 6).toNat
  let scope := val.extractLsb' 6 2
  let va := (val.extractLsb' 16 36).toNat * 65536
  if scope == 2 || scope == 3 then s else
  let hit (e : TlbEntry) : Bool := e.vf == vf && e.ctx == c && (scope == 0 || (e.va ≤ va && va < e.va + e.size))
  let other (x : Nat) : Bool := x / 2 ^ 45 != vf * 64 + c
  let s := setSlice s vf fun sl => { sl with tlbinv := val &&& 0x000FFFFFFFFF00FF }
  { s with cores := s.cores.map fun k =>
      { k with tlb := k.tlb.filter fun e => !(hit e), l0 := k.l0.filter fun x => other x.1, fills := k.fills.filter fun x => other x.1,
               ccache := k.ccache.filter other } }
/-- TLBINV. -/
def execTlbinv (vf : Nat) (val : Dword) (s : State) : Host.Outcome State Fault Refusal :=
  .next (if s.stage != 0 && (sliceOf s vf).used then tlbInvalidate s vf val else s)
/-- SLPOLICY (Table 11-5): writable until the lock, dropped and logged afterwards (R266, R384). -/
def writePolicy (s : State) (vf : Nat) (val : Dword) : State :=
  if (sliceOf s vf).ifst == .unlocked then setSlice s vf fun sl => { sl with slpolicy := val &&& 0x07FFFFFF }
  else lockLog s vf 0x0380 0 val
/-- MONCTL as stored (Table 18-1): a LIMIT of 0 is stored as 1. -/
def monctlOf (v : Dword) : Dword := (v &&& 0xFFFF0003) ||| (if v.extractLsb' 16 16 == 0 then 0x10000 else 0)
/-- REPLCTL as stored (Table 20-4); MODE 3 is no write. -/
def replctlOf (old v : Dword) : Dword :=
  let e := (v.extractLsb' 8 5).toNat
  if v.extractLsb' 0 2 == 3 then old else (v &&& 7) ||| BitVec.ofNat 64 (256 * (if 4 ≤ e && e ≤ 20 then e else 4))
/-- TRCBUF (R296): not while the unit records or is held. -/
def writeTrcbuf (s : State) (vf u : Nat) (val : Dword) : State :=
  setSlice s vf fun sl => if sl.trchold.getLsbD u then sl else
    { sl with trace := modAt sl.trace u fun x => if x.ctl.getLsbD 0 then x else { x with buf := val &&& 0x000FFFFFFFFFFFFF } }
/-- An offset in a bank of `n` registers `step` bytes apart: its index and place. -/
def bankAt (base step n off : Nat) : Option (Nat × Nat) := if base ≤ off && off < base + step * n then some ((off - base) / step, (off - base) % step) else none
/-- DBGCMD (Table 12-4). -/
def debugCommand (s : State) (vf c : Nat) (val : Dword) : Host.Outcome State Fault Refusal :=
  match (val.extractLsb' 0 3).toNat with
  | 0 => execDbgStop vf c s
  | 1 => execDbgResume vf c s
  | 2 => execDbgStep vf c s
  | 3 => execDbgBstep vf c s
  | _ => .next s
/-- CTXCMD (R275). -/
def contextCommand (s : State) (vf : Nat) (val : Dword) : Host.Outcome State Fault Refusal :=
  let c := (val.extractLsb' 0 6).toNat
  match (val.extractLsb' 8 2).toNat with
  | 0 => execCreate vf c s
  | 1 => execDestroy vf c s
  | _ => .next s
/-- A context's registers beyond 0x1000. -/
def writeCtxReg (s : State) (vf off : Nat) (val : Dword) : Host.Outcome State Fault Refusal :=
  match bankAt 0x1000 16 64 off, bankAt 0x1800 0x20 4 off, bankAt 0x2000 16 64 off, bankAt 0x2600 8 64 off, bankAt 0x3000 8 64 off,
        bankAt 0x3400 8 64 off, bankAt 0x3800 16 64 off, bankAt 0x3C00 8 64 off, bankAt 0x4000 64 64 off with
  | some (c, 0), _, _, _, _, _, _, _, _ => execLqDoorbell vf c (val.extractLsb' 0 32) s
  | _, some (u, 0), _, _, _, _, _, _, _ => execTrcctlWrite vf u val s
  | _, some (u, 8), _, _, _, _, _, _, _ => .next (writeTrcbuf s vf u val)
  | _, _, some (c, 8), _, _, _, _, _, _ => execFqrdWrite vf c val s
  | _, _, _, some (c, 0), _, _, _, _, _ => execAsumWrite vf c val s
  | _, _, _, _, some (c, 0), _, _, _, _ => execFqreplay vf c val s
  | _, _, _, _, _, some (c, 0), _, _, _ => .next (setCtx s vf c fun x => { x with monctl := monctlOf val })
  | _, _, _, _, _, _, some (c, 0), _, _ => .next (setCtx s vf c fun x => { x with replctl := replctlOf x.replctl val })
  | _, _, _, _, _, _, some (c, 8), _, _ => .next (setCtx s vf c fun x => { x with replva := val &&& 0x000FFFFFFFFFFFFF })
  | _, _, _, _, _, _, _, some (c, 0), _ => execReplstatWrite vf c val s
  | _, _, _, _, _, _, _, _, some (c, 0) => debugCommand s vf c val
  | _, _, _, _, _, _, _, _, some (c, k) =>
    .next (if 0x10 ≤ k && k < 0x30 && k % 8 == 0 && (ctxOf s vf c).desc.dbg && (ctxOf s vf c).exists' then
        setCtx s vf c fun x => { x with dbgbp := modAt x.dbgbp ((k - 0x10) / 8) fun _ => val &&& 0x800FFFFFFFFFFFFF }
      else s)
  | _, _, _, _, _, _, _, _, _ => .next s
/-- A write to BAR0 of a VF. -/
def writeVf0 (s : State) (vf off : Nat) (val : Dword) : Host.Outcome State Fault Refusal :=
  let addr := val &&& 0x000FFFFFFFFFFFFF
  if off == 0x0200 then execTlbinv vf val s
  else if off == 0x0300 then contextCommand s vf val
  else if off == 0x0308 then .next (setSlice s vf fun sl => { sl with ctxdesc := addr })
  else if off == 0x0320 then execCodeLoad vf (val.extractLsb' 0 6).toNat s
  else if off == 0x0328 then .next (setSlice s vf fun sl => { sl with loadaddr := addr })
  else if off == 0x0380 then .next (writePolicy s vf val)
  else writeCtxReg s vf off val

/-! ### Registers of the PF -/

/-- PFCMD (Tables 11-1 and 11-2). -/
def mailboxCommand (s : State) (val : Dword) : Host.Outcome State Fault Refusal :=
  let a := (val.extractLsb' 8 4).toNat + 1
  let b := (val.extractLsb' 12 4).toNat + 1
  let q : Half := val.extractLsb' 16 16
  let arg : Word := val.extractLsb' 32 32
  let u : BitVec 20 := val.extractLsb' 12 20
  match (val.extractLsb' 0 8).toNat with
  | 1 => execAssign a q s
  | 2 => execRelease a s
  | 3 => execQuiesce a arg s
  | 4 => execResume a arg s
  | 5 => execMerge a b s
  | 6 => execSplit a q b s
  | 7 => execSealImage a arg s
  | 8 => execUnsealImage a arg s
  | 9 => execSetallow a ⟨arg, u⟩ s
  | 10 => execSetroute a ⟨arg, u⟩ s
  | 11 => execSetmap a arg s
  | 12 => execSetpeer a ⟨arg, u⟩ s
  | 13 => execSetrun a ⟨arg, u⟩ s
  | op => execPfcmdReserved (BitVec.ofNat 8 op) s
/-- HVCLAIM as stored (Table 20-5). -/
def hvclaimOf (v : Dword) : Dword :=
  let sper := (v.extractLsb' 11 5).toNat
  (if 10 ≤ sper && sper ≤ 20 then v else v &&& ~~~0xF800) &&& 0x0000FFFF0003FFFF
/-- A write to BAR0 of the PF. -/
def writePf0 (s : State) (off : Nat) (val : Dword) : Host.Outcome State Fault Refusal :=
  if off == 0x0400 then mailboxCommand s val
  else if off == 0x0410 then .next { s with pfaddr := val &&& 0x000FFFFFFFFF0000 }
  else if off == 0x0418 then .next { s with pfdata := val &&& 0xFFFFFFFF }
  else match bankAt 0x0600 8 16 off, bankAt 0x1000 32 16 off with
    | some (n, 0), _ => .next (setSlice s (n + 1) fun sl => { sl with hvclaim := hvclaimOf val })
    | _, some (n, 0) => .next (setSlice s (n + 1) fun sl => { sl with hvbuf := val &&& 0x000FFFFFFFFFFFFF })
    | _, _ => .next s
/-- REGISTER_WRITE (R4): a register with a behaviour of its own behaves so; another stores its writable fields, and what is read-only or
not there ignores the write. Once a shared unit has failed no register takes one, and the mailbox answers STATE (R381). -/
def execRegisterWrite (bar : Bar) (off : Nat) (val : Dword) (s : State) : Host.Outcome State Fault Refusal :=
  if s.stage == 0 || (s.sharedFail && off != 0x0400) then .next s else
  match bar with
  | .pf0 => writePf0 s off val
  | .vf0 vf => if (sliceOf s vf).used then writeVf0 s vf off val else .next s
  | .vf2 vf => if (sliceOf s vf).used && off % 4096 == 0x80 then execCounterPageSelect vf (off / 4096 % 64) val s else .next s
/-- LOCKED_REGISTER_WRITE (R266, R384): applied before the lock, dropped and logged after it, with the source. -/
def execLockedRegisterWrite (vf off : Nat) (data : Dword) (hyp : Bool) (s : State) : Host.Outcome State Fault Refusal :=
  .next (if s.stage == 0 || s.sharedFail || !(sliceOf s vf).used then s
    else if (sliceOf s vf).ifst == .unlocked then
      (if off == 0x0380 then writePolicy s vf data else setSlice s vf fun sl => { sl with regs := (off, data) :: sl.regs.filter (·.1 != off) })
    else lockLog s vf (BitVec.ofNat 32 off) (if hyp then 1 else 0) data)

/-! ### Reading -/

/-- DEVSTAT (Table 1-6); SCRUBPEND reads 1 from Dawn stage until Noon stage (R16). -/
def devstat (s : State) : Dword :=
  let b (x : Bool) (n : Nat) : Nat := if x then 2 ^ n else 0
  BitVec.ofNat 64 (s.stage + b (s.stage == 1 || s.channels.any (·.pend)) 2 + b s.replreq 3 + b s.scrubint 4 + s.stepping.toNat * 2 ^ 8 + 2 * 2 ^ 16 +
    (64 - (List.range 64).countP s.corelost.getLsbD) * 2 ^ 24)
/-- SLERR (Table 19-2). -/
def slerrOf (s : State) (sl : Slice) : Dword :=
  sl.slerr ||| (if (sl.quads.flatMap quadChans).any (fun c => (chanReg s c).pend) then 2 else 0)
/-- A counter of a held bank in the layout of CNTRD: SHARED is set for the shared class (R212, R398). -/
def heldCounter (sl : Slice) (k : Nat) : Dword :=
  BitVec.ofNat 64 (sl.hvcounts.getD k 0 + if (sl.hvforce.extractLsb' 32 16).toNat == 4 then 2 ^ 62 else 0)
/-- Registers of the PF as a host reads them. -/
def readPf0 (s : State) (off : Nat) : Dword :=
  if off == 0x0040 then devstat s
  else if off == 0x0048 then s.corelost
  else if off == 0x0408 then BitVec.ofNat 64 ((if s.pfBusy then 1 else 0) + 256 * s.pfStatus.toNat)
  else if off == 0x0410 then s.pfaddr
  else if off == 0x0418 then s.pfdata
  else match bankAt 0x0080 8 6 off, bankAt 0x0600 8 16 off, bankAt 0x0800 128 16 off, bankAt 0x1000 32 16 off, bankAt 0x8000 32 384 off with
    | some (w, 0), _, _, _, _ => (List.range 64).foldl (fun m b => if (chanReg s (64 * w + b)).pend then m ||| (1#64 <<< b) else m) 0
    | _, some (n, 0), _, _, _ =>
      let sl := sliceOf s (n + 1)
      sl.hvclaim ||| (if (sl.hvforce &&& 0x7C0#64) == 0 then 0#64 else 1#64 <<< 63)
    | _, _, some (n, k), _, _ => if k % 8 == 0 then heldCounter (sliceOf s (n + 1)) (k / 8) else 0
    | _, _, _, some (n, k), _ =>
      let sl := sliceOf s (n + 1)
      if k == 0 then sl.hvbuf else if k == 8 then sl.hvwr else if k == 16 then sl.hvlost else 0
    | _, _, _, _, some (ch, k) =>
      let c := chanReg s ch
      if k == 0 then BitVec.ofNat 64 (c.ce.toNat + c.lastpg * 2 ^ 32)
      else if k == 8 then BitVec.ofNat 64 (c.ue.toNat + c.rfm.toNat * 2 ^ 32)
      else if k == 16 then BitVec.ofNat 64 (c.ueaddr + if c.uevalid then 2 ^ 63 else 0)
      else 0
    | _, _, _, _, _ => 0
/-- DBGSTAT (Table 12-4). -/
def dbgstatOf (s : State) (vf c : Nat) : Dword :=
  let x := ctxOf s vf c
  BitVec.ofNat 64 ((if dbgPending s vf c then 1 else 0) + x.dbgCause * 2 + (stoppedBlocks s vf c).length % 256 * 256)
/-- Registers of a VF as the guest reads them. -/
def readVf0 (s : State) (vf off : Nat) : Dword :=
  let sl := sliceOf s vf
  if off == 0x0200 then sl.tlbinv
  else if off == 0x0308 then sl.ctxdesc
  else if off == 0x0310 then sl.ctxstat
  else if off == 0x0328 then sl.loadaddr
  else if off == 0x0330 then sl.loadstat
  else if off == 0x0380 then sl.slpolicy
  else if off == 0x0390 then slerrOf s sl
  else if off == 0x0398 then sl.erraddr
  else if off == 0x1880 then sl.trchold.zeroExtend 64
  else if off == 0x2900 then sl.lockCount.zeroExtend 64
  else match bankAt 0x0400 32 64 off, bankAt 0x1000 16 64 off, bankAt 0x1800 0x20 4 off, bankAt 0x2000 16 64 off, bankAt 0x2400 8 64 off,
             bankAt 0x2600 8 64 off, bankAt 0x2800 16 16 off, bankAt 0x3400 8 64 off, bankAt 0x3800 16 64 off, bankAt 0x3C00 8 64 off,
             bankAt 0x4000 64 64 off with
    | some (c, k), _, _, _, _, _, _, _, _, _, _ => (ctxOf s vf c).att.extractLsb' (8 * k) 64
    | _, some (c, k), _, _, _, _, _, _, _, _, _ =>
      if k == 8 then BitVec.ofNat 64 ((ctxOf s vf c).head.toNat + if (ctxOf s vf c).stop then 2 ^ 32 else 0) else 0
    | _, _, some (u, k), _, _, _, _, _, _, _, _ =>
      let t := sl.trace.getD u TraceUnit.reset
      if k == 0 then t.ctl else if k == 8 then t.buf else if k == 16 then t.wr else t.lost
    | _, _, _, some (c, k), _, _, _, _, _, _, _ =>
      let x := ctxOf s vf c
      if k == 0 then BitVec.ofNat 64 (x.fqCount.toNat + x.fqPend.length * 2 ^ 32) else x.fqRead.zeroExtend 64
    | _, _, _, _, some (c, _), _, _, _, _, _, _ => (ctxOf s vf c).alcnt
    | _, _, _, _, _, some (c, _), _, _, _, _, _ => (ctxOf s vf c).asum.zeroExtend 64
    | _, _, _, _, _, _, some (i, k), _, _, _, _ =>
      match sl.locklog[i]? with
      | some e => if k == 0 then BitVec.ofNat 64 (e.off.toNat + e.src.toNat * 2 ^ 32) else e.data
      | none => 0
    | _, _, _, _, _, _, _, some (c, _), _, _, _ => (ctxOf s vf c).monctl
    | _, _, _, _, _, _, _, _, some (c, k), _, _ => if k == 0 then (ctxOf s vf c).replctl else (ctxOf s vf c).replva
    | _, _, _, _, _, _, _, _, _, some (c, _), _ => (ctxOf s vf c).replstat
    | _, _, _, _, _, _, _, _, _, _, some (c, k) =>
      if k == 8 then dbgstatOf s vf c
      else if 0x10 ≤ k && k < 0x30 then (ctxOf s vf c).dbgbp.getD ((k - 0x10) / 8) 0
      else if k == 0x30 then (ctxOf s vf c).dbgTrig else if k == 0x38 then (ctxOf s vf c).dbgMask else 0
    | _, _, _, _, _, _, _, _, _, _, _ => 0

/-! ### Requests -/

/-- A read of BAR2 (R300): a counter of the context of the page, the status of the last selection, or 0. -/
def readVf2 (s : State) (vf off : Nat) : Dword :=
  let c := off / 4096 % 64
  let o := off % 4096
  if o < 128 && o % 8 == 0 then counterValue s vf c (o / 8)
  else if o == 128 then BitVec.ofNat 64 (if bankHeld s vf c then 1 else (ctxOf s vf c).cntStatus)
  else 0
/-- A register as the function that holds it reads it. -/
def readRegister (s : State) : Bar → Nat → Dword
  | .pf0, off => readPf0 s off
  | .vf0 vf, off => readVf0 s vf off
  | .vf2 vf, off => readVf2 s vf off
/-- PCIE_CONFIG_REQUEST (R14): answered from Dawn stage on. The Revision ID, the low byte at offset 8 (log entry 97), is the stepping in
every function (R2) whatever has been written there; what configuration space holds beyond that and what was written is a free value. -/
def execPcieConfigRequest (fn off : Nat) (s : State) : Host.Outcome State Fault Refusal :=
  let held := if fn == 0 then s.pfRegs else (sliceOf s fn).regs
  let free : BitVec 256 := Config.openData 8 (fn * 2 ^ 32 + off)
  .next (if s.stage == 0 then s else
    let v := match held.find? (·.1 == off) with | some (_, v) => v.zeroExtend 256 | none => free
    post s 8 fn off [if off == 8 then v &&& ~~~0xFF#256 ||| s.stepping.zeroExtend 256 else v])
/-- Bytes that one write request brings to device memory, counted for the slice they reach (Table 12-3, log entry 86). -/
def hostWrite (s : State) (pa : Nat) (cells : List (Nat × Byte)) : State :=
  let s := match s.slices.find? fun sl => sl.used && sl.quads.contains (quadOf pa) with
    | some sl => countIo s sl.vf 0 cells.length
    | none => s
  devWrite (cells.foldl (fun s x => touchLine s x.1 .normal) s) cells
/-- HOST_MEMORY_WRITE (R354): one PCI Express write request that reaches memory of a slice in service. -/
def execHostMemoryWrite (pa : Nat) (bytes : List Byte) (s : State) : Host.Outcome State Fault Refusal :=
  let cells := bytes.mapIdx fun i b => (pa + i, b)
  let serves (a : Nat) : Bool := s.slices.any fun sl => sl.used && sl.quads.contains (quadOf a) && sl.ifst != .error && sl.resetting.isNone
  .next (if s.stage == 2 && cells.all fun x => serves x.1 then hostWrite s pa cells else s)
/-- IDE_OUTSIDE_STREAM_REQUEST (R267): dropped and logged in RUN; in another state there is no stream to be outside of. -/
def execIdeOutsideStreamRequest (vf off : Nat) (data : Dword) (s : State) : Host.Outcome State Fault Refusal :=
  if (sliceOf s vf).used && (sliceOf s vf).ifst == .run then .next (lockLog s vf (BitVec.ofNat 32 off) 2 data)
  else if s.stage != 0 && (sliceOf s vf).used then writeVf0 s vf off data else .next s
/-- IDE_STREAM_FAILURE (R376, R390). -/
def execIdeStreamFailure (vf : Option Nat) (s : State) : Host.Outcome State Fault Refusal :=
  .next (match vf with
    | some vf =>
      let s := setSlice s vf fun sl => { sl with ide := false }
      if sliceLocked (sliceOf s vf) then enterError s vf 0 4 0 else s
    | none =>
      let s := setSlice s 0 fun sl => { sl with ide := false }
      (List.range 17).foldl (fun s vf => if sliceLocked (sliceOf s vf) then enterError s vf 0 7 0 else s) s)

end Sys2Proof.Machine
end

