-- ==== Sys2Proof/Machine/Xlane.lean ====
section
/-! DEFINITION. Cross-lane instructions (R172 to R177). -/

namespace Sys2Proof.Machine

/-- A lane that is a valid source (R172). -/
def validLane (i : Iss) (m : Nat) : Bool := m < 64 && i.act.getLsbD m
/-- A of a lane, before anything is written. -/
def laneA (i : Iss) (wide : Bool) (a : Byte) (l : Nat) : Dword := rdW false wide (threadOf i.wp l) a
/-- Source lane of SHFL, if any (R173). -/
def shflSource (mode : ShflMode) (seg l b : Nat) : Option Nat :=
  let w := 64 / 2 ^ seg
  let r := l % w
  let base := l - r
  match mode with
  | .idx => some (base + b % w)
  | .up => if b ≤ r then some (l - b) else none
  | .down => if r + b < w then some (l + b) else none
  | .xor => some (base + Nat.xor r (b % w))
/-- A value taken from a lane, or the lane's own value, and which of the two (R173, R177). -/
def takeFrom (i : Iss) (wide : Bool) (d a c : Byte) (l : Nat) (src : Option Nat) : LaneRes :=
  match src with
  | some m => if validLane i m then ([.v d wide (laneA i wide a m), .p c.toNat true], 0)
              else ([.v d wide (laneA i wide a l), .p c.toNat false], 0)
  | none => ([.v d wide (laneA i wide a l), .p c.toNat false], 0)
def execShfl (h : Hdr) (o : ShflOp) (s : State) : Host.Outcome State Fault Refusal := issueH s h fun i =>
  computeBody s i h.yh h.la.toNat 8 (dstW o.kt.wide o.d false ++ dstP o.c false) fun l t =>
    takeFrom i o.kt.wide o.d o.a o.c l (shflSource o.mode o.seg.toNat l (wordB o.lit o.b t))

/-- The operation of RSTEP, WRED and SCAN on two values (R172). -/
def laneOp (op : RedOp) (kt : XlKind) (x y : Nat) : Nat × Flags :=
  let ty : IntTy := if kt == .i32 then .i32 else .n32
  let v (z : Nat) : Int := tyVal ty (BitVec.ofNat 64 z)
  match op with
  | .add => if kt == .f32 then Fmt.f32.addF .rn false false x y else ((x + y) % 2 ^ 32, 0)
  | .min => if kt == .f32 then (Fmt.f32.minmax false false x y, 0) else (if v y < v x then y else x, 0)
  | .max => if kt == .f32 then (Fmt.f32.minmax false true x y, 0) else (if v x < v y then y else x, 0)
  | .and => (Nat.land x y, 0)
  | .or => (Nat.lor x y, 0)
  | .xor => (Nat.xor x y, 0)
def execRstep (h : Hdr) (o : RstepOp) (s : State) : Host.Outcome State Fault Refusal := issueH s h fun i =>
  computeBody s i h.yh h.la.toNat 8 (dstV o.d false ++ dstP o.c false) fun l t =>
    let b := wordB o.lit o.b t
    let m := Nat.xor l (2 ^ (min b 6))
    let own := wordOf t o.a
    if b ≤ 5 && validLane i m then
      let r := laneOp o.op o.kt (wordOf (threadOf i.wp (min l m)) o.a) (wordOf (threadOf i.wp (max l m)) o.a)
      ([.v o.d false (BitVec.ofNat 64 r.1), .p o.c.toNat true], r.2)
    else ([.v o.d false (BitVec.ofNat 64 own), .p o.c.toNat false], 0)

/-- A value that may be absent, in a tree or scan (R175, R176). -/
def absentOp (op : RedOp) (kt : XlKind) (x y : Option Nat) : Option Nat × Flags :=
  match x, y with
  | some a, some b => let r := laneOp op kt a b; (some r.1, r.2)
  | some a, none => (some a, 0)
  | none, y => (y, 0)
/-- The fixed tree of WRED: the values of all lanes after each step, and the flags raised (R175). -/
def wredTree (op : RedOp) (kt : XlKind) : Nat → Nat → List (Option Nat) → List (Option Nat) × Flags
  | 0, _, v => (v, 0)
  | n + 1, k, v =>
    let w := (List.range 64).map fun l =>
      let lo := if l / 2 ^ k % 2 == 1 then l - 2 ^ k else l
      absentOp op kt (v.getD lo none) (v.getD (lo + 2 ^ k) none)
    let r := wredTree op kt n (k + 1) (w.map (·.1))
    (r.1, w.foldl (fun f x => f ||| x.2) r.2)
def activeVals (i : Iss) (a : Byte) : List (Option Nat) :=
  (List.range 64).map fun l => if i.act.getLsbD l then some (wordOf (threadOf i.wp l) a) else none
def execWred (h : Hdr) (o : RedLaneOp) (s : State) : Host.Outcome State Fault Refusal := issueH s h fun i =>
  let r := wredTree o.op o.kt 6 0 (activeVals i o.a)
  computeBody s i h.yh h.la.toNat 14 (dstV o.d false) fun l _ => wordRes o.d ((r.1.getD l none).getD 0, r.2)

/-- Identities of R176. -/
def redIdentity (op : RedOp) (kt : XlKind) : Nat :=
  match op with
  | .add | .or | .xor => 0
  | .and => 0xFFFFFFFF
  | .min => match kt with | .i32 => 0x7FFFFFFF | .f32 => 0x7F800000 | _ => 0xFFFFFFFF
  | .max => match kt with | .i32 => 0x80000000 | .f32 => 0xFF800000 | _ => 0
/-- The running values of SCAN: what each lane receives, and its flags (R176). -/
def scanVals (op : RedOp) (kt : XlKind) (excl : Bool) : Option Nat → List (Option Nat) → List (Nat × Flags)
  | _, [] => []
  | acc, none :: r => (0, 0) :: scanVals op kt excl acc r
  | acc, some x :: r =>
    let n := absentOp op kt acc (some x)
    let got := if excl then acc.getD (redIdentity op kt) else n.1.getD 0
    (got, n.2) :: scanVals op kt excl n.1 r
def execScan (h : Hdr) (o : RedLaneOp) (s : State) : Host.Outcome State Fault Refusal := issueH s h fun i =>
  let r := scanVals o.op o.kt o.excl none (activeVals i o.a)
  computeBody s i h.yh h.la.toNat 14 (dstV o.d false) fun l _ => wordRes o.d (r.getD l (0, 0))

/-- Valid lanes whose predicate is true. -/
def trueLanes (i : Iss) (a : Byte) : Mask := activeLanes i.wp i.act fun t => rdP t a.toNat
def execVote (h : Hdr) (o : VoteLaneOp) (s : State) : Host.Outcome State Fault Refusal := issueH s h fun i =>
  let m := trueLanes i o.a
  let r : RegW := match o.op with
    | .ballot => .v o.d true m
    | .any => .p o.d.toNat (m != 0)
    | .all => .p o.d.toNat (m == i.act)
    | .uni => .p o.d.toNat (m == 0 || m == i.act)
  computeBody s i h.yh h.la.toNat 8 (if o.op == .ballot then dstW true o.d false else dstP o.d false) fun _ _ => ([r], 0)
def execMatchLanes (h : Hdr) (o : MatchOp) (s : State) : Host.Outcome State Fault Refusal := issueH s h fun i =>
  computeBody s i h.yh h.la.toNat 8 (dstW true o.d false) fun l _ =>
    ([.v o.d true (maskOf ((lanesOf i.act).filter fun m => laneA i o.kt.wide o.a m == laneA i o.kt.wide o.a l))], 0)
def execBcast (h : Hdr) (o : BcastOp) (s : State) : Host.Outcome State Fault Refusal := issueH s h fun i =>
  let m := wordB o.lit o.b (threadOf i.wp (lowest i.act)) % 64
  computeBody s i h.yh h.la.toNat 8 (dstW o.kt.wide o.d false ++ dstP o.c false) fun l _ =>
    takeFrom i o.kt.wide o.d o.a o.c l (some m)
def execFirst (h : Hdr) (o : DaOp) (s : State) : Host.Outcome State Fault Refusal := issueH s h fun i =>
  let m := trueLanes i o.a
  computeBody s i h.yh h.la.toNat 8 (dstV o.d false) fun _ _ =>
    wordRes o.d (if m = 0 then 0xFFFFFFFF else lowest m, 0)

end Sys2Proof.Machine
end

