-- ==== Sys2Proof/Machine/Dispatch.lean ====
section
/-! DEFINITION. The dispatch of every row of the opcode table to its meaning. -/

namespace Sys2Proof.Machine

def exec (i : Instr) (s : State) : Host.Outcome State Fault Refusal :=
  match i with
  | .nop h => Sys2Proof.Machine.execNop h s
  | .iadd h o => Sys2Proof.Machine.execIadd h o s
  | .isub h o => Sys2Proof.Machine.execIsub h o s
  | .iaddc h o => Sys2Proof.Machine.execIaddc h o s
  | .isubb h o => Sys2Proof.Machine.execIsubb h o s
  | .imul h o => Sys2Proof.Machine.execImul h o s
  | .imulh h o => Sys2Proof.Machine.execImulh h o s
  | .imad h o => Sys2Proof.Machine.execImad h o s
  | .imadw h o => Sys2Proof.Machine.execImadw h o s
  | .idiv h o => Sys2Proof.Machine.execIdiv h o s
  | .irem h o => Sys2Proof.Machine.execIrem h o s
  | .ineg h o => Sys2Proof.Machine.execIneg h o s
  | .iabs h o => Sys2Proof.Machine.execIabs h o s
  | .imin h o => Sys2Proof.Machine.execImin h o s
  | .imax h o => Sys2Proof.Machine.execImax h o s
  | .iclamp h o => Sys2Proof.Machine.execIclamp h o s
  | .and h o => Sys2Proof.Machine.execAnd h o s
  | .or h o => Sys2Proof.Machine.execOr h o s
  | .xor h o => Sys2Proof.Machine.execXor h o s
  | .not h o => Sys2Proof.Machine.execNot h o s
  | .btab3 h o => Sys2Proof.Machine.execBtab3 h o s
  | .shl h o => Sys2Proof.Machine.execShl h o s
  | .shr h o => Sys2Proof.Machine.execShr h o s
  | .sar h o => Sys2Proof.Machine.execSar h o s
  | .shf h o => Sys2Proof.Machine.execShf h o s
  | .rotl h o => Sys2Proof.Machine.execRotl h o s
  | .bfe h o => Sys2Proof.Machine.execBfe h o s
  | .bfi h o => Sys2Proof.Machine.execBfi h o s
  | .popc h o => Sys2Proof.Machine.execPopc h o s
  | .clz h o => Sys2Proof.Machine.execClz h o s
  | .ctz h o => Sys2Proof.Machine.execCtz h o s
  | .brev h o => Sys2Proof.Machine.execBrev h o s
  | .icmp h o => Sys2Proof.Machine.execIcmp h o s
  | .iset h o => Sys2Proof.Machine.execIset h o s
  | .sel h o => Sys2Proof.Machine.execSel h o s
  | .mov h o => Sys2Proof.Machine.execMov h o s
  | .movi h o => Sys2Proof.Machine.execMovi h o s
  | .lea h o => Sys2Proof.Machine.execLea h o s
  | .idot4 h o => Sys2Proof.Machine.execIdot4 h o s
  | .idot2 h o => Sys2Proof.Machine.execIdot2 h o s
  | .pmov h o => Sys2Proof.Machine.execPmov h o s
  | .ptab3 h o => Sys2Proof.Machine.execPtab3 h o s
  | .fadd h o => Sys2Proof.Machine.execFadd h o s
  | .fsub h o => Sys2Proof.Machine.execFsub h o s
  | .fmul h o => Sys2Proof.Machine.execFmul h o s
  | .ffma h o => Sys2Proof.Machine.execFfma h o s
  | .fmin h o => Sys2Proof.Machine.execFmin h o s
  | .fmax h o => Sys2Proof.Machine.execFmax h o s
  | .fcmp h o => Sys2Proof.Machine.execFcmp h o s
  | .fset h o => Sys2Proof.Machine.execFset h o s
  | .fclass h o => Sys2Proof.Machine.execFclass h o s
  | .frnd h o => Sys2Proof.Machine.execFrnd h o s
  | .fscale h o => Sys2Proof.Machine.execFscale h o s
  | .fexp h o => Sys2Proof.Machine.execFexp h o s
  | .hadd2 h o => Sys2Proof.Machine.execHadd2 h o s
  | .hmul2 h o => Sys2Proof.Machine.execHmul2 h o s
  | .hfma2 h o => Sys2Proof.Machine.execHfma2 h o s
  | .hmnx2 h o => Sys2Proof.Machine.execHmnx2 h o s
  | .fdot2 h o => Sys2Proof.Machine.execFdot2 h o s
  | .fdot4 h o => Sys2Proof.Machine.execFdot4 h o s
  | .cvti h o => Sys2Proof.Machine.execCvti h o s
  | .cvtf h o => Sys2Proof.Machine.execCvtf h o s
  | .cvtff h o => Sys2Proof.Machine.execCvtff h o s
  | .cvtpk h o => Sys2Proof.Machine.execCvtpk h o s
  | .qnt h o => Sys2Proof.Machine.execQnt h o s
  | .dqnt h o => Sys2Proof.Machine.execDqnt h o s
  | .ex2 h o => Sys2Proof.Machine.execEx2 h o s
  | .lg2 h o => Sys2Proof.Machine.execLg2 h o s
  | .rcp h o => Sys2Proof.Machine.execRcp h o s
  | .rsq h o => Sys2Proof.Machine.execRsq h o s
  | .sqt h o => Sys2Proof.Machine.execSqt h o s
  | .sin h o => Sys2Proof.Machine.execSin h o s
  | .cos h o => Sys2Proof.Machine.execCos h o s
  | .tanh h o => Sys2Proof.Machine.execTanh h o s
  | .shfl h o => Sys2Proof.Machine.execShfl h o s
  | .rstep h o => Sys2Proof.Machine.execRstep h o s
  | .wred h o => Sys2Proof.Machine.execWred h o s
  | .scan h o => Sys2Proof.Machine.execScan h o s
  | .vote h o => Sys2Proof.Machine.execVote h o s
  | .matchLanes h o => Sys2Proof.Machine.execMatchLanes h o s
  | .bcast h o => Sys2Proof.Machine.execBcast h o s
  | .first h o => Sys2Proof.Machine.execFirst h o s
  | .bra h off => Sys2Proof.Machine.execBra h off s
  | .brx h a => Sys2Proof.Machine.execBrx h a s
  | .call h off => Sys2Proof.Machine.execCall h off s
  | .callx h a => Sys2Proof.Machine.execCallx h a s
  | .ret h => Sys2Proof.Machine.execRet h s
  | .exit h => Sys2Proof.Machine.execExit h s
  | .meet h save off => Sys2Proof.Machine.execMeet h save off s
  | .mtres h a => Sys2Proof.Machine.execMtres h a s
  | .yieldHint h => Sys2Proof.Machine.execYieldHint h s
  | .xissue h w n1 => Sys2Proof.Machine.execXissue h w n1 s
  | .bkpt h code => Sys2Proof.Machine.execBkpt h code s
  | .trap h code => Sys2Proof.Machine.execTrap h code s
  | .sleep h a lit => Sys2Proof.Machine.execSleep h a lit s
  | .ld h o => Sys2Proof.Machine.execLd h o s
  | .st h o => Sys2Proof.Machine.execSt h o s
  | .lds h o => Sys2Proof.Machine.execLds h o s
  | .sts h o => Sys2Proof.Machine.execSts h o s
  | .ldsr h o => Sys2Proof.Machine.execLdsr h o s
  | .stsr h o => Sys2Proof.Machine.execStsr h o s
  | .ldc h o => Sys2Proof.Machine.execLdc h o s
  | .atom h o => Sys2Proof.Machine.execAtom h o s
  | .atoms h o => Sys2Proof.Machine.execAtoms h o s
  | .acas h o => Sys2Proof.Machine.execAcas h o s
  | .acass h o => Sys2Proof.Machine.execAcass h o s
  | .redm h o => Sys2Proof.Machine.execRedm h o s
  | .pref h o => Sys2Proof.Machine.execPref h o s
  | .ipref h o => Sys2Proof.Machine.execIpref h o s
  | .fence h ord sc => Sys2Proof.Machine.execFence h ord sc s
  | .fencesc h => Sys2Proof.Machine.execFencesc h s
  | .bar h g => Sys2Proof.Machine.execBar h g s
  | .bara h g d => Sys2Proof.Machine.execBara h g d s
  | .barw h g a => Sys2Proof.Machine.execBarw h g a s
  | .swarm h rearm a b lit => Sys2Proof.Machine.execSwarm h rearm a b lit s
  | .syncw h a b => Sys2Proof.Machine.execSyncw h a b s
  | .waitseq h eng a => Sys2Proof.Machine.execWaitseq h eng a s
  | .dqpost h tagged a b => Sys2Proof.Machine.execDqpost h tagged a b s
  | .dqtake h d => Sys2Proof.Machine.execDqtake h d s
  | .cacq h pri => Sys2Proof.Machine.execCacq h pri s
  | .crel h => Sys2Proof.Machine.execCrel h s
  | .tmac h o => Sys2Proof.Machine.execTmac h o s
  | .mmac h o => Sys2Proof.Machine.execMmac h o s
  | .tmacv h o => Sys2Proof.Machine.execTmacv h o s
  | .mmacv h o => Sys2Proof.Machine.execMmacv h o s
  | .tld h o => Sys2Proof.Machine.execTld h o s
  | .tst h o => Sys2Proof.Machine.execTst h o s
  | .twrv h o => Sys2Proof.Machine.execTwrv h o s
  | .trdv h o => Sys2Proof.Machine.execTrdv h o s
  | .tfill h o => Sys2Proof.Machine.execTfill h o s
  | .aclr h d => Sys2Proof.Machine.execAclr h d s
  | .ald h o => Sys2Proof.Machine.execAld h o s
  | .ast h o => Sys2Proof.Machine.execAst h o s
  | .ardv h o => Sys2Proof.Machine.execArdv h o s
  | .awrv h o => Sys2Proof.Machine.execAwrv h o s
  | .aqnt h o => Sys2Proof.Machine.execAqnt h o s
  | .amap h o => Sys2Proof.Machine.execAmap h o s
  | .cpy h o => Sys2Proof.Machine.execCpy h o s
  | .cpy2 h o => Sys2Proof.Machine.execCpy2 h o s
  | .cpyg h o => Sys2Proof.Machine.execCpyg h o s
  | .cpys h o => Sys2Proof.Machine.execCpys h o s
  | .cpyb h o => Sys2Proof.Machine.execCpyb h o s
  | .cpyf h o => Sys2Proof.Machine.execCpyf h o s
  | .cpyfl h o => Sys2Proof.Machine.execCpyfl h o s
  | .cpyq h o => Sys2Proof.Machine.execCpyq h o s
  | .chlink h o => Sys2Proof.Machine.execChlink h o s
  | .chmark h o => Sys2Proof.Machine.execChmark h o s
  | .getsr h d n => Sys2Proof.Machine.execGetsr h d n s
  | .setsr h n a => Sys2Proof.Machine.execSetsr h n a s
  | .evt h g a lit => Sys2Proof.Machine.execEvt h g a lit s
  | .cntrd h d a => Sys2Proof.Machine.execCntrd h d a s
  | .cntsel h d a => Sys2Proof.Machine.execCntsel h d a s
  | .cspmac h o => Sys2Proof.Machine.execCspmac h o s
  | .iaddS g d a b => Sys2Proof.Machine.execIaddS g d a b s
  | .isubS g d a b => Sys2Proof.Machine.execIsubS g d a b s
  | .imulS g d a b => Sys2Proof.Machine.execImulS g d a b s
  | .iminS g d a b => Sys2Proof.Machine.execIminS g d a b s
  | .imaxS g d a b => Sys2Proof.Machine.execImaxS g d a b s
  | .andS g d a b => Sys2Proof.Machine.execAndS g d a b s
  | .orS g d a b => Sys2Proof.Machine.execOrS g d a b s
  | .xorS g d a b => Sys2Proof.Machine.execXorS g d a b s
  | .shlS g d a b => Sys2Proof.Machine.execShlS g d a b s
  | .shrS g d a b => Sys2Proof.Machine.execShrS g d a b s
  | .sarS g d a b => Sys2Proof.Machine.execSarS g d a b s
  | .rotlS g d a b => Sys2Proof.Machine.execRotlS g d a b s
  | .movS g d a => Sys2Proof.Machine.execMovS g d a s
  | .notS g d a => Sys2Proof.Machine.execNotS g d a s
  | .inegS g d a => Sys2Proof.Machine.execInegS g d a s
  | .popcS g d a => Sys2Proof.Machine.execPopcS g d a s
  | .clzS g d a => Sys2Proof.Machine.execClzS g d a s
  | .brevS g d a => Sys2Proof.Machine.execBrevS g d a s
  | .isetltS g d a b => Sys2Proof.Machine.execIsetltS g d a b s
  | .iseteqS g d a b => Sys2Proof.Machine.execIseteqS g d a b s
  | .nminS g d a b => Sys2Proof.Machine.execNminS g d a b s
  | .nmaxS g d a b => Sys2Proof.Machine.execNmaxS g d a b s
  | .faddS g d a b => Sys2Proof.Machine.execFaddS g d a b s
  | .fsubS g d a b => Sys2Proof.Machine.execFsubS g d a b s
  | .fmulS g d a b => Sys2Proof.Machine.execFmulS g d a b s
  | .fminS g d a b => Sys2Proof.Machine.execFminS g d a b s
  | .fmaxS g d a b => Sys2Proof.Machine.execFmaxS g d a b s
  | .fsetltS g d a b => Sys2Proof.Machine.execFsetltS g d a b s
  | .fnegS g d a => Sys2Proof.Machine.execFnegS g d a s
  | .fabsS g d a => Sys2Proof.Machine.execFabsS g d a s
  | .hadd2S g d a b => Sys2Proof.Machine.execHadd2S g d a b s
  | .hmul2S g d a b => Sys2Proof.Machine.execHmul2S g d a b s
  | .cvtfS g d a => Sys2Proof.Machine.execCvtfS g d a s
  | .cvtiS g d a => Sys2Proof.Machine.execCvtiS g d a s
  | .ex2S g d a => Sys2Proof.Machine.execEx2S g d a s
  | .lg2S g d a => Sys2Proof.Machine.execLg2S g d a s
  | .rcpS g d a => Sys2Proof.Machine.execRcpS g d a s
  | .rsqS g d a => Sys2Proof.Machine.execRsqS g d a s
  | .ldsS g d a b => Sys2Proof.Machine.execLdsS g d a b s
  | .stsS g a b => Sys2Proof.Machine.execStsS g a b s
  | .nopS g => Sys2Proof.Machine.execNopS g s
  | .storeCoreVisible warp => Sys2Proof.Machine.execStoreCoreVisible warp s
  | .storePerformedAtHome id => Sys2Proof.Machine.execStorePerformedAtHome id s
  | .loadDataReturn id => Sys2Proof.Machine.execLoadDataReturn id s
  | .remoteLoadReturn id => Sys2Proof.Machine.execRemoteLoadReturn id s
  | .resultWriteback warp => Sys2Proof.Machine.execResultWriteback warp s
  | .barrierPhaseComplete blk g => Sys2Proof.Machine.execBarrierPhaseComplete blk g s
  | .sleepExpiry warp bundle => Sys2Proof.Machine.execSleepExpiry warp bundle s
  | .cubeOwnershipGrant core => Sys2Proof.Machine.execCubeOwnershipGrant core s
  | .engineRecordStart core eng => Sys2Proof.Machine.execEngineRecordStart core eng s
  | .copyUnitTransfer core eng => Sys2Proof.Machine.execCopyUnitTransfer core eng s
  | .cubeChunk core => Sys2Proof.Machine.execCubeChunk core s
  | .cubeTileOperation core => Sys2Proof.Machine.execCubeTileOperation core s
  | .cubeAccumulatorWrite core => Sys2Proof.Machine.execCubeAccumulatorWrite core s
  | .engineOperationComplete core eng => Sys2Proof.Machine.execEngineOperationComplete core eng s
  | .chainMarkerWrite core eng => Sys2Proof.Machine.execChainMarkerWrite core eng s
  | .segmentRecordRead core eng => Sys2Proof.Machine.execSegmentRecordRead core eng s
  | .fabricFlitSend core => Sys2Proof.Machine.execFabricFlitSend core s
  | .fabricRunClose vf peer => Sys2Proof.Machine.execFabricRunClose vf peer s
  | .l1SectorExpiry core => Sys2Proof.Machine.execL1SectorExpiry core s
  | .l0LineFill core line => Sys2Proof.Machine.execL0LineFill core line s
  | .fairnessWindowGrant warp => Sys2Proof.Machine.execFairnessWindowGrant warp s
  | .bundleRegrouping core => Sys2Proof.Machine.execBundleRegrouping core s
  | .schedulerSelection core => Sys2Proof.Machine.execSchedulerSelection core s
  | .launchPacketRead vf => Sys2Proof.Machine.execLaunchPacketRead vf s
  | .blockPlacementAttempt vf => Sys2Proof.Machine.execBlockPlacementAttempt vf s
  | .priorityVictimMark vf => Sys2Proof.Machine.execPriorityVictimMark vf s
  | .blockEvict blk => Sys2Proof.Machine.execBlockEvict blk s
  | .replStart launch => Sys2Proof.Machine.execReplStart launch s
  | .replTimeout launch => Sys2Proof.Machine.execReplTimeout launch s
  | .translationWalk core vf ctx va acc => Sys2Proof.Machine.execTranslationWalk core vf ctx va acc s
  | .midnightScrubEnd ch => Sys2Proof.Machine.execMidnightScrubEnd ch s
  | .blockHaltWarpStop warp => Sys2Proof.Machine.execBlockHaltWarpStop warp s
  | .blockDiscard blk => Sys2Proof.Machine.execBlockDiscard blk s
  | .blockRetire blk => Sys2Proof.Machine.execBlockRetire blk s
  | .faultRecordWrite vf ctx => Sys2Proof.Machine.execFaultRecordWrite vf ctx s
  | .traceRecordWrite vf unit => Sys2Proof.Machine.execTraceRecordWrite vf unit s
  | .pcSample core sched vf unit => Sys2Proof.Machine.execPcSample core sched vf unit s
  | .starvationRecord warp bundle => Sys2Proof.Machine.execStarvationRecord warp bundle s
  | .blockIdleRecord blk => Sys2Proof.Machine.execBlockIdleRecord blk s
  | .quiesceSave vf => Sys2Proof.Machine.execQuiesceSave vf s
  | .quiesceTimeout vf => Sys2Proof.Machine.execQuiesceTimeout vf s
  | .breakpointStop warp bundle => Sys2Proof.Machine.execBreakpointStop warp bundle s
  | .debugStopDump blk => Sys2Proof.Machine.execDebugStopDump blk s
  | .stepEnd blk => Sys2Proof.Machine.execStepEnd blk s
  | .twinCheckpointCompare warp => Sys2Proof.Machine.execTwinCheckpointCompare warp s
  | .xissueGroupIssue warp => Sys2Proof.Machine.execXissueGroupIssue warp s
  | .patrolScrubRead line => Sys2Proof.Machine.execPatrolScrubRead line s
  | .throttleWithhold core => Sys2Proof.Machine.execThrottleWithhold core s
  | .pairKeyRenewal vf peer => Sys2Proof.Machine.execPairKeyRenewal vf peer s
  | .neighbourRefresh ch bank row => Sys2Proof.Machine.execNeighbourRefresh ch bank row s
  | .coldPowerUp => Sys2Proof.Machine.execColdPowerUp s
  | .dawnStage => Sys2Proof.Machine.execDawnStage s
  | .noonStage => Sys2Proof.Machine.execNoonStage s
  | .warmReset => Sys2Proof.Machine.execWarmReset s
  | .powerLoss => Sys2Proof.Machine.execPowerLoss s
  | .pfFlr => Sys2Proof.Machine.execPfFlr s
  | .vfFlr vf => Sys2Proof.Machine.execVfFlr vf s
  | .internalUncorrectableError => Sys2Proof.Machine.execInternalUncorrectableError s
  | .pcieConfigRequest fn off => Sys2Proof.Machine.execPcieConfigRequest fn off s
  | .registerWrite bar off val => Sys2Proof.Machine.execRegisterWrite bar off val s
  | .heartbeatTick => Sys2Proof.Machine.execHeartbeatTick s
  | .lqDoorbell vf ctx tail => Sys2Proof.Machine.execLqDoorbell vf ctx tail s
  | .replPacketReceive vf ctx gen pkt => Sys2Proof.Machine.execReplPacketReceive vf ctx gen pkt s
  | .replReadyReport launch dev time => Sys2Proof.Machine.execReplReadyReport launch dev time s
  | .replT0Receive launch t0 => Sys2Proof.Machine.execReplT0Receive launch t0 s
  | .tlbinv vf val => Sys2Proof.Machine.execTlbinv vf val s
  | .fabricRunReceive vf peer seq tagOk ia bytes => Sys2Proof.Machine.execFabricRunReceive vf peer seq tagOk ia bytes s
  | .fabricRetryNotice vf peer seq => Sys2Proof.Machine.execFabricRetryNotice vf peer seq s
  | .linkRekey link => Sys2Proof.Machine.execLinkRekey link s
  | .peerRequestReceive vf ia wr len => Sys2Proof.Machine.execPeerRequestReceive vf ia wr len s
  | .hostCompletion id ok bytes => Sys2Proof.Machine.execHostCompletion id ok bytes s
  | .hostMemoryWrite pa bytes => Sys2Proof.Machine.execHostMemoryWrite pa bytes s
  | .ideOutsideStreamRequest vf off data => Sys2Proof.Machine.execIdeOutsideStreamRequest vf off data s
  | .ideStreamFailure vf => Sys2Proof.Machine.execIdeStreamFailure vf s
  | .coreSelfTest core pass => Sys2Proof.Machine.execCoreSelfTest core pass s
  | .multiplexRotation => Sys2Proof.Machine.execMultiplexRotation s
  | .ptpMessage time lock => Sys2Proof.Machine.execPtpMessage time lock s
  | .ptmResponse time lock => Sys2Proof.Machine.execPtmResponse time lock s
  | .assign vfa qmask => Sys2Proof.Machine.execAssign vfa qmask s
  | .release vfa => Sys2Proof.Machine.execRelease vfa s
  | .quiesce vfa arg => Sys2Proof.Machine.execQuiesce vfa arg s
  | .resume vfa arg => Sys2Proof.Machine.execResume vfa arg s
  | .merge vfa vfb => Sys2Proof.Machine.execMerge vfa vfb s
  | .split vfa qmask vfb => Sys2Proof.Machine.execSplit vfa qmask vfb s
  | .sealImage vfa arg => Sys2Proof.Machine.execSealImage vfa arg s
  | .unsealImage vfa arg => Sys2Proof.Machine.execUnsealImage vfa arg s
  | .setallow vfa arg => Sys2Proof.Machine.execSetallow vfa arg s
  | .setroute vfa arg => Sys2Proof.Machine.execSetroute vfa arg s
  | .setmap vfa arg => Sys2Proof.Machine.execSetmap vfa arg s
  | .setpeer vfa arg => Sys2Proof.Machine.execSetpeer vfa arg s
  | .setrun vfa arg => Sys2Proof.Machine.execSetrun vfa arg s
  | .pfcmdReserved op => Sys2Proof.Machine.execPfcmdReserved op s
  | .create vf ctx => Sys2Proof.Machine.execCreate vf ctx s
  | .destroy vf ctx => Sys2Proof.Machine.execDestroy vf ctx s
  | .codeLoad vf ctx => Sys2Proof.Machine.execCodeLoad vf ctx s
  | .lockedRegisterWrite vf off data hyp => Sys2Proof.Machine.execLockedRegisterWrite vf off data hyp s
  | .getTdispVersion vf => Sys2Proof.Machine.execGetTdispVersion vf s
  | .getTdispCapabilities vf => Sys2Proof.Machine.execGetTdispCapabilities vf s
  | .lockInterfaceRequest vf => Sys2Proof.Machine.execLockInterfaceRequest vf s
  | .getDeviceInterfaceReport vf => Sys2Proof.Machine.execGetDeviceInterfaceReport vf s
  | .getDeviceInterfaceState vf => Sys2Proof.Machine.execGetDeviceInterfaceState vf s
  | .startInterfaceRequest vf => Sys2Proof.Machine.execStartInterfaceRequest vf s
  | .stopInterfaceRequest vf => Sys2Proof.Machine.execStopInterfaceRequest vf s
  | .ideKm fn => Sys2Proof.Machine.execIdeKm fn s
  | .getVersion fn => Sys2Proof.Machine.execGetVersion fn s
  | .getCapabilities fn => Sys2Proof.Machine.execGetCapabilities fn s
  | .negotiateAlgorithms fn => Sys2Proof.Machine.execNegotiateAlgorithms fn s
  | .getDigests fn => Sys2Proof.Machine.execGetDigests fn s
  | .getCertificate fn => Sys2Proof.Machine.execGetCertificate fn s
  | .challenge fn => Sys2Proof.Machine.execChallenge fn s
  | .getMeasurements fn idx => Sys2Proof.Machine.execGetMeasurements fn idx s
  | .keyExchange fn => Sys2Proof.Machine.execKeyExchange fn s
  | .finish fn => Sys2Proof.Machine.execFinish fn s
  | .endSession fn => Sys2Proof.Machine.execEndSession fn s
  | .trcctlWrite vf unit val => Sys2Proof.Machine.execTrcctlWrite vf unit val s
  | .fqrdWrite vf ctx val => Sys2Proof.Machine.execFqrdWrite vf ctx val s
  | .fqreplay vf ctx val => Sys2Proof.Machine.execFqreplay vf ctx val s
  | .asumWrite vf ctx val => Sys2Proof.Machine.execAsumWrite vf ctx val s
  | .replstatWrite vf ctx val => Sys2Proof.Machine.execReplstatWrite vf ctx val s
  | .counterPageSelect vf ctx val => Sys2Proof.Machine.execCounterPageSelect vf ctx val s
  | .dbgStop vf ctx => Sys2Proof.Machine.execDbgStop vf ctx s
  | .dbgResume vf ctx => Sys2Proof.Machine.execDbgResume vf ctx s
  | .dbgStep vf ctx => Sys2Proof.Machine.execDbgStep vf ctx s
  | .dbgBstep vf ctx => Sys2Proof.Machine.execDbgBstep vf ctx s
  | .softError site double => Sys2Proof.Machine.execSoftError site double s
  | .codewordError cw syms => Sys2Proof.Machine.execCodewordError cw syms s
  | .fabricRunAcknowledged vf peer seq => Sys2Proof.Machine.execFabricRunAcknowledged vf peer seq s
  | .replRejection launch => Sys2Proof.Machine.execReplRejection launch s

end Sys2Proof.Machine
end

