-- ==== Sys2Proof/Machine/Program.lean ====
section
/-! DEFINITION. A program placed from outside (log entry 28): one instruction in device memory, in the L0 of core 0 of a slice VF 1, with
a block of one thread and a lead that stand at it, its issue chosen. -/

namespace Sys2Proof.Machine

/-- Address of the instruction, virtual and physical alike. -/
def wordAt : Nat := 0x10000
/-- The bytes of an instruction of `nbits` bits, zeros above them. -/
def wordBytes (nbits w : Nat) : List Byte := natBytes 12 (w % 2 ^ nbits)
/-- An instruction that only a lead can execute. -/
def leadOnly (bs : List Byte) : Bool :=
  match (decode ⟨false, true⟩ bs).1, (decode ⟨true, true⟩ bs).1 with
  | .bad _, .ok _ => true
  | _, _ => false
/-- The block's launch: one thread, every register and all storage. -/
def wordPacket : Packet :=
  { Packet.nil with code := wordAt, nx := 1, ny := 1, nz := 1, threads := 1, vregs := 255, lregs := 64, tiles := 32, accs := 64, scratch := 768 }
def wordLaunch : Launch :=
  { Launch.nil with vf := 1, pkt := wordPacket, expmask := 1, next := 1, total := 1, discarded := false, alive := true }
/-- The device in service with slice VF 1 on quad 0, context 0 created. -/
def inService (s : State) : State :=
  let open' (sl : Slice) : Slice :=
    { sl with used := true, quads := [0], lcores := [0, 1, 2, 3], ctxs := modAt sl.ctxs 0 fun c => { c with exists' := true } }
  { s with powered := true, stage := 2, slices := modAt s.slices 1 open', inputs := [] }
/-- The instruction placed, and chosen to issue next. -/
def placeWord (s : State) (nbits w : Nat) : State :=
  let bs := wordBytes nbits w
  let l := s.launches.length
  let first := s.warps.length
  let s := inService s
  let s := { s with launches := s.launches ++ [wordLaunch], mem := memWriteN s.mem wordAt bs }
  let key := 64 * 2 ^ 45 + wordAt / 128
  let s := setCore s 0 fun c => { c with l0 := (key, .dev wordAt) :: c.l0.filter (·.1 != key) }
  let s := addBlock s l 0 [0] .resident none
  { s with issuing := [⟨if leadOnly bs then first + 1 else first, 0, 0⟩] }

end Sys2Proof.Machine
end

