-- ==== Sys2Proof/Machine/Run.lean ====
section
/-! DEFINITION. A chosen issue just before its effect: the words at PC, the checks of Table 6-11 (R138, R327), armed
breakpoints (R303), poisoned registers (R357), and stalls that have arisen since the choice. -/

namespace Sys2Proof.Machine

/-- An armed breakpoint at an address (R302, R303). -/
def breakpointAt (s : State) (b : Block) (pc : Addr) : Bool :=
  let cx := ctxOf s b.vf b.ctx
  cx.desc.dbg && cx.dbgbp.any fun x => x.getLsbD 63 && x.extractLsb' 2 50 == pc.extractLsb' 2 50
/-- A bundle passes a breakpoint: just resumed there, or on its way again after a park. -/
def passesBreak (b : Bundle) : Bool := b.skipBp || match b.hold with | some (.page _ _ _) => true | _ => false
/-- A bundle chosen in the ck in which another one has stopped its block triggers as well (R393). -/
def lateTrigger (s : State) (w : Nat) (b : Bundle) : State :=
  let wp := warpOf s w
  let blk := blockOf s wp.blk
  match blk.stop, fetched s wp (pcOf wp b) with
  | some st, .bytes bs =>
    let bkpt : Bool := match atPc s wp bs with | .ok (.bkpt _ _) _ => true | _ => false
    if !st.dumped && (st.cause == 1 || st.cause == 2) && !(passesBreak b) && (bkpt || breakpointAt s blk (pcOf wp b)) then
      stopBlock s wp.blk st.cause [(w, b.id)]
    else s
  | _, _ => s
/-- A fetched instruction that fails a check traps (R138, R327). -/
def illegalTrap (s : State) (w : Nat) (b : Bundle) (sub : Nat) (bs : List Byte) : State :=
  takeTrap s w b (pcOf (warpOf s w) b) 0x01 sub (leBytes (bs.take 8)) (lowest b.lanes)
/-- What stands at the PC of a chosen bundle: the state, and what runs in it. DEDUCED, log entry 80: an illegal encoding traps before
an armed breakpoint is looked at. -/
def prepare (s : State) (c : Cur) : State × Option Instr :=
  let wp := warpOf s c.warp
  match bundleOf wp c.bundle with
  | none => (s, none)
  | some b =>
    if !(mayIssue s c.warp b) then (lateTrigger s c.warp b, none)
    else if (b.hold.bind holdReason).isSome then (s, none) else
    match fetched s wp (pcOf wp b) with
    | .missing _ => (s, none)
    | .bytes bs =>
      match atPc s wp bs with
      | .bad sub _ => if windowStall s wp b.lanes then (s, none) else (illegalTrap s c.warp b sub bs, none)
      | .ok ins len =>
        if (issueStall s c.warp b ins len).isSome then (s, none)
        else if !(passesBreak b) && breakpointAt s (blockOf s wp.blk) (pcOf wp b) then (s, some (.breakpointStop c.warp c.bundle))
        else ({ s with cur := some { c with len } }, some ins)
/-- A poisoned source register traps in place of an effect, after the checks that come before it (R326, R357): `out` is what
the instruction did in `s`. -/
def poisonLate (s : State) (c : Cur) (ins : Instr) (out : Host.Outcome State Fault Refusal) : Host.Outcome State Fault Refusal :=
  let wp := warpOf s c.warp
  match bundleOf wp c.bundle, out with
  | some b, .next t =>
    match poisonedLane s c.warp wp (activeLanes wp b.lanes (guardOf ins)) ins with
    | some l => .next (if (warpOf t c.warp).halt == .trapped then t else poisonTrap s c.warp b (pcOf wp b) 0 l 1)
    | none => out
  | _, _ => out

end Sys2Proof.Machine
end

