-- ==== Sys2Proof/Machine/Tick.lean ====
section
/-! DEFINITION. The end of a ck and the start of the next: what time alone does, and the events that are due in a ck, in the order in
which the model takes them up (log entry 1). -/

namespace Sys2Proof.Machine

/-- Rows that reach the machine from outside: faults and cooling, resets, and requests. -/
def fromOutside (i : Instr) : Bool := 240 ≤ i.ctorIdx

/-! ### The end of a ck -/

/-- Stores ahead of a FENCESC and its warp's cube operations are done: it waits for the next tick (R114). -/
def drainFence (s : State) (w : Nat) (b : Bundle) : Bundle :=
  match b.hold with
  | some (.fencesc ids n none) => if allGone s ids && cubeDone s w n then { b with hold := some (.fencesc ids n (some (s.hbeat.toNat + 1))) } else b
  | _ => b
/-- A ck of SLEEP (R184). -/
def sleepCk (b : Bundle) : Bundle :=
  match b.hold with | some (.sleep (n + 1)) => { b with hold := some (.sleep n) } | _ => b
/-- What a ck does to a warp or lead. -/
def warpCk (s : State) (w : Nat) (x : Warp) : Warp :=
  if !x.present || x.retired then x else
  let run := mayRun s w
  { x with issued := false, bundles := x.bundles.map fun b => drainFence s w (if run then sleepCk b else b) }
/-- The idle count of a block: consecutive ck in which it is resident (R367). -/
def blockCk (s : State) (n : Nat) (b : Block) : Block :=
  if b.status != .resident then { b with idle := 0 } else { b with issued := false, idle := if blockIdle s n then b.idle + 1 else 0 }
/-- A trace unit's sampling: its context and period, where it samples (R298, R399). -/
def samplePeriod (sl : Slice) (u : Nat) : Option Nat :=
  let (on, sper) : Bool × Nat :=
    if sl.trchold.getLsbD u then (true, (sl.hvforce.extractLsb' 11 5).toNat)
    else let c := (sl.trace.getD u TraceUnit.reset).ctl; (c.getLsbD 0, (c.extractLsb' 7 5).toNat)
  if on && sper != 0 then some sper else none
/-- Units of a core's slice that sample in a ck, or would have in the ck withheld before it. -/
def samplesNow (s : State) (k : Core) (sl : Slice) : List Bool :=
  (List.range 4).map fun u => k.sampleDue.getD u false || (match samplePeriod sl u with | some p => s.clk % 2 ^ p == 0 | none => false)
/-- A core enters a ck: a withheld one is counted once in its throttle counter (R18, R255). -/
def withholdCk (k : Core) : Core :=
  { k with withheld := k.withholdNext, withholdNext := false, throttle := if k.withholdNext then k.throttle + 1 else k.throttle }
/-- A core's samples of a withheld ck are put off (R298). -/
def sampleCk (s : State) (k : Core) : Core :=
  match s.slices.find? fun sl => sl.used && sl.lcores.contains k.n with
  | some sl => { k with sampleDue := if k.withheld then samplesNow s k sl else [false, false, false, false] }
  | none => k
/-- What the end of a ck does: barrier arrivals, records formed, a SPLIT under way, and counts. -/
def endCk (s : State) : State :=
  let open' := (List.range s.blocks.length).filter fun b => (blockOf s b).status == .resident
  let s := splitCk (flushFormed (open'.foldl checkArrivals s))
  let s := (List.range s.warps.length).foldl endDusk s
  { s with warps := s.warps.mapIdx (warpCk s), blocks := s.blocks.mapIdx (blockCk s) }

/-! ### What is due -/

/-- Instances where a condition holds. -/
def due (c : Bool) (i : Instr) : List Instr := if c then [i] else []
/-- Events of the memory path of a warp or lead. -/
def warpEvents (s : State) (w : Nat) : List Instr :=
  let x := warpOf s w
  due (x.pend.any fun p => match p.due with | some d => d ≤ s.clk | none => false) (.resultWriteback w) ++
  due (!x.queue.isEmpty || heldWaits s w) (.storeCoreVisible w)
/-- Waits of a warp, its windows and its monitor. -/
def warpWaits (s : State) (w : Nat) : List Instr :=
  let x := warpOf s w
  let b := blockOf s x.blk
  let cx := ctxOf s b.vf b.ctx
  if !x.present || x.retired then [] else
  (x.bundles.flatMap fun b => due (b.hold == some (.sleep 0)) (.sleepExpiry w b.id)) ++
  due (match x.halt with | .skid _ => true | _ => false) (.blockHaltWarpStop w) ++
  due (x.ckpt.any fun c => !c.passed) (.twinCheckpointCompare w) ++
  due (x.window.isNone && !x.lead && x.bundles.any fun b => x.fairt ≤ b.wait) (.fairnessWindowGrant w) ++
  x.bundles.flatMap fun b => due (cx.monctl.getLsbD 0 && !b.starved && monLimit cx ≤ b.starve) (.starvationRecord w b.id)
/-- Loads and flights that have arrived. -/
def arrivals (s : State) : List Instr :=
  (s.loads.filter fun l => if l.remote then remoteDue s l else loadDue s l).map
    (fun l => if l.remote then .remoteLoadReturn l.id else .loadDataReturn l.id) ++
  (s.flights.filter fun f => !f.host && f.due ≤ s.clk && !(onFabric s f.vf f.id)).map fun f => .storePerformedAtHome f.id
/-- A waiter stands at a free cube, or an owner at a CACQ whose grant has become usable (R214). -/
def grantDue (s : State) (k : Core) : Bool :=
  match k.owner with
  | none => !k.cubeq.isEmpty
  | some w => k.ownerFrom ≤ s.clk && (warpOf s w).bundles.any fun b => b.hold == some .cacq
/-- Caches and the cube's ownership in a core. -/
def coreEvents (s : State) (k : Core) : List Instr :=
  (k.fills.filter fun f => f.2.1 ≤ s.clk).map (fun f => .l0LineFill k.n f.1) ++
  due (k.l1.any fun x => x.fill + Config.l1Life ≤ s.clk) (.l1SectorExpiry k.n) ++
  due (grantDue s k) (.cubeOwnershipGrant k.n)
/-- The engines of a core that have something to do. -/
def engineEvents (s : State) (k : Core) : List Instr :=
  let sends : Bool := match sliceOfCore s k.n with
    | some vf => (sliceOf s vf).fabOut.any (·.core == k.n) || (runAgain (sliceOf s vf)).isSome
    | none => false
  let busy (e : Engine) : Bool := (e == .fab && sends) || (s.ops.any fun o => o.core == k.n && o.eng == e) || !(startable s k.n e).isEmpty
  let each (e : Engine) : List Instr :=
    [.engineRecordStart k.n e, .segmentRecordRead k.n e, .copyUnitTransfer k.n e, .chainMarkerWrite k.n e, .engineOperationComplete k.n e]
  due (k.cubeRes.any fun x => x.due ≤ s.clk) (.cubeAccumulatorWrite k.n) ++
  ([Engine.cube, .cpy0, .cpy1, .fab].filter busy).flatMap fun e =>
    (match e with | .cube => [.cubeTileOperation k.n, .cubeChunk k.n] | .fab => [.fabricFlitSend k.n] | _ => []) ++ each e
/-- Barriers, halts, stops and the end of a block. -/
def blockEvents (s : State) (n : Nat) : List Instr :=
  let b := blockOf s n
  let cx := ctxOf s b.vf b.ctx
  if b.status != .resident then [] else
  (b.groups.flatMap fun g => due (match g.due with | some d => d.1 ≤ s.clk | none => false) (.barrierPhaseComplete n g.g)) ++
  due b.halt.isSome (.blockDiscard n) ++ due (b.halt.isSome || b.stop.isSome) (.debugStopDump n) ++ due b.step.isSome (.stepEnd n) ++
  due ((liveWarps s b).isEmpty) (.blockRetire n) ++ due b.victim (.blockEvict n) ++
  due (cx.monctl.getLsbD 0 && !b.idleRec && monLimit cx ≤ b.idle) (.blockIdleRecord n)
/-- Records on their way out of a slice. -/
def recordEvents (sl : Slice) : List Instr :=
  (sl.ctxs.flatMap fun c => due (c.exists' && !c.fqPend.isEmpty) (.faultRecordWrite sl.vf c.n)) ++
  (List.range 4).flatMap fun u =>
    due (if sl.trchold.getLsbD u then !sl.hvheld.isEmpty else !(sl.trace.getD u TraceUnit.reset).waiting.isEmpty) (.traceRecordWrite sl.vf u)
/-- What the command processor of a slice does. -/
def launchEvents (s : State) (sl : Slice) : List Instr :=
  let ls := launchTable s sl.vf
  due (nextQueue sl).isSome (.launchPacketRead sl.vf) ++
  (ls.filter (replWaiting s)).flatMap (fun l => [.replStart l, .replTimeout l]) ++
  (if (pending s sl.vf).isEmpty then [] else [.blockPlacementAttempt sl.vf, .priorityVictimMark sl.vf]) ++
  due (sl.quiesce.isSome || (lostCore s sl).isSome) (.quiesceSave sl.vf) ++
  due (sl.quiesce.any fun q => q.deadline ≤ s.clk) (.quiesceTimeout sl.vf)
/-- Runs and keys of a slice's peers. -/
def fabricEvents (s : State) (sl : Slice) : List Instr :=
  ((sl.runs.filter fun r => !r.closed && r.last + 256 ≤ s.clk).map fun r => .fabricRunClose sl.vf r.peer) ++
  ((List.range 64).filter fun p => let x := sl.peers.getD p Peer.none; x.keys && 2 ^ 62 ≤ x.counter).map fun p => .pairKeyRenewal sl.vf p
/-- A core in service with something resident on it. -/
def coreWorks (s : State) (k : Core) : Bool := k.inService && !((residents s k.n false).isEmpty && (residents s k.n true).isEmpty)
/-- Regroupings and selections of the cores: every core chooses before any issues (R393). -/
def selectionEvents (s : State) : List Instr :=
  let ks := s.cores.filter (coreWorks s)
  (if s.clk % 4 == 0 then ks.map fun k => .bundleRegrouping k.n else []) ++ ks.map fun k => .schedulerSelection k.n
/-- Samples of a core in service. -/
def sampleEvents (s : State) (k : Core) : List Instr :=
  if !(coreWorks s k) then [] else
  let samples : List Instr := match s.slices.find? fun sl => sl.used && sl.lcores.contains k.n with
    | some sl =>
      let now := samplesNow s k sl
      if k.withheld then [] else
      ((List.range 4).filter fun u => now.getD u false).flatMap fun u => (List.range 4).map fun j => .pcSample k.n j sl.vf u
    | none => []
  samples
/-- Cks in which the patrol scrub reads every line of a channel: 24 h (R352). -/
def patrolCk : Nat := 24 * 3600 * 1700000000
/-- Lines of each channel that the patrol scrub has read by a ck: evenly over the 24 h (log entry 90). -/
def patrolDone (clk : Nat) : Nat := clk * 2 ^ 23 / patrolCk
/-- Line `n` of a channel (R78). -/
def lineOfChan (ch n : Nat) : Nat := (4 * (ch / 96) + ch % 96 / 24) * (48 * 2 ^ 22) + 24 * (n % 2 ^ 23) + ch % 24
/-- Patrol reads that are due (R352). -/
def patrolEvents (s : State) : List Instr :=
  if patrolDone s.clk == patrolDone (s.clk - 1) then [] else (List.range 384).map fun ch => .patrolScrubRead (lineOfChan ch (patrolDone s.clk))
/-- Events of the device as a whole. -/
def deviceEvents (s : State) (last : Nat) : List Instr :=
  ((List.range 384).flatMap fun c => due (match (chanReg s c).sweep with | some t => t ≤ s.clk | none => false) (.midnightScrubEnd c)) ++
  due (s.clk % Config.heartbeatCk == 0) .heartbeatTick ++ due (s.stage == 2 && last / 10000 != timeNs s / 10000) .multiplexRotation ++
  patrolEvents s ++ (s.activ.filter fun a => 1024 ≤ a.2.2.2).map fun a => .neighbourRefresh a.1 a.2.1 a.2.2.1
/-- Everything that is due in a ck of Noon stage. -/
def noonAgenda (s : State) (last : Nat) : List Instr :=
  let ws := (List.range s.warps.length).filter fun w => (warpOf s w).present || !(warpOf s w).queue.isEmpty || heldWaits s w
  let used := s.slices.filter fun sl => sl.used && sl.ifst != .error
  let all := s.slices.filter (·.used)
  deviceEvents s last ++ arrivals s ++ ws.flatMap (warpEvents s) ++ s.cores.flatMap (coreEvents s) ++ s.cores.flatMap (engineEvents s) ++
  (List.range s.blocks.length).flatMap (blockEvents s) ++ ws.flatMap (warpWaits s) ++ used.flatMap recordEvents ++
  used.flatMap (fabricEvents s) ++ all.flatMap (launchEvents s) ++ selectionEvents s ++ s.cores.flatMap (sampleEvents s)
/-- What is due in a ck that has just begun; `last` is TIME in the ck before. -/
def agendaOf (s : State) (last : Nat) : List Instr :=
  if s.stage == 0 then [.dawnStage]
  else if s.stage == 1 then deviceEvents s last ++ due (!(s.channels.any (·.pend)) && started s && !s.recovery) .noonStage
  else noonAgenda s last
/-- One ck. Without power nothing happens; before Dawn stage no ck is counted. -/
def tick (s : State) : State :=
  if !s.powered then s
  else if s.stage == 0 then { s with agenda := agendaOf s 0 }
  else
    let last := timeNs s
    let t := endCk s
    let t := timeCk { t with clk := t.clk + 1, cores := t.cores.map withholdCk }
    let a := agendaOf t last
    { t with agenda := a, cores := t.cores.map (sampleCk t) }

end Sys2Proof.Machine
end

