-- ==== Sys2Proof/Machine/Step.lean ====
section
/-! DEFINITION. One step of the machine: what has reached it from outside, else a selection that is due, else an issue
chosen in this ck, else an event that is due in this ck, else the next ck (log entry 1). -/

namespace Sys2Proof.Machine

/-- A chosen issue runs the instruction at its PC. -/
def issueOne (c : Cur) (s : State) : Host.Outcome State Fault Refusal :=
  match prepare s c with
  | (t, none) => .next t
  | (t, some i) => poisonLate t c i (exec i t)

def step (s : State) : Host.Outcome State Fault Refusal :=
  match s.inputs with
  | i :: r => if fromOutside i then exec i { s with inputs := r } else .next { s with inputs := r }
  | [] =>
    match s.agenda with
    | .schedulerSelection k :: r => exec (.schedulerSelection k) { s with agenda := r }
    | agenda =>
      match s.issuing with
      | c :: r => issueOne c { s with issuing := r }
      | [] =>
        match agenda with
        | i :: r => exec i { s with agenda := r }
        | [] => .next (tick s)

/-- The machine with an instruction where the next step fetches it. -/
def State.withFetchWord (s : State) (nbits w : Nat) : State := placeWord s nbits w

end Sys2Proof.Machine
end

