-- ==== Sys2Proof/Safety.lean ====
section
/-! DEFINITION. What the statements mean: a sound memory, an issue, what a lane holds after it, and what an issue
leaves as it was. -/

namespace Sys2Proof.Safety
open Sys2Proof Sys2Proof.Machine

/-- The outcome of a step or of an instruction. -/
abbrev Out := Host.Outcome State Fault Refusal

/-- Device and host memory stand in their canonical form. -/
def MemOk (s : State) : Prop := s.mem.wf = true ∧ s.hostMem.wf = true

/-- A bundle of warp `w`, or a lead, stands at the issue of an instruction of `len` bytes. -/
def Issuing (s : State) (w : Nat) (bn : Bundle) (len : Nat) : Prop :=
  s.cur = some ⟨w, bn.id, len⟩ ∧ bundleOf (warpOf s w) bn.id = some bn

/-- The issue, with the threads of the bundle whose guard is true (R126). -/
def issueOf (s : State) (w : Nat) (bn : Bundle) (len : Nat) (g : Thread → Bool) : Iss :=
  ⟨w, warpOf s w, bn, len, activeLanes (warpOf s w) bn.lanes g⟩

/-- A lane of the bundle whose guard is true. -/
def Active (s : State) (w : Nat) (bn : Bundle) (g : Thread → Bool) (l : Nat) : Prop :=
  l < (warpOf s w).threads.length ∧ bn.lanes.getLsbD l = true ∧ g (threadOf (warpOf s w) l) = true

/-- Results written in a thread, and flags set in its ASTAT. -/
def written (lead : Bool) (r : LaneRes) (t : Thread) : Thread :=
  raise r.2 (r.1.foldl (fun t x => x.apply lead t) t)

/-- A thread after a computation: in an active lane the results are written; every thread of the bundle stands `len`
bytes further; every other thread is as it was. -/
def laneAfter (lead : Bool) (bn : Bundle) (len : Nat) (g : Thread → Bool) (f : Nat → Thread → LaneRes) (l : Nat)
    (t : Thread) : Thread :=
  let u := if bn.lanes.getLsbD l && g t then written lead (f l t) t else t
  if bn.lanes.getLsbD l then { u with pc := u.pc + BitVec.ofNat 52 len } else u

/-- FRAME. Nothing but the threads of the issuing warp, their grouping, and the counts that every issue moves
(R26, R27, R254, R256, R304, R366), and a checkpoint that a merge undoes (R360), has changed: every other warp, every part with its scratchpad, tiles and
accumulators, every chain, every register of the slice and every byte of memory is as it was. -/
def OnlyIssue (s t : State) (i : Iss) (yh : Bool) : Prop :=
  t = { s with warps := t.warps, blocks := (noteIssue s i yh).blocks, cores := (noteIssue s i yh).cores,
               slices := (noteIssue s i yh).slices } ∧
  (∀ w', w' ≠ i.w → warpOf t w' = warpOf s w') ∧
  (warpOf t i.w = { warpOf s i.w with
    threads := (warpOf t i.w).threads, bundles := (warpOf t i.w).bundles, nextBundle := (warpOf t i.w).nextBundle,
    window := (warpOf t i.w).window, pend := (warpOf t i.w).pend, issued := true, issuePc := (warpOf t i.w).issuePc,
    halt := (warpOf t i.w).halt, ckpt := (warpOf t i.w).ckpt, sig := (warpOf t i.w).sig }) ∧
  ((warpOf s i.w).noCkpt → (warpOf t i.w).ckpt = (warpOf s i.w).ckpt ∧ (warpOf t i.w).sig = (warpOf s i.w).sig) ∧
  (∀ a, memRead t.mem a = memRead s.mem a) ∧ t.hostMem = s.hostMem ∧ t.parts = s.parts

/-- A computation completes: a next state follows, in which every thread of the warp is as `laneAfter` says; where no
raised flag is enabled (R69), nothing else has changed. -/
def Computes (s : State) (w : Nat) (bn : Bundle) (len : Nat) (g : Thread → Bool) (yh : Bool)
    (f : Nat → Thread → LaneRes) (out : Out) : Prop :=
  ∃ t, out = .next t ∧
    (∀ l, l < (warpOf s w).threads.length →
      threadOf (warpOf t w) l = laneAfter (warpOf s w).lead bn len g f l (threadOf (warpOf s w) l)) ∧
    ((∀ l, Active s w bn g l → enabled (threadOf (warpOf s w) l) (f l (threadOf (warpOf s w) l)).2 = 0) →
      OnlyIssue s t (issueOf s w bn len g) yh)

/-- As `Computes`, for an M- or L-form whose lanes do not read one another. -/
def Does (s : State) (w : Nat) (bn : Bundle) (len : Nat) (h : Hdr) (i : Instr) (f : Thread → LaneRes) : Prop :=
  Computes s w bn len (hdrGuard h) h.yh (fun _ t => f t) (exec i s)

/-- ENABLED FLAGS (R69, R319, R338): a computation goes on and its results are the same; the warp keeps exactly the enabled flags raised for
ASUM. Without a log nothing else has changed; with one, a single raised flag gives one record of Table 15-6, in the slot that ALCNT
names, which ALCNT then counts, or a write that does not translate drops it and stops nothing. -/
def Logs (s : State) (w : Nat) (bn : Bundle) (len : Nat) (h : Hdr) (i : Instr) (f : Thread → LaneRes) : Prop :=
  let wp := warpOf s w
  let b := blockOf s wp.blk
  let cx := ctxOf s b.vf b.ctx
  let j := issueOf s w bn len (hdrGuard h)
  let on := fun l => enabled (threadOf wp l) (f (threadOf wp l)).2
  let raised := fun k => ∃ l, Active s w bn (hdrGuard h) l ∧ (on l).getLsbD k = true
  let slots := cx.desc.alogsize / 32
  let bytes := fun (k : Nat) => bytesOf 1 k ++ bytesOf 1 (if wp.lead then 0xFF else wp.idx) ++ bytesOf 1 ((partOf s wp.part).log % 4) ++ [0] ++
    bytesOf 4 b.bx ++ bytesOf 8 (pcOf wp bn).toNat ++ bytesOf 8 (maskOf ((lanesOf j.act).filter fun l => (on l).getLsbD k)).toNat ++
    bytesOf 2 b.by' ++ bytesOf 2 b.bz ++ [0, 0, 0, 0]
  ∃ t, exec i s = .next t ∧
    (∀ l, l < wp.threads.length → threadOf (warpOf t w) l = laneAfter wp.lead bn len (hdrGuard h) (fun _ t => f t) l (threadOf wp l)) ∧
    ((sliceOf s b.vf).ifst ≠ .error →
      (slots = 0 → OnlyIssue s { t with warps := modAt t.warps w fun x => { x with alog := wp.alog } } j h.yh ∧
        ∀ k, k < 6 → ((warpOf t w).alog.getLsbD k = true ↔ wp.alog.getLsbD k = true ∨ raised k)) ∧
      (∀ k, k < 6 → slots ≠ 0 → b.vf < s.slices.length → b.ctx < (sliceOf s b.vf).ctxs.length → raised k → (∀ k', raised k' → k' = k) →
        let same := fun (u : State) => t.mem = u.mem ∧ t.hostMem = u.hostMem ∧ t.peerMem = u.peerMem ∧ t.formed = s.formed ∧
          (warpOf t w).alog = wp.alog ||| (1#6 <<< k) ∧ ∀ w', w' ≠ w → warpOf t w' = warpOf s w'
        match cpWrite s b.vf b.ctx (cx.desc.alog + 32 * (cx.alcnt.toNat % slots)) (bytes k) with
        | (u, .ok _) => same u ∧ (ctxOf t b.vf b.ctx).alcnt = cx.alcnt + 1
        | (_, .err (.poison _)) => (sliceOf t b.vf).ifst = .error
        | (u, .err _) => same u ∧ (ctxOf t b.vf b.ctx).alcnt = cx.alcnt))

/-! ### Threads, waits, queue entries, loads, traps -/

/-- The threads of a warp after, lane by lane. -/
def ThreadsAre (s t : State) (w : Nat) (f : Nat → Thread → Thread) : Prop :=
  ∀ l, l < (warpOf s w).threads.length → threadOf (warpOf t w) l = f l (threadOf (warpOf s w) l)

/-- The threads of a bundle at the next instruction in sequence, every other thread as it was. -/
def onward (bn : Bundle) (len : Nat) (l : Nat) (t : Thread) : Thread :=
  if bn.lanes.getLsbD l then { t with pc := t.pc + BitVec.ofNat 52 len } else t

/-- A thread at the next instruction in sequence. -/
def onwardAll (len : Nat) (t : Thread) : Thread := { t with pc := t.pc + BitVec.ofNat 52 len }

/-- Every thread of every warp as it was. -/
def SameRegs (s t : State) : Prop := ∀ w l, threadOf (warpOf t w) l = threadOf (warpOf s w) l

/-- A bundle stays at its instruction and waits there for `x` (Table 2-7); nothing but what an issue moves, and the wait
itself, has changed. -/
def WaitsFor (s t : State) (i : Iss) (yh : Bool) (x : Wait) : Prop :=
  (∃ b, bundleOf (warpOf t i.w) i.bn.id = some b ∧ b.lanes = i.bn.lanes ∧ b.hold = some x ∧ b.holdLen = i.len ∧ b.holdAct = i.act) ∧
  ThreadsAre s t i.w (fun _ u => u) ∧ OnlyIssue s t i yh

/-- A checkpoint of a twin pair (R360): the bundle waits there for its counterpart; no thread, no byte of memory and no other warp has
changed, and nothing has joined the queue. -/
def ChecksIn (s t : State) (i : Iss) : Prop :=
  (∃ b, bundleOf (warpOf t i.w) i.bn.id = some b ∧ b.lanes = i.bn.lanes ∧ b.hold = some .twin) ∧
  (∃ c, (warpOf t i.w).ckpt = some c ∧ c.pc = i.pc ∧ c.passed = false ∧ c.bundle = i.bn.id) ∧ SameRegs s t ∧
  t.mem = s.mem ∧ t.hostMem = s.hostMem ∧ t.peerMem = s.peerMem ∧ t.parts = s.parts ∧ t.loads = s.loads ∧
  (warpOf t i.w).queue = (warpOf s i.w).queue ∧ ∀ w', w' ≠ i.w → warpOf t w' = warpOf s w'

/-- A slice without its event counters, its lock log and the times of its walkers. -/
def bareSlice (sl : Slice) : Slice :=
  { sl with locklog := [], lockCount := 0, hvcounts := [], walks := [], ctxs := sl.ctxs.map fun c => { c with counts16 := [] } }
/-- A core without what its caches hold. -/
def bareCore (c : Core) : Core := { c with l1 := [], tlb := [], ccache := [], fills := [], dropped := 0 }
/-- A channel without its count of refreshes. -/
def bareChannel (c : Channel) : Channel := { c with rfm := 0 }
/-- FRAME of an issue that goes through the memory system: as `OnlyIssue`, but caches and TLBs, walkers, the activations and
refreshes of DRAM rows, the keys and keystreams of the links, event counters, the lock log with its interrupt and the free values
may have moved. -/
def OnlyMemory (s t : State) (i : Iss) (yh : Bool) : Prop :=
  OnlyIssue s { t with cores := (noteIssue s i yh).cores, slices := (noteIssue s i yh).slices, lines := s.lines,
                       activ := s.activ, msi := s.msi, free := s.free, channels := s.channels, keyCount := s.keyCount,
                       linkKeys := s.linkKeys, linkCount := s.linkCount } i yh ∧
  t.cores.map bareCore = (noteIssue s i yh).cores.map bareCore ∧ t.slices.map bareSlice = s.slices.map bareSlice ∧
  t.channels.map bareChannel = s.channels.map bareChannel
/-- Cores in which the issuing thread has joined: the L1 sectors of its context in its core are gone (R105, R118). -/
def joinedCores (s : State) (i : Iss) (cs : List Core) : List Core :=
  modAt cs i.wp.core fun k => { k with l1 := k.l1.filter fun x => !(x.vf == (i.block s).vf && x.ctx == (i.block s).ctx) }
/-- Cores after an access to tile or accumulator storage: a warp that has issued cube operations joins (R118, R119). -/
def ownCores (s : State) (i : Iss) (cs : List Core) : List Core := if i.wp.cubeSeq = 0 then cs else joinedCores s i cs

/-- An access has taken an entry at the end of its warp's or lead's store queue, and its bundle goes on; no byte of
memory, scratchpad, tile or accumulator has changed. -/
def Queues (frame : State → State → Iss → Bool → Prop) (s t : State) (i : Iss) (yh : Bool) (e : QEntry) : Prop :=
  (warpOf t i.w).queue = (warpOf s i.w).queue ++ [e] ∧ t.nextId = s.nextId + 1 ∧
  ThreadsAre s t i.w (onward i.bn i.len) ∧
  frame s { t with nextId := s.nextId, warps := modAt t.warps i.w fun x =>
    { x with queue := (warpOf s i.w).queue, sig := (warpOf s i.w).sig } } i yh

/-- The destination of an atomic stays pending until its data return (R202, R256). -/
def Awaits (s t : State) (i : Iss) (regs : List Nat) (la : Nat) : Prop :=
  ∃ ps, (warpOf t i.w).pend = ps ++ [⟨i.act, regs, la, 0, none, some s.nextId⟩]

/-- A load is on its way, and its bundle goes on; no register and no byte of memory has changed. -/
def Loads (frame : State → State → Iss → Bool → Prop) (s t : State) (i : Iss) (yh : Bool) (op : LoadOp) : Prop :=
  t.loads = s.loads ++ [op] ∧ t.nextId = s.nextId + 1 ∧ ThreadsAre s t i.w (onward i.bn i.len) ∧
  frame s { t with loads := s.loads, nextId := s.nextId } i yh

/-- The load that an issue puts on its way: what each lane reads, when the data return, and from where. -/
def loadOf (s : State) (i : Iss) (sz : Size) (data : List (Nat × Nat × BitVec 128)) (due : Option Nat) (remote : Bool)
    (part : Option (Nat × Nat)) (hosts : List (Nat × Nat)) : LoadOp :=
  { id := s.nextId, warp := i.w, bundle := i.bn.id, remote, data, due, vf := (i.block s).vf, ctx := (i.block s).ctx, pc := i.pc,
    late := [], acq := false, home := false, hint := .normal, fill := true, consume := true, refused := none, lanes := i.bn.lanes, part, hosts, size := sz,
    isLead := i.lead }

/-- A TRAP (R317, R327): its cause, SUB, ADDR and INFO stand in the record, which names the bundle's PC and threads; the
warp issues nothing further; its block halts; every thread of the machine, every part and every byte of memory is as it
was. -/
def Traps (s t : State) (w : Nat) (bn : Bundle) (cause sub addr info : Nat) : Prop :=
  let wp := warpOf s w
  let b := blockOf s wp.blk
  SameRegs s t ∧ t.mem = s.mem ∧ t.hostMem = s.hostMem ∧ t.parts = s.parts ∧
  (warpOf t w).halt = .trapped ∧ (blockOf t wp.blk).halt.isSome = true ∧
  ((sliceOf s b.vf).ifst ≠ .error → ∃ si sc rest, t.formed = s.formed ++
    ⟨b.vf, b.ctx, warpKey 0 s wp, [recordBytes
      ⟨1, cause, recFlags wp, recWarp wp, (partOf s wp.part).log, sub, si, sc, (pcOf wp bn).toNat, bn.lanes,
        liveLanes wp &&& ~~~bn.lanes, addr, info⟩ b.bx b.by' b.bz (timeNs s)], .block wp.blk⟩ :: rest)

/-- A thread has consumed poison (R355, R377): the record POISON of its bundle is the last that its slice forms, the warp issues nothing
further, and the slice is in ERROR, with its context, the cause and the address in SLERR and ERRADDR; every thread, every part and every
byte of memory is as it was. -/
def Poisoned (s t : State) (w : Nat) (bn : Bundle) (addr info why : Nat) : Prop :=
  let wp := warpOf s w
  let b := blockOf s wp.blk
  SameRegs s t ∧ t.mem = s.mem ∧ t.hostMem = s.hostMem ∧ t.parts = s.parts ∧ (warpOf t w).halt = .trapped ∧
  (sliceOf t b.vf).ifst = .error ∧ (sliceOf t b.vf).slerr = BitVec.ofNat 64 (1 + 4 * b.ctx + 256 * why) ∧
  (sliceOf t b.vf).erraddr = BitVec.ofNat 64 addr ∧
  ∃ si sc, t.formed = s.formed ++ [⟨b.vf, b.ctx, warpKey 0 s wp, [recordBytes
    ⟨1, 0x18, recFlags wp, recWarp wp, (partOf s wp.part).log, 0, si, sc, (pcOf wp bn).toNat, bn.lanes, liveLanes wp &&& ~~~bn.lanes,
      addr, info⟩ b.bx b.by' b.bz (timeNs s)], .block wp.blk⟩]

/-- The tables hold the block, the part and the core that a warp names. -/
def Placed (s : State) (w : Nat) : Prop :=
  (warpOf s w).blk < s.blocks.length ∧ (warpOf s w).part < s.parts.length ∧ (warpOf s w).core < s.cores.length

/-- The byte of the own scratchpad that a load of a warp or lead sees (R104): the newest store in its own queue, else the
byte at its place. -/
def ownByte (s : State) (i : Iss) (off : Nat) : Byte :=
  (queueByte i.wp.queue (.scratch i.wp.part off)).getD (homeByte s (i.key s) (.scratch i.wp.part off))

/-- `n` bytes of the own scratchpad from an offset, the lowest address first (R72, R104). -/
def ownBytes (s : State) (i : Iss) (off n : Nat) : BitVec 128 :=
  BitVec.ofNat 128 (leBytes ((List.range n).map fun k => ownByte s i (off + k)))

/-- Nothing is poisoned, no store on its way is, and no error stands in DRAM (R351, R354, R357). -/
def Clean (s : State) : Prop :=
  s.poison = [] ∧ s.dramErr = [] ∧ s.chipPoison = [] ∧ (∀ w ∈ s.warps, ∀ e ∈ w.queue ++ w.held.map (·.entry), e.bad = []) ∧
  ∀ f ∈ s.flights, f.entry.bad = []

/-- Check 1 and 2 of R196 pass for a scratchpad offset: it is aligned and lies in the allocation, and a skewed one in its window
(R72, R87, R90). -/
def OffsetOk (kib : Nat) (swin : List Word) (c : Byte) (size : Nat) (a : Word) : Prop :=
  if c.getLsbD 2 then a.toNat % size = 0 ∧ 512 * (swinOf (swin.getD (c.toNat % 4) 0)).1 + a.toNat + size ≤ kib * 1024 ∧
    a.toNat < 512 * (swinOf (swin.getD (c.toNat % 4) 0)).2
  else a.toNat % size = 0 ∧ a.toNat + size ≤ kib * 1024

/-- The offset that it names: from the window's first line where SK is set (R195). -/
def offsetOf (swin : List Word) (c : Byte) (a : Word) : Nat :=
  if c.getLsbD 2 then 512 * (swinOf (swin.getD (c.toNat % 4) 0)).1 + a.toNat else a.toNat

/-! ### Tile rows, accumulator rows, records -/

/-- A row of 16 words, and an accumulator row of 32, from their words. -/
def row512 (f : Nat → Word) : BitVec 512 := BitVec.ofNat 512 (((List.range 16).map fun k => (f k).toNat * 2 ^ (32 * k)).sum)
def row1024 (f : Nat → Word) : BitVec 1024 := BitVec.ofNat 1024 (((List.range 32).map fun k => (f k).toNat * 2 ^ (32 * k)).sum)
/-- Word k of either. -/
def word512 (x : BitVec 512) (k : Nat) : Word := x.extractLsb' (32 * k) 32
def word1024 (x : BitVec 1024) (k : Nat) : Word := x.extractLsb' (32 * k) 32
/-- `n` bytes of the own scratchpad as the issue sees them, as one number. -/
def ownNat (s : State) (i : Iss) (off n : Nat) : Nat := leBytes ((List.range n).map fun k => ownByte s i (off + k))

/-- Some rows of a tile changed. -/
def inRows {α : Type} (m : Nat → Bool) (f : Nat → α → α) (rows : List α) : List α :=
  rows.mapIdx fun r x => if m r then f r x else x
/-- A chain after an append. -/
def Chain.plus (ch : Chain) (count : Nat) (r : Rec) : Chain :=
  { ch with tail := (ch.tail + 1) % 256, seq := ch.seq + count, recs := ch.recs ++ [r] }

/-- Rows of tile `d` of the issuing part have changed as `f` says, in the rows of `m`, and no row latch of the core
holds one of them (R223); no other tile, no accumulator, no scratchpad byte and no other part has changed. The warp has joined
where it has issued cube operations (R118). -/
def TileRows (s t : State) (i : Iss) (yh : Bool) (d : Byte) (m : Nat → Bool) (f : Nat → TileRow → TileRow) : Prop :=
  t.parts = modAt s.parts i.wp.part (fun p => { p with tiles := modAt p.tiles d.toNat (inRows m f) }) ∧
  (∀ x l, x ∈ (coreOf t (i.part s).core).latches.flatten → x.part = i.wp.part → x.tile = d.toNat → m l = true → x.rows.getLsbD l = false) ∧
  t.cores.map (fun c => { c with latches := [] }) = (ownCores s i (noteIssue s i yh).cores).map (fun c => { c with latches := [] })
/-- The same of an accumulator tile; it has no latches. -/
def AccRows (s t : State) (i : Iss) (yh : Bool) (d : Byte) (m : Nat → Bool) (f : Nat → BitVec 1024 → BitVec 1024) : Prop :=
  t.parts = modAt s.parts i.wp.part (fun p => { p with accs := modAt p.accs d.toNat (inRows m f) }) ∧
  t.cores = ownCores s i (noteIssue s i yh).cores
/-- A warp's value of its own storage is given in D of each active lane, and its warp has joined where it has issued cube
operations (R118). -/
def GivesOwn (s : State) (w : Nat) (bn : Bundle) (len : Nat) (h : Hdr) (f : Nat → LaneRes) (out : Out) : Prop :=
  ∃ t, out = .next t ∧ ThreadsAre s t w (laneAfter (warpOf s w).lead bn len (hdrGuard h) fun l _ => f l) ∧
    OnlyIssue s { t with cores := (noteIssue s (issueOf s w bn len (hdrGuard h)) h.yh).cores } (issueOf s w bn len (hdrGuard h)) h.yh ∧
    t.cores = ownCores s (issueOf s w bn len (hdrGuard h)) (noteIssue s (issueOf s w bn len (hdrGuard h)) h.yh).cores

/-- A slice without counters, lock log and chains. -/
def chainless (sl : Slice) : Slice := { bareSlice sl with ctxs := sl.ctxs.map fun c => { c with counts16 := [], chains := [] } }
/-- A warp with the signature and the cube's numbers that it had. -/
def unsigned (old x : Warp) : Warp := { x with sig := old.sig, cubeSeq := old.cubeSeq, rowprog := old.rowprog }
/-- A record of 64 bytes is appended to the chain of an engine (R235, R236): its bytes stand in the ring slot at `p`, the
tail and the number have moved on, and it waits for the stores and open loads ahead of it; no other byte of memory, no other chain and
no other register has changed. -/
def Appends (s t : State) (i : Iss) (yh : Bool) (eng : Engine) (p : Place) (bytes : List Byte) (count : Nat) : Prop :=
  let b := i.block s
  let lc := logicalCore s b.vf i.wp.core
  let ch := chainOf (ctxOf s b.vf b.ctx) lc eng
  (∃ r, r.slot = ch.tail ∧ r.seq = ch.seq + 1 ∧ r.count = count ∧ r.warp = i.w ∧ r.core = i.wp.core ∧ r.started = false ∧ r.done = false ∧
    r.fork = ((i.wp.queue.filter fun e => e.acq || e.accs.any (drains .system)).map (·.id)) ++ coreAhead s i.wp.core .system ++
      ((s.loads.filter fun l => l.warp == i.w && l.due.isNone).map (·.id)) ∧
    r.pc = i.pc ∧ chainOf (ctxOf t b.vf b.ctx) lc eng = Chain.plus ch count r) ∧
  (∀ vf c lc' e, (vf, c, lc', e) ≠ (b.vf, b.ctx, lc, eng) → chainOf (ctxOf t vf c) lc' e = chainOf (ctxOf s vf c) lc' e) ∧
  (∀ k, k < 64 → homeByte t 0 (p.plus k) = bytes.getD k 0) ∧
  (∀ q, (∀ k, k < 64 → q ≠ p.plus k) → homeByte t 0 q = homeByte s 0 q) ∧
  t.slices.map chainless = s.slices.map chainless ∧ t.nextId = s.nextId + 1 ∧
  OnlyMemory s { t with mem := s.mem, hostMem := s.hostMem, peerMem := s.peerMem, nextId := s.nextId, slices := s.slices,
                        warps := modAt t.warps i.w (unsigned i.wp) } i yh
/-- The next slot of an engine's ring is free and can be written (R236), at `p`. -/
def SlotAt (s : State) (i : Iss) (eng : Engine) (p : Place) : Prop :=
  let b := i.block s
  let lc := logicalCore s b.vf i.wp.core
  let cx := ctxOf s b.vf b.ctx
  let ch := chainOf cx lc eng
  b.vf < s.slices.length ∧ b.ctx < (sliceOf s b.vf).ctxs.length ∧ (∀ x ∈ s.peerMem, x.2.wf = true) ∧
  (∀ r ∈ ch.recs, r.slot = ch.tail → r.done = true) ∧
  ∃ s1, translate s i.wp.core b.vf b.ctx (ringSlot cx lc eng ch.tail) .store = (s1, .ok p)

/-! ### Events and requests -/

/-- An event or request has its effect: a next state follows, of which something holds. -/
def Becomes (i : Instr) (s : State) (P : State → Prop) : Prop := ∃ t, exec i s = .next t ∧ P t
/-- No register of any thread and no byte of memory, host memory or a part has changed. -/
def Quiet (s t : State) : Prop := SameRegs s t ∧ t.mem = s.mem ∧ t.hostMem = s.hostMem ∧ t.parts = s.parts
/-- Every thread of a warp as it was, unless a bundle of its warp waits on sync words (R206). -/
def SameButSync (s t : State) : Prop :=
  ∀ w, (∀ b ∈ (warpOf s w).bundles, syncWait b = false) → ∀ l, threadOf (warpOf t w) l = threadOf (warpOf s w) l
/-- Every memory of the machine stands in its canonical form. -/
def StoresOk (s : State) : Prop := MemOk s ∧ (∀ p ∈ s.parts, p.scratch.wf = true) ∧ ∀ x ∈ s.peerMem, x.2.wf = true
/-- The byte that some accesses leave at a place: that of the last one that covers it (R101, R103). -/
def stored (accs : List LaneAcc) (old : Place → Byte) (p : Place) : Byte :=
  ((((accs.flatMap accWrites).filter fun x => x.1 == p).getLast?).map (·.2)).getD (old p)
/-- The parts that some accesses name exist. -/
def placesExist (s : State) (accs : List LaneAcc) : Prop := ∀ a ∈ accs, ∀ q o, a.home = .scratch q o → q < s.parts.length
/-- A memory has changed by some bytes from an address on, and nowhere else. -/
def Overlays (new old : Memory) (a : Nat) (bs : List Byte) : Prop :=
  ∀ x, memRead new x = if a ≤ x ∧ x < a + bs.length then bs.getD (x - a) 0 else memRead old x
/-- A context of a slice stands in the tables. -/
def HasCtx (s : State) (vf c : Nat) : Prop := vf < s.slices.length ∧ c < (sliceOf s vf).ctxs.length
/-- A slice serves requests: it holds quads, and is neither in ERROR nor in a reset (R378, R379). -/
def Serves (s : State) (vf : Nat) : Prop :=
  vf < s.slices.length ∧ (sliceOf s vf).used = true ∧ (sliceOf s vf).ifst ≠ .error ∧ (sliceOf s vf).resetting = none
/-- Some bytes from an IA on lie in one granule of the slice, from a PA on (R77). -/
def GranuleAt (s : State) (vf ia n pa : Nat) : Prop :=
  let e := (sliceOf s vf).slicemap.getD (ia / 2 ^ 30) 0
  let g := (e.extractLsb' 0 10).toNat
  ia < 2 ^ 40 ∧ ia % 2 ^ 30 + n ≤ 2 ^ 30 ∧ e.getLsbD 15 = true ∧ g < 768 ∧ g / 48 ∈ (sliceOf s vf).quads ∧ pa = g * 2 ^ 30 + ia % 2 ^ 30
/-- An address translates by an entry that the core's TLB holds (R80), to a place. -/
def Hits (s : State) (core vf c va : Nat) (acc : Access) (p : Place) : Prop :=
  ∃ e, tlbHit s core vf c va = some e ∧ placeOf s vf acc va e = .ok p
/-- A record of one unit has been formed for a context, naming who waits for it, and nothing else has been. -/
def Forms (s t : State) (vf c key : Nat) (bytes : List Byte) (owner : Owner) : Prop :=
  t.formed = s.formed ++ [⟨vf, c, key, [bytes], owner⟩]
/-- A LAUNCH record (Table 15-3): its cause, the packet's index, an address; what its WARP byte reads is open. -/
def launchBytes (s : State) (cause index addr : Nat) : List Byte :=
  recordBytes ⟨5, cause, 0, Config.launchWarp.toNat, 0, 0, 0, 0, 0, 0, 0, addr, index * 2 ^ 32⟩ 0 0 0 (timeNs s)
/-- The word of a lane in the present step of an XISSUE. -/
def xiWord (x : Xi) (l : Nat) : Word := ((x.words.find? (·.1 == l)).map (·.2)).getD 0

/-! ### Values as the rules give them -/

/-- The value of the fixed tree of R175 at the lane where a subtree of 2^n lanes begins. -/
def treeValue (op : RedOp) (kt : XlKind) (vals : List (Option Nat)) : Nat → Nat → Option Nat
  | 0, l => vals.getD l none
  | n + 1, l => (absentOp op kt (treeValue op kt vals n l) (treeValue op kt vals n (l + 2 ^ n))).1

/-- A number by its bits. -/
def bitsNat (n : Nat) (f : Nat → Bool) : Nat := (List.range n).foldl (fun x j => x + if f j then 2 ^ j else 0) 0

/-- x modulo 2^w read in the type, and extended to a register (R155, R152). -/
def inType (ty : IntTy) (x : Int) : Dword :=
  BitVec.ofInt 64 (if ty.signed then Int.bmod x (2 ^ ty.width) else x % 2 ^ ty.width)

/-- The result of an exact value: clamped to the type with SA under .SAT, else modulo 2^w (R155, R52). -/
def exactly (o : IOp) (x : Int) : LaneRes :=
  let lo : Int := if o.ty.signed then -(2 ^ (o.ty.width - 1)) else 0
  let hi : Int := if o.ty.signed then 2 ^ (o.ty.width - 1) - 1 else 2 ^ o.ty.width - 1
  ([.v o.d o.ty.wide (inType o.ty (if o.sat then max lo (min x hi) else x))],
   if o.sat && (x < lo || hi < x) then fSA else 0)

/-- A result in D of the instruction's type, with no flag. -/
def inD (o : IOp) (x : Int) : LaneRes := ([.v o.d o.ty.wide (inType o.ty x)], 0)
/-- A 32-bit number in D, with no flag. -/
def num32 (d : Byte) (x : Nat) : LaneRes := ([.v d false (BitVec.ofNat 64 x)], 0)
/-- A float result of 32 bits in D, with its flags. -/
def flt32 (d : Byte) (r : Nat × Flags) : LaneRes := ([.v d false (BitVec.ofNat 64 r.1)], r.2)

/-- BFE (R159), bit by bit. -/
def bfeRule (signed : Bool) (a b : Nat) : Nat :=
  let pos := b % 256
  let len := min (b / 256 % 256) 32
  let src (p : Nat) : Bool := if p < 32 then a.testBit p else signed && a.testBit 31
  bitsNat 32 fun j => if len = 0 then false else if j < len then src (pos + j) else signed && src (pos + len - 1)
/-- BFI (R159), bit by bit. -/
def bfiRule (a b c : Nat) : Nat :=
  let pos := b % 256
  let len := min (b / 256 % 256) 32
  bitsNat 32 fun j => if pos ≤ j && j < min (pos + len) 32 then a.testBit (j - pos) else c.testBit j
/-- A three-input table (R157), bit by bit. -/
def tabRule (n : Nat) (tab : Byte) (a b c : Nat) : Nat :=
  bitsNat n fun j => tab.getLsbD ((a.testBit j).toNat + 2 * (b.testBit j).toNat + 4 * (c.testBit j).toNat)
/-- Table 7-3 on integers. -/
def condRule (cc : Nat) (a b : Int) : Bool :=
  match cc with
  | 0 => a = b | 1 => a ≠ b | 2 => a < b | 3 => a ≤ b | 4 => a > b | 5 => a ≥ b | _ => false

end Sys2Proof.Safety
end

