-- ==== Sys2Proof/Certificates/Slice0/Obligations.lean ====
section
/-! DEFINITION. The statements for the provers. -/

open Sys2Proof Sys2Proof.Machine Sys2Proof.Safety

/-! ### Integer and logic instructions -/

/-- R155, R157, R126: NOP, IADD, ISUB, IMUL, IMULH, IMAD, IMADW, INEG, IABS, IMIN, IMAX, ICLAMP, IDOT4, IDOT2 and LEA
complete in warp and lead code, for every type, literal and operand: each active lane gets the exact value of its entry,
formed under R155; every other register, predicate and flag of every thread, and everything that no issue moves, is as
before. -/
def Obligations.IntegerArithmetic : Prop :=
  ∀ (s : State) (w : Nat) (bn : Bundle) (len : Nat) (h : Hdr) (o : IOp), Issuing s w bn len →
    let lead := (warpOf s w).lead
    let A := fun t => tyVal o.ty (opA lead o t)
    let B := fun t => tyVal o.ty (opB lead o t)
    let C := fun t => tyVal o.ty (opC lead o t)
    let wide : IntTy := if o.ty = .i32 then .i64 else .n64
    let acc : IntTy := if o.ty.signed then .i32 else .n32
    let elem := fun (n i : Nat) (x : Dword) =>
      let u := x.toNat / 2 ^ (n * i) % 2 ^ n
      if o.ty.signed then Int.bmod u (2 ^ n) else (u : Int)
    let dot := fun (n k : Nat) (t : Thread) =>
      ((List.range k).map fun i => elem n i (rdV lead t o.a) * elem n i (rdV lead t o.b)).sum
    Does s w bn len h (.nop h) (fun _ => ([], 0)) ∧
    Does s w bn len h (.iadd h o) (fun t => exactly o (A t + B t)) ∧
    Does s w bn len h (.isub h o) (fun t => exactly o (A t - B t)) ∧
    Does s w bn len h (.imul h o) (fun t => exactly o (A t * B t)) ∧
    Does s w bn len h (.imulh h o) (fun t => inD o (A t * B t / 2 ^ o.ty.width)) ∧
    Does s w bn len h (.imad h o) (fun t => exactly o (A t * B t + C t)) ∧
    Does s w bn len h (.imadw h o) (fun t => exactly { o with ty := wide } (A t * B t + tyVal wide (rdD lead t o.c))) ∧
    Does s w bn len h (.ineg h o) (fun t => exactly o (-A t)) ∧
    Does s w bn len h (.iabs h o) (fun t => exactly o |A t|) ∧
    Does s w bn len h (.imin h o) (fun t => inD o (min (A t) (B t))) ∧
    Does s w bn len h (.imax h o) (fun t => inD o (max (A t) (B t))) ∧
    Does s w bn len h (.iclamp h o) (fun t => inD o (if B t > C t then C t else min (max (A t) (B t)) (C t))) ∧
    Does s w bn len h (.idot4 h o) (fun t => exactly { o with ty := acc } (tyVal acc (rdV lead t o.c) + dot 8 4 t)) ∧
    Does s w bn len h (.idot2 h o) (fun t => exactly { o with ty := acc } (tyVal acc (rdV lead t o.c) + dot 16 2 t)) ∧
    Does s w bn len h (.lea h o) (fun t =>
      let b := srcB32 lead o.lit o.b t
      inD o (A t + (if o.ty.signed then b.toInt else b.toNat) * 2 ^ o.sub.toNat))

/-- R158: IDIV rounds the quotient toward zero and IREM gives the remainder with the sign of A; a divisor of zero sets DZ,
IDIV writing the type's extreme value and IREM writing A; −2^(w−1) / −1 wraps or saturates. -/
def Obligations.IntegerDivision : Prop :=
  ∀ (s : State) (w : Nat) (bn : Bundle) (len : Nat) (h : Hdr) (o : IOp), Issuing s w bn len →
    let lead := (warpOf s w).lead
    let A := fun t => tyVal o.ty (opA lead o t)
    let B := fun t => tyVal o.ty (opB lead o t)
    let top : Int := 2 ^ (o.ty.width - 1)
    Does s w bn len h (.idiv h o) (fun t =>
      if B t = 0 then
        ((inD o (if o.ty.signed then (if A t < 0 then -top else top - 1) else 2 ^ o.ty.width - 1)).1, fDZ)
      else exactly o ((A t).sign * (B t).sign * ((A t).natAbs / (B t).natAbs : Nat))) ∧
    Does s w bn len h (.irem h o) (fun t =>
      if B t = 0 then ((inD o (A t)).1, fDZ) else inD o ((A t).sign * ((A t).natAbs % (B t).natAbs : Nat)))

/-- R157, R159: the logic, table, shift, rotate, bit-field and bit-count instructions complete with the bits that their
entries give, on the 32 or 64 bits of their type. -/
def Obligations.LogicAndShift : Prop :=
  ∀ (s : State) (w : Nat) (bn : Bundle) (len : Nat) (h : Hdr) (o : IOp) (k : TabOp), Issuing s w bn len →
    o.ty.isBits = true →
    let lead := (warpOf s w).lead
    let n := o.ty.width
    let a := fun t => tyBits o.ty (opA lead o t)
    let b := fun t => tyBits o.ty (opB lead o t)
    let cnt := fun t => (srcB32 lead o.lit o.b t).toNat
    let a32 := fun t => (rdV lead t o.a).toNat % 2 ^ 32
    let c32 := fun t => (rdV lead t o.c).toNat % 2 ^ 32
    let tabIn := fun (t : Thread) (f : Byte) => (rdW lead k.wide t f).toNat % (if k.wide then 2 ^ 64 else 2 ^ 32)
    Does s w bn len h (.and h o) (fun t => inD o (bitsNat n fun j => (a t).testBit j && (b t).testBit j)) ∧
    Does s w bn len h (.or h o) (fun t => inD o (bitsNat n fun j => (a t).testBit j || (b t).testBit j)) ∧
    Does s w bn len h (.xor h o) (fun t => inD o (bitsNat n fun j => (a t).testBit j != (b t).testBit j)) ∧
    Does s w bn len h (.not h o) (fun t => inD o (bitsNat n fun j => !(a t).testBit j)) ∧
    Does s w bn len h (.btab3 h k) (fun t =>
      let b := match k.lit with | some l => l.toNat | none => tabIn t k.b
      ([.v k.d k.wide (BitVec.ofNat 64 (tabRule (if k.wide then 64 else 32) k.tab (tabIn t k.a) b (tabIn t k.c)))], 0)) ∧
    Does s w bn len h (.shl h o) (fun t => inD o ((a t * 2 ^ cnt t % 2 ^ n : Nat))) ∧
    Does s w bn len h (.shr h o) (fun t => inD o ((a t / 2 ^ cnt t : Nat))) ∧
    Does s w bn len h (.sar h o) (fun t => inD o (Int.bmod (a t) (2 ^ n) / 2 ^ cnt t)) ∧
    Does s w bn len h (.rotl h o) (fun t => inD o (bitsNat n fun j => (a t).testBit ((j + n - cnt t % n) % n))) ∧
    (o.ty.width = 32 →
      Does s w bn len h (.shf h o) (fun t =>
        let x := c32 t * 2 ^ 32 + a32 t
        inD o (if o.sub = 1 then (x * 2 ^ (cnt t % 32) / 2 ^ 32 % 2 ^ 32 : Nat) else (x / 2 ^ (cnt t % 32) % 2 ^ 32 : Nat))) ∧
      Does s w bn len h (.bfe h o) (fun t => inD o (bfeRule (o.ty = .i32) (a32 t) (cnt t))) ∧
      Does s w bn len h (.bfi h o) (fun t => inD o (bfiRule (a32 t) (cnt t) (c32 t)))) ∧
    Does s w bn len h (.popc h o) (fun t => num32 o.d (((List.range n).filter (a t).testBit).length)) ∧
    Does s w bn len h (.clz h o) (fun t => num32 o.d (((List.range n).find? fun j => (a t).testBit (n - 1 - j)).getD n)) ∧
    Does s w bn len h (.ctz h o) (fun t => num32 o.d (((List.range n).find? (a t).testBit).getD n)) ∧
    Does s w bn len h (.brev h o) (fun t => inD o (bitsNat n fun j => (a t).testBit (n - 1 - j)))

/-- R156, R157, R160 to R162: the compares, selects, moves, carry chains and predicate instructions complete. -/
def Obligations.CompareSelectMove : Prop :=
  ∀ (s : State) (w : Nat) (bn : Bundle) (len : Nat) (h : Hdr) (o : IOp) (k : TabOp), Issuing s w bn len →
    let lead := (warpOf s w).lead
    let A := fun t => tyVal o.ty (opA lead o t)
    let B := fun t => tyVal o.ty (opB lead o t)
    let uA := fun t => (tyBits o.ty (opA lead o t) : Int)
    let uB := fun t => (tyBits o.ty (opB lead o t) : Int)
    let c := fun t => if rdP t o.c.toNat then (1 : Int) else 0
    Does s w bn len h (.icmp h o) (fun t => ([.p o.d.toNat (condRule o.sub.toNat (A t) (B t))], 0)) ∧
    Does s w bn len h (.iset h o) (fun t => num32 o.d (if condRule o.sub.toNat (A t) (B t) then 1 else 0)) ∧
    Does s w bn len h (.sel h o) (fun t => inD o (if rdP t o.c.toNat then A t else B t)) ∧
    Does s w bn len h (.mov h o) (fun t => inD o (match o.lit with | some l => tyVal o.ty (litDword o.ty l) | none => A t)) ∧
    Does s w bn len h (.movi h o) (fun t =>
      let old := rdD lead t o.d
      let l := o.lit.getD 0
      ([.v o.d true (if o.sub = 0 then old.extractLsb' 32 32 ++ l else l ++ old.extractLsb' 0 32)], 0)) ∧
    Does s w bn len h (.iaddc h o) (fun t =>
      ([.v o.d o.ty.wide (inType o.ty (uA t + uB t + c t)), .p o.c.toNat (uA t + uB t + c t ≥ 2 ^ o.ty.width)], 0)) ∧
    Does s w bn len h (.isubb h o) (fun t =>
      ([.v o.d o.ty.wide (inType o.ty (uA t - uB t - c t)), .p o.c.toNat (uA t - uB t - c t < 0)], 0)) ∧
    Does s w bn len h (.pmov h o) (fun t =>
      if o.sub = 0 then num32 o.d (bitsNat 8 fun i => rdP t i)
      else ((List.range 7).map fun i => .p i ((rdV lead t o.a).getLsbD i), 0)) ∧
    Does s w bn len h (.ptab3 h k) (fun t =>
      ([.p k.d.toNat (k.tab.getLsbD ((rdP t k.a.toNat).toNat + 2 * (rdP t k.b.toNat).toNat + 4 * (rdP t k.c.toNat).toNat))], 0))

/-! ### Float, conversions, quantisation, special functions -/

/-- R163, R165: FADD, FSUB, FMUL, FFMA, FSCALE and their packed and dot-product counterparts complete: the exact result of
the operands' values, subnormals read as zero under .FTZ, is clamped under .SAT and rounded once in the mode RM. That .SAT clamps an infinite dot product is the model's choice (log entry 92),
and so is NV where a NaN is added to an invalid product (log entry 10). -/
def Obligations.FloatArithmetic : Prop :=
  ∀ (s : State) (w : Nat) (bn : Bundle) (len : Nat) (h : Hdr) (o : FOp), Issuing s w bn len →
    let rd := fun (f : Fmt) (x : Nat) => f.flushIn o.ftz (f.unpack x)
    let rnd := fun (f : Fmt) (v : Val × Flags) => f.finish o.rm o.sat o.ftz v.1 v.2
    let a := fun t => (vreg t o.a.toNat).toNat
    let b := fun t => (srcB32 false o.lit o.b t).toNat
    let c := fun t => (vreg t o.c.toNat).toNat
    let el := if o.hb then Fmt.bf16 else Fmt.f16
    let half := fun (x i : Nat) => x / 2 ^ (16 * i) % 2 ^ 16
    let hb := fun (t : Thread) (i : Nat) => match o.lit with | some l => l.toNat % 2 ^ 16 | none => half (b t) i
    let pair := fun (f : Nat → Nat × Flags) =>
      (([.v o.d false (BitVec.ofNat 64 ((f 0).1 + (f 1).1 * 2 ^ 16))], (f 0).2 ||| (f 1).2) : LaneRes)
    let eight := if o.hb then Fmt.e5m2 else Fmt.e4m3
    let byte := fun (x i : Nat) => x / 2 ^ (8 * i) % 2 ^ 8
    Does s w bn len h (.fadd h o) (fun t => flt32 o.d (rnd .f32 ((rd .f32 (a t)).add o.rm (rd .f32 (b t))))) ∧
    Does s w bn len h (.fsub h o) (fun t => flt32 o.d (rnd .f32 ((rd .f32 (a t)).add o.rm (rd .f32 (b t)).neg))) ∧
    Does s w bn len h (.fmul h o) (fun t => flt32 o.d (rnd .f32 ((rd .f32 (a t)).mul (rd .f32 (b t))))) ∧
    Does s w bn len h (.ffma h o) (fun t => flt32 o.d (rnd .f32 (Val.fma o.rm (rd .f32 (a t)) (rd .f32 (b t)) (rd .f32 (c t))))) ∧
    Does s w bn len h (.fscale h o) (fun t =>
      flt32 o.d (rnd .f32 ((rd .f32 (a t)).scale (srcB32 false o.lit o.b t).toInt, 0))) ∧
    Does s w bn len h (.hadd2 h o) (fun t => pair fun i => rnd el ((rd el (half (a t) i)).add o.rm (rd el (hb t i)))) ∧
    Does s w bn len h (.hmul2 h o) (fun t => pair fun i => rnd el ((rd el (half (a t) i)).mul (rd el (hb t i)))) ∧
    Does s w bn len h (.hfma2 h o) (fun t => pair fun i =>
      rnd el (Val.fma o.rm (rd el (half (a t) i)) (rd el (hb t i)) (rd el (half (c t) i)))) ∧
    Does s w bn len h (.fdot2 h o) (fun t => flt32 o.d (fdot o.rm o.sat o.ftz el
      [(half (a t) 0, half ((vreg t o.b.toNat).toNat) 0), (half (a t) 1, half ((vreg t o.b.toNat).toNat) 1)] (c t))) ∧
    Does s w bn len h (.fdot4 h o) (fun t => flt32 o.d (fdot o.rm o.sat o.ftz eight
      [(byte (a t) 0, byte ((vreg t o.b.toNat).toNat) 0), (byte (a t) 1, byte ((vreg t o.b.toNat).toNat) 1),
       (byte (a t) 2, byte ((vreg t o.b.toNat).toNat) 2), (byte (a t) 3, byte ((vreg t o.b.toNat).toNat) 3)] (c t)))

/-- R156, R164, R165: FMIN, FMAX, FCMP, FSET, FCLASS, FRND, FEXP and HMNX2 complete, and set no flag except FEXP's NV on
a NaN. -/
def Obligations.FloatCompareAndClass : Prop :=
  ∀ (s : State) (w : Nat) (bn : Bundle) (len : Nat) (h : Hdr) (o : FOp), Issuing s w bn len →
    let a := fun t => (vreg t o.a.toNat).toNat
    let b := fun t => (srcB32 false o.lit o.b t).toNat
    let va := fun t => Fmt.f32.flushIn o.ftz (Fmt.f32.unpack (a t))
    let vb := fun t => Fmt.f32.flushIn o.ftz (Fmt.f32.unpack (b t))
    let holds := fun t =>
      let n := (va t).isNan || (vb t).isNan
      match o.sub.toNat with
      | 0 => !n && (va t).eqv (vb t) | 1 => n || !(va t).eqv (vb t) | 2 => !n && (va t).lt (vb t)
      | 3 => !n && ((va t).lt (vb t) || (va t).eqv (vb t)) | 4 => !n && (vb t).lt (va t)
      | 5 => !n && ((vb t).lt (va t) || (va t).eqv (vb t)) | 6 => !n | _ => n
    let el := if o.hb then Fmt.bf16 else Fmt.f16
    let half := fun (x i : Nat) => x / 2 ^ (16 * i) % 2 ^ 16
    let hb := fun (t : Thread) (i : Nat) => match o.lit with | some l => l.toNat % 2 ^ 16 | none => half (b t) i
    Does s w bn len h (.fmin h o) (fun t => flt32 o.d (Fmt.f32.minmax o.ftz false (a t) (b t), 0)) ∧
    Does s w bn len h (.fmax h o) (fun t => flt32 o.d (Fmt.f32.minmax o.ftz true (a t) (b t), 0)) ∧
    Does s w bn len h (.fcmp h o) (fun t => ([.p o.d.toNat (holds t)], 0)) ∧
    Does s w bn len h (.fset h o) (fun t => flt32 o.d (if holds t then 0x3F800000 else 0, 0)) ∧
    Does s w bn len h (.fclass h o) (fun t => flt32 o.d (2 ^ (match Fmt.f32.unpack (a t) with
      | .nan => 8 | .inf true => 0 | .inf false => 7
      | .fin true m e => if m = 0 then 3 else if m < 2 ^ 23 ∧ e = -149 then 2 else 1
      | .fin false m e => if m = 0 then 4 else if m < 2 ^ 23 ∧ e = -149 then 5 else 6), 0)) ∧
    Does s w bn len h (.frnd h o) (fun t => flt32 o.d (frnd o.rm o.ftz (a t), 0)) ∧
    Does s w bn len h (.fexp h o) (fun t => match Fmt.f32.unpack (a t) with
      | .nan => flt32 o.d (0x7FFFFFFF, fNV) | .inf _ => flt32 o.d (0x7FFFFFFF, 0)
      | .fin _ m e => if m = 0 then flt32 o.d (0x80000000, 0) else flt32 o.d ((BitVec.ofInt 32 (Nat.log2 m + e)).toNat, 0)) ∧
    Does s w bn len h (.hmnx2 h o) (fun t => flt32 o.d
      (el.minmax o.ftz (o.sub = 1) (half (a t) 0) (hb t 0) + el.minmax o.ftz (o.sub = 1) (half (a t) 1) (hb t 1) * 2 ^ 16, 0))

/-- R164: of two operands of which exactly one is a NaN, FMIN and FMAX return the other; of two NaNs, the canonical one;
otherwise an operand that the other is not below or above, −0 counting as less than +0. -/
def Obligations.MinMaxRule : Prop :=
  ∀ (f : Fmt) (big : Bool) (x y : Nat), f ∈ [Fmt.f32, .f16, .bf16, .e5m2, .e4m3] → x < 2 ^ f.width → y < 2 ^ f.width →
    let a := f.unpack x
    let b := f.unpack y
    let r := f.minmax false big x y
    let below := fun (u v : Val) => u.lt v = true ∨ (u.isZero = true ∧ v.isZero = true ∧ u.isNeg = true ∧ v.isNeg = false)
    (a.isNan = true → b.isNan = true → r = f.cnan) ∧
    (a.isNan = true → b.isNan = false → r = y) ∧
    (a.isNan = false → b.isNan = true → r = x) ∧
    (a.isNan = false → b.isNan = false →
      (r = x ∨ r = y) ∧ (if big then ¬below (f.unpack r) a ∧ ¬below (f.unpack r) b else ¬below a (f.unpack r) ∧ ¬below b (f.unpack r)))

/-- R51: a value of a format rounds to its own encoding, in every mode, with no flag; a NaN rounds to the canonical NaN. -/
def Obligations.RoundingKeepsValues : Prop :=
  ∀ (f : Fmt) (rm : Rm) (x : Nat), f ∈ [Fmt.f32, .f16, .bf16, .e5m2, .e4m3] → x < 2 ^ f.width →
    f.round rm false (f.unpack x) = (if (f.unpack x).isNan then f.cnan else x, 0)

/-- R48, R51: FADD is commutative, and so is FMUL, in every format, mode and setting. -/
def Obligations.FloatCommutes : Prop :=
  ∀ (f : Fmt) (rm : Rm) (sat ftz : Bool) (x y : Nat),
    f.addF rm sat ftz x y = f.addF rm sat ftz y x ∧ f.mulF rm sat ftz x y = f.mulF rm sat ftz y x

/-- R166 to R170: CVTI, CVTF, CVTFF, CVTPK and QNT complete; DQNT completes where bytes 0 and 1 of the block form no
reserved code or scale. E4M3 above 448 and NX of a quantised NaN are read as log entries 32 and 34 say. -/
def Obligations.Conversions : Prop :=
  ∀ (s : State) (w : Nat) (bn : Bundle) (len : Nat) (h : Hdr) (ci : CiOp) (cf : CffOp) (pk : CpkOp) (q : QnOp) (dq : DaOp),
    Issuing s w bn len →
    let lead := (warpOf s w).lead
    let g := hdrGuard h
    let reg := fun (t : Thread) (f : Byte) => (vreg t f.toNat).toNat
    let low := fun (ff : FFmt) (x : Nat) => (ffmtOf ff).unpack (x % 2 ^ (ffmtOf ff).width)
    let into := fun (fd : FFmt) (rm : Rm) (sat : Bool) (v : Val) => (ffmtOf fd).finish rm sat false v 0
    let lanes := activeLanes (warpOf s w) bn.lanes g
    let blk := quantBlock q.fmt ((List.range 64).map fun e =>
      Fmt.f32.unpack (if lanes.getLsbD e then reg (threadOf (warpOf s w) e) q.a else 0))
    let bytes : BitVec 512 := BitVec.ofNat 512 (((List.range 64).map fun e => reg (threadOf (warpOf s w) e) dq.a % 256 * 2 ^ (8 * e)).sum)
    Does s w bn len h (.cvti h ci) (fun t =>
      let r := cvtToInt ci.ty ci.rm (low ci.ff (reg t ci.a))
      ([.v ci.d ci.ty.wide (inType ci.ty r.1)], r.2)) ∧
    Does s w bn len h (.cvtf h ci) (fun t =>
      let x := tyVal ci.ty (rdW lead ci.ty.wide t ci.a)
      flt32 ci.d ((ffmtOf ci.ff).round ci.rm false (.fin (x < 0) x.natAbs 0))) ∧
    Does s w bn len h (.cvtff h cf) (fun t => flt32 cf.d (into cf.fd cf.rm cf.sat (low cf.fs (reg t cf.a)))) ∧
    (pk.fd ≠ .f32 → Does s w bn len h (.cvtpk h pk) (fun t =>
      let x := into pk.fd pk.rm pk.sat (Fmt.f32.unpack (reg t pk.a))
      let y := into pk.fd pk.rm pk.sat (Fmt.f32.unpack (reg t pk.b))
      let old := reg t pk.d
      flt32 pk.d (if (ffmtOf pk.fd).width = 16 then y.1 * 2 ^ 16 + x.1
        else if pk.h then old % 2 ^ 16 + x.1 * 2 ^ 16 + y.1 * 2 ^ 24 else x.1 + y.1 * 2 ^ 8 + old / 2 ^ 16 * 2 ^ 16, x.2 ||| y.2))) ∧
    Computes s w bn len g h.yh (fun l _ => flt32 q.d ((blk.1.extractLsb' (8 * l) 8).toNat, blk.2.getD l 0)) (exec (.qnt h q) s) ∧
    (blockBad bytes = none →
      Computes s w bn len g h.yh (fun l _ => flt32 dq.d
        (Fmt.f32.round .rn false (logValue (blockCode bytes) (blockElem bytes (blockCode bytes) l) (blockScale bytes).toInt)))
        (exec (.dqnt h dq) s))

/-- R66, R67, R171: the special functions complete with the result and flags of Table 3-10, and hold their scheduler's
SFU for ⌈n / 16⌉ ck. -/
def Obligations.SpecialFunctions : Prop :=
  ∀ (s : State) (w : Nat) (bn : Bundle) (len : Nat) (h : Hdr) (o : SfuOp), Issuing s w bn len →
    let g := hdrGuard h
    let i := issueOf s w bn len g
    let wp := warpOf s w
    let res := fun (fn : SfuFn) (u : Thread) =>
      flt32 o.d ((sfu fn o.ftz (vreg u o.a.toNat)).1.toNat, (sfu fn o.ftz (vreg u o.a.toNat)).2)
    ∀ (fn : SfuFn) (x : Instr), (x, fn) ∈ [(.ex2 h o, .ex2), (.lg2 h o, .lg2), (.rcp h o, .rcp), (.rsq h o, .rsq),
        (.sqt h o, .sqt), (.sin h o, .sin), (.cos h o, .cos), (Instr.tanh h o, SfuFn.tanh)] →
      ∃ t, exec x s = .next t ∧
        (∀ l, l < wp.threads.length →
          threadOf (warpOf t w) l = laneAfter wp.lead bn len g (fun _ => res fn) l (threadOf wp l)) ∧
        (i.act ≠ 0 → wp.core < s.cores.length → wp.sched < (coreOf s wp.core).sfuHeld.length →
          (coreOf t wp.core).sfuHeld.getD wp.sched 0 = s.clk + (countBits i.act + 15) / 16) ∧
        ((∀ l, Active s w bn g l → enabled (threadOf wp l) (res fn (threadOf wp l)).2 = 0) →
          OnlyIssue s { t with cores := (noteIssue s i h.yh).cores } i h.yh)

/-! ### Cross-lane instructions -/

/-- R172 to R177: the cross-lane instructions complete; what an active lane reads of another is that lane's value before
the instruction, and only lanes active in the same issue are read. -/
def Obligations.CrossLane : Prop :=
  ∀ (s : State) (w : Nat) (bn : Bundle) (len : Nat) (h : Hdr) (sh : ShflOp) (rs : RstepOp) (rl : RedLaneOp) (vo : VoteLaneOp)
    (ma : MatchOp) (bc : BcastOp) (fi : DaOp), Issuing s w bn len →
    let g := hdrGuard h
    let act := activeLanes (warpOf s w) bn.lanes g
    let thr := threadOf (warpOf s w)
    let valid := fun (m : Nat) => m < 64 && act.getLsbD m
    let reg := fun (wide : Bool) (f : Byte) (l : Nat) => rdW false wide (thr l) f
    let word := fun (f : Byte) (l : Nat) => (vreg (thr l) f.toNat).toNat
    -- D gets A of the source where it is valid, else the lane's own A; pC tells which
    let take := fun (wide : Bool) (d a c : Byte) (l : Nat) (src : Option Nat) =>
      (match src.filter valid with
       | some m => ([.v d wide (reg wide a m), .p c.toNat true], 0)
       | none => ([.v d wide (reg wide a l), .p c.toNat false], 0) : LaneRes)
    let votes := (lanesOf act).filter fun l => rdP (thr l) vo.a.toNat
    -- A of the active lanes, absent in the others
    let vals := (List.range 64).map fun l => if act.getLsbD l then some (word rl.a l) else none
    let does := fun (i : Instr) (f : Nat → Thread → LaneRes) => Computes s w bn len g h.yh f (exec i s)
    does (.shfl h sh) (fun l u =>
      let b := (srcB32 false sh.lit sh.b u).toNat
      let S := 64 / 2 ^ sh.seg.toNat
      let base := l / S * S
      let r := l % S
      take sh.kt.wide sh.d sh.a sh.c l (match sh.mode with
        | .idx => some (base + b % S)
        | .up => if b ≤ r then some (l - b) else none
        | .down => if r + b < S then some (l + b) else none
        | .xor => some (base + Nat.xor r (b % S)))) ∧
    does (.rstep h rs) (fun l u =>
      let b := (srcB32 false rs.lit rs.b u).toNat
      let m := Nat.xor l (2 ^ b)
      if b ≤ 5 ∧ valid m = true then
        let r := laneOp rs.op rs.kt (word rs.a (min l m)) (word rs.a (max l m))
        ([.v rs.d false (BitVec.ofNat 64 r.1), .p rs.c.toNat true], r.2)
      else ([.v rs.d false (BitVec.ofNat 64 (word rs.a l)), .p rs.c.toNat false], 0)) ∧
    does (.vote h vo) (fun _ _ => ([match vo.op with
      | .ballot => .v vo.d true (maskOf votes)
      | .any => .p vo.d.toNat (votes ≠ [])
      | .all => .p vo.d.toNat (votes = lanesOf act)
      | .uni => .p vo.d.toNat (votes = [] ∨ votes = lanesOf act)], 0)) ∧
    does (.matchLanes h ma) (fun l _ =>
      ([.v ma.d true (maskOf ((lanesOf act).filter fun m => reg ma.kt.wide ma.a m = reg ma.kt.wide ma.a l))], 0)) ∧
    does (.bcast h bc) (fun l _ =>
      take bc.kt.wide bc.d bc.a bc.c l (some ((srcB32 false bc.lit bc.b (thr (lowest act))).toNat % 64))) ∧
    does (.first h fi) (fun _ _ =>
      num32 fi.d (((lanesOf act).find? fun l => rdP (thr l) fi.a.toNat).getD 0xFFFFFFFF)) ∧
    does (.wred h rl) (fun l _ =>
      flt32 rl.d ((((wredTree rl.op rl.kt 6 0 vals).1.getD l none).getD 0), (wredTree rl.op rl.kt 6 0 vals).2)) ∧
    does (.scan h rl) (fun l _ => flt32 rl.d ((scanVals rl.op rl.kt rl.excl none vals).getD l (0, 0)))

/-- R175, R176: over lanes 0 upward, each taken once, SCAN's inclusive value in an active lane is the operation's running
value over the active lanes up to it, and the exclusive value that over the active lanes before it. -/
def Obligations.ScanRunsOverActiveLanes : Prop :=
  ∀ (op : RedOp) (kt : XlKind) (vals : List (Option Nat)) (l x : Nat), vals[l]? = some (some x) →
    let run := fun (acc : Option Nat) (v : Option Nat) => match acc, v with
      | some a, some b => some (laneOp op kt a b).1
      | none, v => v
      | acc, none => acc
    let before := (vals.take l).foldl run none
    ((scanVals op kt false none vals).getD l (0, 0)).1 = (run before (some x)).getD 0 ∧
    ((scanVals op kt true none vals).getD l (0, 0)).1 = before.getD (redIdentity op kt)

/-- R172, R175: for every operation and kind, F32 among them, the tree of WRED gives each lane the same value, that of the rule's fixed
tree, absent exactly where no lane is active; for the integer and bitwise kinds it is the operation taken over the active lanes in
ascending order. -/
def Obligations.ReductionTree : Prop :=
  ∀ (op : RedOp) (kt : XlKind) (vals : List (Option Nat)), vals.length = 64 →
    (∀ l, l < 64 → (wredTree op kt 6 0 vals).1.getD l none = treeValue op kt vals 6 0) ∧
    (treeValue op kt vals 6 0 = none ↔ ∀ v ∈ vals, v = none) ∧
    (kt ≠ .f32 → (∀ v x, v ∈ vals → v = some x → x < 2 ^ 32) →
    let run := fun (acc : Option Nat) (v : Option Nat) => match acc, v with
      | some a, some b => some (laneOp op kt a b).1
      | none, v => v
      | acc, none => acc
    treeValue op kt vals 6 0 = vals.foldl run none)

/-! ### S-forms -/

/-- R122, R123: in warp code each S-form of a computation does exactly what the M-form named in Table 6-3 does, with the
modifiers shown, guard p0 where G is set, lookahead 0 and no hint; FNEG and FABS, which the table defines in full,
complete with bit 31 inverted or cleared, a NaN giving the canonical NaN. -/
def Obligations.ShortForms : Prop :=
  ∀ (s : State) (w : Nat) (bn : Bundle) (len : Nat) (g : Bool) (d a b : Byte), Issuing s w bn len →
    (warpOf s w).lead = false →
    let h : Hdr := ⟨if g then 0 else 7, false, 0, false, false, .normal⟩
    let int := fun (ty : IntTy) (sub : BitVec 3) => (⟨ty, false, sub, d, a, b, 0, none⟩ : IOp)
    let un := fun (ty : IntTy) => (⟨ty, false, 0, d, a, 0, 0, none⟩ : IOp)
    let flt := fun (sub : BitVec 3) => (⟨false, .rn, false, false, sub, d, a, b, 0, none⟩ : FOp)
    let word := fun (t : Thread) => (vreg t a.toNat).toNat
    (∀ x y, (x, y) ∈ [(Instr.iaddS g d a b, Instr.iadd h (int .i32 0)), (.isubS g d a b, .isub h (int .i32 0)),
        (.imulS g d a b, .imul h (int .i32 0)), (.iminS g d a b, .imin h (int .i32 0)), (.imaxS g d a b, .imax h (int .i32 0)),
        (.andS g d a b, .and h (int .b32 0)), (.orS g d a b, .or h (int .b32 0)), (.xorS g d a b, .xor h (int .b32 0)),
        (.shlS g d a b, .shl h (int .b32 0)), (.shrS g d a b, .shr h (int .b32 0)), (.sarS g d a b, .sar h (int .i32 0)),
        (.rotlS g d a b, .rotl h (int .b32 0)), (.movS g d a, .mov h (un .b32)), (.notS g d a, .not h (un .b32)),
        (.inegS g d a, .ineg h (un .i32)), (.popcS g d a, .popc h (un .b32)), (.clzS g d a, .clz h (un .b32)),
        (.brevS g d a, .brev h (un .b32)), (.isetltS g d a b, .iset h (int .i32 2)), (.iseteqS g d a b, .iset h (int .i32 0)),
        (.nminS g d a b, .imin h (int .n32 0)), (.nmaxS g d a b, .imax h (int .n32 0)), (.faddS g d a b, .fadd h (flt 0)),
        (.fsubS g d a b, .fsub h (flt 0)), (.fmulS g d a b, .fmul h (flt 0)), (.fminS g d a b, .fmin h (flt 0)),
        (.fmaxS g d a b, .fmax h (flt 0)), (.fsetltS g d a b, .fset h (flt 2)), (.hadd2S g d a b, .hadd2 h (flt 0)),
        (.hmul2S g d a b, .hmul2 h (flt 0)), (.cvtfS g d a, .cvtf h ⟨.rn, .f32, .i32, d, a⟩),
        (.cvtiS g d a, .cvti h ⟨.rn, .f32, .i32, d, a⟩), (.ex2S g d a, .ex2 h ⟨false, d, a⟩), (.lg2S g d a, .lg2 h ⟨false, d, a⟩),
        (.rcpS g d a, .rcp h ⟨false, d, a⟩), (.rsqS g d a, .rsq h ⟨false, d, a⟩), (.nopS g, .nop h)] →
      exec x s = exec y s ∧ ∃ t, exec x s = .next t) ∧
    Computes s w bn len (hdrGuard h) false (fun _ t => flt32 d
      (if (Fmt.f32.unpack (word t)).isNan then Fmt.f32.cnan else Nat.xor (word t) (2 ^ 31), 0)) (exec (.fnegS g d a) s) ∧
    Computes s w bn len (hdrGuard h) false (fun _ t => flt32 d
      (if (Fmt.f32.unpack (word t)).isNan then Fmt.f32.cnan else word t % 2 ^ 31, 0)) (exec (.fabsS g d a) s)

/-! ### Control transfer and traps -/

/-- R133, R180 to R184: BRA, BRX, CALL, CALLX, RET, EXIT, MEET, MTRES and YIELD complete, in warp and lead code: the active
threads take the transfer, the other threads of the bundle go on in sequence, and nothing else changes. YIELD, and NOP with the yield
hint, set the yielded flag of a bundle that neither splits nor merges (R27). CALL and CALLX
set lk to the following instruction and count the depth, RET counts it down; MEET saves the old mt and sets the new one.
EXIT retires a warp whose last thread it takes, and is a checkpoint in a twin pair (R360). -/
def Obligations.ControlTransfer : Prop :=
  ∀ (s : State) (w : Nat) (bn : Bundle) (len : Nat) (h : Hdr) (a : Byte) (off : Word) (save : BitVec 7), Issuing s w bn len →
    let i := issueOf s w bn len (hdrGuard h)
    let lead := (warpOf s w).lead
    let pc := pcOf (warpOf s w) bn
    let dst : Addr := pc + BitVec.ofInt 52 (4 * off.toInt)
    let reg := fun (t : Thread) => rdD lead t a
    let goes := fun (f : Thread → Thread) (l : Nat) (t : Thread) => if i.act.getLsbD l then f t else onward bn len l t
    let does := fun (x : Instr) (f : Thread → Thread) =>
      ∃ t, exec x s = .next t ∧ ThreadsAre s t w (goes f) ∧ OnlyIssue s t i h.yh
    let codeAddr := ∀ l, Active s w bn (hdrGuard h) l →
      (reg (threadOf (warpOf s w) l)).toNat % 4 = 0 ∧ (reg (threadOf (warpOf s w) l)).toNat < 2 ^ 52
    let shallow := ∀ l, Active s w bn (hdrGuard h) l → (threadOf (warpOf s w) l).cdepth ≠ 0xFFFF
    let inCall := ∀ l, Active s w bn (hdrGuard h) l → (threadOf (warpOf s w) l).cdepth ≠ 0
    let inTable := ∀ l, bn.lanes.getLsbD l = true → l < (warpOf s w).threads.length
    inTable →
    does (.bra h off) (fun t => { t with pc := dst }) ∧
    (codeAddr → does (.brx h a) (fun t => { t with pc := (reg t).extractLsb' 0 52 })) ∧
    (shallow → does (.call h off) (fun t => { t with pc := dst, lk := pc + 8, cdepth := t.cdepth + 1 })) ∧
    (codeAddr → shallow →
      does (.callx h a) (fun t => { t with pc := (reg t).extractLsb' 0 52, lk := pc + 8, cdepth := t.cdepth + 1 })) ∧
    (inCall → does (.ret h) (fun t => { t with pc := t.lk, cdepth := t.cdepth - 1 })) ∧
    does (.meet h save off) (fun t => onwardAll len
      { (RegW.v (if save = 127 then 255 else BitVec.ofNat 8 (2 * save.toNat)) true (t.mt.zeroExtend 64)).apply false t with mt := dst }) ∧
    does (.mtres h a) (fun t => onwardAll len { t with mt := (rdD false t a).extractLsb' 0 52 }) ∧
    (let whole := (warpOf s w).bundles = [bn] ∧ bn.lanes ≠ 0 ∧ ∀ l, bn.lanes.getLsbD l = true →
       let u := threadOf (warpOf s w) l
       u.exited = false ∧ u.pc = pc ∧ u.mt ≠ pc + BitVec.ofNat 52 len
     let yields := fun (x : Instr) (y : Bool) => ∃ t, exec x s = .next t ∧ ThreadsAre s t w (onward bn len) ∧ OnlyIssue s t i y ∧
       (whole → ∃ b, (warpOf t w).bundles = [b] ∧ b.lanes = bn.lanes ∧ b.yielded = (bn.yielded || y))
     (i.act ≠ 0 → yields (.yieldHint h) true) ∧ yields (.nop h) h.yh) ∧
    ((blockOf s (warpOf s w).blk).twin.isSome = true → (warpOf s w).ckpt = none → i.act ≠ 0 →
      ∃ t, exec (.exit h) s = .next t ∧ ChecksIn s t i) ∧
    ((blockOf s (warpOf s w).blk).twin = none → i.act ≠ 0 →
      ∃ u, ThreadsAre s u w (goes fun t => { t with exited := true }) ∧ OnlyIssue s u i h.yh ∧
        exec (.exit h) s = .next (if liveLanes (warpOf u w) = 0 then retireWarp u w else u))

/-- R181, R182, R185, R326 to R331: a BRX or CALLX whose target is no code address traps with TARGET (0x0F), a CALL or CALLX past
the depth bound with 0x0D, of CALLX the lowest lane that fails either test, its target first; a RET without a call with 0x0E, and TRAP with 0x11 and its code in INFO. -/
def Obligations.ControlTraps : Prop :=
  ∀ (s : State) (w : Nat) (bn : Bundle) (len : Nat) (h : Hdr) (a : Byte) (off : Word) (code : BitVec 10) (l : Nat),
    Issuing s w bn len → Placed s w → Active s w bn (hdrGuard h) l →
    let t0 := threadOf (warpOf s w) l
    let reg := (rdD (warpOf s w).lead t0 a).toNat
    let earlier := fun (bad : Thread → Prop) => ∀ k, k < l → Active s w bn (hdrGuard h) k → ¬bad (threadOf (warpOf s w) k)
    let noCode := fun (t : Thread) => (rdD (warpOf s w).lead t a).toNat % 4 ≠ 0 ∨ 2 ^ 52 ≤ (rdD (warpOf s w).lead t a).toNat
    let traps := fun (x : Instr) (cause addr info : Nat) => ∃ t, exec x s = .next t ∧ Traps s t w bn cause 0 addr info
    (noCode t0 → earlier noCode → traps (.brx h a) 0x0F reg l) ∧
    (noCode t0 → earlier (fun t => noCode t ∨ t.cdepth = 0xFFFF) → traps (.callx h a) 0x0F reg l) ∧
    (¬noCode t0 → t0.cdepth = 0xFFFF → earlier (fun t => noCode t ∨ t.cdepth = 0xFFFF) → traps (.callx h a) 0x0D 0 l) ∧
    (t0.cdepth = 0xFFFF → earlier (·.cdepth = 0xFFFF) → traps (.call h off) 0x0D 0 l) ∧
    (t0.cdepth = 0 → earlier (·.cdepth = 0) → traps (.ret h) 0x0E 0 l) ∧
    (earlier (fun _ => True) → traps (.trap h code) 0x11 0 (l + code.toNat * 2 ^ 16))

/-! ### Scratchpad -/

/-- R72, R87, R89, R90, R104, R105, R134, R195 to R197, R202: LDS, its S-form and LDSR complete where each lane's offset is aligned and inside the
part's allocation or window. A lane reads the newest store of its own queue at each byte, else the byte at its bank;
the data return 24 ck after issue, 96 for LDSR, plus one for each extra pass. LDSR waits for them, and reads the named part on the
way: the value of LDS is that at its issue, the read of LDSR comes 48 ck after issue, the unloaded instant (log entries 4 and 31). An
LDS.ACQ of any scope and of any word empties its context's L1 (log entry 105). -/
def Obligations.ScratchpadLoads : Prop :=
  ∀ (s : State) (w : Nat) (bn : Bundle) (len : Nat) (h : Hdr) (o : MemOp) (g : Bool) (d a b : Byte), Issuing s w bn len → Clean s →
    let wp := warpOf s w
    let own := partOf s wp.part
    let i := issueOf s w bn len (hdrGuard h)
    let key := i.key s
    let addr := fun (lead : Bool) (l : Nat) => addrLocal lead (threadOf wp l) o.a o.b o.lit
    let fits := fun (lead : Bool) (p : Part) => ∀ l ∈ lanesOf i.act, OffsetOk p.kib p.swin o.c o.sz.bytes (addr lead l)
    let offs := fun (lead : Bool) (p : Part) => (lanesOf i.act).map fun l => (l, offsetOf p.swin o.c (addr lead l))
    -- passes beyond the first (R89)
    let extra := fun (p : Part) (n : Nat) (xs : List (Nat × Nat)) =>
      scratchPasses key p.swin (xs.flatMap fun x => (List.range ((n + 7) / 8)).map fun k => x.2 + 8 * k) - 1
    let counted := fun (n : Nat) => count s (blockOf s wp.blk).vf (blockOf s wp.blk).ctx 2 10 n
    let vals := fun (d : Byte) (n : Nat) (xs : List (Nat × Nat)) => xs.map fun x => (x.1, d.toNat, ownBytes s i x.2 n)
    (i.act ≠ 0 → fits wp.lead own →
      let x := extra own o.sz.bytes (offs wp.lead own)
      let noted := (noteIssue (counted x) i h.yh).cores
      ∃ t, exec (.lds h o) s = .next t ∧ t.cores = (if o.ord = .acq then joinedCores s i noted else noted) ∧
        Loads OnlyIssue (counted x) { t with cores := noted } i h.yh
          (loadOf s i o.sz (vals o.d o.sz.bytes (offs wp.lead own)) (some (s.clk + 24 + x)) false none [])) ∧
    (i.act ≠ 0 → ∀ q, o.part.toNat < (blockOf s wp.blk).nParts → q = (blockOf s wp.blk).firstPart + o.part.toNat →
      fits false (partOf s q) →
      let xs := offs false (partOf s q)
      let x := extra (partOf s q) o.sz.bytes xs
      let data := xs.map fun x => (x.1, o.d.toNat, BitVec.ofNat 128 x.2)
      let op := { loadOf s i o.sz data (some (s.clk + 96 + x)) true (some (q, s.clk + 48)) [] with acq := o.ord == .acq }
      ∃ t, exec (.ldsr h o) s = .next t ∧
        WaitsFor { counted x with loads := s.loads ++ [op], nextId := s.nextId + 1 } t i h.yh (.remote s.nextId)) ∧
    (wp.lead = false →
      let i := issueOf s w bn len (sGuard g)
      let off := fun (l : Nat) => vreg (threadOf wp l) a.toNat + 4 * vreg (threadOf wp l) b.toNat
      i.act ≠ 0 → (∀ l ∈ lanesOf i.act, OffsetOk own.kib own.swin 0 4 (off l)) →
      let xs := (lanesOf i.act).map fun l => (l, (off l).toNat)
      let x := extra own 4 xs
      ∃ t, exec (.ldsS g d a b) s = .next t ∧
        Loads OnlyIssue (counted x) t i false
          (loadOf s i .b32 (xs.map fun x => (x.1, d.toNat, ownBytes s i x.2 4)) (some (s.clk + 24 + x)) false none []))

/-- R89, R94, R101, R102, R194, R195, R198, R205, R229, R230: STS, its S-form, STSR, SWARM, TST and AST complete where their offsets pass the
checks: one entry joins the queue, with the access of each active lane in ascending order and the extra passes that it takes; the
counter of extra passes counts those of TST and AST too (log entry 42). A release of a twin that holds unmatched global stores is a
checkpoint instead (log entry 45). -/
def Obligations.ScratchpadStores : Prop :=
  ∀ (s : State) (w : Nat) (bn : Bundle) (len : Nat) (h : Hdr) (o : MemOp) (tm : TileMemOp) (am : AccMemOp) (rearm : Bool)
    (a b : Byte) (lit : Option Word) (g : Bool), Issuing s w bn len → Clean s →
    let wp := warpOf s w
    let own := partOf s wp.part
    let i := issueOf s w bn len (hdrGuard h)
    let key := i.key s
    let extra := fun (p : Part) (n : Nat) (xs : List (Nat × Nat)) =>
      scratchPasses key p.swin (xs.flatMap fun x => (List.range ((n + 7) / 8)).map fun k => x.2 + 8 * k) - 1
    let counted := fun (n : Nat) => count s (blockOf s wp.blk).vf (blockOf s wp.blk).ctx 2 10 n
    let addr := fun (lead : Bool) (l : Nat) => addrLocal lead (threadOf wp l) o.a o.b o.lit
    let fits := fun (lead : Bool) (p : Part) => ∀ l ∈ lanesOf i.act, OffsetOk p.kib p.swin o.c o.sz.bytes (addr lead l)
    let offs := fun (lead : Bool) (p : Part) => (lanesOf i.act).map fun l => (l, offsetOf p.swin o.c (addr lead l))
    let stores := fun (lead : Bool) (q : Nat) (p : Part) => (lanesOf i.act).map fun l =>
      (⟨l, (addr lead l).toNat, o.sz.bytes, (storeData i.lead o.sz (threadOf wp l) o.d).zeroExtend 1024, 0,
        .scratch q (offsetOf p.swin o.c (addr lead l))⟩ : LaneAcc)
    -- rows of `n` bytes from A + B of the lowest active thread on (R229)
    let row := fun (n : Nat) (a b str : Byte) (l : Nat) =>
      (vreg (threadOf wp (lowest i.act)) a.toNat + vreg (threadOf wp (lowest i.act)) b.toNat).toNat + l * (n * (str.toNat + 1))
    let rowsFit := fun (n : Nat) (a b str : Byte) => ∀ l ∈ lanesOf i.act, row n a b str 0 % n = 0 ∧ row n a b str l + n ≤ own.kib * 1024
    let rows := fun (n : Nat) (a b str : Byte) (val : Nat → BitVec 1024) => (lanesOf i.act).map fun l =>
      (⟨l, row n a b str l, n, val l, 0, .scratch wp.part (row n a b str l)⟩ : LaneAcc)
    -- no checkpoint comes first (R360)
    let free := wp.noPassed bn.id ∧ (unmatched s w = [] ∨ o.ord = .plain ∨ o.sc = .core)
    (i.act ≠ 0 → fits wp.lead own → free →
      let n := extra own o.sz.bytes (offs wp.lead own)
      ∃ t, exec (.sts h o) s = .next t ∧
        Queues OnlyIssue (counted n) t i h.yh (mkEntry s.clk i s.nextId .store (stores wp.lead wp.part own) o.ord o.sc h.ch n)) ∧
    (i.act ≠ 0 → ∀ q, o.part.toNat < (blockOf s wp.blk).nParts → q = (blockOf s wp.blk).firstPart + o.part.toNat →
      fits false (partOf s q) → free →
      let n := extra (partOf s q) o.sz.bytes (offs false (partOf s q))
      ∃ t, exec (.stsr h o) s = .next t ∧
        Queues OnlyIssue (counted n) t i h.yh (mkEntry s.clk i s.nextId .store (stores false q (partOf s q)) o.ord o.sc h.ch n)) ∧
    (i.act ≠ 0 →
      let off := fun (l : Nat) => (rdV i.lead (threadOf wp l) a).toNat % 2 ^ 32
      (∀ l ∈ lanesOf i.act, off l % 16 = 0 ∧ off l + 16 ≤ own.kib * 1024) →
      ∃ t, exec (.swarm h rearm a b lit) s = .next t ∧
        Queues OnlyIssue s t i h.yh (mkEntry s.clk i s.nextId (.swarm rearm) ((lanesOf i.act).map fun l =>
          ⟨l, off l, 16, (srcB32 i.lead lit b (threadOf wp l)).zeroExtend 1024, 0, .scratch wp.part (off l)⟩) .plain .core h.ch)) ∧
    (i.act ≠ 0 → rowsFit 64 tm.a tm.b tm.rstr →
      let r := fun (l : Nat) => tileRow own tm.d.toNat l
      let n := extra own 64 ((lanesOf i.act).map fun l => (l, row 64 tm.a tm.b tm.rstr l))
      ∃ t, exec (.tst h tm) s = .next t ∧ t.cores = ownCores s i (noteIssue s i h.yh).cores ∧
        Queues OnlyIssue (counted n) { t with cores := (noteIssue s i h.yh).cores } i h.yh (mkEntry s.clk i s.nextId .store (rows 64 tm.a tm.b tm.rstr fun l =>
          (if tm.log then (r l).data.extractLsb' 16 496 ++ (r l).sc ++ (r l).data.extractLsb' 0 8 else (r l).data).zeroExtend 1024)
          .plain .core h.ch n)) ∧
    (i.act ≠ 0 → rowsFit 128 am.a am.b am.rstr →
      let n := extra own 128 ((lanesOf i.act).map fun l => (l, row 128 am.a am.b am.rstr l))
      ∃ t, exec (.ast h am) s = .next t ∧ t.cores = ownCores s i (noteIssue s i h.yh).cores ∧
        Queues OnlyIssue (counted n) { t with cores := (noteIssue s i h.yh).cores } i h.yh (mkEntry s.clk i s.nextId .store
          (rows 128 am.a am.b am.rstr fun l => accRow own am.d.toNat l) .plain .core h.ch n)) ∧
    (wp.lead = false →
      let i := issueOf s w bn len (sGuard g)
      let off := fun (l : Nat) => vreg (threadOf wp l) a.toNat
      i.act ≠ 0 → (∀ l ∈ lanesOf i.act, OffsetOk own.kib own.swin 0 4 (off l)) →
      let n := extra own 4 ((lanesOf i.act).map fun l => (l, (off l).toNat))
      ∃ t, exec (.stsS g a b) s = .next t ∧
        Queues OnlyIssue (counted n) t i false (mkEntry s.clk i s.nextId .store ((lanesOf i.act).map fun l =>
          ⟨l, (off l).toNat, 4, (vreg (threadOf wp l) b.toNat).zeroExtend 1024, 0, .scratch wp.part (off l).toNat⟩) .plain .core .normal n))

/-- R89, R194, R199, R200, R202: ATOMS and ACASS complete where their offsets pass the checks: an entry with the operation, its
operand and, for a compare, the new value joins the queue, and D stays pending until the old value returns. Of a twin too they are no
checkpoint, but where they release global stores that it holds unmatched (log entry 45). -/
def Obligations.ScratchpadAtomics : Prop :=
  ∀ (s : State) (w : Nat) (bn : Bundle) (len : Nat) (h : Hdr) (o : AtomOp), Issuing s w bn len →
    let wp := warpOf s w
    let own := partOf s wp.part
    let i := issueOf s w bn len (hdrGuard h)
    let n := if o.ak.wide then 8 else 4
    let off := fun (l : Nat) => (addrLocal wp.lead (threadOf wp l) o.a o.b o.lit).toNat
    let opnd := fun (l : Nat) (f : Byte) => rdW wp.lead o.ak.wide (threadOf wp l) f
    let next := if wp.lead then o.c + 1 else if o.ak.wide then o.c + 2 else o.c + 1
    let accs := fun (data cmp : Nat → Dword) => (lanesOf i.act).map fun l =>
      (⟨l, off l, n, (data l).zeroExtend 1024, cmp l, .scratch wp.part (off l)⟩ : LaneAcc)
    let x := scratchPasses (i.key s) own.swin ((lanesOf i.act).flatMap fun l => (List.range ((n + 7) / 8)).map fun k => off l + 8 * k) - 1
    let u := count s (blockOf s wp.blk).vf (blockOf s wp.blk).ctx 2 10 x
    i.act ≠ 0 → (∀ l ∈ lanesOf i.act, off l % n = 0 ∧ off l + n ≤ own.kib * 1024) →
    wp.noPassed bn.id ∧ (unmatched s w = [] ∨ o.ord = .plain ∨ o.ord = .acq ∨ o.sc = .core) →
    (∃ t, exec (.atoms h o) s = .next t ∧ Awaits s t i (dstW o.ak.wide o.d wp.lead) h.la.toNat ∧
      Queues OnlyIssue u t i h.yh (mkEntry s.clk i s.nextId (.atomic o.aop o.ak (some o.d.toNat))
        (accs (fun l => opnd l o.c) fun _ => 0) o.ord o.sc h.ch x)) ∧
    (∃ t, exec (.acass h o) s = .next t ∧ Awaits s t i (dstW o.ak.wide o.d wp.lead) h.la.toNat ∧
      Queues OnlyIssue u t i h.yh (mkEntry s.clk i s.nextId (.cas o.ak (some o.d.toNat))
        (accs (fun l => opnd l next) fun l => opnd l o.c) o.ord o.sc h.ch x))

/-! ### Global memory -/

/-- R72, R104, R105, R109, R132, R196, R197, R202: LD and LDC complete where their addresses pass the checks and translate and nothing is
poisoned. LD reads in each lane the bytes of its place that are visible to it, LDC the bytes at the homes of its bank, an offset
being the operand or, in a lead, what an address of the parameter block stands for (log entries 29 and 91). The data return at a later ck,
which the slowest lane decides; an acquire empties the context's L1. LD and LDC take their values at the issue, and where a lane reads
host memory, every lane when the host completes the load (R101; log entry 31). Of lanes on a fabric peer one flit goes to the send unit
for each peer (log entry 25), and whether the peer refuses is open (log entry 82). In a twin a load with a lane on a peer is a
checkpoint (R360). -/
def Obligations.GlobalLoads : Prop :=
  ∀ (s s1 : State) (w : Nat) (bn : Bundle) (len : Nat) (h : Hdr) (o : MemOp), Issuing s w bn len → Clean s →
    let wp := warpOf s w
    let b := blockOf s wp.blk
    let i := issueOf s w bn len (hdrGuard h)
    let n := o.sz.bytes
    let strong : Bool := (o.ord == .acq || o.ord == .ar) && o.sc != .core
    let some' := fun (kind : Place → Bool) (ps : List (Nat × Place)) => ∃ x ∈ ps, kind x.2 = true
    -- a load of which some lane reads host memory
    let byHost := fun (t : State) (va : Nat → Nat) (ps : List (Nat × Place)) (acq home fill consume : Bool) => Loads OnlyMemory s t i h.yh
      { loadOf s i o.sz ((ps.filter fun x => isHost x.2).map fun x => (x.1, o.d.toNat, 0)) none false none (lanesAt isHost va ps) with
        late := (ps.filter fun x => !(isHost x.2)).map fun x => (x.1, o.d.toNat, va x.1, x.2), acq, home, hint := h.ch, fill, consume }
    let byDevice := fun (t : State) (ps : List (Nat × Place)) (data : List (Nat × Nat × BitVec 128)) (due : Nat) => ∃ refused,
      (¬some' isPeer ps → refused = none) ∧
      (sliceOf t b.vf).fabOut = (sliceOf (fabAsk s b.vf wp.core s.nextId (ps.map fun x => (x.2, 0))) b.vf).fabOut ∧
      Loads OnlyMemory s (setSlice t b.vf fun sl => { sl with fabOut := (sliceOf s b.vf).fabOut }) i h.yh
        { loadOf s i o.sz data (some due) false none [] with refused }
    i.act ≠ 0 →
    (∀ ps x,
      let addr := fun (l : Nat) => (addrGlobal wp.lead (threadOf wp l) o.a o.b o.lit).toNat
      (∀ l ∈ lanesOf i.act, addr l % n = 0 ∧ addr l < 2 ^ 52) →
      translateAll wp.core b.vf b.ctx .load ((lanesOf i.act).map fun l => (l, addr l)) s = (s1, .ok ps, x) →
      let pl := (lanesOf i.act).zip ps
      (b.twin.isSome = true → some' isPeer pl → wp.ckpt = none → ∃ t, exec (.ld h o) s = .next t ∧ ChecksIn s t i) ∧
      (b.twin = none ∨ (unmatched s w = [] ∧ wp.noPassed bn.id ∧ ¬some' isPeer pl) →
      ∃ t, exec (.ld h o) s = .next t ∧ (some' isHost pl → byHost t addr pl strong strong (o.ord == .plain) true) ∧
        (¬some' isHost pl → (strong = true → ∀ x ∈ (coreOf t wp.core).l1, ¬(x.vf = b.vf ∧ x.ctx = b.ctx)) ∧
          ∃ due, s.clk < due ∧
            (¬some' isPeer pl → due = s.clk + ((devPas pl).map (loadLatency s1 (reader s i strong))).foldl max 1) ∧
            byDevice t pl (pl.map fun x => (x.1, o.d.toNat, visibleValue s (reader s i strong) x.2 n)) due))) ∧
    (∀ xs x,
      let base := if o.part.getLsbD 0 then (launchOf s b.launch).constAt else (launchOf s b.launch).pkt.param
      let size := if o.part.getLsbD 0 then (launchOf s b.launch).constSize else 2 ^ 16
      let off := fun (l : Nat) => constOff s i o (threadOf wp l)
      (∀ l ∈ lanesOf i.act, off l % n = 0 ∧ off l + n ≤ size) →
      constAll i n ((lanesOf i.act).map fun l => (l, base + off l)) s = (s1, .ok xs, x) →
      let pl := xs.map fun x => (x.1, x.2.2.headD (.dev 0))
      (b.twin.isSome = true → some' isPeer pl → wp.ckpt = none → ∃ t, exec (.ldc h o) s = .next t ∧ ChecksIn s t i) ∧
      (b.twin = none ∨ (wp.noPassed bn.id ∧ ¬some' isPeer pl) →
      ∃ t, exec (.ldc h o) s = .next t ∧ (some' isHost pl → byHost t (fun l => base + off l) pl false true false (!(o.part.getLsbD 0))) ∧
        (¬some' isHost pl → ∃ due, s.clk + 24 ≤ due ∧
          ((∀ x ∈ xs, (coreOf s wp.core).ccache.contains (constKey b x.2.1) = true) → due = s.clk + 24) ∧
          byDevice t pl (xs.map fun x => (x.1, o.d.toNat, BitVec.ofNat 128 (leBytes (x.2.2.map (homeByte s 0))))) due)))

/-- R72, R101, R102, R132, R194, R196, R198 to R200: ST, REDM, ATOM and ACAS complete where their addresses pass the checks and translate with the
right to write: an entry joins the queue with each active lane's place, data and, for a compare, the value compared;
no byte of memory has changed yet. D of ATOM and ACAS stays pending. Of a copy of a twin pair ATOM and ACAS are checkpoints, and so are
ST and REDM where a lane lies on a peer or 256 entries wait unmatched; another REDM is none (R360; log entry 45). -/
def Obligations.GlobalStores : Prop :=
  ∀ (s s1 : State) (w : Nat) (bn : Bundle) (len : Nat) (h : Hdr) (o : MemOp) (k : AtomOp) (ps : List Place) (x : Nat × Nat),
    Issuing s w bn len → Clean s →
    let wp := warpOf s w
    let b := blockOf s wp.blk
    let i := issueOf s w bn len (hdrGuard h)
    let lanes := lanesOf i.act
    -- a twin's store with room to be held, and not to a peer, is no checkpoint (R360)
    let free := b.twin = none ∨ ((unmatched s w).length < 256 ∧ wp.noPassed bn.id ∧ ∀ p ∈ ps, isPeer p = false)
    -- one that is a checkpoint
    let meets := b.twin.isSome = true ∧ wp.ckpt = none
    let stops := fun (x : Instr) => ∃ t, exec x s = .next t ∧ ChecksIn s t i
    let bound := 256 ≤ (unmatched s w).length ∨ ∃ p ∈ ps, isPeer p = true
    i.act ≠ 0 →
    (let addr := fun (l : Nat) => (addrGlobal wp.lead (threadOf wp l) o.a o.b o.lit).toNat
     (∀ l ∈ lanes, addr l % o.sz.bytes = 0 ∧ addr l < 2 ^ 52) →
     translateAll wp.core b.vf b.ctx .store (lanes.map fun l => (l, addr l)) s = (s1, .ok ps, x) →
     (meets → bound → stops (.st h o)) ∧
     (free → ∃ t, exec (.st h o) s = .next t ∧
       Queues OnlyMemory s t i h.yh (mkEntry s.clk i s.nextId .store ((lanes.zip ps).map fun p =>
         ⟨p.1, addr p.1, o.sz.bytes, (storeData wp.lead o.sz (threadOf wp p.1) o.d).zeroExtend 1024, 0, p.2⟩) o.ord o.sc h.ch))) ∧
    (let addr := fun (l : Nat) => (addrGlobal wp.lead (threadOf wp l) k.a k.b k.lit).toNat
     let n := if k.ak.wide then 8 else 4
     let opnd := fun (l : Nat) (f : Byte) => rdW wp.lead k.ak.wide (threadOf wp l) f
     let next := if wp.lead then k.c + 1 else if k.ak.wide then k.c + 2 else k.c + 1
     let accs := fun (data cmp : Nat → Dword) => (lanes.zip ps).map fun p =>
       (⟨p.1, addr p.1, n, (data p.1).zeroExtend 1024, cmp p.1, p.2⟩ : LaneAcc)
     let dst := dstW k.ak.wide k.d wp.lead
     let entry := fun (kind : QKind) (as : List LaneAcc) => mkEntry s.clk i s.nextId kind as k.ord k.sc h.ch
     (∀ l ∈ lanes, addr l % n = 0 ∧ addr l < 2 ^ 52) →
     translateAll wp.core b.vf b.ctx .store (lanes.map fun l => (l, addr l)) s = (s1, .ok ps, x) →
     (meets → stops (.atom h k) ∧ stops (.acas h k) ∧ (bound → stops (.redm h k))) ∧
     (free → ∃ t, exec (.redm h k) s = .next t ∧
       Queues OnlyMemory s t i h.yh (entry (.atomic k.aop k.ak none) (accs (fun l => opnd l k.c) fun _ => 0))) ∧
     (b.twin = none → ∃ t, exec (.atom h k) s = .next t ∧ Awaits s t i dst h.la.toNat ∧
       Queues OnlyMemory s t i h.yh (entry (.atomic k.aop k.ak (some k.d.toNat)) (accs (fun l => opnd l k.c) fun _ => 0))) ∧
     (b.twin = none → ∃ t, exec (.acas h k) s = .next t ∧ Awaits s t i dst h.la.toNat ∧
       Queues OnlyMemory s t i h.yh (entry (.cas k.ak (some k.d.toNat)) (accs (fun l => opnd l next) fun l => opnd l k.c))))

/-- R201: PREF and IPREF complete for every address: they never trap or park, they change no register, and no byte of
memory. -/
def Obligations.Prefetches : Prop :=
  ∀ (s : State) (w : Nat) (bn : Bundle) (len : Nat) (h : Hdr) (o : PrefOp), Issuing s w bn len → Clean s →
    let i := issueOf s w bn len (hdrGuard h)
    ∀ x, x ∈ [Instr.pref h o, .ipref h o] →
      ∃ t, exec x s = .next t ∧ ThreadsAre s t w (onward bn len) ∧ OnlyMemory s t i h.yh

/-! ### Fences, waits, barriers, the decision queue, the cube's owner -/

/-- R105, R108, R109, R112, R114, R118, R184, R185, R203, R205 to R207: FENCE, FENCESC, SYNCW, WAITSEQ, SLEEP and BKPT complete or wait as their
entries say; in a twin pair a FENCE above CORE and a FENCESC are checkpoints (R360). -/
def Obligations.FencesAndWaits : Prop :=
  ∀ (s : State) (w : Nat) (bn : Bundle) (len : Nat) (h : Hdr) (ord : MemOrd) (sc : Scope) (eng : Engine) (a b : Byte)
    (lit : Option Word) (code : BitVec 10), Issuing s w bn len → Clean s →
    let wp := warpOf s w
    let blk := blockOf s wp.blk
    let cx := ctxOf s blk.vf blk.ctx
    let i := issueOf s w bn len (hdrGuard h)
    let lanes := lanesOf i.act
    let goesOn := fun (t : State) => ThreadsAre s t w (onward bn len)
    let joined := fun (t : State) => t.cores = joinedCores s i (noteIssue s i h.yh).cores ∧
      OnlyIssue s { t with cores := (noteIssue s i h.yh).cores } i h.yh
    let word := fun (f : Byte) (l : Nat) => (rdV wp.lead (threadOf wp l) f).toNat % 2 ^ 32
    i.act ≠ 0 →
    (blk.twin = none ∨ sc = .core → ord = .acq →
      ∃ t, exec (.fence h ord sc) s = .next t ∧ goesOn t ∧ if sc = .core then OnlyIssue s t i h.yh else joined t) ∧
    (blk.twin = none ∨ sc = .core → ord ≠ .acq →
      ∃ t, exec (.fence h ord sc) s = .next t ∧
        Queues OnlyIssue s t i h.yh (mkEntry s.clk i s.nextId .fence [] ord sc h.ch)) ∧
    (blk.twin.isSome = true → wp.ckpt = none → sc ≠ .core → ∀ x, x ∈ [Instr.fence h ord sc, .fencesc h] →
      ∃ t, exec x s = .next t ∧ ChecksIn s t i) ∧
    (blk.twin = none →
      ∃ t, exec (.fencesc h) s = .next t ∧ WaitsFor s t i h.yh (.fencesc (coreStores s wp.core .slice) wp.cubeSeq none)) ∧
    ((∀ l ∈ lanes, word a l % 16 = 0 ∧ word a l + 16 ≤ (partOf s wp.part).kib * 1024) →
      let gen := fun (l : Nat) => leBytes ((List.range 4).map fun k =>
        homeByte s (i.key s) (.scratch wp.part (word a l + 8 + k)))
      ∃ t, exec (.syncw h a b) s = .next t ∧
        ((∀ l ∈ lanes, gen l ≠ word b l) → goesOn t ∧ joined t) ∧
        ((∃ l ∈ lanes, gen l = word b l) →
          WaitsFor s t i h.yh (.sync (lanes.map fun l => (word a l, BitVec.ofNat 32 (word b l)))))) ∧
    (let n := lanes.foldl (fun m l => max m (rdD wp.lead (threadOf wp l) a).toNat) 0
     let lc := logicalCore s blk.vf wp.core
     ∃ t, exec (.waitseq h eng a) s = .next t ∧
       (n ≤ (chainOf cx lc eng).comp → goesOn t ∧ joined t) ∧
       ((chainOf cx lc eng).comp < n → WaitsFor s t i h.yh (.seq eng lc n))) ∧
    (let n := (srcB32 wp.lead lit a (threadOf wp (lowest i.act))).toNat
     ∃ t, exec (.sleep h a lit) s = .next t ∧
       (n = 0 → goesOn t ∧ OnlyIssue s t i h.yh) ∧ (n ≠ 0 → WaitsFor s t i h.yh (.sleep n))) ∧
    (cx.desc.dbg = false → ∃ t, exec (.bkpt h code) s = .next t ∧ goesOn t ∧
      OnlyIssue (setCtx s blk.vf blk.ctx fun c => { c with skips := c.skips + 1 }) t i h.yh) ∧
    (cx.desc.dbg = true → bn.skipBp = true → ∃ t, exec (.bkpt h code) s = .next t ∧ goesOn t ∧ OnlyIssue s t i h.yh) ∧
    (cx.desc.dbg = true → bn.skipBp = false → ∃ t, exec (.bkpt h code) s = .next t ∧ SameRegs s t ∧
      t = { s with blocks := t.blocks } ∧
      (wp.blk < s.blocks.length → (blockOf t wp.blk).stop.isSome = true ∧
        (blk.twin = none → blk.stop = none → (blockOf t wp.blk).stop = some ⟨1, [(w, bn.id)], false⟩)))

/-- R112, R204: BAR, BARA and BARW complete in a valid group of which the warp is a member: BAR and BARA arrive, BAR waits for the
phase counter to move on, BARA gives the counter of its arrival, and BARW waits while a thread names the present
counter. In a twin pair BAR and BARA are checkpoints (R360). -/
def Obligations.Barriers : Prop :=
  ∀ (s : State) (w : Nat) (bn : Bundle) (len : Nat) (h : Hdr) (g a d : Byte) (gr : Group), Issuing s w bn len →
    let wp := warpOf s w
    let i := issueOf s w bn len (hdrGuard h)
    i.act ≠ 0 → groupOf (blockOf s wp.blk) g.toNat = some gr → gr.members.getLsbD wp.idx = true →
    let own := wp.queue.map (·.id) ++ (s.loads.filter fun l => l.warp == w && l.due.isNone).map (·.id)
    let s1 := setBlock s wp.blk fun b => { b with groups := b.groups.map fun x =>
      if x.g == g.toNat then { x with waiting := x.waiting ++ [⟨w, i.act, own, wp.cubeSeq⟩] } else x }
    let words := (lanesOf i.act).map fun l => (rdV wp.lead (threadOf wp l) a).extractLsb' 0 32
    ((blockOf s wp.blk).twin.isSome = true → wp.ckpt = none → ∀ x, x ∈ [Instr.bar h g, .bara h g d] →
      ∃ t, exec x s = .next t ∧ ChecksIn s t i) ∧
    ((blockOf s wp.blk).twin = none →
      (∃ t, exec (.bar h g) s = .next t ∧ WaitsFor s1 t i h.yh (.barrier g.toNat [gr.phase])) ∧
      (∃ t, exec (.bara h g d) s = .next t ∧ OnlyIssue s1 t i h.yh ∧
        ThreadsAre s t w (laneAfter wp.lead bn len (hdrGuard h) fun _ _ => num32 d gr.phase.toNat))) ∧
    (∃ t, exec (.barw h g a) s = .next t ∧
      (gr.phase ∉ words → ThreadsAre s t w (onward bn len) ∧ OnlyIssue s t i h.yh) ∧
      (gr.phase ∈ words → WaitsFor s t i h.yh (.barrier g.toNat words)))

/-- R30, R208: DQPOST appends its entry, waits where the queue is full, or drops an entry for a warp that has retired;
DQTAKE gives the oldest entry that its warp may take to every active thread, or waits. An entry may be taken once the stores that its
lead issued before the DQPOST have left the lead's queue, which is log entry 40. What either then serves is the queue's own rule. -/
def Obligations.DecisionQueue : Prop :=
  ∀ (s : State) (w : Nat) (bn : Bundle) (len : Nat) (h : Hdr) (tagged : Bool) (a b d : Byte), Issuing s w bn len → Clean s →
    let wp := warpOf s w
    let blk := blockOf s wp.blk
    let p := partOf s wp.part
    let i := issueOf s w bn len (hdrGuard h)
    let t0 := threadOf wp 0
    let tag := (rdV true t0 b).toNat % 256
    let entry : DqEntry := ⟨if tagged then some tag else none, rdV true t0 a, wp.queue.map (·.id), false⟩
    let gone := tagged = true ∧ (warpOf s (blk.firstWarp + tag)).retired = true
    let mayTake := fun (e : DqEntry) =>
      (e.tag = none ∨ e.tag = some wp.idx) ∧ ∀ q ∈ (warpOf s p.lead).queue, q.id ∉ e.needs
    i.act ≠ 0 → wp.part < s.parts.length →
    ((tagged = true → tag / (blk.nWarps / blk.nParts) = p.log ∧ tag < blk.nWarps) →
      (gone → ∃ t, exec (.dqpost h tagged a b) s = .next t ∧ ThreadsAre s t w (onward bn len) ∧ OnlyIssue s t i h.yh) ∧
      (¬gone → p.dq.length < 64 → ∃ u, exec (.dqpost h tagged a b) s = .next (dqServe u wp.part) ∧
        ThreadsAre s u w (onward bn len) ∧ OnlyIssue s { u with parts := s.parts } i h.yh ∧
        u.parts = modAt s.parts wp.part fun p => { p with dq := p.dq ++ [entry] }) ∧
      (¬gone → 64 ≤ p.dq.length → ∃ t, exec (.dqpost h tagged a b) s = .next t ∧ WaitsFor s t i h.yh (.dqFull entry))) ∧
    (wp.lead = false →
      (∀ k e, p.dq[k]? = some e → mayTake e → (∀ j e', j < k → p.dq[j]? = some e' → ¬mayTake e') → e.bad = false →
        ∃ u, exec (.dqtake h d) s = .next (dqServe u wp.part) ∧ u.parts = modAt s.parts wp.part (fun p => { p with dq := p.dq.eraseIdx k }) ∧
          ThreadsAre s u w (laneAfter false bn len (hdrGuard h) fun _ _ => ([.v d true e.val], 0)) ∧
          OnlyIssue s { u with parts := s.parts } i h.yh) ∧
      ((∀ e ∈ p.dq, ¬mayTake e) → (warpOf s p.lead).retired = false ∨ (∃ e ∈ p.dq, e.tag = none ∨ e.tag = some wp.idx) →
        ∃ t, exec (.dqtake h d) s = .next t ∧ WaitsFor { s with nextId := s.nextId + 1 } t i h.yh (.dqEmpty d h.la.toNat s.nextId)))

/-- R213, R214: CACQ is a NOP for the owner; any other warp waits in the queue, at the level of PRI, from which ownership
is granted. CREL passes ownership at once to the waiter served next, who can use it 2 ck later, or leaves the queue, or is a NOP. The
waiter served next may be one whose block is in the middle of a STEP (log entry 99). -/
def Obligations.CubeOwnership : Prop :=
  ∀ (s : State) (w : Nat) (bn : Bundle) (len : Nat) (h : Hdr) (pri : BitVec 2), Issuing s w bn len →
    let wp := warpOf s w
    let c := coreOf s wp.core
    let i := issueOf s w bn len (hdrGuard h)
    let noted := (noteIssue s i h.yh).cores
    let queued := ∃ x ∈ c.cubeq, x.warp = w
    i.act ≠ 0 → wp.core < s.cores.length →
    (c.owner = some w → ∃ t, exec (.cacq h pri) s = .next t ∧ ThreadsAre s t w (onward bn len) ∧ OnlyIssue s t i h.yh) ∧
    (c.owner ≠ some w → queued → ∃ t, exec (.cacq h pri) s = .next t ∧ WaitsFor s t i h.yh .cacq) ∧
    (c.owner ≠ some w → ¬queued → ∃ u, exec (.cacq h pri) s = .next (grantCube u wp.core) ∧
      WaitsFor s { u with cores := noted } i h.yh .cacq ∧
      u.cores = modAt noted wp.core fun c => { c with cubeq := c.cubeq ++ [⟨w, pri.toNat⟩] }) ∧
    (c.owner = some w → ∃ u, ThreadsAre s u w (onward bn len) ∧ OnlyIssue s u i h.yh ∧
      let v := endCacq u w
      ∃ t, exec (.crel h) s = .next t ∧ t = passCube v wp.core (s.clk + 2) ∧ (coreOf t wp.core).ownerFrom = s.clk + 2 ∧
        (coreOf t wp.core).owner = (nextOwner v wp.core).map (·.warp) ∧
        ∀ x, nextOwner v wp.core = some x → mayEnd v x.warp = true ∧ x ∈ (coreOf v wp.core).cubeq ∧
          ∀ y ∈ (coreOf v wp.core).cubeq, mayEnd v y.warp = true → y.level < 4 → y.level ≤ x.level) ∧
    (c.owner ≠ some w → queued → ∃ u, exec (.crel h) s = .next (endCacq u w) ∧ ThreadsAre s u w (onward bn len) ∧
      OnlyIssue s { u with cores := noted, warps := modAt u.warps w fun x => { x with owned := wp.owned } } i h.yh ∧
      u.cores = modAt noted wp.core fun c => { c with cubeq := c.cubeq.filter (·.warp != w) }) ∧
    (c.owner ≠ some w → ¬queued →
      ∃ t, exec (.crel h) s = .next t ∧ ThreadsAre s t w (onward bn len) ∧ OnlyIssue s t i h.yh)

/-! ### Status registers, trace, counters -/

/-- R97, R209, R358, Table 8-10: GETSR completes for every register of the table, in each active thread with its own value; a sequence
register joins (R118). A twin's thread gets the value that its primary read, as R358 has it of CORE, the times, SCLK and ROWPROG; which
registers these are, CORECNT, QUADS and TOPO and the sequence registers among them, how a read is handed over, and that the twin reads the
primary's registers where the primary reads no more is log entry 45. -/
def Obligations.StatusRead : Prop :=
  ∀ (s : State) (w : Nat) (bn : Bundle) (len : Nat) (h : Hdr) (d : Byte) (n : Nat), Issuing s w bn len →
    let wp := warpOf s w
    let p := partOf s wp.part
    let pk := (launchOf s (blockOf s wp.blk).launch).pkt
    let i := issueOf s w bn len (hdrGuard h)
    -- what a twin's primary has read for it
    let shared : Bool := [0x0B, 0x0C, 0x0D, 0x10, 0x11, 0x12, 0x13, 0x18, 0x19, 0x1A, 0x1B, 0x1C].contains n
    let second : Bool := shared && (blockOf s wp.blk).twin.any (fun x => !x.2)
    let own := wp
    let wp := if second then ((counterpart s w).map (warpOf s)).getD own else own
    let b := blockOf s wp.blk
    let sl := sliceOf s b.vf
    let lc := logicalCore s b.vf wp.core
    let comp := fun (e : Engine) => (chainOf (ctxOf s b.vf b.ctx) lc e).comp
    let value := fun (l : Nat) (t : Thread) =>
      [(l, false), (64, false), (wp.idx, false), (p.log, false), (b.nParts, false), (b.bx, false), (b.by', false), (b.bz, false),
       (pk.nx, false), (pk.ny, false), (pk.nz, false), (lc, false), (sl.lcores.length, false), (sl.quads.length, false),
       (b.vf, false), (b.ctx, false), (sl.topo.toNat, false), (s.hbeat.toNat, true), (s.timeU / 85000, true), (s.clk, true),
       (t.cdepth.toNat, false), (t.astat.toNat, false), (wp.fairt, false), (if pk.attr.testBit 0 then 0 else 1, false),
       (comp .cube, true), (comp .cpy0, true), (comp .cpy1, true), (comp .fab, true), (wp.rowprog.toNat, false),
       ((p.swin.getD 0 0).toNat, false), ((p.swin.getD 1 0).toNat, false), ((p.swin.getD 2 0).toNat, false), ((p.swin.getD 3 0).toNat, false)][n]?
    let joins : Bool := 0x18 ≤ n && n ≤ 0x1B
    let given := fun (l : Nat) => if second then primaryRead s i l else none
    let unread := fun (t : State) => t.warps.mapIdx fun k (x : Warp) => { x with reads := (warpOf s k).reads }
    let noted := (noteIssue s i h.yh).cores
    n ≤ 0x20 → i.act ≠ 0 →
    ∃ t, exec (.getsr h d (BitVec.ofNat 8 n)) s = .next t ∧
      (∀ l, l < own.threads.length → ∃ x wide, value l (threadOf own l) = some (x, wide) ∧
        threadOf (warpOf t w) l =
          laneAfter own.lead bn len (hdrGuard h) (fun l _ => ([.v d wide ((given l).getD (BitVec.ofNat 64 x))], 0)) l (threadOf own l)) ∧
      OnlyIssue s { t with cores := noted, warps := unread t } i h.yh ∧ t.cores = (if joins then joinedCores s i noted else noted) ∧
      ((blockOf s own.blk).twin = none ∨ shared = false → ∀ k, (warpOf t k).reads = (warpOf s k).reads)

/-- R70, R90, R91, R209, R210: SETSR completes: ASTAT in each active thread with its writable bits, FAIRT and the SWIN registers with the
value of the highest active lane, a SWIN value where its reserved bits are 0 and its window lies in the part.
R69, R319, R320, R338: where enabled flags are raised, FADD, FMUL, IADD and IMUL go on with the same results and log them. -/
def Obligations.StatusWrite : Prop :=
  ∀ (s : State) (w : Nat) (bn : Bundle) (len : Nat) (h : Hdr) (a : Byte) (k : Nat) (o : IOp) (p : FOp), Issuing s w bn len →
    let wp := warpOf s w
    let i := issueOf s w bn len (hdrGuard h)
    let val := fun (l : Nat) => ((rdV wp.lead (threadOf wp l) a).extractLsb' 0 32 : Word)
    let top := val (highest i.act)
    i.act ≠ 0 →
    (∃ t, exec (.setsr h 0x15 a) s = .next t ∧ OnlyIssue s t i h.yh ∧
      ThreadsAre s t w fun l u => onward bn len l (if i.act.getLsbD l then
        { u with astat := BitVec.ofNat 32 (bitsNat 32 fun j => (j < 7 || (8 ≤ j && j < 14)) && (val l).getLsbD j) } else u)) ∧
    (∃ t, exec (.setsr h 0x16 a) s = .next t ∧ ThreadsAre s t w (onward bn len) ∧
      (warpOf t w).fairt = (if top.toNat = 0 then 2048 else max 32 (min top.toNat 65535)) ∧
      OnlyIssue s { t with warps := modAt t.warps w fun x => { x with fairt := wp.fairt } } i h.yh) ∧
    (k < 4 → top.extractLsb' 11 5 = 0 → top.extractLsb' 27 5 = 0 →
      (top.extractLsb' 0 11).toNat + (top.extractLsb' 16 11).toNat ≤ 2 * (partOf s wp.part).kib →
      ∃ t, exec (.setsr h (BitVec.ofNat 8 (0x1D + k)) a) s = .next t ∧ ThreadsAre s t w (onward bn len) ∧
        OnlyIssue s { t with parts := s.parts } i h.yh ∧
        t.parts = modAt s.parts wp.part fun p => { p with swin := modAt p.swin k fun _ => top }) ∧
    (let rd := fun (x : Nat) => Fmt.f32.flushIn p.ftz (Fmt.f32.unpack x)
     let fa := fun t => rd (vreg t p.a.toNat).toNat
     let fb := fun t => rd (srcB32 false p.lit p.b t).toNat
     let rnd := fun (v : Val × Flags) => flt32 p.d (Fmt.f32.finish p.rm p.sat p.ftz v.1 v.2)
     Logs s w bn len h (.fadd h p) (fun t => rnd ((fa t).add p.rm (fb t))) ∧
     Logs s w bn len h (.fmul h p) (fun t => rnd ((fa t).mul (fb t))) ∧
     Logs s w bn len h (.iadd h o) (fun t => exactly o (tyVal o.ty (opA wp.lead o t) + tyVal o.ty (opB wp.lead o t))) ∧
     Logs s w bn len h (.imul h o) (fun t => exactly o (tyVal o.ty (opA wp.lead o t) * tyVal o.ty (opB wp.lead o t))))

/-- R211, R212, R297, R398, R399: EVT offers its trace record to the context's units and goes on; CNTSEL programs the bank, or reports BUSY (1) or
BADSET (2); CNTRD gives the counter with its bits 62 and 63. -/
def Obligations.TraceAndCounters : Prop :=
  ∀ (s : State) (w : Nat) (bn : Bundle) (len : Nat) (h : Hdr) (g a d : Byte) (lit : Option Word) (gr : Group), Issuing s w bn len →
    let wp := warpOf s w
    let b := blockOf s wp.blk
    let cx := ctxOf s b.vf b.ctx
    let i := issueOf s w bn len (hdrGuard h)
    let low := threadOf wp (lowest i.act)
    let held : Bool := (sliceOf s b.vf).hvforce.getLsbD 6 && ((sliceOf s b.vf).hvforce.extractLsb' 0 6).toNat == b.ctx
    let set := (rdV wp.lead low a).toNat % 2 ^ 16
    let k := (rdV wp.lead low a).toNat % 16
    let gives := fun (s1 t : State) (wide : Bool) (x : Dword) => OnlyIssue s1 t i h.yh ∧
      ThreadsAre s t w (laneAfter wp.lead bn len (hdrGuard h) fun _ _ => ([.v d wide x], 0))
    i.act ≠ 0 →
    (groupOf b g.toNat = some gr →
      let arg := (srcB32 wp.lead lit a low).toNat
      let rec' := traceBytes 2 0 false (partOf s wp.part).log g.toNat (if wp.lead then 0xFF else wp.idx) gr.phase.toNat (timeNs s) b arg
      ∃ t, exec (.evt h g a lit) s = .next t ∧ ThreadsAre s t w (onward bn len) ∧
        OnlyIssue (traceOffer s b.vf b.ctx 12 rec') t i h.yh) ∧
    (∃ t, exec (.cntsel h d a) s = .next t ∧
      (held = true → gives s t false 1) ∧
      (held = false → 4 < set → gives (setCtx s b.vf b.ctx fun c => { c with cntStatus := 2 }) t false 2) ∧
      (held = false → set ≤ 4 → gives (setCtx s b.vf b.ctx fun c =>
        { c with cntSet := BitVec.ofNat 16 set, counts16 := List.replicate 16 0, cntStatus := 0 }) t false 0)) ∧
    (∃ t, exec (.cntrd h d a) s = .next t ∧ gives s t true (BitVec.ofNat 64
      (cx.counts16.getD k 0 + (if cx.cntSet = 4 then 2 ^ 62 else 0) + (if held then 2 ^ 63 else 0))))

/-! ### Tiles and accumulators -/

/-- R59, R64, R65, R104, R228, R229: TLD, TWRV, TRDV and TFILL complete (the counter of extra passes counts those of TLD: log entry 42): TLD where its rows lie in the allocation and, with LOG, none fails
R59. Rows of active lanes change, or the four-row groups of the column port, and nothing else. A warp that has issued cube
operations joins (R118). -/
def Obligations.TileInstructions : Prop :=
  ∀ (s : State) (w : Nat) (bn : Bundle) (len : Nat) (h : Hdr) (m : TileMemOp) (o : TilePortOp) (f : TfillOp), Issuing s w bn len →
    Clean s →
    let wp := warpOf s w
    let own := partOf s wp.part
    let i := issueOf s w bn len (hdrGuard h)
    let act := fun (l : Nat) => i.act.getLsbD l
    let reg := fun (r : Byte) (l : Nat) => vreg (threadOf wp l) r.toNat
    let c := o.idx.toNat
    let frame := fun (s1 t : State) => ThreadsAre s t w (onward bn len) ∧
      OnlyIssue s1 { t with parts := s.parts, cores := (noteIssue s1 i h.yh).cores } i h.yh
    i.act ≠ 0 →
    (let off := fun (l : Nat) => (reg m.a (lowest i.act) + reg m.b (lowest i.act)).toNat + l * (64 * (m.rstr.toNat + 1))
     let row := fun (l : Nat) => BitVec.ofNat 512 (ownNat s i (off l) 64)
     (∀ l ∈ lanesOf i.act, off 0 % 64 = 0 ∧ off l + 64 ≤ own.kib * 1024 ∧ (m.log = true → blockBad (row l) = none)) →
     let s1 := count s (blockOf s wp.blk).vf (blockOf s wp.blk).ctx 2 10
       (scratchPasses (i.key s) own.swin ((lanesOf i.act).flatMap fun l => (List.range 8).map fun k => off l + 8 * k) - 1)
     ∃ t, exec (.tld h m) s = .next t ∧ frame s1 t ∧ TileRows s t i h.yh m.d act fun l _ =>
       ⟨row l, if m.log = true ∧ (row l).extractLsb' 0 8 ≠ 0 then (row l).extractLsb' 8 8 else 0⟩) ∧
    (∃ t, exec (.tfill h f) s = .next t ∧ frame s t ∧ TileRows s t i h.yh f.d act fun l _ =>
       ⟨row512 fun _ => f.lit.getD (reg f.a l), f.scale⟩) ∧
    (∃ t, exec (.twrv h o) s = .next t ∧ frame s t ∧ match o.port with
      | .row => TileRows s t i h.yh o.d act fun l x => { x with data := row512 fun k => if k = c then reg o.a l else word512 x.data k }
      | .sc => TileRows s t i h.yh o.d act fun l x => { x with sc := (reg o.a l).extractLsb' 0 8 }
      | .col => TileRows s t i h.yh o.d (fun r => r / 4 = c && (List.range 16).any fun k => act (16 * (r % 4) + k)) fun r x =>
          { x with data := row512 fun k => if act (16 * (r % 4) + k) then reg o.a (16 * (r % 4) + k) else word512 x.data k }) ∧
    GivesOwn s w bn len h (fun l =>
      let at' := fun (r k : Nat) => word512 (tileRow own o.a.toNat r).data k
      num32 o.d (match o.port with
        | .row => at' l c | .col => at' (4 * c + l / 16) (l % 16)
        | .sc => (tileRow own o.a.toNat l).sc.zeroExtend 32 : Word).toNat) (exec (.trdv h o) s)

/-- R65, R164, R230: ACLR, ALD, ARDV, AWRV, AQNT and AMAP complete, ALD where its rows lie in the allocation. Only rows of
active lanes are read or written; the flags of AQNT and AMAP are set in the row's lane (NX of a quantised NaN is log entry 34, and that
the counter of extra passes counts those of ALD log entry 42). -/
def Obligations.AccumulatorInstructions : Prop :=
  ∀ (s : State) (w : Nat) (bn : Bundle) (len : Nat) (h : Hdr) (d : Byte) (m : AccMemOp) (c : AccColOp) (q : QnOp) (o : AmapLaneOp),
    Issuing s w bn len → Clean s →
    let wp := warpOf s w
    let own := partOf s wp.part
    let i := issueOf s w bn len (hdrGuard h)
    let act := fun (l : Nat) => i.act.getLsbD l
    let reg := fun (r : Byte) (l : Nat) => vreg (threadOf wp l) r.toNat
    let col := c.col.toNat
    let frame := fun (s1 t : State) => ThreadsAre s t w (onward bn len) ∧
      OnlyIssue s1 { t with parts := s.parts, cores := (noteIssue s i h.yh).cores } i h.yh
    let flagged := fun (t : State) (fl : Nat → Flags) =>
      ThreadsAre s t w (laneAfter wp.lead bn len (hdrGuard h) fun l _ => ([], fl l)) ∧
      ((∀ l, Active s w bn (hdrGuard h) l → enabled (threadOf wp l) (fl l) = 0) →
        OnlyIssue s { t with parts := s.parts, cores := (noteIssue s i h.yh).cores } i h.yh)
    i.act ≠ 0 →
    (∃ t, exec (.aclr h d) s = .next t ∧ frame s t ∧ AccRows s t i h.yh d act fun _ _ => 0) ∧
    (let off := fun (l : Nat) => (reg m.a (lowest i.act) + reg m.b (lowest i.act)).toNat + l * (128 * (m.rstr.toNat + 1))
     (∀ l ∈ lanesOf i.act, off 0 % 128 = 0 ∧ off l + 128 ≤ own.kib * 1024) →
     let s1 := count s (blockOf s wp.blk).vf (blockOf s wp.blk).ctx 2 10
       (scratchPasses (i.key s) own.swin ((lanesOf i.act).flatMap fun l => (List.range 16).map fun k => off l + 8 * k) - 1)
     ∃ t, exec (.ald h m) s = .next t ∧ frame s1 t ∧ AccRows s t i h.yh m.d act fun l _ => BitVec.ofNat 1024 (ownNat s i (off l) 128)) ∧
    (∃ t, exec (.awrv h c) s = .next t ∧ frame s t ∧ AccRows s t i h.yh c.d act fun l x =>
      row1024 fun k => if k = col then reg c.a l else word1024 x k) ∧
    GivesOwn s w bn len h (fun l => num32 c.d (word1024 (accRow own c.a.toNat l) col).toNat) (exec (.ardv h c) s) ∧
    (let vals := fun (a l : Nat) => (List.range 32).map fun k => Fmt.f32.unpack (word1024 (accRow own a l) k).toNat
     let blk := fun (l : Nat) => quantBlock q.fmt (vals q.a.toNat l ++ vals (q.a.toNat + 1) l)
     ∃ t, exec (.aqnt h q) s = .next t ∧ flagged t (fun l => (blk l).2.foldl (· ||| ·) 0) ∧
       TileRows s t i h.yh q.d act fun l _ =>
         ⟨(blk l).1, if (blk l).1.extractLsb' 0 8 = 0 then 0 else (blk l).1.extractLsb' 8 8⟩) ∧
    (let b := fun (l : Nat) => (srcB32 false o.lit o.b (threadOf wp l)).toNat
     let el := fun (l k : Nat) =>
       let x := (word1024 (accRow own o.a.toNat l) k).toNat
       match o.op with
       | .mul => Fmt.f32.mulF .rn false false x (b l)
       | .add => Fmt.f32.addF .rn false false x (b l)
       | .max => (Fmt.f32.minmax false true x (b l), 0)
       | .min => (Fmt.f32.minmax false false x (b l), 0)
       | .mov => (x, (0 : Flags))
     ∃ t, exec (.amap h o) s = .next t ∧ flagged t (fun l => ((List.range 32).map fun k => (el l k).2).foldl (· ||| ·) 0) ∧
       AccRows s t i h.yh o.d act fun l _ => row1024 fun k => BitVec.ofNat 32 (el l k).1)

/-! ### The cube and the copy engines -/

/-- R213, R216, R219 to R222, R225, R226, R236, R245: where the warp owns the cube and the record is legal, TMAC, MMAC and CSPMAC append
theirs and go on; TMACV and MMACV append theirs, set ROWPROG to 0 and give its number in D. The warp's cube operations are from
then on those whose order lies below the next number (R113). A record waits for the stores and host loads ahead of it in whichever memory
they lie, and in a twin pair an append is a checkpoint where its warp holds stores that none has matched (log entries 45 and 46). -/
def Obligations.CubeOperations : Prop :=
  ∀ (s : State) (w : Nat) (bn : Bundle) (len : Nat) (h : Hdr) (o : CubeOp) (v : CubeVOp) (p : Place), Issuing s w bn len →
    Clean s → MemOk s →
    let wp := warpOf s w
    let i := issueOf s w bn len (hdrGuard h)
    let cls := fun (f : CubeFmt) => match f with
      | .e4m3 | .e5m2 => 0 | .i8 => 1 | .bf16 | .f16 => 2 | .f32 => 3 | .log => 4
    let oneClass := fun (fs : List CubeFmt) => ∀ x ∈ fs, ∀ y ∈ fs, cls x = cls y
    let maps := fun (f : Frame) => (f.beta.kind = .identity ↔ f.beta.ln = 0) ∧ (f.kappa.kind = .identity ↔ f.kappa.ln = 0)
    let quad := fun (r : Byte) =>
      let t := threadOf wp (lowest i.act)
      (vreg t r.toNat).toNat + 2 ^ 32 * (vreg t (r.toNat + 1)).toNat + 2 ^ 64 * (vreg t (r.toNat + 2)).toNat + 2 ^ 96 * (vreg t (r.toNat + 3)).toNat
    -- Table 9-12
    let bytes := fun (ty acc : Nat) (f : Frame) (a b c : Nat) =>
      bytesOf 1 ty ++ bytesOf 1 acc ++ bytesOf 1 wp.idx ++ [0] ++ bytesOf 4 f.toBits.toNat ++ bytesOf 8 i.act.toNat ++
      bytesOf 16 a ++ bytesOf 16 b ++ bytesOf 16 c
    let seq := (chainOf (ctxOf s (blockOf s wp.blk).vf (blockOf s wp.blk).ctx) (logicalCore s (blockOf s wp.blk).vf wp.core) .cube).seq
    let form := fun (x : Instr) (bs : List Byte) => ∃ t, exec x s = .next t ∧ ThreadsAre s t w (onward bn len) ∧
      Appends s t i h.yh .cube p bs 1 ∧ (warpOf t w).cubeSeq = s.nextId + 1
    let vform := fun (x : Instr) (bs : List Byte) => ∃ t, exec x s = .next t ∧
      ThreadsAre s t w (laneAfter wp.lead bn len (hdrGuard h) fun _ _ => ([.v v.d true (BitVec.ofNat 64 (seq + 1))], 0)) ∧
      Appends s t i h.yh .cube p bs 1 ∧ (warpOf t w).cubeSeq = s.nextId + 1 ∧ (warpOf t w).rowprog = 0
    i.act ≠ 0 → (coreOf s wp.core).owner = some w → SlotAt s i .cube p →
    (blockOf s wp.blk).twin = none ∨ (unmatched s w = [] ∧ wp.noPassed bn.id) →
    (maps o.fr →
      (oneClass [o.fr.af, o.fr.bf, o.fr.cf] →
        form (.tmac h o) (bytes 0x10 o.d.toNat o.fr o.a.toNat o.b.toNat o.c.toNat)) ∧
      (oneClass [o.fr.af, o.fr.bf] → form (.mmac h o) (bytes 0x11 o.d.toNat o.fr o.a.toNat o.b.toNat 0)) ∧
      (oneClass [o.fr.af, o.fr.bf] → cls o.fr.af < 3 →
        form (.cspmac h o) (bytes 0x14 o.d.toNat o.fr o.a.toNat o.b.toNat o.c.toNat))) ∧
    (let rec' := fun (r : Byte) => OpRec.ofNat (quad r)
     let legal := fun (c : Option OpRec) => vLegal v.fr (partOf s wp.part).kib (rec' v.a) (rec' v.b) c = none
     (legal (some (rec' v.c)) → vform (.tmacv h v) (bytes 0x12 v.acc.toNat v.fr (quad v.a) (quad v.b) (quad v.c))) ∧
     (legal none → vform (.mmacv h v) (bytes 0x13 v.acc.toNat v.fr (quad v.a) (quad v.b) 0)))

/-- R236, R239, R240, R242, R243: where its record passes the checks, each copy command, CHLINK and CHMARK appends it to the chain of its
engine and gives its last number in D; CHLINK takes as many numbers as its segment has records. What a record waits for, as for a cube
record, is log entry 46. In a twin pair one that writes global memory is a checkpoint (R360), and so is one whose warp holds stores that
none has matched (log entry 45). -/
def Obligations.CopyCommands : Prop :=
  ∀ (s : State) (w : Nat) (bn : Bundle) (len : Nat) (h : Hdr) (o : CpyOp) (k : ChlinkOp) (m : ChmarkOp) (p : Place) (ty : Nat)
    (x : Instr), Issuing s w bn len → Clean s → MemOk s →
    let wp := warpOf s w
    let b := blockOf s wp.blk
    let i := issueOf s w bn len (hdrGuard h)
    let low := threadOf wp (lowest i.act)
    let reg := fun (r : Byte) => (rdD wp.lead low r).toNat
    let me := if wp.lead then 0xFF else wp.idx
    let swe := fun (lit : Option Word) => match lit with | some l => l.getLsbD 0 | none => false
    let swoff := fun (lit : Option Word) => match lit with | some l => if l.getLsbD 0 then l.toNat / 16 * 16 else 0 | none => 0
    let flags := fun (ds ss swe : Bool) => (BitVec.ofNat 8 (ds.toNat + 2 * ss.toNat + 4 * swe.toNat) : Byte)
    let appends := fun (x : Instr) (e : Engine) (d : Byte) (r : CopyRec) (n : Nat) =>
      let seq := (chainOf (ctxOf s b.vf b.ctx) (logicalCore s b.vf wp.core) e).seq
      SlotAt s i e p → ∃ t, exec x s = .next t ∧ Appends s t i h.yh e p r.bytes n ∧
        ThreadsAre s t w (laneAfter wp.lead bn len (hdrGuard h) fun _ _ => ([.v d true (BitVec.ofNat 64 (seq + n))], 0))
    let ok := fun (r : CopyRec) => r.check (sliceOf s b.vf) (partOf s wp.part).kib b.nParts = none
    let free := fun (global : Prop) => b.twin = none ∨ (¬global ∧ unmatched s w = [] ∧ wp.noPassed bn.id)
    let stops := fun (x : Instr) (e : Engine) (global : Prop) => b.twin.isSome = true → wp.ckpt = none →
      global ∨ (unmatched s w ≠ [] ∧ SlotAt s i e p) → ∃ t, exec x s = .next t ∧ ChecksIn s t i
    i.act ≠ 0 →
    ((x, ty) ∈ [(Instr.cpy h o, 1), (.cpy2 h o, 2), (.cpyg h o, 3), (.cpys h o, 4), (.cpyb h o, 5), (.cpyf h o, 6), (.cpyfl h o, 7), (.cpyq h o, 8)] →
      let arg : Byte := match ty with | 5 => o.ext.zeroExtend 8 &&& 15 | 6 => o.ext.zeroExtend 8 | 8 => o.ext.zeroExtend 8 &&& 3 | _ => 0
      let r : CopyRec := ⟨ty, flags o.ds o.ss (swe o.lit), arg, me, swoff o.lit, reg o.a, if ty = 7 then 0 else reg o.b, reg o.c,
        if ty = 2 ∨ ty = 3 ∨ ty = 4 then reg (if wp.lead then o.c + 1 else o.c + 2) else 0, 0⟩
      let global := ty ≠ 5 ∧ ty ≠ 7 ∧ (ty = 6 ∨ o.ds = false)
      let e := if ty = 6 then Engine.fab else if o.eng1 then .cpy1 else .cpy0
      ok r → (free global → appends x e o.d r 1) ∧ stops x e global) ∧
    (let n := (rdV wp.lead low k.b).toNat % 2 ^ 32
     reg k.a % 64 = 0 → reg k.a < 2 ^ 52 → 1 ≤ n → n ≤ 256 →
     (free False → appends (.chlink h k) k.eng k.d ⟨9, 0, 0, me, 0, reg k.a, 0, n, 0, 0⟩ n) ∧ stops (.chlink h k) k.eng False) ∧
    (let r : CopyRec := ⟨0x0A, flags m.ds false (swe m.lit), m.peer.zeroExtend 8, me, swoff m.lit, reg m.a, 0, 0, 0, 0⟩
     let global := m.ds = false ∨ m.peer ≠ 0
     ok r → (free global → appends (.chmark h m) m.eng m.d r 1) ∧ stops (.chmark h m) m.eng global)

/-! ### XISSUE -/

/-- R186 to R188, R191: EVERY XISSUE COMPLETES ITS ISSUE with a next state, whatever its operands, words and threads: threads outside its
bundle are as they were, and with no active thread it goes on to the next instruction. Where nothing of its warp is pending and the
first group computes, that group, the lowest active thread with a legal word and every other with the same word, issues in the same
ck: each of its threads is as the S-form leaves it; threads whose word is illegal have ILLW set and leave; PC moves on where this
ends the XISSUE, in the ck of its last group (log entry 51), else the bundle keeps the threads and steps that are left. -/
def Obligations.Xissue : Prop :=
  ∀ (s : State) (w : Nat) (bn : Bundle) (h : Hdr) (r : Byte) (n : BitVec 3), Issuing s w bn 8 →
    let wp := warpOf s w
    let i := issueOf s w bn 8 (hdrGuard h)
    let pk := (launchOf s (blockOf s wp.blk).launch).pkt
    let word := fun (l : Nat) => vreg (threadOf wp l) r.toNat
    let form := fun (l : Nat) => wordInstr ⟨pk.vregs, pk.lregs, pk.tiles, pk.accs⟩ (word l)
    let legal := (lanesOf i.act).filter fun l => (form l).isSome
    let group := fun (l0 : Nat) => legal.filter fun l => word l == word l0
    (∃ t, exec (.xissue h r n) s = .next t ∧
      (∀ w' l, w' ≠ w ∨ bn.lanes.getLsbD l = false → threadOf (warpOf t w') l = threadOf (warpOf s w') l) ∧
      (i.act = 0 → ThreadsAre s t w (onward bn 8) ∧ OnlyIssue s t i h.yh)) ∧
    (∀ (l0 : Nat) (ins : Instr) (g : Bool) (d a b : Byte) (u : State),
      wp.lead = false → wp.pend = [] → wp.halt ≠ .trapped → (coreOf s wp.core).sfuHeld.getD wp.sched 0 ≤ s.clk → s.chipPoison = [] → (∀ l, bn.lanes.getLsbD l = true → l < wp.threads.length) →
      legal.head? = some l0 → form l0 = some ins →
      ins ∈ [Instr.iaddS g d a b, .isubS g d a b, .imulS g d a b, .iminS g d a b, .imaxS g d a b, .andS g d a b, .orS g d a b, .xorS g d a b,
        .shlS g d a b, .shrS g d a b, .sarS g d a b, .rotlS g d a b, .movS g d a, .notS g d a, .inegS g d a, .popcS g d a, .clzS g d a, .brevS g d a,
        .isetltS g d a b, .iseteqS g d a b, .nminS g d a b, .nmaxS g d a b, .faddS g d a b, .fsubS g d a b, .fmulS g d a b, .fminS g d a b,
        .fmaxS g d a b, .fsetltS g d a b, .fnegS g d a, .fabsS g d a, .hadd2S g d a b, .hmul2S g d a b, .cvtfS g d a, .cvtiS g d a,
        .ex2S g d a, .lg2S g d a, .rcpS g d a, .rsqS g d a, .nopS g] →
      -- the S-form on the threads of the group alone
      exec ins { setBundle s w bn.id (fun x => { x with lanes := maskOf (group l0) }) with cur := some ⟨w, bn.id, 8⟩ } = .next u →
      let left := legal.filter fun l => word l != word l0
      -- the last group has issued, and no removed thread is still to be reported after it completes
      let ends := n = 0 ∧ left = [] ∧ (legal = lanesOf i.act ∨ ∀ l ∈ group l0, sGuard g (threadOf wp l) = false)
      ∃ t, exec (.xissue h r n) s = .next t ∧
        (ThreadsAre s t w fun l v =>
          let v := if l ∈ group l0 then { threadOf (warpOf u w) l with pc := v.pc }
            else if l ∈ lanesOf i.act ∧ l ∉ legal then { v with astat := v.astat ||| 0x40 } else v
          if ends ∧ bn.lanes.getLsbD l = true then { v with pc := v.pc + 8 } else v) ∧
        (¬ends → ∃ b x, bundleOf (warpOf t w) bn.id = some b ∧ b.lanes = bn.lanes ∧ b.xi = some x ∧ lanesOf x.left = left ∧
          lanesOf x.remaining = legal ∧ x.n = n.toNat + 1 ∧ x.step = (if left = [] ∧ n ≠ 0 then 1 else 0) ∧
          x.started = !(decide (left = [] ∧ n ≠ 0)) ∧ x.bad.length = (lanesOf i.act).length - legal.length))

/-! ### Traps of accesses and of synchronisation -/

/-- R72, R87, R90, R92, R196, R326 to R332: an access whose address fails a check traps with ADDRESS (3), WINDOW (4) or PART
(5), for the lowest lane that fails, with that lane's address; no byte is stored and no register written. A skewed offset is looked at
in the allocation first, then in its window; LDSR and STSR look at the part first. What a lead's LDC takes for its offset is log entry
29. -/
def Obligations.AddressTraps : Prop :=
  ∀ (s : State) (w : Nat) (bn : Bundle) (len : Nat) (h : Hdr) (o : MemOp) (k : AtomOp) (l : Nat), Issuing s w bn len → Placed s w →
    let wp := warpOf s w
    let own := partOf s wp.part
    let i := issueOf s w bn len (hdrGuard h)
    let traps := fun (x : Instr) (cause sub addr : Nat) => ∃ t, exec x s = .next t ∧ Traps s t w bn cause sub addr l
    -- the lowest active lane for which something holds
    let lowest' := fun (bad : Nat → Prop) => l ∈ lanesOf i.act ∧ bad l ∧ ∀ j ∈ lanesOf i.act, j < l → ¬bad j
    let n := o.sz.bytes
    let m := if k.ak.wide then 8 else 4
    let ga := fun (j : Nat) => (addrGlobal wp.lead (threadOf wp j) o.a o.b o.lit).toNat
    let gk := fun (j : Nat) => (addrGlobal wp.lead (threadOf wp j) k.a k.b k.lit).toNat
    let sa := fun (lead : Bool) (j : Nat) => (addrLocal lead (threadOf wp j) o.a o.b o.lit).toNat
    let sk := fun (j : Nat) => (addrLocal wp.lead (threadOf wp j) k.a k.b k.lit).toNat
    let co := fun (j : Nat) => constOff s i o (threadOf wp j)
    let size := if o.part.getLsbD 0 then (launchOf s (blockOf s wp.blk).launch).constSize else 2 ^ 16
    (lowest' (fun j => ga j % n ≠ 0 ∨ 2 ^ 52 ≤ ga j) → traps (.ld h o) 3 1 (ga l) ∧ traps (.st h o) 3 1 (ga l)) ∧
    (lowest' (fun j => gk j % m ≠ 0 ∨ 2 ^ 52 ≤ gk j) →
      traps (.atom h k) 3 1 (gk l) ∧ traps (.acas h k) 3 1 (gk l) ∧ traps (.redm h k) 3 1 (gk l)) ∧
    (o.c.getLsbD 2 = false → lowest' (fun j => sa wp.lead j % n ≠ 0 ∨ own.kib * 1024 < sa wp.lead j + n) →
      traps (.lds h o) 3 1 (sa wp.lead l) ∧ traps (.sts h o) 3 1 (sa wp.lead l)) ∧
    (let win := own.swin.getD (o.c.toNat % 4) 0
     let bad := fun (j : Nat) => sa wp.lead j % n ≠ 0 ∨ own.kib * 1024 < 512 * (win.extractLsb' 0 11).toNat + sa wp.lead j + n
     o.c.getLsbD 2 = true →
     (lowest' bad → traps (.lds h o) 3 1 (sa wp.lead l) ∧ traps (.sts h o) 3 1 (sa wp.lead l)) ∧
     ((∀ j ∈ lanesOf i.act, ¬bad j) → lowest' (fun j => 512 * (win.extractLsb' 16 11).toNat ≤ sa wp.lead j) →
      traps (.lds h o) 4 2 (sa wp.lead l) ∧ traps (.sts h o) 4 2 (sa wp.lead l))) ∧
    (lowest' (fun j => sk j % m ≠ 0 ∨ own.kib * 1024 < sk j + m) → traps (.atoms h k) 3 1 (sk l) ∧ traps (.acass h k) 3 1 (sk l)) ∧
    ((blockOf s wp.blk).nParts ≤ o.part.toNat → lowest' (fun _ => True) →
      traps (.ldsr h o) 5 3 (sa false l) ∧ traps (.stsr h o) 5 3 (sa false l)) ∧
    (let far := partOf s ((blockOf s wp.blk).firstPart + o.part.toNat)
     let win := far.swin.getD (o.c.toNat % 4) 0
     let base := if o.c.getLsbD 2 then 512 * (win.extractLsb' 0 11).toNat else 0
     let bad := fun (j : Nat) => sa false j % n ≠ 0 ∨ far.kib * 1024 < base + sa false j + n
     o.part.toNat < (blockOf s wp.blk).nParts →
     (lowest' bad → traps (.ldsr h o) 3 1 (sa false l) ∧ traps (.stsr h o) 3 1 (sa false l)) ∧
     (o.c.getLsbD 2 = true → (∀ j ∈ lanesOf i.act, ¬bad j) → lowest' (fun j => 512 * (win.extractLsb' 16 11).toNat ≤ sa false j) →
      traps (.ldsr h o) 4 2 (sa false l) ∧ traps (.stsr h o) 4 2 (sa false l))) ∧
    (lowest' (fun j => co j % n ≠ 0) → traps (.ldc h o) 3 1 (co l)) ∧
    ((∀ j ∈ lanesOf i.act, co j % n = 0) → lowest' (fun j => size < co j + n) → traps (.ldc h o) 3 4 (co l))

/-- R76, R77, R79, R341 to R344, R348, R355, R377, R401: an access whose translation fails traps with PERM (0x13), MALFORMED (0x14),
SLICEMAP (0x15) or PEER (0x16), its INFO holding the lane, the level and a store's bit; one that meets V = 0 parks at its
instruction, with a PAGE record, and holds its state. So does an instruction fetch, with SUB 0, whose line's translation fails, and an
engine's access ends or parks its operation. Poison in the entries of a walk, or in the bytes that LD reads at their homes or LDS in its
bank, raises the record POISON (0x18), the slice's last, and puts the slice into ERROR with CAUSE 2 or 1. -/
def Obligations.TranslationFaults : Prop :=
  ∀ (s s1 : State) (w : Nat) (bn : Bundle) (len : Nat) (h : Hdr) (o : MemOp) (k : AtomOp) (e : XErr) (l va level : Nat),
    Issuing s w bn len → Placed s w →
    let wp := warpOf s w
    let b := blockOf s wp.blk
    let i := issueOf s w bn len (hdrGuard h)
    let causes := [(XErr.perm level, 0x13), (.malformed level, 0x14), (.slicemap level, 0x15), (.peer level, 0x16)]
    let inOk := (sliceOf s1 b.vf).ifst ≠ .error ∧ (sliceOf s1 b.vf).resetting = none ∧ b.vf < s.slices.length
    -- what a failed translation does to a bundle, `sub` being 5 for an access and 0 for fetch
    let fails := fun (out : Out) (sub info : Nat) (fetch : Bool) =>
      (∀ cause, (e, cause) ∈ causes → ∃ t, out = .next t ∧ Traps s1 t w bn cause sub va (info + level * 2 ^ 16)) ∧
      (e = .poison level → inOk → ∃ t, out = .next t ∧ Poisoned s1 t w bn va (info + level * 2 ^ 16) 2) ∧
      (e = .page level →
        let again := match bn.hold with | some (.page _ _ f) => if f = fetch then 1 else 0 | _ => 0
        ∃ t, out = .next t ∧ SameRegs s t ∧ t.mem = s1.mem ∧ t.parts = s1.parts ∧
        (∃ y, bundleOf (warpOf t w) bn.id = some y ∧ y.lanes = bn.lanes ∧ y.hold = some (.page (2 ^ 32) false fetch)) ∧
        (b.twin = none → (sliceOf s1 b.vf).ifst ≠ .error →
          t.formed = s1.formed ++ [⟨b.vf, b.ctx, warpKey 0 s1 wp, [recordBytes
            ⟨2, 0x12, (if wp.lead then 2 else 0) + again, if wp.lead then 0xFF else wp.idx, (partOf s wp.part).log, sub, (skidOf s wp).1, (skidOf s wp).2, (pcOf wp bn).toNat,
              bn.lanes, liveLanes wp &&& ~~~bn.lanes, va, info + level * 2 ^ 16⟩ b.bx b.by' b.bz (timeNs s)], .bundle w bn.id⟩]))
    let m := if k.ak.wide then 8 else 4
    let ga := fun (j : Nat) => (addrGlobal wp.lead (threadOf wp j) o.a o.b o.lit).toNat
    let gk := fun (j : Nat) => (addrGlobal wp.lead (threadOf wp j) k.a k.b k.lit).toNat
    (i.act ≠ 0 → (∀ j ∈ lanesOf i.act, ga j % o.sz.bytes = 0 ∧ ga j < 2 ^ 52) →
      (translateAll wp.core b.vf b.ctx .load ((lanesOf i.act).map fun j => (j, ga j)) s = (s1, .err e, l, va) → fails (exec (.ld h o) s) 5 l false) ∧
      (translateAll wp.core b.vf b.ctx .store ((lanesOf i.act).map fun j => (j, ga j)) s = (s1, .err e, l, va) →
        fails (exec (.st h o) s) 5 (l + 2 ^ 18) false)) ∧
    (i.act ≠ 0 → (∀ j ∈ lanesOf i.act, gk j % m = 0 ∧ gk j < 2 ^ 52) →
      translateAll wp.core b.vf b.ctx .store ((lanesOf i.act).map fun j => (j, gk j)) s = (s1, .err e, l, va) →
      ∀ x ∈ [Instr.atom h k, .acas h k, .redm h k], fails (exec x s) 5 (l + 2 ^ 18) false) ∧
    (let base := if o.part.getLsbD 0 then (launchOf s b.launch).constAt else (launchOf s b.launch).pkt.param
     let size := if o.part.getLsbD 0 then (launchOf s b.launch).constSize else 2 ^ 16
     let off := fun (j : Nat) => constOff s i o (threadOf wp j)
     i.act ≠ 0 → (∀ j ∈ lanesOf i.act, off j % o.sz.bytes = 0 ∧ off j + o.sz.bytes ≤ size) →
     constAll i o.sz.bytes ((lanesOf i.act).map fun j => (j, base + off j)) s = (s1, .err e, l, va) → fails (exec (.ldc h o) s) 5 l false) ∧
    -- a line asked for by instruction fetch
    ((coreOf s wp.core).fills.any (·.1 == constKey b va) = false →
      translate s wp.core b.vf b.ctx (va / 128 * 128) .fetch = (s1, .err e) → fails (.next (requestLine s w bn va)) 0 (lowest bn.lanes) true) ∧
    -- an engine's access
    (∀ (op : EngOp) (write : Bool),
      let info := level * 2 ^ 16 + if write then 2 ^ 18 else 0
      (∀ cause, (e, cause) ∈ causes → (sliceOf s (blockOf s op.blk).vf).ifst ≠ .error →
        let t := engErr s op va write e
        (∀ x ∈ t.ops, x.id = op.id → x.dead = true ∧ x.parked = none) ∧ SameRegs s t ∧ t.mem = s.mem ∧ t.parts = s.parts ∧
        (∃ r rest, t.formed = s.formed ++ r :: rest ∧ r.vf = (blockOf s op.blk).vf ∧ r.ctx = (blockOf s op.blk).ctx ∧
          r.unit.map (fun bs => (bs.getD 0 0, bs.getD 1 0, fieldOf bs 0x28 8, fieldOf bs 0x38 8)) =
            [(6, BitVec.ofNat 8 cause, op.addr % 2 ^ 64, info % 2 ^ 64)]) ∧
        ((blockOf s op.blk).status = .resident → op.blk < s.blocks.length → (blockOf t op.blk).halt.isSome = true)) ∧
      (e = .page level → let t := engErr s op va write e
        (∀ x ∈ t.ops, x.id = op.id → x.parked = some (2 ^ 32, false)) ∧ SameRegs s t ∧ t.mem = s.mem ∧ t.parts = s.parts)) ∧
    -- poison that LD reads at home, or LDS in its bank
    (let n := o.sz.bytes
     let lowestBad := fun (bad : Nat → Prop) => l ∈ lanesOf i.act ∧ bad l ∧ ∀ j ∈ lanesOf i.act, j < l → ¬bad j
     (sliceOf s b.vf).ifst ≠ .error → (sliceOf s b.vf).resetting = none → b.vf < s.slices.length → wp.queue = [] →
     (∀ ps y, (∀ j ∈ lanesOf i.act, ga j % n = 0 ∧ ga j < 2 ^ 52) →
       translateAll wp.core b.vf b.ctx .load ((lanesOf i.act).map fun j => (j, ga j)) s = (s1, .ok ps, y) → (∀ p ∈ ps, ∃ pa, p = .dev pa) →
       b.twin = none → s.flights = [] → (coreOf s wp.core).l1 = [] → s.dramErr = [] → (∀ x ∈ blockWarps b, (warpOf s x).held = []) →
       lowestBad (fun j => ∃ pa, (j, Place.dev pa) ∈ (lanesOf i.act).zip ps ∧ ∃ x, x < n ∧ (pa + x) / 32 ∈ s.poison) →
       ∃ t, exec (.ld h o) s = .next t ∧ Poisoned s1 t w bn (ga l) l 1) ∧
     (let off := fun (j : Nat) => (addrLocal wp.lead (threadOf wp j) o.a o.b o.lit).toNat
      o.c.getLsbD 2 = false → (∀ j ∈ lanesOf i.act, off j % n = 0 ∧ off j + n ≤ (partOf s wp.part).kib * 1024) →
      lowestBad (fun j => ∃ x, x < n ∧ .scratch wp.part ((off j + x) / 8 * 8) ∈ s.chipPoison) →
      ∃ t, exec (.lds h o) s = .next t ∧ Poisoned s t w bn (off l) l 1))

/-- R30, R59, R91, R170, R204 to R206, R208, R211, R213, R219, R225, R226, R229, R230, R240, R242, R243, R326 to R333: the traps of barriers,
EVT, the decision queue, window registers, sync words, the cube and its operand records, rows in scratchpad, copy commands, and a loaded
or read log block. ADDR 0 and the highest lane of the record of a window register are log entry 43, the trap of a CHLINK whose address
has one of bits 63 to 52 log entry 47. -/
def Obligations.SynchronisationTraps : Prop :=
  ∀ (s : State) (w : Nat) (bn : Bundle) (len : Nat) (h : Hdr) (g a d : Byte) (lit : Option Word) (k : Nat) (m : TileMemOp) (o : CubeOp)
    (v : CubeVOp) (n : AccMemOp) (c : CpyOp) (mk : ChmarkOp) (da : DaOp) (q : ChlinkOp) (rearm : Bool) (l : Nat), Issuing s w bn len → Placed s w → Clean s →
    let wp := warpOf s w
    let blk := blockOf s wp.blk
    let own := partOf s wp.part
    let i := issueOf s w bn len (hdrGuard h)
    let low := lowest i.act
    let traps := fun (x : Instr) (cause sub addr info : Nat) => ∃ t, exec x s = .next t ∧ Traps s t w bn cause sub addr info
    i.act ≠ 0 →
    (groupOf blk g.toNat = none → traps (.bar h g) 7 0 g.toNat low ∧ traps (.bara h g d) 7 0 g.toNat low ∧
      traps (.barw h g a) 7 0 g.toNat low ∧ traps (.evt h g a lit) 7 0 g.toNat low) ∧
    (∀ gr, groupOf blk g.toNat = some gr → gr.members.getLsbD wp.idx = false →
      traps (.bar h g) 8 0 g.toNat low ∧ traps (.bara h g d) 8 0 g.toNat low ∧ traps (.barw h g a) 8 0 g.toNat low) ∧
    (let tag := (rdV true (threadOf wp 0) d).toNat % 256
     (tag / (blk.nWarps / blk.nParts) ≠ own.log ∨ blk.nWarps ≤ tag) → traps (.dqpost h true a d) 0x0C 0 tag 0) ∧
    ((warpOf s own.lead).retired = true → (∀ e ∈ own.dq, e.tag ≠ none ∧ e.tag ≠ some wp.idx) → traps (.dqtake h d) 0x10 0 0 low) ∧
    (let top := ((rdV wp.lead (threadOf wp (highest i.act)) a).extractLsb' 0 32 : Word)
     k < 4 → (top.extractLsb' 11 5 ≠ 0 ∨ top.extractLsb' 27 5 ≠ 0 ∨
       2 * own.kib < (top.extractLsb' 0 11).toNat + (top.extractLsb' 16 11).toNat) →
     traps (.setsr h (BitVec.ofNat 8 (0x1D + k)) a) 4 0 0 (highest i.act)) ∧
    ((coreOf s wp.core).owner ≠ some w → wp.owned = none →
      traps (.tmac h o) 9 0 0 low ∧ traps (.mmac h o) 9 0 0 low ∧ traps (.cspmac h o) 9 0 0 low ∧ traps (.tmacv h v) 9 0 0 low ∧
      traps (.mmacv h v) 9 0 0 low) ∧
    ((coreOf s wp.core).owner = some w → fmtClass o.fr.af ≠ fmtClass o.fr.bf →
      traps (.tmac h o) 0x0A 1 0 low ∧ traps (.mmac h o) 0x0A 1 0 low ∧ traps (.cspmac h o) 0x0A 1 0 low) ∧
    ((coreOf s wp.core).owner = some w → fmtClass o.fr.af = fmtClass o.fr.bf →
      ¬((o.fr.beta.kind = .identity ↔ o.fr.beta.ln = 0) ∧ (o.fr.kappa.kind = .identity ↔ o.fr.kappa.ln = 0)) →
      (fmtClass o.fr.bf = fmtClass o.fr.cf → traps (.tmac h o) 0x0A 2 0 low) ∧ traps (.mmac h o) 0x0A 2 0 low ∧
      (fmtClass o.fr.af < 3 → traps (.cspmac h o) 0x0A 2 0 low)) ∧
    (let rec' := fun (r : Byte) => OpRec.ofNat (opRecBits (threadOf wp low) r)
     (coreOf s wp.core).owner = some w →
     (∀ sub, vLegal v.fr own.kib (rec' v.a) (rec' v.b) (some (rec' v.c)) = some sub → traps (.tmacv h v) 0x0A sub 0 low) ∧
     (∀ sub, vLegal v.fr own.kib (rec' v.a) (rec' v.b) none = some sub → traps (.mmacv h v) 0x0A sub 0 low)) ∧
    -- the lowest active lane whose offset fails
    (let first := fun (bad : Nat → Prop) => l ∈ lanesOf i.act ∧ bad l ∧ ∀ j ∈ lanesOf i.act, j < l → ¬bad j
     let word := fun (j : Nat) => (rdV wp.lead (threadOf wp j) a).toNat % 2 ^ 32
     let row := fun (unit : Nat) (a b str : Byte) (j : Nat) =>
       (vreg (threadOf wp low) a.toNat + vreg (threadOf wp low) b.toNat).toNat + j * (unit * (str.toNat + 1))
     let out := fun (unit : Nat) (a b str : Byte) (j : Nat) => row unit a b str 0 % unit ≠ 0 ∨ own.kib * 1024 < row unit a b str j + unit
     (first (fun j => word j % 16 ≠ 0 ∨ own.kib * 1024 < word j + 16) →
       traps (.swarm h rearm a d lit) 3 1 (word l) l ∧ traps (.syncw h a d) 3 1 (word l) l) ∧
     (first (out 64 m.a m.b m.rstr) → traps (.tld h m) 3 1 (row 64 m.a m.b m.rstr l) l ∧ traps (.tst h m) 3 1 (row 64 m.a m.b m.rstr l) l) ∧
     (first (out 128 n.a n.b n.rstr) → traps (.ald h n) 3 1 (row 128 n.a n.b n.rstr l) l ∧ traps (.ast h n) 3 1 (row 128 n.a n.b n.rstr l) l)) ∧
    -- a record that a copy command or a marker would append fails its checks
    (let bad := fun (r : CopyRec) (x : Instr) => ∀ cause addr, r.check (sliceOf s blk.vf) own.kib blk.nParts = some (cause, addr) →
       traps x cause 1 addr low
     (∀ x ty, (x, ty) ∈ [(Instr.cpy h c, 1), (.cpy2 h c, 2), (.cpyg h c, 3), (.cpys h c, 4), (.cpyfl h c, 7)] → bad (cpyRec i ty 0 c) x) ∧
     bad (cpyRec i 5 (c.ext.zeroExtend 8 &&& 15) c) (.cpyb h c) ∧ bad (cpyRec i 6 (c.ext.zeroExtend 8) c) (.cpyf h c) ∧
     bad (cpyRec i 8 (c.ext.zeroExtend 8 &&& 3) c) (.cpyq h c) ∧
     bad ⟨0x0A, recFlagByte mk.ds false (litSwe mk.lit), mk.peer.zeroExtend 8, if wp.lead then 0xFF else wp.idx, litSwoff mk.lit,
       (rdD wp.lead (threadOf wp low) mk.a).toNat, 0, 0, 0, 0⟩ (.chmark h mk)) ∧
    (∀ sub, blockBad (BitVec.ofNat 512 (bitsNat 512 fun x => (vreg (threadOf wp (x / 8)) da.a.toNat).getLsbD (x % 8))) = some sub →
      traps (.dqnt h da) 0x0B sub 0 (sub - 1)) ∧
    (let off := fun (l : Nat) => (vreg (threadOf wp low) m.a.toNat + vreg (threadOf wp low) m.b.toNat).toNat + l * (64 * (m.rstr.toNat + 1))
     let row := fun (l : Nat) => BitVec.ofNat 512 (ownNat s i (off l) 64)
     m.log = true → (∀ j ∈ lanesOf i.act, off 0 % 64 = 0 ∧ off j + 64 ≤ own.kib * 1024) → l ∈ lanesOf i.act →
     (∀ j ∈ lanesOf i.act, j < l → blockBad (row j) = none) →
     ∀ sub, blockBad (row l) = some sub → traps (.tld h m) 0x0B sub (off l) l) ∧
    (let x := (rdD wp.lead (threadOf wp low) q.a).toNat
     let n := (rdV wp.lead (threadOf wp low) q.b).toNat % 2 ^ 32
     x % 64 ≠ 0 ∨ 2 ^ 52 ≤ x ∨ n = 0 ∨ 256 < n → traps (.chlink h q) 3 1 x low)

/-! ### Encoding -/

/-- R120 to R140: the decoder reads back every instruction that the encoder writes, with every operand at every value that its
entry admits, in warp and lead code, whatever bytes follow. -/
def Obligations.DecodeEncode : Prop :=
  ∀ (cx : DecCtx) (i : Instr) (rest : List Byte), i.wellFormed cx.lead = true → i.legal cx = true →
    decode cx (encode i ++ rest) = (.ok i, rest)

/-- R120 to R138: bytes that the decoder accepts are the encoding of a well-formed instruction, legal in that code: no two
encodings stand for one instruction, and no reserved encoding is accepted. -/
def Obligations.EncodeDecode : Prop :=
  ∀ (cx : DecCtx) (bs rest : List Byte) (i : Instr), decode cx bs = (.ok i, rest) → formLength (BitVec.ofNat 96 (leBytes (bs.take 12))) ≤ bs.length →
    encode i ++ rest = bs ∧ i.wellFormed cx.lead = true ∧ i.legal cx = true

/-- Tables 6-2, 6-4, 6-9, 6-12 and R157, R175: words that the spec writes out, decoded. -/
def Obligations.DecodeWords : Prop :=
  let warp : DecCtx := ⟨false, false⟩
  let h : Hdr := ⟨7, false, 0, false, false, .normal⟩
  let mul (lit : Option Word) (b : Byte) : FOp := ⟨false, .rn, false, false, 0, 2, 1, b, 0, lit⟩
  let add : IOp := ⟨.i32, false, 0, 3, 1, 2, 0, none⟩
  decode warp [0xCB, 0x1C, 0x80, 0x40, 0, 0, 0, 0, 0, 0, 0, 0x40, 0xCA] = (.ok (.fmul h (mul (some 0x40000000) 0)), [0xCA]) ∧
  decode warp [0xCA, 0x2C, 0x89, 0x40, 0x40, 0x01, 0, 0, 0x01] =
    (.ok (.fmul ⟨3, true, 4, false, true, .normal⟩ (mul none 5)), [0x01]) ∧
  decode warp [0x01, 0x03, 0x01, 0x02, 0x06] = (.ok (.iaddS true 3 1 2), [0x06]) ∧
  decode warp [0x06, 0x1C, 0xC0, 0x40, 0x80, 0, 0, 0] = (.ok (.iadd h add), []) ∧
  decode warp [0x52, 0x1C, 0x00, 0x41, 0x80, 0xC0, 0x00, 0x36] = (.ok (.btab3 h ⟨0xD8, false, 4, 1, 2, 3, none⟩), []) ∧
  decode warp [0x00, 0x1C, 0xC0, 0x40, 0x80, 0, 0, 0] = (.ok (.iaddS false 0x1C 0xC0 0x40), [0x80, 0, 0, 0])

/-! ### Every step -/

/-- R121, R122, R136, R138, R400: when a chosen bundle or lead may issue, no core's selection is still to be made, its instruction's lines are
in L0, and the bytes at their homes (log entry 13) decode to an instruction in range that nothing holds back and that reads no poisoned register, the step is that instruction's
execution, the bundle's PC standing at it and its length noted. The form of the step is log entry 1. -/
def Obligations.StepRunsInstruction : Prop :=
  ∀ (s : State) (c : Cur) (r : List Cur) (b : Bundle) (bs : List Byte) (ins : Instr),
    s.inputs = [] → s.issuing = c :: r → (∀ k rest, s.agenda ≠ .schedulerSelection k :: rest) → bundleOf (warpOf s c.warp) c.bundle = some b →
    let s0 := { s with issuing := r }
    let wp := warpOf s c.warp
    let blk := blockOf s wp.blk
    let k := (launchOf s blk.launch).pkt
    let at' := fun (n : Nat) => ((pcOf wp b).toNat + n) % 2 ^ 52
    bs.length = formLength (BitVec.ofNat 96 (leBytes (bs.take 4))) →
    (∀ n, n < bs.length → ∃ p, l0Place s wp.core (constKey blk (at' n)) = some p ∧ bs.getD n 0 = homeByte s 0 (p.plus (at' n % 128))) →
    mayIssue s0 c.warp b = true → (∀ x, b.hold = some x → holdReason x = none) →
    poisonedLane s c.warp wp (activeLanes wp b.lanes (guardOf ins)) ins = none →
    let code : DecCtx := ⟨wp.lead, s.stepping == 0x11 && (launchOf s blk.launch).expmask.getLsbD 0⟩
    decode code bs = (.ok ins, []) → ins.rangeOk wp.lead ⟨k.vregs, k.lregs, k.tiles, k.accs⟩ = true → issueStall s0 c.warp b ins bs.length = none →
    (passesBreak b = true ∨ breakpointAt s blk (pcOf wp b) = false) →
    step s = exec ins { s0 with cur := some ⟨c.warp, c.bundle, bs.length⟩ }

/-- R138, R326, R327: where the bytes at the PC fail an encoding check, the step takes the trap ILLEGAL (0x01): SUB is the number of
the first check that fails, ADDR holds the first eight bytes, INFO the lowest thread; PC stays at the instruction. That it traps where a
breakpoint is armed at the PC too is log entry 80, and the form of the step log entry 1. -/
def Obligations.IllegalInstruction : Prop :=
  ∀ (s : State) (c : Cur) (r : List Cur) (b : Bundle) (bs : List Byte),
    s.inputs = [] → s.issuing = c :: r → (∀ k rest, s.agenda ≠ .schedulerSelection k :: rest) →
    bundleOf (warpOf s c.warp) c.bundle = some b → Placed s c.warp →
    let s0 := { s with issuing := r }
    let wp := warpOf s c.warp
    let k := (launchOf s (blockOf s wp.blk).launch).pkt
    mayIssue s0 c.warp b = true → (∀ x, b.hold = some x → holdReason x = none) → fetched s0 wp (pcOf wp b) = .bytes bs →
    windowStall s0 wp b.lanes = false →
    let code : DecCtx := ⟨wp.lead, s.stepping == 0x11 && (launchOf s (blockOf s wp.blk).launch).expmask.getLsbD 0⟩
    let traps := fun (sub : Nat) => ∃ t, step s = .next t ∧ Traps s0 t c.warp b 1 sub (leBytes (bs.take 8)) (lowest b.lanes)
    (∀ why rest, decode code bs = (.bad why, rest) →
      traps (match why with | .opcode => 1 | .form => 2 | .field => 3 | .operand => 4)) ∧
    (∀ ins rest, decode code bs = (.ok ins, rest) → ins.rangeOk wp.lead ⟨k.vregs, k.lregs, k.tiles, k.accs⟩ = false → traps 5)

/-- R126: an instruction whose guard is true in no thread of the bundle completes for every opcode and every operand: the threads go on
at the next instruction, no register, predicate, flag or byte changes, and nothing traps. -/
def Obligations.GuardFalse : Prop :=
  ∀ (s : State) (w : Nat) (bn : Bundle) (len : Nat) (i : Instr), Issuing s w bn len → i.toRaw.isSome ∨ i.toSRaw.isSome →
    (∀ l, l < 64 → bn.lanes.getLsbD l = true → guardOf i (threadOf (warpOf s w) l) = false) →
    let yh := (i.hdr?.map (·.yh)).getD false
    ∃ t, exec i s = .next t ∧ ThreadsAre s t w (onward bn len) ∧ OnlyIssue s t (issueOf s w bn len (guardOf i)) yh

/-- Every instruction, step and request has its effect: the model refuses none, and its one fault says that an instruction was asked for
while nothing stood at an issue, which no step does: where only steps of the machine are on its agenda, every step answers a
next state. -/
def Obligations.NothingIsRefused : Prop :=
  (∀ (i : Instr) (s : State) (r : Refusal), exec i s ≠ .refused r) ∧
  (∀ (i : Instr) (s : State) (f : Fault), exec i s = .fault f → (i.toRaw.isSome ∨ i.toSRaw.isSome) ∧ ¬∃ w bn len, Issuing s w bn len) ∧
  (∀ s : State, (∀ i ∈ s.agenda, i.toRaw = none ∧ i.toSRaw = none) → ∃ t, step s = .next t)

/-- The invariant of memory: every step keeps device and host memory in their canonical form, so that equal memories are equal
data. -/
def Obligations.StepKeepsMemOk : Prop := ∀ s t : State, MemOk s → step s = .next t → MemOk t

/-- The invariant holds at reset. -/
def Obligations.ResetMemOk : Prop := MemOk State.reset

/-- R14, R270, R383, Tables 1-6, 11-4, 11-5, 17-6, 18-1, 19-2, 20-2, 20-4: the values that the spec gives for a cold start; CORELOST = 0 is
the model's, for which Table 18-7 gives 'as recorded' (log entry 2). -/
def Obligations.ResetValues : Prop :=
  let s := State.reset
  s.stage = 0 ∧ s.scrubint = false ∧ s.corelost = 0 ∧ s.channels.length = 384 ∧ s.cores.length = 64 ∧
  (∀ c ∈ s.channels, c.pend = true ∧ c.ce = 0 ∧ c.ue = 0 ∧ c.uevalid = false) ∧
  (∀ c ∈ s.cores, c.inService = true ∧ c.throttle = 0) ∧ s.warps = [] ∧ s.blocks = [] ∧
  (∀ vf, vf ≤ 16 → let sl := sliceOf s vf
    sl.used = false ∧ sl.ifst = .unlocked ∧ sl.slpolicy = 0x0201FFFF ∧ sl.runlen = 16 ∧ sl.slerr = 0 ∧ sl.lockCount = 0 ∧
    ∀ c, c < 64 → let cx := ctxOf s vf c
      cx.exists' = false ∧ cx.head = 0 ∧ cx.tail = 0 ∧ cx.fqCount = 0 ∧ cx.fqRead = 0 ∧ cx.monctl = 0x400001 ∧ cx.replctl = 0x400 ∧
      cx.dbgbp = [0, 0, 0, 0] ∧ cx.skips = 0)

/-! ### Registers and scratchpad -/

/-- R46, R130, R131, R152: what a write of a result leaves in the registers: v255 and p7 discard it and read as 0 and 1; a
32-bit result is one vector register, a 64-bit one a pair, low half first, and one register of a lead; every other
register is as it was. -/
def Obligations.RegisterFile : Prop :=
  ∀ (t : Thread) (n m : Byte) (x : Dword) (q : Nat) (b : Bool),
    vreg t 255 = 0 ∧ rdP t 7 = true ∧
    (∀ wide, (RegW.v 255 wide x).apply false t = t) ∧ (RegW.p 7 b).apply false t = t ∧
    (n ≠ 255 → n.toNat < t.v.length →
      let u := (RegW.v n false x).apply false t
      rdV false u n = BitVec.ofNat 64 (x.toNat % 2 ^ 32) ∧ (m ≠ n → rdV false u m = rdV false t m) ∧ u = { t with v := u.v }) ∧
    (n.toNat + 1 < t.v.length → n.toNat + 1 < 255 →
      let u := (RegW.v n true x).apply false t
      rdD false u n = x ∧ (m ≠ n → m ≠ n + 1 → rdV false u m = rdV false t m) ∧ u = { t with v := u.v }) ∧
    (n.toNat < t.s.length → ∀ wide,
      let u := (RegW.v n wide x).apply true t
      rdV true u n = x ∧ rdD true u n = x ∧ (m ≠ n → rdV true u m = rdV true t m) ∧ u = { t with s := u.s }) ∧
    (q < 7 → ∀ lead,
      let u := (RegW.p q b).apply lead t
      rdP u q = b ∧ (∀ k, k ≠ q → rdP u k = rdP t k) ∧ u = { t with p := u.p })

/-- R88, R90: whatever the bank key and the windows, no two offsets of a part share a place, and a word stays in its line. -/
def Obligations.ScratchpadPlaces : Prop :=
  ∀ (key : BitVec 84) (swin : List Word) (a b : Nat),
    (scratchPlace key swin a = scratchPlace key swin b → a = b) ∧ scratchPlace key swin a / 512 = a / 512 ∧
    scratchPlace key swin a % 8 = a % 8

/-- R89, R90: 64 lanes that read one column of 64 lines through a window take one pass, as do 64 lanes that read one line. -/
def Obligations.ColumnsWithoutConflict : Prop :=
  ∀ (key : BitVec 84) (swin : List Word) (x c : Nat), c < 64 →
    ((∃ w ∈ swin, (swinOf w).1 = x ∧ (swinOf w).2 = 64) → (∀ w ∈ swin, (swinOf w).1 = x ∨ (swinOf w).2 = 0) →
      scratchPasses key swin ((List.range 64).map fun l => 512 * (x + l) + 8 * c) = 1) ∧
    scratchPasses key swin ((List.range 64).map fun l => 512 * x + 8 * l) = 1

/-! ### Stores, loads and requests on their way -/

/-- R79, R101 to R103, R106, R108, R199, R378, R386: a store leaves the head of its queue and is at its home at once in the core's own
scratchpad, or on its way there for the time of Table 8-11; it is performed when that time is over, as are an atomic, a write of a
peer or of the host, a run of the fabric in its turn; a release stays until its warp's cube operations and loads are done and no store
of its core is on its way; a store of a twin pair goes to the holding area instead (R360). A store, an atomic or an arm that reaches a
scratchpad lets the waits on its sync words be looked at (R206), so that only bundles beside such a wait may have moved on. The order of
stores to memory outside the device is log entry 84, a peer's refusal log entry 82, every byte at one instant log entry 85, an unloaded time log entry 4,
the deposit of a HOST_COMPLETION of no request log entry 3, the address of a FABRIC_RUN_RECEIVE log entry 26, the completion of a request
(message 7) log entry 7. -/
def Obligations.StoresReachTheirHomes : Prop :=
  ∀ s : State, Clean s → StoresOk s →
    (∀ w e rest, w < s.warps.length → (warpOf s w).queue = e :: rest → e.sent = false → e.bad = [] → (warpOf s w).lead = false →
      (warpOf s w).held = [] → redmOpen s w = false →
      let wp := warpOf s w
      let b := blockOf s wp.blk
      let key := (ctxOf s b.vf b.ctx).bankKey
      let single := b.twin = none
      let free := single ∧ releaseHolds s w e s.nextId = true ∧ e.at' + e.passes < s.clk ∧ behindLoad s w e = false
      (e.kind = .store → free → (∀ a ∈ e.accs, ∃ q o, a.home = .scratch q o ∧ q < s.parts.length ∧ (partOf s q).core = wp.core) →
        Becomes (.storeCoreVisible w) s fun t => (warpOf t w).queue = rest ∧ SameButSync s t ∧ t.mem = s.mem ∧
          ∀ p, homeByte t key p = stored e.accs (homeByte s key) p) ∧
      (∀ a, e.kind = .store → free → e.accs = [a] → isLocal s wp.core a = false →
        Becomes (.storeCoreVisible w) s fun t => (warpOf t w).queue = rest ∧ Quiet s t ∧
          ∃ due, (∀ k, homeTime s wp.core a.home = some k → due = s.clk + k) ∧
            (homeTime s wp.core a.home = none → s.clk < due ∧
              ∀ f ∈ s.flights, f.core = wp.core → f.op = none → f.entry.accs.any isOutside = true → f.due ≤ due) ∧
            t.flights = s.flights ++ [{ id := s.nextId, core := wp.core, warp := w, vf := b.vf, ctx := b.ctx, op := none, entry := e,
                                        due, order := s.nextId, host := false, arrive := none }]) ∧
      (∀ a, e.kind = .store → b.twin.isSome = true → (warpOf s w).matched ≤ e.id → e.at' + e.passes < s.clk → behindLoad s w e = false →
        e.accs = [a] → isGlobal a = true →
        Becomes (.storeCoreVisible w) s fun t => (warpOf t w).queue = rest ∧ Quiet s t ∧ t.flights = s.flights ∧
          (warpOf t w).held = [⟨e, s.nextId⟩]) ∧
      (e.rel = true → single → releaseHolds s w e s.nextId = false → Becomes (.storeCoreVisible w) s fun t => t = s) ∧
      (e.kind = .store → s.clk ≤ e.at' + e.passes → Becomes (.storeCoreVisible w) s fun t => t = s) ∧
      (e.kind = .fence → e.rel = true → e.acq = false → single → cubeDone s w e.cube = true → noneAhead s wp.core e.scope s.nextId = true →
        (∀ l ∈ s.loads, l.warp = w → l.due = none → e.id < l.id) →
        Becomes (.storeCoreVisible w) s fun t => Quiet s t ∧ (warpOf t w).queue = rest)) ∧
    (∀ w x a, w < s.warps.length → (warpOf s w).queue = [] → (warpOf s w).held = [x] → x.entry.id < (warpOf s w).matched →
      releaseHolds s w x.entry x.order = true → redmOpen s w = false → x.entry.kind = .store → x.entry.accs = [a] → isGlobal a = true →
      Becomes (.storeCoreVisible w) s fun t => Quiet s t ∧ (warpOf t w).held = [] ∧
        ∃ f, t.flights = s.flights ++ [f] ∧ f.op = none ∧ f.core = (warpOf s w).core ∧ f.warp = w ∧ f.entry = x.entry ∧ f.order = x.order) ∧
    (∀ f ∈ s.flights, f.host = false → f.arrive = none → f.entry.bad = [] → (∀ g ∈ s.flights, g.id = f.id → g = f) →
      placesExist s f.entry.accs → onFabric s f.vf f.id = false →
      let key := (ctxOf s f.vf f.ctx).bankKey
      (s.clk < f.due → Becomes (.storePerformedAtHome f.id) s fun t => t = s) ∧
      (f.due ≤ s.clk → f.entry.kind = .store → (∀ a ∈ f.entry.accs, isPeer a.home = false) → Becomes (.storePerformedAtHome f.id) s fun t =>
        t.flights = s.flights.filter (fun g => g.id != f.id) ∧ SameButSync s t ∧ ∀ p, homeByte t key p = stored f.entry.accs (homeByte s key) p) ∧
      (f.due ≤ s.clk → f.entry.kind = .store → (warpOf s f.warp).lead = false → Becomes (.storePerformedAtHome f.id) s fun t => SameButSync s t ∧
        ((∀ p, homeByte t key p = stored f.entry.accs (homeByte s key) p) ∨ ∀ p, homeByte t key p = homeByte s key p)) ∧
      (∀ a pa, f.due ≤ s.clk → f.entry.kind = .atomic .add .i32 none → f.entry.accs = [a] → a.size = 4 → a.home = .dev pa → (warpOf s f.warp).lead = false →
        Becomes (.storePerformedAtHome f.id) s fun t => SameRegs s t ∧
          Overlays t.mem s.mem pa (bytesOf 4 ((leBytes (memReadN s.mem pa 4) + a.data.toNat % 2 ^ 32) % 2 ^ 32)))) ∧
    (∀ id bytes, (∀ l ∈ s.loads, l.id ≠ id) → (∀ f ∈ s.flights, f.entry.id ≠ id) →
      Becomes (.hostCompletion id true bytes) s fun t => SameRegs s t ∧ t.mem = s.mem ∧ t.parts = s.parts ∧ Overlays t.hostMem s.hostMem id bytes) ∧
    (∀ pa bytes vf, s.stage = 2 → Serves s vf → (∀ k, k < bytes.length → quadOf (pa + k) ∈ (sliceOf s vf).quads) →
      Becomes (.hostMemoryWrite pa bytes) s fun t => SameRegs s t ∧ t.hostMem = s.hostMem ∧ t.parts = s.parts ∧ Overlays t.mem s.mem pa bytes) ∧
    (∀ vf ia bytes pa, Serves s vf → GranuleAt s vf ia.toNat bytes.length pa →
      (Becomes (.peerRequestReceive vf ia (some bytes) 0) s fun t => SameRegs s t ∧ t.hostMem = s.hostMem ∧
        Overlays t.mem s.mem pa bytes ∧ t.sent = s.sent ++ [⟨7, vf, 1, []⟩]) ∧
      (Becomes (.peerRequestReceive vf ia none bytes.length) s fun t => Quiet s t ∧
        t.sent = s.sent ++ [⟨7, vf, 1, msgWords (memReadN s.mem pa bytes.length)⟩]) ∧
      (∀ peer, peer < (sliceOf s vf).peers.length → (peerOf s vf peer).keys = true → (peerOf s vf peer).rxHeld = [] →
        Becomes (.fabricRunReceive vf peer (peerOf s vf peer).rxNext true ia bytes) s fun t => SameRegs s t ∧ t.hostMem = s.hostMem ∧
          Overlays t.mem s.mem pa bytes ∧ (peerOf t vf peer).rxNext = ((peerOf s vf peer).rxNext + 1) % 2 ^ 32 ∧ (peerOf t vf peer).rxHeld = [])) ∧
    (∀ vf ia wr len peer seq ok bytes, ¬Serves s vf → vf < s.slices.length →
      exec (.peerRequestReceive vf ia wr len) s = .next { s with sent := s.sent ++ [⟨7, vf, 0, []⟩] } ∧
      exec (.fabricRunReceive vf peer seq ok ia bytes) s = .next { s with sent := s.sent ++ [⟨7, vf, 0, []⟩] })

/-- R80, R81, R92, R105, R178, R202, R341, R400: data that have arrived are written in their lanes as their size says, and the
destination is no longer pending; a remote load reads its part's bytes before they return, and then its bundle goes on; the entry of a
walk that ends in no fault joins the TLB, and TLBINV takes out those it names; a sector of L1 lives for 4,096 ck; a line that has
arrived is in L0. A load waits while it is still on the fabric (log entry 25). The instant of a remote read is log entry 31, what TLBINV drops
beside TLB entries log entry 27, which entry of a full set leaves log entry 30; a peer's refusal is log entry 82. -/
def Obligations.LoadsReturn : Prop :=
  ∀ s : State, Clean s →
    (∀ l : LoadOp, (s.loads.filter fun x => x.id == l.id) = [l] → l.warp < s.warps.length → (blockOf s (warpOf s l.warp).blk).twin = none →
      onFabric s l.vf l.id = false →
      let wp := warpOf s l.warp
      let key := (ctxOf s l.vf l.ctx).bankKey
      let given := fun (data : List (Nat × Nat × BitVec 128)) (k : Nat) (u : Thread) =>
        (data.filter (·.1 == k)).foldl (fun u x => (loadRegs l.size (BitVec.ofNat 8 x.2.1) x.2.2).foldl (fun u r => r.apply l.isLead u) u) u
      let home := fun (t : State) => t.loads = s.loads.filter (fun x => x.id != l.id) ∧ t.mem = s.mem ∧ t.hostMem = s.hostMem ∧ t.parts = s.parts ∧
        (∀ w, w ≠ l.warp → warpOf t w = warpOf s w) ∧ (warpOf t l.warp).pend = wp.pend.filter (fun p => p.load != some l.id)
      (∀ d, l.remote = false → l.due = some d → d ≤ s.clk → l.refused = none →
        Becomes (.loadDataReturn l.id) s fun t => home t ∧ ThreadsAre s t l.warp (given l.data)) ∧
      (∀ d, l.remote = false → l.due = some d → s.clk < d → Becomes (.loadDataReturn l.id) s fun t => t = s) ∧
      (∀ d lane a, l.remote = false → l.due = some d → d ≤ s.clk → l.refused = some (lane, a, true) →
        Becomes (.loadDataReturn l.id) s fun t => Quiet s t ∧ (warpOf t l.warp).halt = .trapped) ∧
      (∀ d lane a, l.remote = false → l.due = some d → d ≤ s.clk → l.refused = some (lane, a, false) → (warpOf s l.warp).blk < s.blocks.length →
        (blockOf s wp.blk).vf < s.slices.length → (sliceOf s (blockOf s wp.blk).vf).resetting = none →
        Becomes (.loadDataReturn l.id) s fun t => Quiet s t ∧ (warpOf t l.warp).halt = .trapped ∧ (sliceOf t (blockOf s wp.blk).vf).ifst = .error) ∧
      (∀ q ck, l.remote = true → l.part = some (q, ck) → ck ≤ s.clk → mayReturn s l.warp = true →
        let mine := wp.queue.filter fun e => e.id < l.id
        let byte := fun (p : Place) => if q = wp.part then (queueByte mine p).getD (homeByte s key p) else homeByte s key p
        let read := fun (o : Nat) => gather ((List.range l.size.bytes).map fun k => byte (.scratch q (o + k)))
        Becomes (.remoteLoadReturn l.id) s fun t => t = { s with loads := s.loads.map fun x =>
          if x.id = l.id then { x with part := none, data := l.data.map fun y => (y.1, y.2.1, read y.2.2.toNat) } else x }) ∧
      (∀ d b, l.remote = true → l.part = none → l.due = some d → d ≤ s.clk → mayReturn s l.warp = true →
        (wp.bundles.filter fun b => b.hold == some (.remote l.id)) = [b] → bundleOf wp b.id = some b →
        Becomes (.remoteLoadReturn l.id) s fun t => home t ∧ ThreadsAre s t l.warp fun k u => onward b b.holdLen k (given l.data k u)) ∧
      (∀ bytes lane r a x, l.due = none → l.data = [(lane, r, x)] → l.hosts = [(lane, a)] → l.late = [] →
        (Becomes (.hostCompletion l.id true bytes) s fun t => home t ∧
          ThreadsAre s t l.warp (given [(lane, r, gather (bytes.take l.size.bytes))])) ∧
        (Becomes (.hostCompletion l.id false bytes) s fun t => Quiet s t ∧ (warpOf t l.warp).halt = .trapped))) ∧
    (∀ w, w < s.warps.length → Becomes (.resultWriteback w) s fun t => Quiet s t ∧ (∀ x, x ≠ w → warpOf t x = warpOf s x) ∧
      ∀ p, p ∈ (warpOf t w).pend ↔ p ∈ (warpOf s w).pend ∧ ∀ d, p.due = some d → s.clk < d) ∧
    (∀ core vf c va acc, core < s.cores.length →
      (∀ e, tlbHit s core vf c va.toNat = some e → Becomes (.translationWalk core vf c va acc) s fun t => t = s) ∧
      (∀ s1 e, tlbHit s core vf c va.toNat = none → walk (count s vf c 2 6 1) vf c va.toNat = (s1, .ok e) →
        Becomes (.translationWalk core vf c va acc) s fun t => Quiet s t ∧ (coreOf t core).tlb =
          match placeOf s1 vf acc va.toNat e with
          | .ok _ => insertWays 8 (fun x => sameSet 4 512 x.key e.key) e (coreOf s core).tlb
          | .err _ => (coreOf s core).tlb) ∧
      (∀ s1 e, tlbHit s core vf c va.toNat = none → walk (count s vf c 2 6 1) vf c va.toNat = (s1, .err e) →
        Becomes (.translationWalk core vf c va acc) s fun t => Quiet s t ∧ (coreOf t core).tlb = (coreOf s core).tlb)) ∧
    (∀ vf val k, s.stage ≠ 0 → (sliceOf s vf).used = true → (val.extractLsb' 6 2).toNat < 2 →
      let c := (val.extractLsb' 0 6).toNat
      let va := (val.extractLsb' 16 36).toNat * 65536
      Becomes (.tlbinv vf val) s fun t => Quiet s t ∧
        (∀ x ∈ (coreOf t k).fills, x.1 / 2 ^ 45 ≠ vf * 64 + c) ∧ (∀ x ∈ (coreOf t k).l0, x.1 / 2 ^ 45 ≠ vf * 64 + c) ∧
        ∀ e, e ∈ (coreOf t k).tlb ↔ e ∈ (coreOf s k).tlb ∧
          ¬(e.vf = vf ∧ e.ctx = c ∧ ((val.extractLsb' 6 2).toNat = 0 ∨ (e.va ≤ va ∧ va < e.va + e.size)))) ∧
    (∀ core x, Becomes (.l1SectorExpiry core) s fun t => Quiet s t ∧
      (x ∈ (coreOf t core).l1 ↔ x ∈ (coreOf s core).l1 ∧ s.clk < x.fill + 4096)) ∧
    (∀ core line d p, core < s.cores.length → ((coreOf s core).fills.filter fun f => f.1 == line) = [(line, d, p)] → d ≤ s.clk →
      Becomes (.l0LineFill core line) s fun t => Quiet s t ∧
        (coreOf t core).l0 = insertWays 8 (fun x => sameSet 0 64 x.1 line) (line, p) ((coreOf s core).l0.filter fun f => f.1 != line) ∧
        (coreOf t core).fills = (coreOf s core).fills.filter (fun f => f.1 != line))

/-! ### Waits, selection, monitor, clocks -/

/-- R22, R26, R105, R112, R184, R187, R204, R213, R214, R255 to R257, R281, R298, R301, R317, R360, R366, R367, R398, R399: what ends a
wait, chooses what issues, and counts time, beside the instructions themselves. Which source disciplines TIME and when in its bounds a
halted block's warp stops are free choices (log entries 59 and 76). Which of two bundles that share a PC merge is log entry 79, a grant
that becomes usable log entry 99, a lead in a withheld ck log entry 53, how the stores held at a twin's checkpoint go on log entry 45. -/
def Obligations.WaitsAndSelection : Prop :=
  ∀ s : State,
    (∀ blk g gr ck w, blk < s.blocks.length → groupOf (blockOf s blk) g = some gr → gr.due = some (ck, w) → ck ≤ s.clk →
      (blockOf s blk).replMode = 0 →
      let b := blockOf s blk
      ∃ u, exec (.barrierPhaseComplete blk g) s = .next (wakeBlock u blk) ∧ Quiet s u ∧
        groupOf (blockOf u blk) g = some { gr with phase := gr.phase + 1, arrived := [], due := none } ∧
        (1 < (groupParts b gr).length → ∀ k, k < b.nWarps → gr.members.getLsbD k = true →
          ∀ x ∈ (coreOf u (warpOf s (b.firstWarp + k)).core).l1, ¬(x.vf = b.vf ∧ x.ctx = b.ctx)) ∧
        (HasCtx s b.vf b.ctx → (∀ k, k < b.nWarps → (warpOf s (b.firstWarp + k)).blk = blk) → ∀ k, k < b.nWarps → gr.members.getLsbD k = true →
          (warpOf u (b.firstWarp + k)).alog = 0 ∧
          ∀ j, j < 6 → (warpOf s (b.firstWarp + k)).alog.getLsbD j = true → (ctxOf u b.vf b.ctx).asum.getLsbD j = true)) ∧
    (∀ blk g gr ck w, groupOf (blockOf s blk) g = some gr → gr.due = some (ck, w) → s.clk < ck →
      Becomes (.barrierPhaseComplete blk g) s fun t => t = s) ∧
    (∀ w id b, bundleOf (warpOf s w) id = some b → b.hold = some (.sleep 0) → mayRun s w = true →
      Becomes (.sleepExpiry w id) s fun t => ThreadsAre s t w (onward b b.holdLen) ∧ t.mem = s.mem ∧ t.parts = s.parts) ∧
    (∀ core x, core < s.cores.length → (coreOf s core).owner = none →
      (∀ y ∈ (coreOf s core).cubeq, y.level < 4) →
      (∃ a b, (coreOf s core).cubeq = a ++ x :: b ∧ mayEnd s x.warp = true ∧ (∀ y ∈ a, mayEnd s y.warp = true → y.level < x.level) ∧
        ∀ y ∈ b, mayEnd s y.warp = true → y.level ≤ x.level) →
      Becomes (.cubeOwnershipGrant core) s fun t => (coreOf t core).owner = some x.warp ∧ (coreOf t core).ownerLevel = x.level ∧
        (coreOf t core).cubeq = (coreOf s core).cubeq.filter (fun y => y.warp != x.warp)) ∧
    (∀ core w b, (coreOf s core).owner = some w → mayEnd s w = true → (warpOf s w).bundles = [b] → b.hold = some .cacq →
      ((coreOf s core).ownerFrom ≤ s.clk → Becomes (.cubeOwnershipGrant core) s fun t => ThreadsAre s t w (onward b b.holdLen) ∧
        t.mem = s.mem ∧ t.parts = s.parts) ∧
      (s.clk < (coreOf s core).ownerFrom → Becomes (.cubeOwnershipGrant core) s fun t => t = s)) ∧
    (∀ w b, w < s.warps.length → b ∈ (warpOf s w).bundles →
      (launchOf s (blockOf s (warpOf s w).blk).launch).pkt.attr.testBit 0 = false → (warpOf s w).window = none → (warpOf s w).lead = false →
      countsRun s (warpOf s w).blk = true → (warpOf s w).fairt ≤ b.wait → bundleHeld (warpOf s w) b = false →
      (∀ x ∈ (warpOf s w).bundles, x ≠ b → bundleHeld (warpOf s w) x = false → x.wait < b.wait) →
      exec (.fairnessWindowGrant w) s = .next (setWarp s w fun x => { x with window := some (b.id, 16) })) ∧
    (∀ core w x y, w ∈ residents s core false → (warpOf s w).bundles = [x, y] → x.id < y.id → mergeable (warpOf s w) x = true → mergeable (warpOf s w) y = true →
      pcOf (warpOf s w) x = pcOf (warpOf s w) y → bundleHeld (warpOf s w) x = bundleHeld (warpOf s w) y →
      (blockOf s (warpOf s w).blk).stop = none → (blockOf s (warpOf s w).blk).step = none → (warpOf s w).halt = .running →
      Becomes (.bundleRegrouping core) s fun t => Quiet s t ∧ ∃ z, (warpOf t w).bundles = [z] ∧ z.id = x.id ∧ z.lanes = x.lanes ||| y.lanes ∧
        z.wait = 0 ∧ z.starve = 0) ∧
    (∀ core w b, core < s.cores.length → residents s core false = [w] → residents s core true = [] → (warpOf s w).bundles = [b] → b.xi = none →
      mayIssue s w b = true → stallOf s w b = none → (warpOf s w).sched < 4 → (coreOf s core).withheld = false →
      Becomes (.schedulerSelection core) s fun t => Quiet s t ∧ t.issuing = s.issuing ++ [⟨w, b.id, 0⟩] ∧
        let cx := ctxOf s (blockOf s (warpOf s w).blk).vf (blockOf s (warpOf s w).blk).ctx
        t.agenda = s.agenda ++ if cx.monctl.getLsbD 0 = true ∧ b.starved = false ∧ monLimit cx ≤ b.starve then [.starvationRecord w b.id] else []) ∧
    (∀ core, core < s.cores.length → (coreOf s core).withheld = true →
      Becomes (.schedulerSelection core) s fun t => Quiet s t ∧ t.issuing = s.issuing ∧ t.agenda = s.agenda ∧ t.cores = s.cores) ∧
    (∀ core, core < s.cores.length → Becomes (.throttleWithhold core) s fun t => t = { s with cores := t.cores } ∧
      coreOf t core = { coreOf s core with withholdNext := true } ∧
      ∀ k, k ≠ core → coreOf t k = coreOf s k) ∧
    (∀ core w x vf unit, core < s.cores.length → residents s core false = [w] → (warpOf s w).bundles = [x] →
      let wp := warpOf s w
      let b := blockOf s wp.blk
      let u := (sliceOf s vf).trace.getD unit TraceUnit.reset
      wp.slot < 12 → wp.sched < (coreOf s core).sampled.length → b.vf = vf → vf < s.slices.length → unit < (sliceOf s vf).trace.length →
      (sliceOf s vf).trchold.getLsbD unit = false → (u.ctl.extractLsb' 1 6).toNat = b.ctx → u.waiting.length < 64 →
      Becomes (.pcSample core wp.sched vf unit) s fun t => Quiet s t ∧ (coreOf t core).sampled.getD wp.sched 0 = wp.slot ∧
        ((sliceOf t vf).trace.getD unit TraceUnit.reset).waiting = u.waiting ++
          [traceBytes 1 wp.stall (x.hold == some .dusk) (partOf s wp.part).log 0 wp.idx (phaseOf b 0).toNat (timeNs s) b (pcOf wp x).toNat]) ∧
    (∀ w id b, w < s.warps.length → bundleOf (warpOf s w) id = some b →
      let wp := warpOf s w
      let k := blockOf s wp.blk
      let cx := ctxOf s k.vf k.ctx
      let limit := (cx.monctl.extractLsb' 16 16).toNat
      cx.monctl.getLsbD 0 = true → cx.monctl.getLsbD 1 = false → b.starved = false → 1024 * limit ≤ b.starve → wp.halt = .running →
      (sliceOf s k.vf).ifst ≠ .error →
      Becomes (.starvationRecord w id) s fun t => Quiet s t ∧ (∃ y, bundleOf (warpOf t w) id = some y ∧ y.starved = true) ∧
        Forms s t k.vf k.ctx (warpKey 1 s wp) (recordBytes ⟨8, 0x1C, recFlags wp, recWarp wp, (partOf s wp.part).log, 0, 0, 0, (pcOf wp b).toNat,
          b.lanes, liveLanes wp &&& ~~~b.lanes, wp.issuePc.toNat, lowest b.lanes + limit * 2 ^ 16 + wp.stall * 2 ^ 32⟩ k.bx k.by' k.bz (timeNs s)) (.block wp.blk)) ∧
    (∀ blk w ws x, blk < s.blocks.length → liveWarps s (blockOf s blk) = w :: ws → lowestBundle (warpOf s w) = some x →
      let k := blockOf s blk
      let wp := warpOf s w
      let cx := ctxOf s k.vf k.ctx
      let limit := (cx.monctl.extractLsb' 16 16).toNat
      wp.blk = blk → cx.monctl.getLsbD 0 = true → cx.monctl.getLsbD 1 = false → k.idleRec = false → 1024 * limit ≤ k.idle → k.status = .resident →
      (sliceOf s k.vf).ifst ≠ .error →
      Becomes (.blockIdleRecord blk) s fun t => Quiet s t ∧ (blockOf t blk).idleRec = true ∧
        Forms s t k.vf k.ctx (warpKey 1 s wp) (recordBytes ⟨8, 0x1C, recFlags wp, recWarp wp, (partOf s wp.part).log, 0, 0, 0, (pcOf wp x).toNat,
          x.lanes, liveLanes wp &&& ~~~x.lanes, 0, lowest x.lanes + 2 ^ 12 + limit * 2 ^ 16 + wp.stall * 2 ^ 32⟩ k.bx k.by' k.bz (timeNs s)) (.block blk)) ∧
    (∀ w b x word ins d lat f, w < s.warps.length → s.chipPoison = [] →
      (coreOf s (warpOf s w).core).xiHold.getD (warpOf s w).sched none = some (w, b.id) → (warpOf s w).bundles = [b] → b.xi = some x → x.started = true → x.left ≠ 0 →
      x.remaining ≠ 0 → x.step + 1 < x.n → (blockOf s (warpOf s w).blk).step = none → (warpOf s w).halt ≠ .trapped →
      (∀ l ∈ lanesOf x.left, xiWord x l = word) → wordInstr (allotOfWarp s (warpOf s w)) word = some ins →
      sWork ins = some (false, .comp d lat false f) → groupHeld s w (warpOf s w) b x.left ins (.comp d lat false f) = false →
      (∀ l ∈ lanesOf x.left, enabled (threadOf (warpOf s w) l) (f (threadOf (warpOf s w) l)).2 = 0) →
      Becomes (.xissueGroupIssue w) s fun t => t.mem = s.mem ∧ t.hostMem = s.hostMem ∧ t.parts = s.parts ∧
        ThreadsAre s t w (fun l u => if x.left.getLsbD l then written false (f u) u else u) ∧
        ∃ y, (bundleOf (warpOf t w) b.id).bind (·.xi) = some y ∧ y.step = x.step + 1 ∧ y.started = false ∧ y.n = x.n) ∧
    ((s.hbeat.toNat + 1) * 136 ≤ s.clk → s.hbeat.toNat + 1 < 2 ^ 64 →
      Becomes .heartbeatTick s fun t => t.hbeat = s.hbeat + 1 ∧ t.mem = s.mem ∧
        (∀ vf, vf < s.slices.length →
          (sliceOf t vf).credit = max (sliceOf s vf).credit (min ((sliceOf s vf).credit + 750 * (sliceOf s vf).allow) (12000 * (sliceOf s vf).allow))) ∧
        ∀ w b ids n k, w < s.warps.length → (warpOf s w).bundles = [b] → b.hold = some (.fencesc ids n (some k)) → k ≤ s.hbeat.toNat + 1 →
          mayComplete s w = true → ThreadsAre s t w (onward b b.holdLen) ∧
            ∀ x ∈ (coreOf t (warpOf s w).core).l1,
              ¬(x.vf = (blockOf s (warpOf s w).blk).vf ∧ x.ctx = (blockOf s (warpOf s w).blk).ctx)) ∧
    (∀ vf, vf ≤ 16 → vf < s.slices.length → (sliceOf s vf).used = true → Becomes .multiplexRotation s fun t =>
      SameRegs s t ∧ t.mem = s.mem ∧ (sliceOf t vf).hvforce = (sliceOf s vf).hvclaim ∧
        (sliceOf t vf).trchold = (sliceOf s vf).hvclaim.extractLsb' 7 4) ∧
    (∀ (ns : Dword) lock, s.stage ≠ 0 →
      let ptm : Bool := if Config.openChoice s.free % 2 = 1 then !s.timeSrc else s.timeSrc
      let u : Nat := 85000 * ns.toNat
      let m := { s with free := s.free + 1, timeSrc := ptm }
      let t := if s.stage = 2 then { m with slew := (u : Int) - s.timeU, timeLocked := lock && u ≤ s.timeU + 4250000 && s.timeU ≤ u + 4250000 } else { m with timeU := u, slew := 0, timeLocked := lock }
      exec (.ptpMessage ns lock) s = .next (if ptm then m else t) ∧ exec (.ptmResponse ns lock) s = .next (if ptm then t else m)) ∧
    (∀ w n h, w < s.warps.length → (warpOf s w).halt = .skid n → (blockOf s (warpOf s w).blk).halt = some h →
      (8 ≤ n ∨ h.ck + 96 ≤ s.clk ∨ warpBlocked (warpOf s w) = true ∨ warpAllHeld (warpOf s w) = true → Becomes (.blockHaltWarpStop w) s fun t => Quiet s t ∧ (warpOf t w).halt = .stopped) ∧
      (Becomes (.blockHaltWarpStop w) s fun t => Quiet s t ∧ ((warpOf t w).halt = .stopped ∨ (warpOf t w).halt = .skid n))) ∧
    (∀ w o a b, w < s.warps.length → o < s.warps.length → w ≠ o → counterpart s w = some o → isPrimary s (warpOf s w).blk = true →
      (warpOf s w).ckpt = some a → (warpOf s o).ckpt = some b → a.passed = false → b.passed = false → mayEnd s w = true → mayEnd s o = true →
      (a.pc = b.pc → a.sig = b.sig →
        (b.skip = none → Becomes (.twinCheckpointCompare w) s fun t => Quiet s t ∧ t.flights = s.flights ∧
          (warpOf t w).held = (warpOf s w).held ∧ (warpOf t w).matched = s.nextId ∧ (warpOf t o).held = [] ∧ (warpOf t o).matched = s.nextId ∧
          (warpOf t w).ckpt = some { a with passed := true } ∧ (warpOf t o).ckpt = some { b with passed := true }) ∧
        (∀ len dst la x, b.skip = some (len, dst, la) → bundleOf (warpOf s o) b.bundle = some x →
          Becomes (.twinCheckpointCompare w) s fun t => ThreadsAre s t o (onward x len) ∧ t.mem = s.mem ∧ t.hostMem = s.hostMem ∧
            t.parts = s.parts ∧ t.flights = s.flights ∧ (warpOf t o).held = [] ∧ (warpOf t o).ckpt = none ∧
            (warpOf t w).ckpt = some { a with passed := true } ∧ (warpOf t w).matched = s.nextId)) ∧
      (a.pc ≠ b.pc ∨ a.sig ≠ b.sig → Becomes (.twinCheckpointCompare w) s fun t => Quiet s t ∧ t.flights = s.flights ∧
        (∀ h ∈ (warpOf t w).held, h.entry.id < (warpOf s w).matched) ∧ (∀ h ∈ (warpOf t o).held, h.entry.id < (warpOf s o).matched) ∧
        (warpOf t w).halt = .trapped ∧
        ((warpOf s w).blk < s.blocks.length → (blockOf t (warpOf s w).blk).halt.isSome = true) ∧
        ((warpOf s o).blk < s.blocks.length → (blockOf t (warpOf s o).blk).halt.isSome = true)))

/-! ### Engines, the cube, the fabric -/

/-- R61 to R63, R116, R117, R219, R222, R227, R235, R240 to R243, R271, R278, R281, R386, R387: an engine starts the record that is due,
moves its units, adds its chunks, writes its markers and completes, raising a cube operation's flags then; flits leave against credit;
runs are closed, acknowledged, asked for again, or fail their pair; a link whose keystream counter would repeat is re-keyed. What a flit
carries, the order of what a core sends, the width of that counter and the form of an overwritten record's fault are the model's (log
entries 25, 87, 89 and 98). -/
def Obligations.EnginesAndFabric : Prop :=
  ∀ s : State, Clean s → (∀ o ∈ s.ops, o.id < s.nextId) →
    (∀ core eng vf c lc r pa, (∀ o ∈ s.ops, ¬(o.core = core ∧ o.eng = eng)) → startable s core eng = [(vf, c, lc, r)] → HasCtx s vf c →
      let addr := ringSlot (ctxOf s vf c) lc eng r.slot
      let bs := memReadN s.mem pa 64
      Hits s core vf c addr .load (.dev pa) →
      (ringFormBad eng bs = false → bs.getD 0 0 ≠ 9 → Becomes (.engineRecordStart core eng) s fun t => Quiet s t ∧
        ∃ o, t.ops = s.ops ++ [o] ∧ o.id = s.nextId ∧ o.core = core ∧ o.eng = eng ∧ o.vf = vf ∧ o.ctx = c ∧ o.lcore = lc ∧ o.slot = r.slot ∧
          o.seq = r.seq ∧ o.blk = r.blk ∧ o.part = r.part ∧ o.warp = r.warp ∧ o.bytes = bs ∧ o.unit = 0 ∧ o.dead = (recordBad s o).isSome ∧
          o.issued = o.dead) ∧
      (ringFormBad eng bs = true → r.blk < s.blocks.length → (blockOf s r.blk).status = .resident → Becomes (.engineRecordStart core eng) s fun t =>
        Quiet s t ∧ (blockOf t r.blk).halt.isSome = true ∧ ∃ o ∈ t.ops, o.id = s.nextId ∧ o.dead = true)) ∧
    (∀ core eng l left va pa, (s.ops.filter fun o => o.core == core && o.eng == eng) = [l] → l.walk = some (left, va) → 2 ≤ left →
      l.dead = false → (∀ o ∈ s.ops, o.parked = none) → mayStart s l.vf l.ctx core = true → (sliceOf s l.vf).ifst ≠ .error → l.issued = true →
      nextStart s core eng = none → va < 2 ^ 52 →
      Hits s core l.vf l.ctx va .load (.dev pa) →
      let bs := memReadN s.mem pa 64
      let r := CopyRec.ofBytes bs
      let m := fieldOf l.bytes 0x20 8
      copyFormBad eng bs = false → r.next ≠ 0 → r.next % 64 = 0 →
      r.check (sliceOf s l.vf) (partOf s l.part).kib (blockOf s l.blk).nParts = none →
      Becomes (.segmentRecordRead core eng) s fun t => Quiet s t ∧
        (∃ o ∈ t.ops, o.id = s.nextId ∧ o.bytes = bs ∧ o.seq = l.seq + min (m - left) (((opRec s l).map (·.count)).getD m - 1) ∧ o.walk = none ∧ o.unit = 0) ∧
        ∃ o ∈ t.ops, o.id = l.id ∧ o.walk = some (left - 1, r.next)) ∧
    (∀ core eng o s1 s2 ps data, eng ≠ .cube → eng ≠ .fab → movingOp s core eng = some o → o.type ≠ 7 → o.twin = false →
      piecesAt o o.copyRec (o.copyRec.unitBytes o.unit) s = (s1, .inl ps) → readPieces o o.copyRec ps s1 = (s2, .ok data) →
      Becomes (.copyUnitTransfer core eng) s fun t => Quiet s t ∧
        (∃ x ∈ t.ops, x.id = o.id ∧ x.unit = o.unit + 1 ∧ x.issued = (o.unit + 1 == o.units)) ∧
        ∃ fl, t.flights = s.flights ++ fl ∧ (∀ f ∈ fl, f.op = some o.id ∧ s.clk < f.due) ∧
          ∀ p bs d, (p, bs) ∈ ps.zip data → d ∈ p.dsts →
            let here := if o.type = 8 then (bs.drop d.1).take 16 else bs
            ∃ f ∈ fl, ∃ a ∈ f.entry.accs, a.home = d.2 ∧ a.size = here.length ∧ a.data = BitVec.ofNat 1024 (leBytes here)) ∧
    (∀ core eng o s1 p,
      (s.ops.filter fun o => o.core == core && o.eng == eng) = [o] → o.issued = false → o.parked = none → o.bytes ≠ [] → o.type = 0x0A →
      o.copyRec.arg = 0 → o.twin = false → markerTurn s o = true → (sliceOf s o.vf).ifst ≠ .error → engPlace s o o.copyRec.ds o.copyRec.dst 8 .store = (s1, .inl p) →
      Becomes (.chainMarkerWrite core eng) s fun t => Quiet s t ∧ (∃ x ∈ t.ops, x.id = o.id ∧ x.issued = true) ∧
        ∃ f, t.flights = s.flights ++ [f] ∧ f.op = some o.id ∧ ∃ a, f.entry.accs = [a] ∧ a.home = p ∧ a.size = 8 ∧
          a.data = BitVec.ofNat 1024 (leBytes (bytesOf 8 o.seq))) ∧
    (∀ core o a, core < s.cores.length → movingOp s core .cube = some o → o.core = core → (coreOf s core).cubeFree ≤ s.clk → o.type ≠ 0x12 → o.type ≠ 0x13 →
      TileArgs.ofBytes o.bytes = some a → a.fault (partOf s o.part) = none →
      Becomes (.cubeTileOperation core) s fun t => Quiet s t ∧ (coreOf t core).cubeFree = s.clk + a.steps ∧
        (∃ x ∈ t.ops, x.id = o.id ∧ x.issued = true) ∧
        ∃ r, (coreOf t core).cubeRes = (coreOf s core).cubeRes ++ [r] ∧ r.op = o.id ∧ r.part = o.part ∧ r.acc = a.acc ∧ r.rows = a.rows ∧
          r.due = s.clk + a.steps + 20 ∧ ∀ i, i < 64 → a.rows.getLsbD i = true → ∀ j, j < 32 →
            word1024 (r.data.getD i 0) j = BitVec.ofNat 32 (addGroups (classK a.cls) a.groups (a.prod (partOf s o.part) i j)
              (if a.fr.za then 0 else (word1024 (accNow s o.part a.acc i) j).toNat)).1) ∧
    (∀ core o v s1 rows, core < s.cores.length → movingOp s core .cube = some o → o.core = core → (coreOf s core).cubeFree ≤ s.clk →
      o.type = 0x12 ∨ o.type = 0x13 → mayStart s o.vf o.ctx core = true → o.parked = none → VArgs.ofBytes o.bytes = some v →
      let held := if o.unit = 0 then clearOthers s o else s
      readRows o v (v.reads o.unit) (setWarp held o.warp fun w => { w with rowprog := BitVec.ofNat 32 o.unit }) = (s1, .inl rows) →
      (∀ x ∈ rows, (v.operand x.1).cubeFmt = .log → blockBad x.2.2.data = none) →
      Becomes (.cubeChunk core) s fun t => Quiet s t ∧ (coreOf t core).cubeFree = s.clk + v.time o.unit ∧
        (o.warp < s.warps.length → (warpOf t o.warp).rowprog = BitVec.ofNat 32 (o.unit + 1)) ∧
        (∃ x ∈ t.ops, x.id = o.id ∧ x.unit = o.unit + 1 ∧ x.issued = decide (v.chunks ≤ o.unit + 1)) ∧
        ∃ r, (coreOf t core).cubeRes = (coreOf s core).cubeRes ++ [r] ∧ r.op = o.id ∧ r.part = o.part ∧ r.acc = v.acc ∧ r.rows = v.rows) ∧
    (∀ core x, core < s.cores.length → (coreOf s core).cubeRes = [x] → x.due ≤ s.clk →
      Becomes (.cubeAccumulatorWrite core) s fun t => (coreOf t core).cubeRes = [] ∧ SameRegs s t ∧ t.mem = s.mem ∧ t.hostMem = s.hostMem ∧
        t.parts = modAt s.parts x.part (fun p => { p with accs := modAt p.accs x.acc (inRows x.rows.getLsbD fun r _ => x.data.getD r 0) }) ∧
        t.ops = s.ops.map fun y => if y.id = x.op then { y with flags := (List.range 64).map fun l => y.flags.getD l 0 ||| x.flags.getD l 0 } else y) ∧
    (∀ core eng o r, (s.ops.find? fun o => o.core == core && o.eng == eng && opQuiet s o && !(heldByFault o)) = some o → HasCtx s o.vf o.ctx →
      (∀ x ∈ s.ops, x.id ≠ o.id → sameRec o x = false) → opRec s o = some r → r.seq = o.seq → 1 ≤ r.count → o.refused = false →
      o.flags.length ≤ 64 → (∀ l, enabled (threadOf (warpOf s o.warp) l) (o.flags.getD l 0) = 0) →
      (chainOf (ctxOf s o.vf o.ctx) o.lcore eng).comp + 1 = o.seq →
      ∃ u, exec (.engineOperationComplete core eng) s = .next (wakeAll u) ∧ ThreadsAre s u o.warp (fun l v => raise (o.flags.getD l 0) v) ∧
        u.mem = s.mem ∧ u.hostMem = s.hostMem ∧ u.parts = s.parts ∧ u.ops = s.ops.filter (fun x => x.id != o.id) ∧
        o.seq ≤ (chainOf (ctxOf u o.vf o.ctx) o.lcore eng).comp) ∧
    (∀ core eng o, (s.ops.find? fun o => o.core == core && o.eng == eng && opQuiet s o && !(heldByFault o)) = some o → o.refused = true → o.dead = false →
      o.blk < s.blocks.length → (blockOf s o.blk).status = .resident →
      Becomes (.engineOperationComplete core eng) s fun t => Quiet s t ∧ (blockOf t o.blk).halt.isSome = true ∧ ∃ x ∈ t.ops, x.id = o.id ∧ x.dead = true) ∧
    (∀ core o, (∀ vf, sliceOfCore s core = some vf → runAgain (sliceOf s vf) = none ∧ ∀ q ∈ (sliceOf s vf).fabOut, q.core ≠ core) → fabOp s core = some o → o.twin = false →
      o.vf < s.slices.length →
      let p := o.copyRec.arg.toNat
      let sl := sliceOf s o.vf
      roomToSend sl p = true →
      (sl.credit < 640 → Becomes (.fabricFlitSend core) s fun t => Quiet s t ∧ (sliceOf t o.vf).credit = sl.credit ∧
        (sliceOf t o.vf).runs = sl.runs ∧ t.ops = s.ops) ∧
      (640 ≤ sl.credit → o.type = 0x0A → p < sl.peers.length → openRun sl p = none → Becomes (.fabricFlitSend core) s fun t => Quiet s t ∧
        (sliceOf t o.vf).credit = sl.credit - 640 ∧ (peerOf t o.vf p).counter = (peerOf s o.vf p).counter + 1 ∧
        (peerOf t o.vf p).nextSeq = ((peerOf s o.vf p).nextSeq + 1) % 2 ^ 32 ∧
        (∃ r, (sliceOf t o.vf).runs = sl.runs ++ [r] ∧ r.peer = p ∧ r.seq = (peerOf s o.vf p).nextSeq ∧ r.flits = 1 ∧
          r.pair = (peerOf s o.vf p).pair ∧ r.counter = (peerOf s o.vf p).counter ∧
          (portsTo sl (peerOf s o.vf p).entry ≠ [] → r.port ∈ portsTo sl (peerOf s o.vf p).entry) ∧
          r.writes = [(o.copyRec.dst, bytesOf 8 o.seq, o.id)]) ∧ ∃ x ∈ t.ops, x.id = o.id ∧ x.issued = true)) ∧
    (∀ core vf, sliceOfCore s core = some vf → vf < s.slices.length → (sliceOf s vf).ifst ≠ .error →
      let sl := sliceOf s vf
      (∀ r, runAgain sl = some r → r.again = r.flits → r.peer < sl.peers.length → (peerOf s vf r.peer).keys = true →
        (peerOf s vf r.peer).counter < 2 ^ 62 → 640 ≤ sl.credit →
        Becomes (.fabricFlitSend core) s fun t => Quiet s t ∧ t.ops = s.ops ∧ (sliceOf t vf).credit = sl.credit - 640 ∧
          (peerOf t vf r.peer).counter = (peerOf s vf r.peer).counter + 1 ∧ (sliceOf t vf).runs = sl.runs.map fun x =>
            if x.peer = r.peer ∧ x.seq = r.seq then
              { x with again := x.again - 1, pair := (peerOf s vf r.peer).pair, counter := (peerOf s vf r.peer).counter } else x) ∧
      (∀ q, runAgain sl = none → (sl.fabOut.find? fun q => q.core == core) = some q → roomToSend sl q.peer = true → openRun sl q.peer = none →
        q.peer < sl.peers.length → 640 ≤ sl.credit →
        Becomes (.fabricFlitSend core) s fun t => Quiet s t ∧ t.ops = s.ops ∧ (sliceOf t vf).credit = sl.credit - 640 ∧
          (sliceOf t vf).fabOut = sl.fabOut.erase q ∧ (peerOf t vf q.peer).counter = (peerOf s vf q.peer).counter + 1 ∧
          ∃ r, (sliceOf t vf).runs = sl.runs ++ [r] ∧ r.peer = q.peer ∧ r.seq = (peerOf s vf q.peer).nextSeq ∧
            r.counter = (peerOf s vf q.peer).counter ∧ r.writes = [(0, [], q.id)])) ∧
    (∀ vf p r, vf < s.slices.length → openRun (sliceOf s vf) p = some r →
      Becomes (.fabricRunClose vf p) s fun t => t = { s with slices := t.slices } ∧ (sliceOf t vf).runs = (sliceOf s vf).runs.map fun x =>
        if r.last + 256 ≤ s.clk ∧ x.peer = p ∧ x.seq = r.seq then { x with closed := true } else x) ∧
    (∀ vf p seq r, vf < s.slices.length → sentRun s vf p seq = some r →
      (∀ first, ((sliceOf s vf).runs.find? fun x => x.peer == p) = some first →
        (first.seq = seq → Becomes (.fabricRunAcknowledged vf p seq) s fun t => Quiet s t ∧
          (sliceOf t vf).runs = (sliceOf s vf).runs.filter (fun x => !(x.peer == p && x.seq == seq)) ∧
          t.sent = s.sent ++ (r.writes.filter fun w => !w.2.1.isEmpty).map fun w => ⟨5, p, w.1, msgWords w.2.1⟩) ∧
        (first.seq ≠ seq → Becomes (.fabricRunAcknowledged vf p seq) s fun t => t = s)) ∧
      (r.attempts < 4 → Becomes (.fabricRetryNotice vf p seq) s fun t => t = { s with slices := t.slices } ∧
        (sliceOf t vf).runs = (sliceOf s vf).runs.map fun x =>
          if x.peer = p ∧ x.seq = seq then { x with attempts := x.attempts + 1, again := x.flits } else x) ∧
      (4 ≤ r.attempts → p < (sliceOf s vf).peers.length → (sliceOf s vf).resetting = none → Becomes (.fabricRetryNotice vf p seq) s fun t =>
        Quiet s t ∧ (peerOf t vf p).keys = false ∧ (sliceOf t vf).ifst = .error)) ∧
    (∀ vf p, vf < s.slices.length → p < (sliceOf s vf).peers.length → (peerOf s vf p).keys = true → 2 ^ 62 ≤ (peerOf s vf p).counter →
      Becomes (.pairKeyRenewal vf p) s fun t => t = { s with slices := t.slices, keyCount := s.keyCount + 1 } ∧
        peerOf t vf p = { peerOf s vf p with key := s.keyCount + 1, counter := 0 }) ∧
    (∀ link,
      let keys := s.linkKeys.mapIdx fun i k => if i = link then s.keyCount + 1 else k
      let counts := s.linkCount.mapIdx fun i k => if i = link then 0 else k
      exec (.linkRekey link) s = .next (if 2 ^ 64 < s.linkCount.getD link 0 + 16 then
        { s with keyCount := s.keyCount + 1, linkKeys := keys, linkCount := counts } else s))

/-! ### Launches, blocks, replication -/

/-- R20, R32, R36 to R39, R46, R113, R248 to R253, R260, R318, R322: doorbells, packets, placement, victims, evictions, the end of
blocks, and replicated launches, whose packet goes out to the peers before it is checked. How a block's state is laid out in its save
area is the model's choice (log entry 12), and so is what a peer without the context or with a full table does, and that the first block reports
(log entry 61); a register that no launch sets begins at 0 by log entry 2, and the form of the messages to the peers is log entry 7. -/
def Obligations.LaunchesAndBlocks : Prop :=
  ∀ s : State,
    (∀ vf c tail, HasCtx s vf c → (sliceOf s vf).ifst ≠ .error → (ctxOf s vf c).exists' = true →
      let cx := ctxOf s vf c
      ((tail - cx.head).toNat ≤ 2 ^ cx.desc.lqlog2 →
        exec (.lqDoorbell vf c tail) s = .next (setCtx s vf c fun x => { x with tail, stop := false })) ∧
      (2 ^ cx.desc.lqlog2 < (tail - cx.head).toNat →
        Becomes (.lqDoorbell vf c tail) s fun t => Quiet s t ∧ ctxOf t vf c = { cx with stop := true } ∧
          Forms s t vf c (recKey 1 2 0) (launchBytes s 0x49 cx.head.toNat 0) .none)) ∧
    (∀ vf c, HasCtx s vf c → sliceWorks s vf = true → (launchTable s vf).length < 256 → nextQueue (sliceOf s vf) = some c →
      let s0 := setSlice s vf fun sl => { sl with lastCtx := c }
      let cx := ctxOf s vf c
      let va := cx.desc.lqbase + 128 * (cx.head.toNat % 2 ^ cx.desc.lqlog2)
      (∀ s1 e, cpRead vf c va 128 s0 = (s1, .err e) → Becomes (.launchPacketRead vf) s fun t =>
        (ctxOf t vf c).stop = true ∧ (ctxOf t vf c).head = cx.head ∧ t.launches = s.launches ∧
          Forms s t vf c (recKey 1 2 0) (launchBytes s 0x45 cx.head.toNat va) .none) ∧
      let rec' := fun (cause : Nat) => (⟨vf, c, recKey 1 2 0, [launchBytes s cause cx.head.toNat 0], .none⟩ : Formed)
      let g := (sliceOf s vf).gen + 1
      let out := fun (bs : List Byte) => (List.range ((Packet.ofBytes bs).repl - 1)).map fun p => (⟨1, vf, p + 1, g.zeroExtend 256 :: msgWords bs⟩ : Sent)
      let notice := fun (bs : List Byte) => (List.range ((Packet.ofBytes bs).repl - 1)).map fun p => (⟨4, vf, p + 1, [g.zeroExtend 256]⟩ : Sent)
      (∀ s1 bs s2 cause, cpRead vf c va 128 s0 = (s1, .ok bs) → 2 ≤ (Packet.ofBytes bs).repl → (Packet.ofBytes bs).repl ≤ 64 →
        validate (replicate s1 vf (Packet.ofBytes bs) bs).1 vf c bs = (s2, .inl cause) → Becomes (.launchPacketRead vf) s fun t =>
          (ctxOf t vf c).head = cx.head + 1 ∧ t.launches = s.launches ∧ (sliceOf t vf).gen = g ∧ t.formed = s.formed ++ [rec' cause, rec' 0x47] ∧
            t.sent = s.sent ++ out bs ++ notice bs) ∧
      (∀ s1 bs s2 gs o, cpRead vf c va 128 s0 = (s1, .ok bs) → 2 ≤ (Packet.ofBytes bs).repl → (Packet.ofBytes bs).repl ≤ 64 →
        validate (replicate s1 vf (Packet.ofBytes bs) bs).1 vf c bs = (s2, .inr (gs, o)) → g.toNat ≤ (sliceOf s vf).lastGen.toNat →
        Becomes (.launchPacketRead vf) s fun t =>
          (ctxOf t vf c).head = cx.head + 1 ∧ t.launches = s.launches ∧ (sliceOf t vf).gen = g ∧ t.formed = s.formed ++ [rec' 0x46, rec' 0x47] ∧
            t.sent = s.sent ++ out bs ++ notice bs) ∧
      (∀ s1 bs s2 gs o, cpRead vf c va 128 s0 = (s1, .ok bs) → 2 ≤ (Packet.ofBytes bs).repl → (Packet.ofBytes bs).repl ≤ 64 →
        validate (replicate s1 vf (Packet.ofBytes bs) bs).1 vf c bs = (s2, .inr (gs, o)) → (sliceOf s vf).lastGen.toNat < g.toNat →
        Becomes (.launchPacketRead vf) s fun t =>
          (ctxOf t vf c).head = cx.head + 1 ∧ t.formed = s.formed ∧ (sliceOf t vf).gen = g ∧ (sliceOf t vf).lastGen = g ∧ t.sent = s.sent ++ out bs ∧
            ∃ l r, t.launches = s.launches ++ [l] ∧ l.pkt = Packet.ofBytes bs ∧ l.groups = gs ∧ l.repl = some r ∧ r.dev = 0 ∧ r.gen = g ∧
              r.deadline = s.clk + 17000000 ∧ r.t0 = none ∧ r.started = false) ∧
      (∀ s1 bs s2 cause, cpRead vf c va 128 s0 = (s1, .ok bs) → (Packet.ofBytes bs).repl ≤ 1 ∨ 64 < (Packet.ofBytes bs).repl →
        validate s1 vf c bs = (s2, .inl cause) → Becomes (.launchPacketRead vf) s fun t =>
        (ctxOf t vf c).head = cx.head + 1 ∧ t.launches = s.launches ∧ Forms s t vf c (recKey 1 2 0) (launchBytes s cause cx.head.toNat 0) .none) ∧
      (∀ s1 bs s2 gs o, cpRead vf c va 128 s0 = (s1, .ok bs) → validate s1 vf c bs = (s2, .inr (gs, o)) → (Packet.ofBytes bs).repl ≤ 1 →
        Becomes (.launchPacketRead vf) s fun t => (ctxOf t vf c).head = cx.head + 1 ∧ t.formed = s.formed ∧
          ∃ l, t.launches = s.launches ++ [l] ∧ l.vf = vf ∧ l.ctx = c ∧ l.index = cx.head ∧ l.pkt = Packet.ofBytes bs ∧ l.groups = gs ∧
            l.order = (sliceOf s vf).acceptCount ∧ l.next = 0 ∧ l.total = l.pkt.nx * l.pkt.ny * l.pkt.nz ∧ l.alive = true ∧ l.discarded = false)) ∧
    (∀ vf f r cs, sliceWorks s vf = true → (sliceOf s vf).quiesce = none → examined s vf = f :: r →
      let l := launchOf s f
      let k := l.pkt
      let blk := s.blocks.length
      fits s (sliceOf s vf) f k = some (cs, []) → l.saved = [] → l.repl = none → k.rangesOk = true → k.shapeOk = true →
      Becomes (.blockPlacementAttempt vf) s fun t => t.blocks.length = blk + 1 ∧ (launchOf t f).next = l.next + 1 ∧ (launchOf t f).pass = 0 ∧ (launchOf t f).failSince = none ∧
        (blockOf t blk).launch = f ∧ (blockOf t blk).lin = l.next ∧ (blockOf t blk).status = .resident ∧
        (blockOf t blk).bx = l.next % k.nx ∧ (blockOf t blk).by' = l.next / k.nx % k.ny ∧ (blockOf t blk).bz = l.next / k.nx / k.ny ∧
        (∀ p, p < k.parts → (partOf t (s.parts.length + p)).core = cs.getD p 0 ∧ (partOf t (s.parts.length + p)).scratch = [] ∧
          (partOf t (s.parts.length + p)).dq = []) ∧
        (∀ x j, x < k.warps → j < 64 →
          let u := threadOf (warpOf t (s.warps.length + x)) j
          u.pc = BitVec.ofNat 52 (k.code + k.wentry) ∧ u.exited = decide (k.threads ≤ 64 * x + j) ∧ u.v = List.replicate k.vregs 0 ∧ u.lk = 0 ∧
            u.astat = 0) ∧
        t.mem = s.mem) ∧
    (∀ vf f r, sliceWorks s vf = true → (sliceOf s vf).quiesce = none → examined s vf = f :: r → f < s.launches.length →
      (∀ l ∈ f :: r, fitsNext s (sliceOf s vf) l = none) →
      Becomes (.blockPlacementAttempt vf) s fun t => t = { s with launches := t.launches } ∧
        (launchOf t f).failSince = some ((launchOf s f).failSince.getD s.clk)) ∧
    (∀ vf q f r n ck, vf < s.slices.length → sliceWorks s vf = true → pending s vf = f :: r → (launchOf s f).failSince = some ck → ck + 34000 ≤ s.clk →
      (sliceOf s vf).victimQuad = none → (sliceOf s vf).quads = [q] → lowerBlocks s vf q (launchOf s f).pkt.prio ≠ [] →
      fitsNext s (sliceOf s vf) f = none → fewest s (sliceOf s vf) f (lowerBlocks s vf q (launchOf s f).pkt.prio) = some n →
      Becomes (.priorityVictimMark vf) s fun t => Quiet s t ∧ (sliceOf t vf).victimQuad = some (q, f) ∧
        ∀ b, b < s.blocks.length → (blockOf t b).victim =
          ((blockOf s b).victim || (lowerBlocks s vf q (launchOf s f).pkt.prio).contains b)) ∧
    (∀ blk, blk < s.blocks.length → (blockOf s blk).launch < s.launches.length → (blockOf s blk).victim = true → (blockOf s blk).twin = none →
      (blockOf s blk).status = .resident →
      blockAtPoint s blk = true → blockQuiet s blk = true →
      let s1 := (blockWarps (blockOf s blk)).foldl (fun s w => setWarp s w fun _ => cubePlace s w) s
      Becomes (.blockEvict blk) s fun t => SameRegs s t ∧ t.mem = (saveImage s1 blk).mem ∧ t.hostMem = (saveImage s1 blk).hostMem ∧ (blockOf t blk).status = .saved ∧
        (launchOf t (blockOf s blk).launch).saved = blk :: (launchOf s (blockOf s blk).launch).saved ∧
        ∀ w ∈ blockWarps (blockOf s blk), (warpOf t w).present = false) ∧
    (∀ blk, blk < s.blocks.length → (blockOf s blk).status = .resident → (blockOf s blk).halt = none → (blockOf s blk).stop = none →
      (blockOf s blk).replMode = 0 → (∀ w ∈ blockWarps (blockOf s blk), (warpOf s w).retired = true ∧ drained s w = true) →
      enginesOpen s blk = false →
      Becomes (.blockRetire blk) s fun t => (blockOf t blk).status = .retired ∧
        ∀ p, p < (blockOf s blk).nParts → (partOf t ((blockOf s blk).firstPart + p)).freed = true) ∧
    (∀ blk h, blk < s.blocks.length → (blockOf s blk).launch < s.launches.length → (blockOf s blk).status = .resident → (blockOf s blk).halt = some h →
      h.force = true ∨ (ctxOf s (blockOf s blk).vf (blockOf s blk).ctx).desc.dbg = false ∧ recordWaits s blk = false → blockStopped s blk = true →
      (∀ w ∈ blockWarps (blockOf s blk), issuedDone s w = true ∧ drained s w = true ∧ (warpOf s w).held = []) → enginesOpen s blk = false →
      Becomes (.blockDiscard blk) s fun t => (blockOf t blk).status = .discarded ∧
        (launchOf t (blockOf s blk).launch).discarded = true ∧ (launchOf t (blockOf s blk).launch).saved = [] ∧
        (launchOf t (blockOf s blk).launch).next = (launchOf t (blockOf s blk).launch).total) ∧
    (∀ l r, l < s.launches.length → (launchOf s l).alive = true → (launchOf s l).repl = some r → r.started = false →
      let x := launchOf s l
      let failed := fun (t : State) => (launchOf t l).alive = false ∧ ((sliceOf s x.vf).ifst ≠ .error →
        Forms s t x.vf x.ctx (recKey 1 2 0) (launchBytes s 0x47 x.index.toNat 0) .none) ∧
        (r.dev = 0 → t.sent = s.sent ++ (List.range (x.pkt.repl - 1)).map fun p => ⟨4, x.vf, p + 1, [r.gen.zeroExtend 256]⟩)
      (∀ t0, r.t0 = some t0 →
        (t0.toNat ≤ timeNs s → (ctxOf s x.vf x.ctx).stopped = false → sliceWorks s x.vf = true → Becomes (.replStart l) s fun t => (launchOf t l).repl = some { r with started := true } ∧
          ∀ b, b < s.blocks.length → (blockOf t b).status =
            if (blockOf s b).launch = l ∧ (blockOf s b).status = .reserved then .resident else (blockOf s b).status) ∧
        (timeNs s < t0.toNat ∨ sliceWorks s x.vf = false → Becomes (.replStart l) s fun t => t = s)) ∧
      (r.dev = 0 → r.t0 = none → r.deadline ≤ s.clk → Becomes (.replTimeout l) s failed) ∧
      Becomes (.replRejection l) s failed ∧
      (∀ t0, r.t0 = none → exec (.replT0Receive l t0) s = .next (setLaunch s l fun x => { x with repl := some { r with t0 := some t0 } })) ∧
      (∀ dev time, r.dev = 0 → r.t0 = none → dev < x.pkt.repl →
        let ready := (dev, time) :: r.ready
        (((ready.map (·.1)).eraseDups).length < x.pkt.repl → Becomes (.replReadyReport l dev time) s fun t => t.sent = s.sent ∧
          (launchOf t l).repl = some { r with ready }) ∧
        (x.pkt.repl ≤ ((ready.map (·.1)).eraseDups).length → (∀ y ∈ ready, y.2.toNat < 2 ^ 63) → Becomes (.replReadyReport l dev time) s fun t =>
          ∃ t0 : Dword, (launchOf t l).repl = some { r with ready, t0 := some t0 } ∧ t0.toNat % 80 = 0 ∧
            (∀ y ∈ ready, y.2.toNat + 5000 ≤ t0.toNat) ∧ (∃ y ∈ ready, t0.toNat < y.2.toNat + 5080) ∧
            t.sent = s.sent ++ (List.range (x.pkt.repl - 1)).map fun p => ⟨3, x.vf, p + 1, [t0.zeroExtend 256]⟩))) ∧
    (∀ vf c gen pkt, sliceWorks s vf = true → (ctxOf s vf c).exists' = false ∨ (ctxOf s vf c).stopped = true ∨ 256 ≤ (launchTable s vf).length →
      Becomes (.replPacketReceive vf c gen pkt) s fun t => t.launches = s.launches ∧ t.sent = s.sent ++ [⟨4, vf, 0, [gen.zeroExtend 256]⟩] ∧
        Forms s t vf c (recKey 1 2 0) (launchBytes s 0x47 0 0) .none) ∧
    (∀ vf c gen pkt s1, HasCtx s vf c → sliceWorks s vf = true → (ctxOf s vf c).exists' = true → (ctxOf s vf c).stopped = false →
      (launchTable s vf).length < 256 →
      let rec' := fun (cause : Nat) => (⟨vf, c, recKey 1 2 0, [launchBytes s cause 0 0], .none⟩ : Formed)
      (∀ cause, validate s vf c pkt = (s1, .inl cause) → Becomes (.replPacketReceive vf c gen pkt) s fun t => t.launches = s.launches ∧
        t.sent = s.sent ++ [⟨4, vf, 0, [gen.zeroExtend 256]⟩] ∧ t.formed = s.formed ++ [rec' cause, rec' 0x47]) ∧
      (∀ gs o, validate s vf c pkt = (s1, .inr (gs, o)) → (sliceOf s vf).lastGen.toNat < gen.toNat →
        Becomes (.replPacketReceive vf c gen pkt) s fun t => t.sent = s.sent ∧ t.formed = s.formed ∧ (sliceOf t vf).lastGen = gen ∧
          ∃ l r, t.launches = s.launches ++ [l] ∧ l.pkt = Packet.ofBytes pkt ∧ l.vf = vf ∧ l.ctx = c ∧ l.repl = some r ∧ 1 ≤ r.dev ∧ r.gen = gen ∧
            r.started = false ∧ r.t0 = none) ∧
      (∀ gs o, validate s vf c pkt = (s1, .inr (gs, o)) → gen.toNat ≤ (sliceOf s vf).lastGen.toNat →
        Becomes (.replPacketReceive vf c gen pkt) s fun t => t.launches = s.launches ∧ t.sent = s.sent ++ [⟨4, vf, 0, [gen.zeroExtend 256]⟩] ∧
          t.formed = s.formed ++ [rec' 0x46, rec' 0x47]))

/-! ### Records, registers of a context, debug -/

/-- R240, R296 to R298, R300, R302, R303, R313, R314, R318, R320, R346, R392 to R395, Tables 12-1 and 12-3: the fault queue and the
trace rings are written, and their registers behave, as their entries say; a stop dumps once everything issued has completed; a
debugger stops, steps and resumes, but nothing that waits for a record in PEND. What FQWR.PEND counts is log entry 41, a walk of the
command processor that reads a poisoned entry R355 and R376. -/
def Obligations.RecordsAndDebug : Prop :=
  ∀ s : State,
    (∀ vf c r owner rest, HasCtx s vf c → (ctxOf s vf c).fqPend = ([r], owner) :: rest →
      let cx := ctxOf s vf c
      let va := cx.desc.save + cx.desc.savesize - 65536 + 64 * (cx.fqCount.toNat % 1024)
      let s0 := tellOwner (setCtx s vf c fun x => { x with fqPend := rest }) cx.fqCount.toNat owner
      (1024 ≤ (cx.fqCount - cx.fqRead).toNat → Becomes (.faultRecordWrite vf c) s fun t => t = s) ∧
      (∀ s1, (cx.fqCount - cx.fqRead).toNat < 1024 → cpWrite s0 vf c va r = (s1, .ok ()) →
        exec (.faultRecordWrite vf c) s = .next (signal (setCtx s1 vf c fun x => { x with fqCount := x.fqCount + 1 }) vf 2)) ∧
      (∀ s1 e, (cx.fqCount - cx.fqRead).toNat < 1024 → cpWrite s0 vf c va r = (s1, .err e) →
        Becomes (.faultRecordWrite vf c) s fun t => (ctxOf t vf c).stopped = true ∧ (ctxOf t vf c).fqPend = [] ∧
          ∀ b, b < s.blocks.length → (blockOf s b).vf = vf → (blockOf s b).ctx = c → (blockOf s b).status = .resident →
            (blockOf t b).halt.isSome = true)) ∧
    (∀ vf unit r rest, vf < s.slices.length → unit < (sliceOf s vf).trace.length →
      let sl := sliceOf s vf
      let u := sl.trace.getD unit TraceUnit.reset
      let rec' := fun (lost : Bool) => r.mapIdx fun i b => if lost ∧ i = 1 then b ||| 0x20 else b
      let slot := fun (buf wr : Dword) => (buf.extractLsb' 12 40).toNat * 4096 + 32 * (wr.toNat % (128 * ((buf.extractLsb' 0 12).toNat + 1)))
      (∀ s1, sl.trchold.getLsbD unit = false → u.waiting = r :: rest →
        cpWrite s vf (u.ctl.extractLsb' 1 6).toNat (slot u.buf u.wr) (rec' u.lostFlag) = (s1, .ok ()) →
        exec (.traceRecordWrite vf unit) s = .next (setSlice s1 vf fun sl => { sl with trace := modAt sl.trace unit fun u =>
          { u with waiting := rest, wr := u.wr + 1, lostFlag := false } })) ∧
      (∀ s1 e, sl.trchold.getLsbD unit = false → u.waiting = r :: rest →
        cpWrite s vf (u.ctl.extractLsb' 1 6).toNat (slot u.buf u.wr) (rec' u.lostFlag) = (s1, .err e) →
        exec (.traceRecordWrite vf unit) s = .next (walkPoison (setSlice s1 vf fun sl => { sl with trace := modAt sl.trace unit fun u =>
          { u with waiting := rest, lost := u.lost + 1, ctl := u.ctl &&& ~~~1 } }) vf (u.ctl.extractLsb' 1 6).toNat (slot u.buf u.wr) e)) ∧
      (∀ k more, sl.trchold.getLsbD unit = true → sl.hvheld = (k, r) :: more → s.hostMem.wf = true →
        Becomes (.traceRecordWrite vf unit) s fun t => Overlays t.hostMem s.hostMem (slot sl.hvbuf sl.hvwr) (rec' sl.hvmark) ∧ t.mem = s.mem ∧
          (sliceOf t vf).hvwr = sl.hvwr + 1 ∧ (sliceOf t vf).hvheld = more ∧ (sliceOf t vf).hvmark = false)) ∧
    (∀ vf unit val, vf < s.slices.length → unit < (sliceOf s vf).trace.length →
      let sl := sliceOf s vf
      let u := sl.trace.getD unit TraceUnit.reset
      let sper := (val.extractLsb' 7 5).toNat
      let kept : Dword := if 10 ≤ sper ∧ sper ≤ 20 then val &&& 0x3FFF else val &&& 0x307F
      Becomes (.trcctlWrite vf unit val) s fun t => t = { s with slices := t.slices } ∧
        (sliceOf t vf).trace.getD unit TraceUnit.reset =
          if sl.trchold.getLsbD unit then u else
          match u.ctl.getLsbD 0, val.getLsbD 0 with
          | true, true => u
          | true, false => { u with ctl := kept }
          | false, true => { u with ctl := kept, wr := 0, lost := 0, lostFlag := false }
          | false, false => { u with ctl := kept }) ∧
    (∀ vf c val, HasCtx s vf c →
      let cx := ctxOf s vf c
      let low : Word := val.extractLsb' 0 32
      exec (.fqrdWrite vf c val) s = .next (if (cx.fqCount - low).toNat ≤ 1024 then setCtx s vf c fun x => { x with fqRead := low } else s) ∧
      exec (.asumWrite vf c val) s = .next (setCtx s vf c fun x => { x with asum := x.asum &&& ~~~(val.extractLsb' 0 6) }) ∧
      exec (.replstatWrite vf c val) s = .next (setCtx s vf c fun x => { x with replstat := x.replstat &&& ~~~(val &&& 3) }) ∧
      (Becomes (.counterPageSelect vf c val) s fun t => t = { s with slices := t.slices } ∧
        let set := (val.extractLsb' 0 16).toNat
        (bankHeld s vf c = true → t = s) ∧
        (bankHeld s vf c = false → 4 < set → ctxOf t vf c = { cx with cntStatus := 2 }) ∧
        (bankHeld s vf c = false → set ≤ 4 →
          ctxOf t vf c = { cx with cntSet := BitVec.ofNat 16 set, counts16 := List.replicate 16 0, cntStatus := 0 })) ∧
      (cx.run ≠ .suspended → Becomes (.fqreplay vf c val) s fun t => Quiet s t ∧
        (∀ w id b r replay fetch, (blockOf s (warpOf s w).blk).vf = vf → (blockOf s (warpOf s w).blk).ctx = c →
          (blockOf s (warpOf s w).blk).twin = none → w ∈ blockWarps (blockOf s (warpOf s w).blk) → (warpOf s w).blk < s.blocks.length →
          bundleOf (warpOf s w) id = some b → b.hold = some (.page r replay fetch) → counterpart s w = none →
          (∀ x, counterpart s x ≠ some w) →
          bundleOf (warpOf t w) id = some (if r < low.toNat then { b with hold := some (.page r true fetch) } else b)) ∧
        ∀ o ∈ s.ops, o.vf = vf → o.ctx = c → ∀ r replay, o.parked = some (r, replay) → r < low.toNat →
          { o with parked := some (r, true) } ∈ t.ops) ∧
      (∀ w, cx.run = .stopping → (warpOf s w).blk < s.blocks.length → (blockOf s (warpOf s w).blk).vf = vf → (blockOf s (warpOf s w).blk).ctx = c →
        (blockOf s (warpOf s w).blk).status = .resident → w ∈ blockWarps (blockOf s (warpOf s w).blk) → replayPcs (warpOf s w) low.toNat ≠ [] →
        Becomes (.fqreplay vf c val) s fun t => (ctxOf t vf c).run = .quiescing) ∧
      (cx.run = .suspended → Becomes (.fqreplay vf c val) s fun t => t = s)) ∧
    (∀ w id b, (warpOf s w).blk < s.blocks.length → bundleOf (warpOf s w) id = some b →
      let k := blockOf s (warpOf s w).blk
      let cx := ctxOf s k.vf k.ctx
      cx.desc.dbg = true → k.status = .resident → k.stop = none →
      (∃ r ∈ cx.dbgbp, r.getLsbD 63 = true ∧ r.extractLsb' 2 50 = (pcOf (warpOf s w) b).extractLsb' 2 50) →
      Becomes (.breakpointStop w id) s fun t => Quiet s t ∧ ∃ st, (blockOf t (warpOf s w).blk).stop = some st ∧ st.cause = 2 ∧ (w, id) ∈ st.trig) ∧
    (∀ blk st, blk < s.blocks.length → (blockOf s blk).status = .resident → (blockOf s blk).stop = some st → st.dumped = false →
      (blockOf s blk).halt = none →
      let b := blockOf s blk
      (blockDone s blk = true → HasCtx s b.vf b.ctx → Becomes (.debugStopDump blk) s fun t => SameRegs s t ∧ t.parts = s.parts ∧
        (blockOf t blk).stop = some { st with dumped := true } ∧ (ctxOf t b.vf b.ctx).dbgCause = st.cause) ∧
      (blockDone s blk = false → Becomes (.debugStopDump blk) s fun t => t = s)) ∧
    (∀ blk h, blk < s.blocks.length → (blockOf s blk).status = .resident → (blockOf s blk).halt = some h → h.force = false →
      (ctxOf s (blockOf s blk).vf (blockOf s blk).ctx).desc.dbg = true → (sliceOf s (blockOf s blk).vf).ifst ≠ .error →
      (∀ st, (blockOf s blk).stop = some st → st.cause = 4 → st.dumped = false) → blockStopped s blk = true → blockDone s blk = true →
      Becomes (.debugStopDump blk) s fun t => SameRegs s t ∧ t.parts = s.parts ∧ (blockOf t blk).stop = some ⟨4, h.trig, true⟩) ∧
    (∀ blk st, blk < s.blocks.length → (blockOf s blk).step = some st → (blockOf s blk).halt = none → (∀ x ∈ st.left, stepIdle s x = true) →
      blockDone s blk = true →
      Becomes (.stepEnd blk) s fun t => SameRegs s t ∧ (blockOf t blk).step = none ∧
        ∃ x, (blockOf t blk).stop = some x ∧ x.cause = 3 ∧ x.dumped = true) ∧
    (∀ vf c blk, (ctxOf s vf c).desc.dbg = true → (ctxOf s vf c).stopped = false → blk < s.blocks.length → (blockOf s blk).vf = vf → (blockOf s blk).ctx = c →
      (blockOf s blk).status = .resident → (blockOf s blk).twin = none →
      ((blockOf s blk).stop = none → (blockOf s blk).halt = none → Becomes (.dbgStop vf c) s fun t => Quiet s t ∧
        ∃ st, (blockOf t blk).stop = some st ∧ st.cause = 0 ∧ st.dumped = false) ∧
      (∀ st, freeToGo s vf c = [blk] → (blockOf s blk).stop = some st → st.dumped = true →
        ((∀ w ∈ blockWarps (blockOf s blk), ∀ x ∈ (warpOf s w).bundles, dqWait x = false) →
          Becomes (.dbgResume vf c) s fun t => (blockOf t blk).stop = none ∧ (blockOf t blk).halt = none ∧ (blockOf t blk).step = none ∧
          t.mem = s.mem ∧ t.parts.map (·.accs) = s.parts.map (·.accs)) ∧
        (Becomes (.dbgStep vf c) s fun t => (∃ x, (blockOf t blk).step = some x) ∨ ∃ x, (blockOf t blk).stop = some x ∧ x.cause = 3) ∧
        (Becomes (.dbgBstep vf c) s fun t => (∃ x, (blockOf t blk).step = some x) ∨ ∃ x, (blockOf t blk).stop = some x ∧ x.cause = 3))) ∧
    (∀ vf c, (ctxOf s vf c).desc.dbg = false →
      ∀ x ∈ [Instr.dbgStop vf c, .dbgResume vf c, .dbgStep vf c, .dbgBstep vf c], Becomes x s fun t => t = s) ∧
    (∀ vf c, (ctxOf s vf c).stopped = true ∨ freeToGo s vf c = [] → ∀ x ∈ [Instr.dbgResume vf c, .dbgStep vf c, .dbgBstep vf c], Becomes x s fun t => t = s)

/-! ### The mailbox and slices -/

/-- R15, R77, R262 to R264, R270, R278 to R285, R290 to R292, R370, R379, R385, Tables 11-1 to 11-3: the commands of the PF and the
quiesce complete as their entries say, each with its status, a RELEASE and a MERGE once their last channel has been swept; while a
command is under way a further one is ignored, before Noon stage each answers NOTREADY, and once a shared unit has failed STATE (log
entry 101). A SPLIT ends, or is given up, at the end of a ck (`splitCk`). The bytes of a sealed image, the order of statuses, the session
of a migration and how long a RELEASE, a sweep and a copy take are the model's (log entries 4, 12, 18, 24, 62 to 64, 66, 69 and 100). -/
def Obligations.MailboxCommands : Prop :=
  ∀ s : State, s.slices.length = 17 → s.channels.length = 384 →
    let ends := fun (t : State) (st : Byte) => t.pfBusy = false ∧ t.pfStatus = st ∧ t.msi.getLast? = some (0, 0)
    let done := fun (s : State) (st : Byte) => { s with pfBusy := false, pfStatus := st, msi := s.msi ++ [(0, 0)] }
    (∀ vf (arg : Word) q b op un, ∀ x ∈ [Instr.assign vf q, .release vf, .quiesce vf arg, .resume vf arg, .merge vf b, .split vf q b, .sealImage vf arg,
        .unsealImage vf arg, .setallow vf ⟨arg, un⟩, .setroute vf ⟨arg, un⟩, .setmap vf arg, .setpeer vf ⟨arg, un⟩, .setrun vf ⟨arg, un⟩, .pfcmdReserved op],
      (s.pfBusy = true → Becomes x s fun t => t = s) ∧ (s.stage = 1 → s.pfBusy = false → exec x s = .next (done s 1)) ∧
      (s.stage = 2 → s.pfBusy = false → s.sharedFail = true → exec x s = .next (done s 5))) ∧
    (s.stage = 2 → s.pfBusy = false → s.sharedFail = false →
      (∀ op, exec (.pfcmdReserved op) s = .next (done s 2)) ∧
      (∀ vf (arg : Word) q b un, (sliceOf s vf).used = false → ∀ x ∈ [Instr.release vf, .quiesce vf arg, .resume vf arg, .split vf q b, .sealImage vf arg,
          .unsealImage vf arg, .setallow vf ⟨arg, un⟩, .setroute vf ⟨arg, un⟩, .setmap vf arg, .setpeer vf ⟨arg, un⟩, .setrun vf ⟨arg, un⟩], exec x s = .next (done s 4)) ∧
      (∀ vf (arg : Word) q b un, (sliceOf s vf).used = true → (sliceOf s vf).ifst = .error ∨ (sliceOf s vf).resetting.isSome = true →
        ∀ x ∈ [Instr.assign vf q, .quiesce vf arg, .resume vf arg, .merge vf b, .merge b vf, .split vf q b, .sealImage vf arg,
          .unsealImage vf arg, .setallow vf ⟨arg, un⟩, .setroute vf ⟨arg, un⟩, .setmap vf arg, .setpeer vf ⟨arg, un⟩, .setrun vf ⟨arg, un⟩], exec x s = .next (done s 5)) ∧
      (∀ vf q, vf < 17 → (sliceOf s vf).used = false →
        let qs := (List.range 16).filter q.getLsbD
        let others := ((s.slices.map (·.allow)).sum)
        qs ≠ [] → (∀ k ∈ qs, (∀ sl ∈ s.slices, sl.used = true → k ∉ sl.quads) ∧ ∀ c ∈ quadChans k, (chanReg s c).pend = false) →
        Becomes (.assign vf q) s fun t => ends t 0 ∧ Quiet s t ∧ t.keyCount = s.keyCount + 1 ∧ (∀ v, v ≠ vf → sliceOf t v = sliceOf s v) ∧
          let sl := sliceOf t vf
          sl.used = true ∧ sl.quads = qs ∧ sl.ifst = .unlocked ∧ sl.allow = min (16 * qs.length) (256 - others) ∧ sl.key = s.keyCount + 1 ∧
          sl.lcores = (qs.flatMap fun k => (List.range 4).map (4 * k + ·)).filter (fun c => (coreOf s c).inService) ∧
          (∀ c, c < 64 → (ctxOf t vf c).exists' = false) ∧ ∀ k ∈ qs, ∀ c ∈ quadChans k, (chanReg t c).key = sl.key) ∧
      (∀ vf, vf < 17 → (sliceOf s vf).used = true → (sliceOf s vf).resetting = none → (∀ k ∈ (sliceOf s vf).quads, k < 16) →
        Becomes (.release vf) s fun t => t.pfBusy = true ∧ (sliceOf t vf).resetting = some true ∧ (∀ c, c < 64 → (ctxOf t vf c).exists' = false) ∧
          ∀ k ∈ (sliceOf s vf).quads, ∀ c ∈ quadChans k, (chanReg t c).pend = true) ∧
      (∀ vf c us, HasCtx s vf c → Serves s vf → c < 64 → us < 2 ^ 24 → 0 < us → (sliceOf s vf).quiesce = none → (ctxOf s vf c).exists' = true →
        (ctxOf s vf c).run = .running →
        Becomes (.quiesce vf (BitVec.ofNat 32 (c + 256 * us))) s fun t => t.pfBusy = true ∧ Quiet s t ∧ (ctxOf t vf c).run = .quiescing ∧
          (ctxOf t vf c).dusk = true ∧ (sliceOf t vf).quiesce = some ⟨[c], true, s.clk + 1700 * us, none⟩) ∧
      (∀ vf c, HasCtx s vf c → Serves s vf → c < 64 → (sliceOf s vf).quiesce = none → (ctxOf s vf c).exists' = true →
        (ctxOf s vf c).run = .suspended →
        (offers (sliceOf s vf) (ctxOf s vf c).counts = true → Becomes (.resume vf (BitVec.ofNat 32 c)) s fun t => ends t 0 ∧
          (ctxOf t vf c).run = .running ∧ (ctxOf t vf c).dusk = false) ∧
        (offers (sliceOf s vf) (ctxOf s vf c).counts = false → exec (.resume vf (BitVec.ofNat 32 c)) s = .next (done s 9))) ∧
      (∀ a b, Serves s a → b < 17 → a ≠ b →
        let sa := sliceOf s a
        let sb := sliceOf s b
        sb.used = true → sb.ifst = .unlocked → sb.resetting = none → (∀ c ∈ sb.ctxs, c.exists' = false) → suspended sa = true →
        sa.quiesce = none → sb.quiesce = none → policyAdmits sa (sa.quads ++ sb.quads) = true → (∀ k ∈ sb.quads, k < 16) →
        Becomes (.merge a b) s fun t => t.pfBusy = true ∧ t.pfShape = some (.merge a b) ∧ SameRegs s t ∧ t.mem = s.mem ∧
          (∀ k ∈ sb.quads, ∀ c ∈ quadChans k, (chanReg t c).key = sa.key ∧ (chanReg t c).sweep = some (s.clk + sweepCk)) ∧
          ∀ l ∈ t.lines, quadOf (256 * l.line) ∉ sb.quads) ∧
      (∀ a q b, Serves s a → b < 17 → a ≠ b →
        let sa := sliceOf s a
        let qs := (List.range 16).filter q.getLsbD
        let rest := sa.quads.filter (fun k => !(qs.contains k))
        qs ≠ [] → (∀ k ∈ qs, k ∈ sa.quads) → rest ≠ [] → (sliceOf s b).used = false → suspended sa = true → sa.quiesce = none →
        (∀ o ∈ s.ops, o.vf = a → o.parked = none) →
        (∀ e ∈ sa.slicemap, e.getLsbD 15 = true → (e.extractLsb' 0 10).toNat / 48 ∉ qs) → policyAdmits sa rest = true →
        Becomes (.split a q b) s fun t => t.pfBusy = true ∧ ∃ x, t.pfShape = some (.split a q b x)) ∧
      (∀ vf arg, Serves s vf →
        let sl := sliceOf s vf
        let here := hostPlace 0 s.pfaddr.toNat
        let allows := sl.slpolicy.getLsbD 26
        -- an image stands at PFADDR as its own sealed bytes, one header and its chunks
        let stands := fun (t : State) (i : Image) => t.images = i :: s.images ∧ i.session = s.sessionCount ∧
          ∀ x, memRead t.hostMem x = if here ≤ x ∧ x < here + 65536 * (1 + i.chunks) then Config.sealByte i.num (x - here) else memRead s.hostMem x
        (suspended sl = false ∨ migrating s = false → exec (.sealImage vf arg) s = .next (done s 5) ∧ exec (.unsealImage vf arg) s = .next (done s 5)) ∧
        (suspended sl = true → migrating s = true →
          (allows = false → exec (.sealImage vf arg) s = .next (done s 6)) ∧
          (arg = 0xFFFFFFFF →
            (allows = true → s.hostMem.wf = true → Becomes (.sealImage vf arg) s fun t => ends t 0 ∧ SameRegs s t ∧ t.mem = s.mem ∧
              ∃ i, stands t i ∧ i.isState = true ∧ i.ctxs = (liveCtxs sl).map (ctxOf s vf) ∧ i.lcores = sl.lcores ∧ i.quads = sl.quads ∧
                i.peers = sl.peers.map (·.entry) ∧ i.topo = sl.topo) ∧
            (¬(sl.ifst = .locked ∨ sl.ifst = .run) ∨ allows = true →
              (liveCtxs sl ≠ [] → exec (.unsealImage vf arg) s = .next (done s 5)) ∧
              (liveCtxs sl = [] →
                (importable s arg = none → exec (.unsealImage vf arg) s = .next (done s 10)) ∧
                (∀ i, importable s arg = some i →
                  ((offers sl i.counts = false ∨ ∃ c ∈ i.ctxs, offers sl c.counts = false) → exec (.unsealImage vf arg) s = .next (done s 9)) ∧
                  (offers sl i.counts = true → (∀ c ∈ i.ctxs, offers sl c.counts = true ∧ HasCtx s vf c.n) → (i.ctxs.map (·.n)).Nodup →
                    Becomes (.unsealImage vf arg) s fun t => ends t 0 ∧ (i.blocks = [] → t.mem = s.mem) ∧
                      (∀ w l, w < s.warps.length → threadOf (warpOf t w) l = threadOf (warpOf s w) l) ∧ (sliceOf t vf).topo = i.topo ∧
                      ∀ c ∈ i.ctxs, let x := ctxOf t vf c.n
                        x.exists' = c.exists' ∧ x.run = .suspended ∧ x.att = c.att ∧ x.next = c.next ∧ x.desc = c.desc ∧ x.bankKey = c.bankKey))))) ∧
          (∀ base, arg ≠ 0xFFFFFFFF → granuleBase sl arg.toNat = some base →
            (allows = true → s.hostMem.wf = true → Becomes (.sealImage vf arg) s fun t => ends t 0 ∧ SameRegs s t ∧ t.mem = s.mem ∧
              ∃ i, stands t i ∧ i.isState = false ∧ i.index = arg.toNat ∧ i.chunks = 16384 ∧
                ∀ k, k < 2 ^ 30 → memRead i.granule k = memRead s.mem (base + k)) ∧
            (¬(sl.ifst = .locked ∨ sl.ifst = .run) ∨ allows = true →
              (∀ i, importable s arg = some i → i.granule.wf = true → (∀ c ∈ i.granule, c.1 < 2 ^ 30) → s.mem.wf = true →
                Becomes (.unsealImage vf arg) s fun t => ends t 0 ∧ SameRegs s t ∧
                  ∀ x, memRead t.mem x = if base ≤ x ∧ x < base + 2 ^ 30 then memRead i.granule (x - base) else memRead s.mem x) ∧
              (importable s arg = none → exec (.unsealImage vf arg) s = .next (done s 10)))))) ∧
      (∀ (vf : Nat) (arg : Word) un, Serves s vf →
        let sl := sliceOf s vf
        let locked : Prop := sl.ifst = .locked ∨ sl.ifst = .run
        let n := (arg.extractLsb' 0 9).toNat
        let m := (arg.extractLsb' 0 7).toNat
        let p := (arg.extractLsb' 16 6).toNat
        let e : Half := arg.extractLsb' 0 16
        let others := (((s.slices.filter fun sl => sl.vf != vf).map (·.allow)).sum)
        (¬locked → 1 ≤ n → n ≤ 256 → others + n ≤ 256 → exec (.setallow vf ⟨arg, un⟩) s = .next (done (setSlice s vf fun sl => { sl with allow := n }) 0)) ∧
        (¬locked → 256 < others + n → exec (.setallow vf ⟨arg, un⟩) s = .next (done s 2)) ∧
        (¬locked → arg.toNat < 2 ^ 17 → s.pfdata.toNat < 2 ^ 24 →
          let entry : Half × Word := (BitVec.ofNat 16 (arg.toNat / 64), BitVec.ofNat 32 s.pfdata.toNat)
          exec (.setroute vf ⟨arg, un⟩) s = .next (done (setSlice s vf fun sl => { sl with routes := modAt sl.routes (arg.toNat % 64) fun _ => entry }) 0)) ∧
        (suspended sl = true → let i := arg.toNat / 2 ^ 16 % 1024
          exec (.setmap vf arg) s = .next (done (setSlice s vf fun sl => { sl with slicemap := modAt sl.slicemap i fun _ => e }) 0)) ∧
        (suspended sl = false → exec (.setmap vf arg) s = .next (done s 5)) ∧
        (¬locked → suspended sl = true → p ≠ 0 → arg.getLsbD 15 = false → arg.toNat < 2 ^ 22 → p < sl.peers.length →
          Becomes (.setpeer vf ⟨arg, un⟩) s fun t => ends t 0 ∧ Quiet s t ∧ t.keyCount = s.keyCount + 1 ∧ (peerOf t vf p).entry = e ∧
            (peerOf t vf p).keys = e.getLsbD 14 ∧ (peerOf t vf p).key = s.keyCount + 1 ∧ (peerOf t vf p).nextSeq = 0 ∧
            (peerOf t vf p).counter = 0 ∧ (peerOf t vf p).rxNext = 0) ∧
        (¬locked → m ≤ 64 → exec (.setrun vf ⟨arg, un⟩) s = .next (done (setSlice s vf fun sl => { sl with runlen := if m = 0 then 16 else m }) 0)) ∧
        (locked → ∀ x ∈ [(Instr.setallow vf ⟨arg, un⟩, 9), (.setroute vf ⟨arg, un⟩, 10), (.setrun vf ⟨arg, un⟩, 13)], Becomes x.1 s fun t => ends t 6 ∧
          (sliceOf t vf).lockCount = sl.lockCount + 1 ∧ (sl.locklog.length < 16 → (sliceOf t vf).locklog = sl.locklog ++
            [⟨0x0400, 1, BitVec.ofNat 64 (x.2 + (vf - 1) * 2 ^ 8 + un.toNat * 2 ^ 12 + arg.toNat * 2 ^ 32)⟩]) ∧ (sliceOf t vf).allow = sl.allow ∧ (sliceOf t vf).routes = sl.routes ∧
          (sliceOf t vf).runlen = sl.runlen))) ∧
    (∀ ch e, (chanReg s ch).sweep = some e → e ≤ s.clk →
      (∀ vf, vf < 17 → (sliceOf s vf).resetting = some true → s.pfShape = none → s.sharedFail = false →
        (∀ k ∈ (sliceOf s vf).quads, ∀ c ∈ quadChans k, c ≠ ch → (chanReg s c).pend = false) →
        Becomes (.midnightScrubEnd ch) s fun t => ends t 0 ∧ (sliceOf t vf).used = false) ∧
      (∀ a b, a < 17 → b < 17 → a ≠ b →
        let sa := sliceOf s a
        let sb := sliceOf s b
        let new := sortBy (fun x y => decide (x ≤ y)) sb.quads
        s.pfShape = some (.merge a b) → sa.resetting = none → (∀ k ∈ sb.quads, k < 16 ∧ ∀ c ∈ quadChans k, c ≠ ch → (chanReg s c).sweep = none) →
        Becomes (.midnightScrubEnd ch) s fun t => ends t 0 ∧ t.pfShape = none ∧ SameRegs s t ∧ (sliceOf t b).used = false ∧
          (sliceOf t a).quads = sa.quads ++ new ∧ (sliceOf t a).lcores = sa.lcores ++ coresOf s new ∧
          (sliceOf t a).allow = sa.allow + sb.allow ∧ ∀ k ∈ sb.quads, ∀ c ∈ quadChans k, (chanReg t c).key = sa.key)) ∧
    (∀ a q b, a < 17 → b < 17 → a ≠ b → (sliceOf s b).used = false → (∀ v, v < 17 → (sliceOf s v).vf = v) →
      let sa := sliceOf s a
      let qs := (List.range 16).filter q.getLsbD
      let others := (((s.slices.filter fun sl => sl.vf != a && sl.vf != b).map (·.allow)).sum)
      let left := max 1 (sa.allow - 16 * qs.length)
      (s.pfShape = some (.split a q b true) → (∀ k ∈ qs, ∀ c ∈ quadChans k, (chanReg s c).pend = false) →
        ends (splitCk s) 0 ∧ (splitCk s).pfShape = none ∧ SameRegs s (splitCk s) ∧
          (sliceOf (splitCk s) a).quads = sortBy (fun x y => decide (x ≤ y)) (sa.quads.filter fun k => !(qs.contains k)) ∧
          (sliceOf (splitCk s) a).allow = left ∧ (sliceOf (splitCk s) b).used = true ∧ (sliceOf (splitCk s) b).quads = qs ∧
          (sliceOf (splitCk s) b).ifst = .unlocked ∧ (sliceOf (splitCk s) b).allow = min (16 * qs.length) (256 - (others + left))) ∧
      (s.pfShape = some (.split a q b true) → (∃ k ∈ qs, ∃ c ∈ quadChans k, (chanReg s c).pend = true) → splitCk s = s) ∧
      (s.pfShape = some (.split a q b false) → sa.ifst = .error ∨ sa.resetting.isSome = true →
        splitCk s = done { s with pfShape := none } 5)) ∧
    (∀ vf c m d, HasCtx s vf c → (sliceOf s vf).ifst ≠ .error → (sliceOf s vf).quiesce = some ⟨[c], m, d, none⟩ → (ctxOf s vf c).exists' = true →
      ((ctxOf s vf c).run = .quiescing → (∀ b ∈ residentOf s vf [c], blockAtPoint s b = true) →
        Becomes (.quiesceSave vf) s fun t => Quiet s t ∧ (ctxOf t vf c).run = .stopping) ∧
      ((ctxOf s vf c).run = .stopping → (∀ o ∈ s.ops, o.vf = vf → o.ctx = c → opAtRest s o = true) →
        (∀ b ∈ residentOf s vf [c], blockQuiet s b = true) →
        Becomes (.quiesceSave vf) s fun t => ends t 0 ∧ SameRegs s t ∧ (ctxOf t vf c).run = .suspended ∧ (sliceOf t vf).quiesce = none ∧
          ∀ b ∈ residentOf s vf [c], (blockOf t b).status = .saved) ∧
      ((ctxOf s vf c).run = .quiescing → d ≤ s.clk →
        Becomes (.quiesceTimeout vf) s fun t => ends t 8 ∧ (ctxOf t vf c).run = .running ∧ (ctxOf t vf c).dusk = false ∧
          (sliceOf t vf).quiesce = none) ∧
      (s.clk < d → Becomes (.quiesceTimeout vf) s fun t => t = s))

/-! ### Requests of the host, and the security processor -/

/-- R4, R14, R37, R149, R265 to R268, R273, R275, R276, R325, R384, R388, R390, Tables 11-4 to 11-7: contexts are made and destroyed, code is
admitted and measured, registers are written as their entries say, a locked interface drops and logs a write, and the security
processor answers each request at its step of the exchange, or with an error and no change. The contents of answers, the order of what
measurement 3 hashes, statuses that no row names, writes to a slice in ERROR and the place of the Revision ID are the model's (log entries 7, 23, 27, 65, 77 and
97). -/
def Obligations.HostAndSecurity : Prop :=
  ∀ s : State,
    (∀ vf c, s.stage = 2 → HasCtx s vf c → Serves s vf →
      let status := fun (t : State) (st : Nat) => (sliceOf t vf).ctxstat = BitVec.ofNat 64 (256 * st)
      let cx := ctxOf s vf c
      ((ctxOf s vf c).exists' = true → Becomes (.create vf c) s (fun t => status t 2 ∧ ctxOf t vf c = cx)) ∧
      (∀ s1 bs, cx.exists' = false → readDesc s vf c = (s1, some bs) → descOk bs = true →
        Becomes (.create vf c) s fun t => status t 0 ∧ (ctxOf t vf c).exists' = true ∧ (ctxOf t vf c).run = .running ∧
          (ctxOf t vf c).desc = CtxDesc.ofBytes bs ∧ (ctxOf t vf c).head = 0 ∧ (ctxOf t vf c).tail = 0 ∧ (ctxOf t vf c).fqCount = 0 ∧
          (ctxOf t vf c).att = 0 ∧ (ctxOf t vf c).next = 0 ∧ t.keyCount = s1.keyCount + 1) ∧
      (∀ s1 bs, cx.exists' = false → readDesc s vf c = (s1, some bs) → descOk bs = false →
        Becomes (.create vf c) s fun t => status t 1 ∧ (ctxOf t vf c).exists' = false) ∧
      (cx.exists' = false → Becomes (.destroy vf c) s fun t => status t 3 ∧ ctxOf t vf c = cx) ∧
      (cx.exists' = true → Becomes (.destroy vf c) s fun t => status t 0 ∧ t.mem = s.mem ∧ (ctxOf t vf c).exists' = false ∧ (ctxOf t vf c).chains = [] ∧
        (∀ b, b < s.blocks.length → (blockOf s b).vf = vf → (blockOf s b).ctx = c → (blockOf s b).status = .resident →
          (blockOf t b).status = .discarded) ∧ ∀ o ∈ t.ops, ¬(o.vf = vf ∧ o.ctx = c)) ∧
      (let va := ((sliceOf s vf).loadaddr.extractLsb' 0 52).toNat
       cx.exists' = true →
       (∀ s1 h s2 bs, cpRead vf c va 128 s = (s1, .ok h) → headerStatus s.stepping h = 0 → va % 256 = 0 →
         cpRead vf c va (fieldOf h 0x0C 4) s1 = (s2, .ok bs) → objectStatus bs = 0 →
         Becomes (.codeLoad vf c) s fun t => (ctxOf t vf c).next = cx.next + 1 ∧
           (ctxOf t vf c).att = reg256 (sha256 (bytesOf 32 cx.att.toNat ++ sha256 bs)) ∧
           (sliceOf t vf).loadstat = BitVec.ofNat 64 ((cx.next + 1).toNat * 2 ^ 32) ∧ ∃ o ∈ (ctxOf t vf c).codes, o.addr = va) ∧
       (∀ s1 h, cpRead vf c va 128 s = (s1, .ok h) → headerStatus s.stepping h ≠ 0 →
         Becomes (.codeLoad vf c) s fun t => (ctxOf t vf c).next = cx.next ∧ (ctxOf t vf c).att = cx.att ∧
           (sliceOf t vf).loadstat = BitVec.ofNat 64 (256 * headerStatus s.stepping h + cx.next.toNat * 2 ^ 32) ∧
           ∀ o ∈ (ctxOf t vf c).codes, o.addr ≠ va))) ∧
    (∀ bar off val, s.stage = 0 → exec (.registerWrite bar off val) s = .next s) ∧
    (∀ bar off val, off ≠ 0x0400 → s.sharedFail = true → exec (.registerWrite bar off val) s = .next s) ∧
    (∀ vf c val, s.stage = 2 → s.sharedFail = false → (sliceOf s vf).used = true → c < 64 →
      exec (.registerWrite .pf0 0x0040 val) s = .next s ∧
      exec (.registerWrite .pf0 0x0410 val) s = .next { s with pfaddr := val &&& 0x000FFFFFFFFF0000 } ∧
      exec (.registerWrite .pf0 0x0418 val) s = .next { s with pfdata := val &&& 0xFFFFFFFF } ∧
      exec (.registerWrite (.vf0 vf) 0x0390 val) s = .next s ∧
      exec (.registerWrite (.vf0 vf) 0x0328 val) s = .next (setSlice s vf fun sl => { sl with loadaddr := val &&& 0x000FFFFFFFFFFFFF }) ∧
      exec (.registerWrite (.vf0 vf) (0x1000 + 16 * c) val) s = exec (.lqDoorbell vf c (val.extractLsb' 0 32)) s ∧
      exec (.registerWrite (.vf0 vf) (0x2008 + 16 * c) val) s = exec (.fqrdWrite vf c val) s ∧
      exec (.registerWrite (.vf0 vf) (0x2600 + 8 * c) val) s = exec (.asumWrite vf c val) s ∧
      exec (.registerWrite (.vf0 vf) (0x3000 + 8 * c) val) s = exec (.fqreplay vf c val) s ∧
      exec (.registerWrite (.vf0 vf) 0x0200 val) s = exec (.tlbinv vf val) s ∧
      ((sliceOf s vf).ifst = .unlocked → exec (.registerWrite (.vf0 vf) 0x0380 val) s =
        .next (setSlice s vf fun sl => { sl with slpolicy := val &&& 0x07FFFFFF }))) ∧
    (∀ vf off data hyp, s.stage ≠ 0 → s.sharedFail = false → vf < s.slices.length → (sliceOf s vf).used = true → (sliceOf s vf).ifst ≠ .unlocked →
      (sliceOf s vf).locklog.length < 16 →
      (Becomes (.lockedRegisterWrite vf off data hyp) s fun t => t = { s with slices := t.slices, msi := s.msi ++ [(vf, 4), (0, 1)] } ∧
        (sliceOf t vf).regs = (sliceOf s vf).regs ∧ (sliceOf t vf).slpolicy = (sliceOf s vf).slpolicy ∧
        (sliceOf t vf).lockCount = (sliceOf s vf).lockCount + 1 ∧
        (sliceOf t vf).locklog = (sliceOf s vf).locklog ++ [⟨BitVec.ofNat 32 off, if hyp then 1 else 0, data⟩]) ∧
      ((sliceOf s vf).ifst = .run → Becomes (.ideOutsideStreamRequest vf off data) s fun t =>
        t = { s with slices := t.slices, msi := s.msi ++ [(vf, 4), (0, 1)] } ∧ (sliceOf t vf).regs = (sliceOf s vf).regs ∧
        (sliceOf t vf).locklog = (sliceOf s vf).locklog ++ [⟨BitVec.ofNat 32 off, 2, data⟩])) ∧
    (∀ vf data hyp, s.stage ≠ 0 → s.sharedFail = false → (sliceOf s vf).used = true → (sliceOf s vf).ifst = .unlocked →
      exec (.lockedRegisterWrite vf 0x0380 data hyp) s = .next (setSlice s vf fun sl => { sl with slpolicy := data &&& 0x07FFFFFF })) ∧
    (∀ fn off, s.stage ≠ 0 → Becomes (.pcieConfigRequest fn off) s fun t => ∃ v, t = { s with sent := s.sent ++ [⟨8, fn, off, [v]⟩] } ∧
      let held := (if fn = 0 then s.pfRegs else (sliceOf s fn).regs).find? (·.1 == off)
      (∀ x : Dword, held = some (off, x) → off ≠ 8 → v = x.zeroExtend 256) ∧ (off = 8 → v.extractLsb' 0 8 = s.stepping)) ∧
    (∀ fn idx, s.stage ≠ 0 → fn < s.sessions.length → fn < s.slices.length →
      let z := s.sessions.getD fn Session.none
      let sl := sliceOf s fn
      let sess := fun (t : State) => t.sessions.getD fn Session.none
      -- an answer whose contents are open, and an error response that changes nothing
      let openly := fun (t : State) (code : Nat) => ∃ v, t.sent = s.sent ++ [⟨9, fn, code, [v]⟩]
      let refused := fun (x : Instr) (code : Nat) => exec x s = .next { s with sent := s.sent ++ [⟨10, fn, code, []⟩] }
      (Becomes (.getTdispVersion fn) s fun t => openly t 1 ∧ t = { s with sent := t.sent, free := s.free + 1 }) ∧
      (Becomes (.getTdispCapabilities fn) s fun t => openly t 2 ∧ t = { s with sent := t.sent, free := s.free + 1 }) ∧
      (Becomes (.getDeviceInterfaceReport fn) s fun t => t = { s with sent := t.sent, free := s.free + 1 } ∧
        ∃ v, t.sent = s.sent ++ [⟨9, fn, 4, v :: sl.slpolicy.zeroExtend 256 :: sl.regs.map fun r => BitVec.ofNat 256 (r.1 + r.2.toNat * 2 ^ 32)⟩]) ∧
      exec (.getDeviceInterfaceState fn) s = .next { s with sent := s.sent ++ [⟨9, fn, 5, [match sl.ifst with
        | .unlocked => 0 | .locked => 1 | .run => 2 | .error => 3]⟩] } ∧
      (sl.used = true → sl.ifst = .unlocked → sl.resetting = none → Becomes (.lockInterfaceRequest fn) s fun t => Quiet s t ∧
        (sliceOf t fn).ifst = .locked ∧ (sliceOf t fn).slerr = 0 ∧ (sliceOf t fn).erraddr = 0 ∧ (sliceOf t fn).meas3 = measure3 sl ∧
        t.sent = s.sent ++ [⟨9, fn, 3, []⟩]) ∧
      (sl.ifst ≠ .unlocked → refused (.lockInterfaceRequest fn) 3) ∧
      (sl.used = true → sl.ifst = .locked → sl.resetting = none → sl.ide = true → exec (.startInterfaceRequest fn) s =
        .next { setSlice s fn (fun sl => { sl with ifst := .run }) with sent := s.sent ++ [⟨9, fn, 6, []⟩] }) ∧
      (sl.ide = false ∨ sl.ifst ≠ .locked → refused (.startInterfaceRequest fn) 6) ∧
      (sl.used = true → sl.resetting = none → s.sharedFail = false → sl.ifst ≠ .unlocked → (∀ k ∈ sl.quads, k < 16) → s.channels.length = 384 →
        Becomes (.stopInterfaceRequest fn) s fun t => (sliceOf t fn).resetting = some false ∧ (∀ c, c < 64 → (ctxOf t fn c).exists' = false) ∧
          (∀ k ∈ sl.quads, ∀ c ∈ quadChans k, (chanReg t c).pend = true) ∧ t.sent = s.sent ++ [⟨9, fn, 7, []⟩]) ∧
      (Becomes (.getVersion fn) s fun t => openly t 16 ∧ sess t = { Session.none with version := true, secured := z.secured }) ∧
      (z.version = true → Becomes (.getCapabilities fn) s fun t => openly t 17 ∧ sess t = { z with caps := true }) ∧
      (z.version = false → refused (.getCapabilities fn) 17) ∧
      (z.caps = true → Becomes (.negotiateAlgorithms fn) s fun t => openly t 18 ∧ sess t = { z with algs := true }) ∧
      (z.caps = false → refused (.negotiateAlgorithms fn) 18) ∧
      (z.algs = true → (Becomes (.getDigests fn) s fun t => openly t 19) ∧ (Becomes (.getCertificate fn) s fun t => openly t 20) ∧
        (Becomes (.challenge fn) s fun t => openly t 21) ∧ (Becomes (.keyExchange fn) s fun t => openly t 23 ∧ sess t = { z with pendingKex := true }) ∧
        (sl.used = true → fn ≠ 0 → Becomes (.getMeasurements fn 3) s fun t => ∃ v, t.sent = s.sent ++ [⟨9, fn, 22, [sl.meas3, 0, v]⟩]) ∧
        (∀ c, c < 64 → sl.used = true → fn ≠ 0 → (ctxOf s fn c).exists' = true → Becomes (.getMeasurements fn (0x40 + c)) s fun t =>
          ∃ v, t.sent = s.sent ++ [⟨9, fn, 22, [(ctxOf s fn c).att, BitVec.ofNat 256 (ctxOf s fn c).next.toNat, v]⟩])) ∧
      (z.algs = false → refused (.getDigests fn) 19 ∧ refused (.getCertificate fn) 20 ∧ refused (.challenge fn) 21 ∧
        refused (.getMeasurements fn idx) 22 ∧ refused (.keyExchange fn) 23) ∧
      (z.pendingKex = true → Becomes (.finish fn) s fun t => openly t 24 ∧ sess t = { z with pendingKex := false, secured := true }) ∧
      (z.pendingKex = false → refused (.finish fn) 24) ∧
      (z.secured = true → (Becomes (.endSession fn) s fun t => sess t = { z with secured := false } ∧ t.sent = s.sent ++ [⟨9, fn, 25, []⟩]) ∧
        (Becomes (.ideKm fn) s fun t => (sliceOf t fn).ide = true ∧ t.sent = s.sent ++ [⟨9, fn, 26, []⟩])) ∧
      (z.secured = false → refused (.endSession fn) 25 ∧ refused (.ideKm fn) 26))

/-! ### Power, resets and errors -/

/-- R14, R18, R270, R350 to R357, R374, R376 to R379, R381 to R383, Tables 1-5, 17-6, 17-7, 19-2: stages of start,
resets, loss of power, errors in DRAM and on chip, and the failures that put slices in ERROR. Which ck the second of R374 holds, what a
cache's parity error drops, what a reset keeps of the lost cores, what goes on once a shared unit has failed and which start runs the
recovery image are the model's (log entries 71, 72, 96, 101 and 102). -/
def Obligations.PowerAndErrors : Prop :=
  ∀ s : State,
    (s.powered = false → Becomes .coldPowerUp s fun t => t.powered = true ∧ t.stage = 0 ∧ t.corelost = lostMask s ∧ t.hostMem = s.hostMem ∧
      t.slices = State.reset.slices ∧ t.warps = [] ∧ ∀ c ∈ t.channels, c.pend = true) ∧
    (s.powered = true → exec .coldPowerUp s = .next s) ∧
    (s.powered = true → s.stage = 0 → Becomes .dawnStage s fun t => t.stage = 1 ∧ t.linkKeys.length = 12 ∧ t.linkCount = List.replicate 12 0 ∧
      t.startup.length = 77 ∧ ∀ c ∈ t.channels, c.pend = true ∧ ∃ e, c.sweep = some e ∧ s.clk < e) ∧
    (s.powered = true → s.stage = 1 → s.recovery = false → (∀ c ∈ s.channels, c.pend = false) → (∀ x ∈ s.startup, x ≤ s.clk) →
      exec .noonStage s = .next { s with stage := 2 }) ∧
    ((∃ c ∈ s.channels, c.pend = true) ∨ (∃ x ∈ s.startup, s.clk < x) ∨ s.recovery = true → exec .noonStage s = .next s) ∧
    (s.powered = true → Becomes .warmReset s fun t => t.stage = 0 ∧ t.scrubint = s.channels.any (·.pend) ∧ t.corelost = lostMask s ∧
      t.slices = State.reset.slices ∧ t.warps = [] ∧ t.blocks = [] ∧ t.flights = [] ∧ (∀ c ∈ t.channels, c.pend = true) ∧
      ∀ c, c < 64 → (coreOf t c).inService = !((lostMask s).getLsbD c)) ∧
    (s.cores.length = 64 → (∀ c, c < 64 → (coreOf s c).n = c) →
      ∀ c, c < 64 → (lostMask s).getLsbD c = (s.corelost.getLsbD c || !((coreOf s c).inService))) ∧
    (s.stage ≠ 0 → exec .pfFlr s = exec .warmReset s) ∧
    (Becomes .powerLoss s fun t => t.powered = false ∧ t.warps = [] ∧ t.slices = State.reset.slices ∧ ∀ c ∈ t.channels, c.pend = false ∧ c.key = 0) ∧
    (∀ vf, vf < s.slices.length → (sliceOf s vf).used = true → (sliceOf s vf).resetting = none →
      ((sliceOf s vf).ifst = .unlocked → s.sharedFail = false → Becomes (.vfFlr vf) s fun t => (sliceOf t vf).resetting = some false ∧
        ∀ c, c < 64 → (ctxOf t vf c).exists' = false) ∧
      ((sliceOf s vf).ifst = .locked ∨ (sliceOf s vf).ifst = .run → Becomes (.vfFlr vf) s fun t => Quiet s t ∧ (sliceOf t vf).ifst = .error ∧
        (sliceOf t vf).slerr = 1 ∧ t.msi = s.msi ++ [(vf, 5), (0, 3)] ∧
        ∀ b, b < s.blocks.length → (blockOf s b).vf = vf → (blockOf s b).status = .resident → (blockOf t b).halt.isSome = true) ∧
      ((sliceOf s vf).ifst = .locked ∨ (sliceOf s vf).ifst = .run → Becomes (.ideStreamFailure (some vf)) s fun t => Quiet s t ∧
        (sliceOf t vf).ifst = .error ∧ (sliceOf t vf).slerr = 0x401 ∧ (sliceOf t vf).ide = false)) ∧
    (s.stage ≠ 0 → Becomes .internalUncorrectableError s fun t => Quiet s t ∧ t.aer = true ∧ t.sharedFail = true ∧
      (s.pfBusy = true → (∃ sl ∈ s.slices, sl.resetting = some true) → t.pfBusy = false ∧ t.pfStatus = 5) ∧
      ∀ vf, vf ≤ 16 → vf < s.slices.length → (sliceOf s vf).resetting = none →
        ((sliceOf s vf).ifst = .locked ∨ (sliceOf s vf).ifst = .run → (sliceOf t vf).ifst = .error ∧ (sliceOf t vf).slerr = 0x701) ∧
        ((sliceOf s vf).ifst = .unlocked → (sliceOf t vf).ifst = .unlocked)) ∧
    (∀ ch e, ch < s.channels.length → (chanReg s ch).sweep = some e → e ≤ s.clk → Becomes (.midnightScrubEnd ch) s fun t =>
      (chanReg t ch).pend = false ∧ (chanReg t ch).sweep = none ∧ SameRegs s t ∧
        ∀ a, memRead t.mem a = if chanOf a = ch then 0 else memRead s.mem a) ∧
    (∀ ch e, (chanReg s ch).sweep = some e → s.clk < e → exec (.midnightScrubEnd ch) s = .next s) ∧
    (∀ pa bytes vf, s.stage = 2 → Serves s vf → (∀ k, k < bytes.length → quadOf (pa + k) ∈ (sliceOf s vf).quads) →
      Becomes (.hostMemoryWrite pa bytes) s fun t => (∀ k, pa ≤ 32 * k → 32 * k + 32 ≤ pa + bytes.length → k ∉ t.poison) ∧
        (s.dramErr = [] → (∀ k, k < bytes.length → (pa + k) / 256 = pa / 256) →
          ∀ k, k ∈ t.poison ↔ k ∈ s.poison ∧ ¬(pa ≤ 32 * k ∧ 32 * k + 32 ≤ pa + bytes.length))) ∧
    (∀ core, s.stage ≠ 0 →
      exec (.coreSelfTest core true) s = .next s ∧
      (core < s.cores.length → (coreOf s core).inService = true → (∀ sl ∈ s.slices, sl.used = true → core ∉ sl.lcores) →
        Becomes (.coreSelfTest core false) s fun t => Quiet s t ∧ (coreOf t core).inService = false ∧ t.replreq = true ∧
          t.corelost = s.corelost ||| (1#64 <<< core))) ∧
    (∀ core, s.stage ≠ 0 → core < s.cores.length → ∀ double, Becomes (.softError (.coreCache core) double) s fun t => Quiet s t ∧
      (coreOf t core).l1 = [] ∧ (coreOf t core).tlb = [] ∧ (coreOf t core).l0 = [] ∧ (coreOf t core).ccache = [] ∧
      (coreOf t core).det = (coreOf s core).det + 1) ∧
    (∀ w l r, s.stage ≠ 0 → (warpOf s w).core < s.cores.length →
      (Becomes (.softError (.register w l r) true) s fun t => Quiet s t ∧ .register w l r ∈ t.chipPoison ∧
        (coreOf t (warpOf s w).core).det = (coreOf s (warpOf s w).core).det + 1) ∧
      (let near := s.clk :: (coreOf s (warpOf s w).core).recent.filter fun x => decide (s.clk < x + 1700000000)
       (near.length ≤ 1000 → Becomes (.softError (.register w l r) false) s fun t => Quiet s t ∧
        t.chipPoison = s.chipPoison ∧ (coreOf t (warpOf s w).core).corr = (coreOf s (warpOf s w).core).corr + 1) ∧
       (1000 < near.length →
        (coreOf s (warpOf s w).core).inService = true → (∀ sl ∈ s.slices, sl.used = true → (warpOf s w).core ∉ sl.lcores) →
        Becomes (.softError (.register w l r) false) s fun t => Quiet s t ∧ (coreOf t (warpOf s w).core).inService = false ∧
          t.corelost = s.corelost ||| (1#64 <<< (warpOf s w).core)))) ∧
    (∀ sector l2 line, s.stage ≠ 0 →
      (heldIn s (sector / 8) l2 = false → ∀ d, exec (.softError (.cacheData sector l2) d) s = .next s) ∧
      (heldIn s line l2 = false → ∀ d, exec (.softError (.cacheTag line l2) d) s = .next s) ∧
      (heldIn s (sector / 8) l2 = true → Becomes (.softError (.cacheData sector l2) false) s fun t => t = { s with dieErr := t.dieErr }) ∧
      (heldIn s (sector / 8) l2 = true → dirtyIn s (sector / 8) l2 (some (sector % 8)) = true →
        Becomes (.softError (.cacheData sector l2) true) s fun t => Quiet s t ∧ sector ∈ t.poison) ∧
      (heldIn s (sector / 8) l2 = true → dirtyIn s (sector / 8) l2 (some (sector % 8)) = false →
        Becomes (.softError (.cacheData sector l2) true) s fun t => Quiet s t ∧ t.poison = s.poison) ∧
      (heldIn s line l2 = true → dirtyIn s line l2 none = false →
        Becomes (.softError (.cacheTag line l2) true) s fun t => Quiet s t ∧ t.slices = s.slices) ∧
      (∀ vf, vf < s.slices.length → (sliceOf s vf).ifst ≠ .error → (sliceOf s vf).resetting = none → (sliceOf s vf).vf = vf →
        (s.slices.find? fun sl => sl.used && sl.quads.contains (quadOf (line * 256))) = some (sliceOf s vf) →
        heldIn s line l2 = true → dirtyIn s line l2 none = true →
        Becomes (.softError (.cacheTag line l2) true) s fun t => Quiet s t ∧ (sliceOf t vf).ifst = .error ∧ (sliceOf t vf).slerr = 0x301)) ∧
    (∀ cw syms, cw < 768 * 2 ^ 24 → Becomes (.codewordError cw syms) s fun t => Quiet s t ∧
      errAt t cw = (List.range 80).map (fun i => (errAt s cw).getD i 0 ^^^ syms.getD i 0) ∧ ∀ k, k ≠ cw → errAt t k = errAt s k) ∧
    (∀ line, s.stage ≠ 2 ∨ s.dramErr = [] → exec (.patrolScrubRead line) s = .next s) ∧
    (∀ line err, s.stage = 2 → s.dramErr = [(4 * line, err)] → err.length = 80 → chanOf (line * 256) < s.channels.length →
      let ch := chanOf (line * 256)
      (∀ g, eccDecode err = .corrected err g → Becomes (.patrolScrubRead line) s fun t => Quiet s t ∧ t.dramErr = [] ∧
        (chanReg t ch).ce = satInc (chanReg s ch).ce ∧ (chanReg t ch).lastpg = g) ∧
      (eccDecode err = .uncorrectable → Becomes (.patrolScrubRead line) s fun t => Quiet s t ∧ errAt t (4 * line) = poisonPattern ∧
        (chanReg t ch).ue = satInc (chanReg s ch).ue ∧ (chanReg t ch).ueaddr = line * 256 ∧ (chanReg t ch).uevalid = true)) ∧
    (∀ ch bank row, ch < s.channels.length →
      (1024 ≤ rowCount s ch bank row → Becomes (.neighbourRefresh ch bank row) s fun t => Quiet s t ∧
        (∀ a, a ∈ t.activ ↔ a ∈ s.activ ∧ ¬(a.1 = ch ∧ a.2.1 = bank ∧ a.2.2.1 ≤ row + 2 ∧ row ≤ a.2.2.1 + 2)) ∧
        (chanReg t ch).rfm = satInc (chanReg s ch).rfm) ∧
      (rowCount s ch bank row < 1024 → exec (.neighbourRefresh ch bank row) s = .next s))
end

