-- ==== Sys2Proof/Laws/State.lean ====
section
/-! SUPPORT. Each field of the state under each update that the meanings are made of. -/

namespace Sys2Proof.Machine

/-! ### setSlice -/

@[simp] theorem setSlice_powered (s : State) (n : Nat) (f : Slice → Slice) : (setSlice s n f).powered = s.powered := rfl
@[simp] theorem setSlice_stage (s : State) (n : Nat) (f : Slice → Slice) : (setSlice s n f).stage = s.stage := rfl
@[simp] theorem setSlice_stepping (s : State) (n : Nat) (f : Slice → Slice) : (setSlice s n f).stepping = s.stepping := rfl
@[simp] theorem setSlice_scrubint (s : State) (n : Nat) (f : Slice → Slice) : (setSlice s n f).scrubint = s.scrubint := rfl
@[simp] theorem setSlice_replreq (s : State) (n : Nat) (f : Slice → Slice) : (setSlice s n f).replreq = s.replreq := rfl
@[simp] theorem setSlice_corelost (s : State) (n : Nat) (f : Slice → Slice) : (setSlice s n f).corelost = s.corelost := rfl
@[simp] theorem setSlice_aer (s : State) (n : Nat) (f : Slice → Slice) : (setSlice s n f).aer = s.aer := rfl
@[simp] theorem setSlice_sharedFail (s : State) (n : Nat) (f : Slice → Slice) : (setSlice s n f).sharedFail = s.sharedFail := rfl
@[simp] theorem setSlice_recovery (s : State) (n : Nat) (f : Slice → Slice) : (setSlice s n f).recovery = s.recovery := rfl
@[simp] theorem setSlice_dieErr (s : State) (n : Nat) (f : Slice → Slice) : (setSlice s n f).dieErr = s.dieErr := rfl
@[simp] theorem setSlice_clk (s : State) (n : Nat) (f : Slice → Slice) : (setSlice s n f).clk = s.clk := rfl
@[simp] theorem setSlice_hbeat (s : State) (n : Nat) (f : Slice → Slice) : (setSlice s n f).hbeat = s.hbeat := rfl
@[simp] theorem setSlice_timeU (s : State) (n : Nat) (f : Slice → Slice) : (setSlice s n f).timeU = s.timeU := rfl
@[simp] theorem setSlice_slew (s : State) (n : Nat) (f : Slice → Slice) : (setSlice s n f).slew = s.slew := rfl
@[simp] theorem setSlice_timeSrc (s : State) (n : Nat) (f : Slice → Slice) : (setSlice s n f).timeSrc = s.timeSrc := rfl
@[simp] theorem setSlice_timeLocked (s : State) (n : Nat) (f : Slice → Slice) : (setSlice s n f).timeLocked = s.timeLocked := rfl
@[simp] theorem setSlice_startup (s : State) (n : Nat) (f : Slice → Slice) : (setSlice s n f).startup = s.startup := rfl
@[simp] theorem setSlice_pfBusy (s : State) (n : Nat) (f : Slice → Slice) : (setSlice s n f).pfBusy = s.pfBusy := rfl
@[simp] theorem setSlice_pfStatus (s : State) (n : Nat) (f : Slice → Slice) : (setSlice s n f).pfStatus = s.pfStatus := rfl
@[simp] theorem setSlice_pfaddr (s : State) (n : Nat) (f : Slice → Slice) : (setSlice s n f).pfaddr = s.pfaddr := rfl
@[simp] theorem setSlice_pfdata (s : State) (n : Nat) (f : Slice → Slice) : (setSlice s n f).pfdata = s.pfdata := rfl
@[simp] theorem setSlice_pfShape (s : State) (n : Nat) (f : Slice → Slice) : (setSlice s n f).pfShape = s.pfShape := rfl
@[simp] theorem setSlice_keyCount (s : State) (n : Nat) (f : Slice → Slice) : (setSlice s n f).keyCount = s.keyCount := rfl
@[simp] theorem setSlice_linkKeys (s : State) (n : Nat) (f : Slice → Slice) : (setSlice s n f).linkKeys = s.linkKeys := rfl
@[simp] theorem setSlice_linkCount (s : State) (n : Nat) (f : Slice → Slice) : (setSlice s n f).linkCount = s.linkCount := rfl
@[simp] theorem setSlice_channels (s : State) (n : Nat) (f : Slice → Slice) : (setSlice s n f).channels = s.channels := rfl
@[simp] theorem setSlice_cores (s : State) (n : Nat) (f : Slice → Slice) : (setSlice s n f).cores = s.cores := rfl
@[simp] theorem setSlice_warps (s : State) (n : Nat) (f : Slice → Slice) : (setSlice s n f).warps = s.warps := rfl
@[simp] theorem setSlice_parts (s : State) (n : Nat) (f : Slice → Slice) : (setSlice s n f).parts = s.parts := rfl
@[simp] theorem setSlice_blocks (s : State) (n : Nat) (f : Slice → Slice) : (setSlice s n f).blocks = s.blocks := rfl
@[simp] theorem setSlice_launches (s : State) (n : Nat) (f : Slice → Slice) : (setSlice s n f).launches = s.launches := rfl
@[simp] theorem setSlice_mem (s : State) (n : Nat) (f : Slice → Slice) : (setSlice s n f).mem = s.mem := rfl
@[simp] theorem setSlice_hostMem (s : State) (n : Nat) (f : Slice → Slice) : (setSlice s n f).hostMem = s.hostMem := rfl
@[simp] theorem setSlice_peerMem (s : State) (n : Nat) (f : Slice → Slice) : (setSlice s n f).peerMem = s.peerMem := rfl
@[simp] theorem setSlice_flights (s : State) (n : Nat) (f : Slice → Slice) : (setSlice s n f).flights = s.flights := rfl
@[simp] theorem setSlice_loads (s : State) (n : Nat) (f : Slice → Slice) : (setSlice s n f).loads = s.loads := rfl
@[simp] theorem setSlice_ops (s : State) (n : Nat) (f : Slice → Slice) : (setSlice s n f).ops = s.ops := rfl
@[simp] theorem setSlice_nextId (s : State) (n : Nat) (f : Slice → Slice) : (setSlice s n f).nextId = s.nextId := rfl
@[simp] theorem setSlice_poison (s : State) (n : Nat) (f : Slice → Slice) : (setSlice s n f).poison = s.poison := rfl
@[simp] theorem setSlice_chipPoison (s : State) (n : Nat) (f : Slice → Slice) : (setSlice s n f).chipPoison = s.chipPoison := rfl
@[simp] theorem setSlice_dramErr (s : State) (n : Nat) (f : Slice → Slice) : (setSlice s n f).dramErr = s.dramErr := rfl
@[simp] theorem setSlice_lines (s : State) (n : Nat) (f : Slice → Slice) : (setSlice s n f).lines = s.lines := rfl
@[simp] theorem setSlice_activ (s : State) (n : Nat) (f : Slice → Slice) : (setSlice s n f).activ = s.activ := rfl
@[simp] theorem setSlice_sessions (s : State) (n : Nat) (f : Slice → Slice) : (setSlice s n f).sessions = s.sessions := rfl
@[simp] theorem setSlice_sessionCount (s : State) (n : Nat) (f : Slice → Slice) : (setSlice s n f).sessionCount = s.sessionCount := rfl
@[simp] theorem setSlice_images (s : State) (n : Nat) (f : Slice → Slice) : (setSlice s n f).images = s.images := rfl
@[simp] theorem setSlice_pfRegs (s : State) (n : Nat) (f : Slice → Slice) : (setSlice s n f).pfRegs = s.pfRegs := rfl
@[simp] theorem setSlice_msi (s : State) (n : Nat) (f : Slice → Slice) : (setSlice s n f).msi = s.msi := rfl
@[simp] theorem setSlice_sent (s : State) (n : Nat) (f : Slice → Slice) : (setSlice s n f).sent = s.sent := rfl
@[simp] theorem setSlice_formed (s : State) (n : Nat) (f : Slice → Slice) : (setSlice s n f).formed = s.formed := rfl
@[simp] theorem setSlice_inputs (s : State) (n : Nat) (f : Slice → Slice) : (setSlice s n f).inputs = s.inputs := rfl
@[simp] theorem setSlice_issuing (s : State) (n : Nat) (f : Slice → Slice) : (setSlice s n f).issuing = s.issuing := rfl
@[simp] theorem setSlice_agenda (s : State) (n : Nat) (f : Slice → Slice) : (setSlice s n f).agenda = s.agenda := rfl
@[simp] theorem setSlice_cur (s : State) (n : Nat) (f : Slice → Slice) : (setSlice s n f).cur = s.cur := rfl
@[simp] theorem setSlice_free (s : State) (n : Nat) (f : Slice → Slice) : (setSlice s n f).free = s.free := rfl

/-! ### setCtx -/

@[simp] theorem setCtx_powered (s : State) (n c : Nat) (f : Ctx → Ctx) : (setCtx s n c f).powered = s.powered := rfl
@[simp] theorem setCtx_stage (s : State) (n c : Nat) (f : Ctx → Ctx) : (setCtx s n c f).stage = s.stage := rfl
@[simp] theorem setCtx_stepping (s : State) (n c : Nat) (f : Ctx → Ctx) : (setCtx s n c f).stepping = s.stepping := rfl
@[simp] theorem setCtx_scrubint (s : State) (n c : Nat) (f : Ctx → Ctx) : (setCtx s n c f).scrubint = s.scrubint := rfl
@[simp] theorem setCtx_replreq (s : State) (n c : Nat) (f : Ctx → Ctx) : (setCtx s n c f).replreq = s.replreq := rfl
@[simp] theorem setCtx_corelost (s : State) (n c : Nat) (f : Ctx → Ctx) : (setCtx s n c f).corelost = s.corelost := rfl
@[simp] theorem setCtx_aer (s : State) (n c : Nat) (f : Ctx → Ctx) : (setCtx s n c f).aer = s.aer := rfl
@[simp] theorem setCtx_sharedFail (s : State) (n c : Nat) (f : Ctx → Ctx) : (setCtx s n c f).sharedFail = s.sharedFail := rfl
@[simp] theorem setCtx_recovery (s : State) (n c : Nat) (f : Ctx → Ctx) : (setCtx s n c f).recovery = s.recovery := rfl
@[simp] theorem setCtx_dieErr (s : State) (n c : Nat) (f : Ctx → Ctx) : (setCtx s n c f).dieErr = s.dieErr := rfl
@[simp] theorem setCtx_clk (s : State) (n c : Nat) (f : Ctx → Ctx) : (setCtx s n c f).clk = s.clk := rfl
@[simp] theorem setCtx_hbeat (s : State) (n c : Nat) (f : Ctx → Ctx) : (setCtx s n c f).hbeat = s.hbeat := rfl
@[simp] theorem setCtx_timeU (s : State) (n c : Nat) (f : Ctx → Ctx) : (setCtx s n c f).timeU = s.timeU := rfl
@[simp] theorem setCtx_slew (s : State) (n c : Nat) (f : Ctx → Ctx) : (setCtx s n c f).slew = s.slew := rfl
@[simp] theorem setCtx_timeSrc (s : State) (n c : Nat) (f : Ctx → Ctx) : (setCtx s n c f).timeSrc = s.timeSrc := rfl
@[simp] theorem setCtx_timeLocked (s : State) (n c : Nat) (f : Ctx → Ctx) : (setCtx s n c f).timeLocked = s.timeLocked := rfl
@[simp] theorem setCtx_startup (s : State) (n c : Nat) (f : Ctx → Ctx) : (setCtx s n c f).startup = s.startup := rfl
@[simp] theorem setCtx_pfBusy (s : State) (n c : Nat) (f : Ctx → Ctx) : (setCtx s n c f).pfBusy = s.pfBusy := rfl
@[simp] theorem setCtx_pfStatus (s : State) (n c : Nat) (f : Ctx → Ctx) : (setCtx s n c f).pfStatus = s.pfStatus := rfl
@[simp] theorem setCtx_pfaddr (s : State) (n c : Nat) (f : Ctx → Ctx) : (setCtx s n c f).pfaddr = s.pfaddr := rfl
@[simp] theorem setCtx_pfdata (s : State) (n c : Nat) (f : Ctx → Ctx) : (setCtx s n c f).pfdata = s.pfdata := rfl
@[simp] theorem setCtx_pfShape (s : State) (n c : Nat) (f : Ctx → Ctx) : (setCtx s n c f).pfShape = s.pfShape := rfl
@[simp] theorem setCtx_keyCount (s : State) (n c : Nat) (f : Ctx → Ctx) : (setCtx s n c f).keyCount = s.keyCount := rfl
@[simp] theorem setCtx_linkKeys (s : State) (n c : Nat) (f : Ctx → Ctx) : (setCtx s n c f).linkKeys = s.linkKeys := rfl
@[simp] theorem setCtx_linkCount (s : State) (n c : Nat) (f : Ctx → Ctx) : (setCtx s n c f).linkCount = s.linkCount := rfl
@[simp] theorem setCtx_channels (s : State) (n c : Nat) (f : Ctx → Ctx) : (setCtx s n c f).channels = s.channels := rfl
@[simp] theorem setCtx_cores (s : State) (n c : Nat) (f : Ctx → Ctx) : (setCtx s n c f).cores = s.cores := rfl
@[simp] theorem setCtx_warps (s : State) (n c : Nat) (f : Ctx → Ctx) : (setCtx s n c f).warps = s.warps := rfl
@[simp] theorem setCtx_parts (s : State) (n c : Nat) (f : Ctx → Ctx) : (setCtx s n c f).parts = s.parts := rfl
@[simp] theorem setCtx_blocks (s : State) (n c : Nat) (f : Ctx → Ctx) : (setCtx s n c f).blocks = s.blocks := rfl
@[simp] theorem setCtx_launches (s : State) (n c : Nat) (f : Ctx → Ctx) : (setCtx s n c f).launches = s.launches := rfl
@[simp] theorem setCtx_mem (s : State) (n c : Nat) (f : Ctx → Ctx) : (setCtx s n c f).mem = s.mem := rfl
@[simp] theorem setCtx_hostMem (s : State) (n c : Nat) (f : Ctx → Ctx) : (setCtx s n c f).hostMem = s.hostMem := rfl
@[simp] theorem setCtx_peerMem (s : State) (n c : Nat) (f : Ctx → Ctx) : (setCtx s n c f).peerMem = s.peerMem := rfl
@[simp] theorem setCtx_flights (s : State) (n c : Nat) (f : Ctx → Ctx) : (setCtx s n c f).flights = s.flights := rfl
@[simp] theorem setCtx_loads (s : State) (n c : Nat) (f : Ctx → Ctx) : (setCtx s n c f).loads = s.loads := rfl
@[simp] theorem setCtx_ops (s : State) (n c : Nat) (f : Ctx → Ctx) : (setCtx s n c f).ops = s.ops := rfl
@[simp] theorem setCtx_nextId (s : State) (n c : Nat) (f : Ctx → Ctx) : (setCtx s n c f).nextId = s.nextId := rfl
@[simp] theorem setCtx_poison (s : State) (n c : Nat) (f : Ctx → Ctx) : (setCtx s n c f).poison = s.poison := rfl
@[simp] theorem setCtx_chipPoison (s : State) (n c : Nat) (f : Ctx → Ctx) : (setCtx s n c f).chipPoison = s.chipPoison := rfl
@[simp] theorem setCtx_dramErr (s : State) (n c : Nat) (f : Ctx → Ctx) : (setCtx s n c f).dramErr = s.dramErr := rfl
@[simp] theorem setCtx_lines (s : State) (n c : Nat) (f : Ctx → Ctx) : (setCtx s n c f).lines = s.lines := rfl
@[simp] theorem setCtx_activ (s : State) (n c : Nat) (f : Ctx → Ctx) : (setCtx s n c f).activ = s.activ := rfl
@[simp] theorem setCtx_sessions (s : State) (n c : Nat) (f : Ctx → Ctx) : (setCtx s n c f).sessions = s.sessions := rfl
@[simp] theorem setCtx_sessionCount (s : State) (n c : Nat) (f : Ctx → Ctx) : (setCtx s n c f).sessionCount = s.sessionCount := rfl
@[simp] theorem setCtx_images (s : State) (n c : Nat) (f : Ctx → Ctx) : (setCtx s n c f).images = s.images := rfl
@[simp] theorem setCtx_pfRegs (s : State) (n c : Nat) (f : Ctx → Ctx) : (setCtx s n c f).pfRegs = s.pfRegs := rfl
@[simp] theorem setCtx_msi (s : State) (n c : Nat) (f : Ctx → Ctx) : (setCtx s n c f).msi = s.msi := rfl
@[simp] theorem setCtx_sent (s : State) (n c : Nat) (f : Ctx → Ctx) : (setCtx s n c f).sent = s.sent := rfl
@[simp] theorem setCtx_formed (s : State) (n c : Nat) (f : Ctx → Ctx) : (setCtx s n c f).formed = s.formed := rfl
@[simp] theorem setCtx_inputs (s : State) (n c : Nat) (f : Ctx → Ctx) : (setCtx s n c f).inputs = s.inputs := rfl
@[simp] theorem setCtx_issuing (s : State) (n c : Nat) (f : Ctx → Ctx) : (setCtx s n c f).issuing = s.issuing := rfl
@[simp] theorem setCtx_agenda (s : State) (n c : Nat) (f : Ctx → Ctx) : (setCtx s n c f).agenda = s.agenda := rfl
@[simp] theorem setCtx_cur (s : State) (n c : Nat) (f : Ctx → Ctx) : (setCtx s n c f).cur = s.cur := rfl
@[simp] theorem setCtx_free (s : State) (n c : Nat) (f : Ctx → Ctx) : (setCtx s n c f).free = s.free := rfl

/-! ### setCore -/

@[simp] theorem setCore_powered (s : State) (n : Nat) (f : Core → Core) : (setCore s n f).powered = s.powered := rfl
@[simp] theorem setCore_stage (s : State) (n : Nat) (f : Core → Core) : (setCore s n f).stage = s.stage := rfl
@[simp] theorem setCore_stepping (s : State) (n : Nat) (f : Core → Core) : (setCore s n f).stepping = s.stepping := rfl
@[simp] theorem setCore_scrubint (s : State) (n : Nat) (f : Core → Core) : (setCore s n f).scrubint = s.scrubint := rfl
@[simp] theorem setCore_replreq (s : State) (n : Nat) (f : Core → Core) : (setCore s n f).replreq = s.replreq := rfl
@[simp] theorem setCore_corelost (s : State) (n : Nat) (f : Core → Core) : (setCore s n f).corelost = s.corelost := rfl
@[simp] theorem setCore_aer (s : State) (n : Nat) (f : Core → Core) : (setCore s n f).aer = s.aer := rfl
@[simp] theorem setCore_sharedFail (s : State) (n : Nat) (f : Core → Core) : (setCore s n f).sharedFail = s.sharedFail := rfl
@[simp] theorem setCore_recovery (s : State) (n : Nat) (f : Core → Core) : (setCore s n f).recovery = s.recovery := rfl
@[simp] theorem setCore_dieErr (s : State) (n : Nat) (f : Core → Core) : (setCore s n f).dieErr = s.dieErr := rfl
@[simp] theorem setCore_clk (s : State) (n : Nat) (f : Core → Core) : (setCore s n f).clk = s.clk := rfl
@[simp] theorem setCore_hbeat (s : State) (n : Nat) (f : Core → Core) : (setCore s n f).hbeat = s.hbeat := rfl
@[simp] theorem setCore_timeU (s : State) (n : Nat) (f : Core → Core) : (setCore s n f).timeU = s.timeU := rfl
@[simp] theorem setCore_slew (s : State) (n : Nat) (f : Core → Core) : (setCore s n f).slew = s.slew := rfl
@[simp] theorem setCore_timeSrc (s : State) (n : Nat) (f : Core → Core) : (setCore s n f).timeSrc = s.timeSrc := rfl
@[simp] theorem setCore_timeLocked (s : State) (n : Nat) (f : Core → Core) : (setCore s n f).timeLocked = s.timeLocked := rfl
@[simp] theorem setCore_startup (s : State) (n : Nat) (f : Core → Core) : (setCore s n f).startup = s.startup := rfl
@[simp] theorem setCore_pfBusy (s : State) (n : Nat) (f : Core → Core) : (setCore s n f).pfBusy = s.pfBusy := rfl
@[simp] theorem setCore_pfStatus (s : State) (n : Nat) (f : Core → Core) : (setCore s n f).pfStatus = s.pfStatus := rfl
@[simp] theorem setCore_pfaddr (s : State) (n : Nat) (f : Core → Core) : (setCore s n f).pfaddr = s.pfaddr := rfl
@[simp] theorem setCore_pfdata (s : State) (n : Nat) (f : Core → Core) : (setCore s n f).pfdata = s.pfdata := rfl
@[simp] theorem setCore_pfShape (s : State) (n : Nat) (f : Core → Core) : (setCore s n f).pfShape = s.pfShape := rfl
@[simp] theorem setCore_keyCount (s : State) (n : Nat) (f : Core → Core) : (setCore s n f).keyCount = s.keyCount := rfl
@[simp] theorem setCore_linkKeys (s : State) (n : Nat) (f : Core → Core) : (setCore s n f).linkKeys = s.linkKeys := rfl
@[simp] theorem setCore_linkCount (s : State) (n : Nat) (f : Core → Core) : (setCore s n f).linkCount = s.linkCount := rfl
@[simp] theorem setCore_channels (s : State) (n : Nat) (f : Core → Core) : (setCore s n f).channels = s.channels := rfl
@[simp] theorem setCore_slices (s : State) (n : Nat) (f : Core → Core) : (setCore s n f).slices = s.slices := rfl
@[simp] theorem setCore_warps (s : State) (n : Nat) (f : Core → Core) : (setCore s n f).warps = s.warps := rfl
@[simp] theorem setCore_parts (s : State) (n : Nat) (f : Core → Core) : (setCore s n f).parts = s.parts := rfl
@[simp] theorem setCore_blocks (s : State) (n : Nat) (f : Core → Core) : (setCore s n f).blocks = s.blocks := rfl
@[simp] theorem setCore_launches (s : State) (n : Nat) (f : Core → Core) : (setCore s n f).launches = s.launches := rfl
@[simp] theorem setCore_mem (s : State) (n : Nat) (f : Core → Core) : (setCore s n f).mem = s.mem := rfl
@[simp] theorem setCore_hostMem (s : State) (n : Nat) (f : Core → Core) : (setCore s n f).hostMem = s.hostMem := rfl
@[simp] theorem setCore_peerMem (s : State) (n : Nat) (f : Core → Core) : (setCore s n f).peerMem = s.peerMem := rfl
@[simp] theorem setCore_flights (s : State) (n : Nat) (f : Core → Core) : (setCore s n f).flights = s.flights := rfl
@[simp] theorem setCore_loads (s : State) (n : Nat) (f : Core → Core) : (setCore s n f).loads = s.loads := rfl
@[simp] theorem setCore_ops (s : State) (n : Nat) (f : Core → Core) : (setCore s n f).ops = s.ops := rfl
@[simp] theorem setCore_nextId (s : State) (n : Nat) (f : Core → Core) : (setCore s n f).nextId = s.nextId := rfl
@[simp] theorem setCore_poison (s : State) (n : Nat) (f : Core → Core) : (setCore s n f).poison = s.poison := rfl
@[simp] theorem setCore_chipPoison (s : State) (n : Nat) (f : Core → Core) : (setCore s n f).chipPoison = s.chipPoison := rfl
@[simp] theorem setCore_dramErr (s : State) (n : Nat) (f : Core → Core) : (setCore s n f).dramErr = s.dramErr := rfl
@[simp] theorem setCore_lines (s : State) (n : Nat) (f : Core → Core) : (setCore s n f).lines = s.lines := rfl
@[simp] theorem setCore_activ (s : State) (n : Nat) (f : Core → Core) : (setCore s n f).activ = s.activ := rfl
@[simp] theorem setCore_sessions (s : State) (n : Nat) (f : Core → Core) : (setCore s n f).sessions = s.sessions := rfl
@[simp] theorem setCore_sessionCount (s : State) (n : Nat) (f : Core → Core) : (setCore s n f).sessionCount = s.sessionCount := rfl
@[simp] theorem setCore_images (s : State) (n : Nat) (f : Core → Core) : (setCore s n f).images = s.images := rfl
@[simp] theorem setCore_pfRegs (s : State) (n : Nat) (f : Core → Core) : (setCore s n f).pfRegs = s.pfRegs := rfl
@[simp] theorem setCore_msi (s : State) (n : Nat) (f : Core → Core) : (setCore s n f).msi = s.msi := rfl
@[simp] theorem setCore_sent (s : State) (n : Nat) (f : Core → Core) : (setCore s n f).sent = s.sent := rfl
@[simp] theorem setCore_formed (s : State) (n : Nat) (f : Core → Core) : (setCore s n f).formed = s.formed := rfl
@[simp] theorem setCore_inputs (s : State) (n : Nat) (f : Core → Core) : (setCore s n f).inputs = s.inputs := rfl
@[simp] theorem setCore_issuing (s : State) (n : Nat) (f : Core → Core) : (setCore s n f).issuing = s.issuing := rfl
@[simp] theorem setCore_agenda (s : State) (n : Nat) (f : Core → Core) : (setCore s n f).agenda = s.agenda := rfl
@[simp] theorem setCore_cur (s : State) (n : Nat) (f : Core → Core) : (setCore s n f).cur = s.cur := rfl
@[simp] theorem setCore_free (s : State) (n : Nat) (f : Core → Core) : (setCore s n f).free = s.free := rfl

/-! ### setWarp -/

@[simp] theorem setWarp_powered (s : State) (n : Nat) (f : Warp → Warp) : (setWarp s n f).powered = s.powered := rfl
@[simp] theorem setWarp_stage (s : State) (n : Nat) (f : Warp → Warp) : (setWarp s n f).stage = s.stage := rfl
@[simp] theorem setWarp_stepping (s : State) (n : Nat) (f : Warp → Warp) : (setWarp s n f).stepping = s.stepping := rfl
@[simp] theorem setWarp_scrubint (s : State) (n : Nat) (f : Warp → Warp) : (setWarp s n f).scrubint = s.scrubint := rfl
@[simp] theorem setWarp_replreq (s : State) (n : Nat) (f : Warp → Warp) : (setWarp s n f).replreq = s.replreq := rfl
@[simp] theorem setWarp_corelost (s : State) (n : Nat) (f : Warp → Warp) : (setWarp s n f).corelost = s.corelost := rfl
@[simp] theorem setWarp_aer (s : State) (n : Nat) (f : Warp → Warp) : (setWarp s n f).aer = s.aer := rfl
@[simp] theorem setWarp_sharedFail (s : State) (n : Nat) (f : Warp → Warp) : (setWarp s n f).sharedFail = s.sharedFail := rfl
@[simp] theorem setWarp_recovery (s : State) (n : Nat) (f : Warp → Warp) : (setWarp s n f).recovery = s.recovery := rfl
@[simp] theorem setWarp_dieErr (s : State) (n : Nat) (f : Warp → Warp) : (setWarp s n f).dieErr = s.dieErr := rfl
@[simp] theorem setWarp_clk (s : State) (n : Nat) (f : Warp → Warp) : (setWarp s n f).clk = s.clk := rfl
@[simp] theorem setWarp_hbeat (s : State) (n : Nat) (f : Warp → Warp) : (setWarp s n f).hbeat = s.hbeat := rfl
@[simp] theorem setWarp_timeU (s : State) (n : Nat) (f : Warp → Warp) : (setWarp s n f).timeU = s.timeU := rfl
@[simp] theorem setWarp_slew (s : State) (n : Nat) (f : Warp → Warp) : (setWarp s n f).slew = s.slew := rfl
@[simp] theorem setWarp_timeSrc (s : State) (n : Nat) (f : Warp → Warp) : (setWarp s n f).timeSrc = s.timeSrc := rfl
@[simp] theorem setWarp_timeLocked (s : State) (n : Nat) (f : Warp → Warp) : (setWarp s n f).timeLocked = s.timeLocked := rfl
@[simp] theorem setWarp_startup (s : State) (n : Nat) (f : Warp → Warp) : (setWarp s n f).startup = s.startup := rfl
@[simp] theorem setWarp_pfBusy (s : State) (n : Nat) (f : Warp → Warp) : (setWarp s n f).pfBusy = s.pfBusy := rfl
@[simp] theorem setWarp_pfStatus (s : State) (n : Nat) (f : Warp → Warp) : (setWarp s n f).pfStatus = s.pfStatus := rfl
@[simp] theorem setWarp_pfaddr (s : State) (n : Nat) (f : Warp → Warp) : (setWarp s n f).pfaddr = s.pfaddr := rfl
@[simp] theorem setWarp_pfdata (s : State) (n : Nat) (f : Warp → Warp) : (setWarp s n f).pfdata = s.pfdata := rfl
@[simp] theorem setWarp_pfShape (s : State) (n : Nat) (f : Warp → Warp) : (setWarp s n f).pfShape = s.pfShape := rfl
@[simp] theorem setWarp_keyCount (s : State) (n : Nat) (f : Warp → Warp) : (setWarp s n f).keyCount = s.keyCount := rfl
@[simp] theorem setWarp_linkKeys (s : State) (n : Nat) (f : Warp → Warp) : (setWarp s n f).linkKeys = s.linkKeys := rfl
@[simp] theorem setWarp_linkCount (s : State) (n : Nat) (f : Warp → Warp) : (setWarp s n f).linkCount = s.linkCount := rfl
@[simp] theorem setWarp_channels (s : State) (n : Nat) (f : Warp → Warp) : (setWarp s n f).channels = s.channels := rfl
@[simp] theorem setWarp_slices (s : State) (n : Nat) (f : Warp → Warp) : (setWarp s n f).slices = s.slices := rfl
@[simp] theorem setWarp_cores (s : State) (n : Nat) (f : Warp → Warp) : (setWarp s n f).cores = s.cores := rfl
@[simp] theorem setWarp_parts (s : State) (n : Nat) (f : Warp → Warp) : (setWarp s n f).parts = s.parts := rfl
@[simp] theorem setWarp_blocks (s : State) (n : Nat) (f : Warp → Warp) : (setWarp s n f).blocks = s.blocks := rfl
@[simp] theorem setWarp_launches (s : State) (n : Nat) (f : Warp → Warp) : (setWarp s n f).launches = s.launches := rfl
@[simp] theorem setWarp_mem (s : State) (n : Nat) (f : Warp → Warp) : (setWarp s n f).mem = s.mem := rfl
@[simp] theorem setWarp_hostMem (s : State) (n : Nat) (f : Warp → Warp) : (setWarp s n f).hostMem = s.hostMem := rfl
@[simp] theorem setWarp_peerMem (s : State) (n : Nat) (f : Warp → Warp) : (setWarp s n f).peerMem = s.peerMem := rfl
@[simp] theorem setWarp_flights (s : State) (n : Nat) (f : Warp → Warp) : (setWarp s n f).flights = s.flights := rfl
@[simp] theorem setWarp_loads (s : State) (n : Nat) (f : Warp → Warp) : (setWarp s n f).loads = s.loads := rfl
@[simp] theorem setWarp_ops (s : State) (n : Nat) (f : Warp → Warp) : (setWarp s n f).ops = s.ops := rfl
@[simp] theorem setWarp_nextId (s : State) (n : Nat) (f : Warp → Warp) : (setWarp s n f).nextId = s.nextId := rfl
@[simp] theorem setWarp_poison (s : State) (n : Nat) (f : Warp → Warp) : (setWarp s n f).poison = s.poison := rfl
@[simp] theorem setWarp_chipPoison (s : State) (n : Nat) (f : Warp → Warp) : (setWarp s n f).chipPoison = s.chipPoison := rfl
@[simp] theorem setWarp_dramErr (s : State) (n : Nat) (f : Warp → Warp) : (setWarp s n f).dramErr = s.dramErr := rfl
@[simp] theorem setWarp_lines (s : State) (n : Nat) (f : Warp → Warp) : (setWarp s n f).lines = s.lines := rfl
@[simp] theorem setWarp_activ (s : State) (n : Nat) (f : Warp → Warp) : (setWarp s n f).activ = s.activ := rfl
@[simp] theorem setWarp_sessions (s : State) (n : Nat) (f : Warp → Warp) : (setWarp s n f).sessions = s.sessions := rfl
@[simp] theorem setWarp_sessionCount (s : State) (n : Nat) (f : Warp → Warp) : (setWarp s n f).sessionCount = s.sessionCount := rfl
@[simp] theorem setWarp_images (s : State) (n : Nat) (f : Warp → Warp) : (setWarp s n f).images = s.images := rfl
@[simp] theorem setWarp_pfRegs (s : State) (n : Nat) (f : Warp → Warp) : (setWarp s n f).pfRegs = s.pfRegs := rfl
@[simp] theorem setWarp_msi (s : State) (n : Nat) (f : Warp → Warp) : (setWarp s n f).msi = s.msi := rfl
@[simp] theorem setWarp_sent (s : State) (n : Nat) (f : Warp → Warp) : (setWarp s n f).sent = s.sent := rfl
@[simp] theorem setWarp_formed (s : State) (n : Nat) (f : Warp → Warp) : (setWarp s n f).formed = s.formed := rfl
@[simp] theorem setWarp_inputs (s : State) (n : Nat) (f : Warp → Warp) : (setWarp s n f).inputs = s.inputs := rfl
@[simp] theorem setWarp_issuing (s : State) (n : Nat) (f : Warp → Warp) : (setWarp s n f).issuing = s.issuing := rfl
@[simp] theorem setWarp_agenda (s : State) (n : Nat) (f : Warp → Warp) : (setWarp s n f).agenda = s.agenda := rfl
@[simp] theorem setWarp_cur (s : State) (n : Nat) (f : Warp → Warp) : (setWarp s n f).cur = s.cur := rfl
@[simp] theorem setWarp_free (s : State) (n : Nat) (f : Warp → Warp) : (setWarp s n f).free = s.free := rfl

/-! ### setPart -/

@[simp] theorem setPart_powered (s : State) (n : Nat) (f : Part → Part) : (setPart s n f).powered = s.powered := rfl
@[simp] theorem setPart_stage (s : State) (n : Nat) (f : Part → Part) : (setPart s n f).stage = s.stage := rfl
@[simp] theorem setPart_stepping (s : State) (n : Nat) (f : Part → Part) : (setPart s n f).stepping = s.stepping := rfl
@[simp] theorem setPart_scrubint (s : State) (n : Nat) (f : Part → Part) : (setPart s n f).scrubint = s.scrubint := rfl
@[simp] theorem setPart_replreq (s : State) (n : Nat) (f : Part → Part) : (setPart s n f).replreq = s.replreq := rfl
@[simp] theorem setPart_corelost (s : State) (n : Nat) (f : Part → Part) : (setPart s n f).corelost = s.corelost := rfl
@[simp] theorem setPart_aer (s : State) (n : Nat) (f : Part → Part) : (setPart s n f).aer = s.aer := rfl
@[simp] theorem setPart_sharedFail (s : State) (n : Nat) (f : Part → Part) : (setPart s n f).sharedFail = s.sharedFail := rfl
@[simp] theorem setPart_recovery (s : State) (n : Nat) (f : Part → Part) : (setPart s n f).recovery = s.recovery := rfl
@[simp] theorem setPart_dieErr (s : State) (n : Nat) (f : Part → Part) : (setPart s n f).dieErr = s.dieErr := rfl
@[simp] theorem setPart_clk (s : State) (n : Nat) (f : Part → Part) : (setPart s n f).clk = s.clk := rfl
@[simp] theorem setPart_hbeat (s : State) (n : Nat) (f : Part → Part) : (setPart s n f).hbeat = s.hbeat := rfl
@[simp] theorem setPart_timeU (s : State) (n : Nat) (f : Part → Part) : (setPart s n f).timeU = s.timeU := rfl
@[simp] theorem setPart_slew (s : State) (n : Nat) (f : Part → Part) : (setPart s n f).slew = s.slew := rfl
@[simp] theorem setPart_timeSrc (s : State) (n : Nat) (f : Part → Part) : (setPart s n f).timeSrc = s.timeSrc := rfl
@[simp] theorem setPart_timeLocked (s : State) (n : Nat) (f : Part → Part) : (setPart s n f).timeLocked = s.timeLocked := rfl
@[simp] theorem setPart_startup (s : State) (n : Nat) (f : Part → Part) : (setPart s n f).startup = s.startup := rfl
@[simp] theorem setPart_pfBusy (s : State) (n : Nat) (f : Part → Part) : (setPart s n f).pfBusy = s.pfBusy := rfl
@[simp] theorem setPart_pfStatus (s : State) (n : Nat) (f : Part → Part) : (setPart s n f).pfStatus = s.pfStatus := rfl
@[simp] theorem setPart_pfaddr (s : State) (n : Nat) (f : Part → Part) : (setPart s n f).pfaddr = s.pfaddr := rfl
@[simp] theorem setPart_pfdata (s : State) (n : Nat) (f : Part → Part) : (setPart s n f).pfdata = s.pfdata := rfl
@[simp] theorem setPart_pfShape (s : State) (n : Nat) (f : Part → Part) : (setPart s n f).pfShape = s.pfShape := rfl
@[simp] theorem setPart_keyCount (s : State) (n : Nat) (f : Part → Part) : (setPart s n f).keyCount = s.keyCount := rfl
@[simp] theorem setPart_linkKeys (s : State) (n : Nat) (f : Part → Part) : (setPart s n f).linkKeys = s.linkKeys := rfl
@[simp] theorem setPart_linkCount (s : State) (n : Nat) (f : Part → Part) : (setPart s n f).linkCount = s.linkCount := rfl
@[simp] theorem setPart_channels (s : State) (n : Nat) (f : Part → Part) : (setPart s n f).channels = s.channels := rfl
@[simp] theorem setPart_slices (s : State) (n : Nat) (f : Part → Part) : (setPart s n f).slices = s.slices := rfl
@[simp] theorem setPart_cores (s : State) (n : Nat) (f : Part → Part) : (setPart s n f).cores = s.cores := rfl
@[simp] theorem setPart_warps (s : State) (n : Nat) (f : Part → Part) : (setPart s n f).warps = s.warps := rfl
@[simp] theorem setPart_blocks (s : State) (n : Nat) (f : Part → Part) : (setPart s n f).blocks = s.blocks := rfl
@[simp] theorem setPart_launches (s : State) (n : Nat) (f : Part → Part) : (setPart s n f).launches = s.launches := rfl
@[simp] theorem setPart_mem (s : State) (n : Nat) (f : Part → Part) : (setPart s n f).mem = s.mem := rfl
@[simp] theorem setPart_hostMem (s : State) (n : Nat) (f : Part → Part) : (setPart s n f).hostMem = s.hostMem := rfl
@[simp] theorem setPart_peerMem (s : State) (n : Nat) (f : Part → Part) : (setPart s n f).peerMem = s.peerMem := rfl
@[simp] theorem setPart_flights (s : State) (n : Nat) (f : Part → Part) : (setPart s n f).flights = s.flights := rfl
@[simp] theorem setPart_loads (s : State) (n : Nat) (f : Part → Part) : (setPart s n f).loads = s.loads := rfl
@[simp] theorem setPart_ops (s : State) (n : Nat) (f : Part → Part) : (setPart s n f).ops = s.ops := rfl
@[simp] theorem setPart_nextId (s : State) (n : Nat) (f : Part → Part) : (setPart s n f).nextId = s.nextId := rfl
@[simp] theorem setPart_poison (s : State) (n : Nat) (f : Part → Part) : (setPart s n f).poison = s.poison := rfl
@[simp] theorem setPart_chipPoison (s : State) (n : Nat) (f : Part → Part) : (setPart s n f).chipPoison = s.chipPoison := rfl
@[simp] theorem setPart_dramErr (s : State) (n : Nat) (f : Part → Part) : (setPart s n f).dramErr = s.dramErr := rfl
@[simp] theorem setPart_lines (s : State) (n : Nat) (f : Part → Part) : (setPart s n f).lines = s.lines := rfl
@[simp] theorem setPart_activ (s : State) (n : Nat) (f : Part → Part) : (setPart s n f).activ = s.activ := rfl
@[simp] theorem setPart_sessions (s : State) (n : Nat) (f : Part → Part) : (setPart s n f).sessions = s.sessions := rfl
@[simp] theorem setPart_sessionCount (s : State) (n : Nat) (f : Part → Part) : (setPart s n f).sessionCount = s.sessionCount := rfl
@[simp] theorem setPart_images (s : State) (n : Nat) (f : Part → Part) : (setPart s n f).images = s.images := rfl
@[simp] theorem setPart_pfRegs (s : State) (n : Nat) (f : Part → Part) : (setPart s n f).pfRegs = s.pfRegs := rfl
@[simp] theorem setPart_msi (s : State) (n : Nat) (f : Part → Part) : (setPart s n f).msi = s.msi := rfl
@[simp] theorem setPart_sent (s : State) (n : Nat) (f : Part → Part) : (setPart s n f).sent = s.sent := rfl
@[simp] theorem setPart_formed (s : State) (n : Nat) (f : Part → Part) : (setPart s n f).formed = s.formed := rfl
@[simp] theorem setPart_inputs (s : State) (n : Nat) (f : Part → Part) : (setPart s n f).inputs = s.inputs := rfl
@[simp] theorem setPart_issuing (s : State) (n : Nat) (f : Part → Part) : (setPart s n f).issuing = s.issuing := rfl
@[simp] theorem setPart_agenda (s : State) (n : Nat) (f : Part → Part) : (setPart s n f).agenda = s.agenda := rfl
@[simp] theorem setPart_cur (s : State) (n : Nat) (f : Part → Part) : (setPart s n f).cur = s.cur := rfl
@[simp] theorem setPart_free (s : State) (n : Nat) (f : Part → Part) : (setPart s n f).free = s.free := rfl

/-! ### setBlock -/

@[simp] theorem setBlock_powered (s : State) (n : Nat) (f : Block → Block) : (setBlock s n f).powered = s.powered := rfl
@[simp] theorem setBlock_stage (s : State) (n : Nat) (f : Block → Block) : (setBlock s n f).stage = s.stage := rfl
@[simp] theorem setBlock_stepping (s : State) (n : Nat) (f : Block → Block) : (setBlock s n f).stepping = s.stepping := rfl
@[simp] theorem setBlock_scrubint (s : State) (n : Nat) (f : Block → Block) : (setBlock s n f).scrubint = s.scrubint := rfl
@[simp] theorem setBlock_replreq (s : State) (n : Nat) (f : Block → Block) : (setBlock s n f).replreq = s.replreq := rfl
@[simp] theorem setBlock_corelost (s : State) (n : Nat) (f : Block → Block) : (setBlock s n f).corelost = s.corelost := rfl
@[simp] theorem setBlock_aer (s : State) (n : Nat) (f : Block → Block) : (setBlock s n f).aer = s.aer := rfl
@[simp] theorem setBlock_sharedFail (s : State) (n : Nat) (f : Block → Block) : (setBlock s n f).sharedFail = s.sharedFail := rfl
@[simp] theorem setBlock_recovery (s : State) (n : Nat) (f : Block → Block) : (setBlock s n f).recovery = s.recovery := rfl
@[simp] theorem setBlock_dieErr (s : State) (n : Nat) (f : Block → Block) : (setBlock s n f).dieErr = s.dieErr := rfl
@[simp] theorem setBlock_clk (s : State) (n : Nat) (f : Block → Block) : (setBlock s n f).clk = s.clk := rfl
@[simp] theorem setBlock_hbeat (s : State) (n : Nat) (f : Block → Block) : (setBlock s n f).hbeat = s.hbeat := rfl
@[simp] theorem setBlock_timeU (s : State) (n : Nat) (f : Block → Block) : (setBlock s n f).timeU = s.timeU := rfl
@[simp] theorem setBlock_slew (s : State) (n : Nat) (f : Block → Block) : (setBlock s n f).slew = s.slew := rfl
@[simp] theorem setBlock_timeSrc (s : State) (n : Nat) (f : Block → Block) : (setBlock s n f).timeSrc = s.timeSrc := rfl
@[simp] theorem setBlock_timeLocked (s : State) (n : Nat) (f : Block → Block) : (setBlock s n f).timeLocked = s.timeLocked := rfl
@[simp] theorem setBlock_startup (s : State) (n : Nat) (f : Block → Block) : (setBlock s n f).startup = s.startup := rfl
@[simp] theorem setBlock_pfBusy (s : State) (n : Nat) (f : Block → Block) : (setBlock s n f).pfBusy = s.pfBusy := rfl
@[simp] theorem setBlock_pfStatus (s : State) (n : Nat) (f : Block → Block) : (setBlock s n f).pfStatus = s.pfStatus := rfl
@[simp] theorem setBlock_pfaddr (s : State) (n : Nat) (f : Block → Block) : (setBlock s n f).pfaddr = s.pfaddr := rfl
@[simp] theorem setBlock_pfdata (s : State) (n : Nat) (f : Block → Block) : (setBlock s n f).pfdata = s.pfdata := rfl
@[simp] theorem setBlock_pfShape (s : State) (n : Nat) (f : Block → Block) : (setBlock s n f).pfShape = s.pfShape := rfl
@[simp] theorem setBlock_keyCount (s : State) (n : Nat) (f : Block → Block) : (setBlock s n f).keyCount = s.keyCount := rfl
@[simp] theorem setBlock_linkKeys (s : State) (n : Nat) (f : Block → Block) : (setBlock s n f).linkKeys = s.linkKeys := rfl
@[simp] theorem setBlock_linkCount (s : State) (n : Nat) (f : Block → Block) : (setBlock s n f).linkCount = s.linkCount := rfl
@[simp] theorem setBlock_channels (s : State) (n : Nat) (f : Block → Block) : (setBlock s n f).channels = s.channels := rfl
@[simp] theorem setBlock_slices (s : State) (n : Nat) (f : Block → Block) : (setBlock s n f).slices = s.slices := rfl
@[simp] theorem setBlock_cores (s : State) (n : Nat) (f : Block → Block) : (setBlock s n f).cores = s.cores := rfl
@[simp] theorem setBlock_warps (s : State) (n : Nat) (f : Block → Block) : (setBlock s n f).warps = s.warps := rfl
@[simp] theorem setBlock_parts (s : State) (n : Nat) (f : Block → Block) : (setBlock s n f).parts = s.parts := rfl
@[simp] theorem setBlock_launches (s : State) (n : Nat) (f : Block → Block) : (setBlock s n f).launches = s.launches := rfl
@[simp] theorem setBlock_mem (s : State) (n : Nat) (f : Block → Block) : (setBlock s n f).mem = s.mem := rfl
@[simp] theorem setBlock_hostMem (s : State) (n : Nat) (f : Block → Block) : (setBlock s n f).hostMem = s.hostMem := rfl
@[simp] theorem setBlock_peerMem (s : State) (n : Nat) (f : Block → Block) : (setBlock s n f).peerMem = s.peerMem := rfl
@[simp] theorem setBlock_flights (s : State) (n : Nat) (f : Block → Block) : (setBlock s n f).flights = s.flights := rfl
@[simp] theorem setBlock_loads (s : State) (n : Nat) (f : Block → Block) : (setBlock s n f).loads = s.loads := rfl
@[simp] theorem setBlock_ops (s : State) (n : Nat) (f : Block → Block) : (setBlock s n f).ops = s.ops := rfl
@[simp] theorem setBlock_nextId (s : State) (n : Nat) (f : Block → Block) : (setBlock s n f).nextId = s.nextId := rfl
@[simp] theorem setBlock_poison (s : State) (n : Nat) (f : Block → Block) : (setBlock s n f).poison = s.poison := rfl
@[simp] theorem setBlock_chipPoison (s : State) (n : Nat) (f : Block → Block) : (setBlock s n f).chipPoison = s.chipPoison := rfl
@[simp] theorem setBlock_dramErr (s : State) (n : Nat) (f : Block → Block) : (setBlock s n f).dramErr = s.dramErr := rfl
@[simp] theorem setBlock_lines (s : State) (n : Nat) (f : Block → Block) : (setBlock s n f).lines = s.lines := rfl
@[simp] theorem setBlock_activ (s : State) (n : Nat) (f : Block → Block) : (setBlock s n f).activ = s.activ := rfl
@[simp] theorem setBlock_sessions (s : State) (n : Nat) (f : Block → Block) : (setBlock s n f).sessions = s.sessions := rfl
@[simp] theorem setBlock_sessionCount (s : State) (n : Nat) (f : Block → Block) : (setBlock s n f).sessionCount = s.sessionCount := rfl
@[simp] theorem setBlock_images (s : State) (n : Nat) (f : Block → Block) : (setBlock s n f).images = s.images := rfl
@[simp] theorem setBlock_pfRegs (s : State) (n : Nat) (f : Block → Block) : (setBlock s n f).pfRegs = s.pfRegs := rfl
@[simp] theorem setBlock_msi (s : State) (n : Nat) (f : Block → Block) : (setBlock s n f).msi = s.msi := rfl
@[simp] theorem setBlock_sent (s : State) (n : Nat) (f : Block → Block) : (setBlock s n f).sent = s.sent := rfl
@[simp] theorem setBlock_formed (s : State) (n : Nat) (f : Block → Block) : (setBlock s n f).formed = s.formed := rfl
@[simp] theorem setBlock_inputs (s : State) (n : Nat) (f : Block → Block) : (setBlock s n f).inputs = s.inputs := rfl
@[simp] theorem setBlock_issuing (s : State) (n : Nat) (f : Block → Block) : (setBlock s n f).issuing = s.issuing := rfl
@[simp] theorem setBlock_agenda (s : State) (n : Nat) (f : Block → Block) : (setBlock s n f).agenda = s.agenda := rfl
@[simp] theorem setBlock_cur (s : State) (n : Nat) (f : Block → Block) : (setBlock s n f).cur = s.cur := rfl
@[simp] theorem setBlock_free (s : State) (n : Nat) (f : Block → Block) : (setBlock s n f).free = s.free := rfl

/-! ### setLaunch -/

@[simp] theorem setLaunch_powered (s : State) (n : Nat) (f : Launch → Launch) : (setLaunch s n f).powered = s.powered := rfl
@[simp] theorem setLaunch_stage (s : State) (n : Nat) (f : Launch → Launch) : (setLaunch s n f).stage = s.stage := rfl
@[simp] theorem setLaunch_stepping (s : State) (n : Nat) (f : Launch → Launch) : (setLaunch s n f).stepping = s.stepping := rfl
@[simp] theorem setLaunch_scrubint (s : State) (n : Nat) (f : Launch → Launch) : (setLaunch s n f).scrubint = s.scrubint := rfl
@[simp] theorem setLaunch_replreq (s : State) (n : Nat) (f : Launch → Launch) : (setLaunch s n f).replreq = s.replreq := rfl
@[simp] theorem setLaunch_corelost (s : State) (n : Nat) (f : Launch → Launch) : (setLaunch s n f).corelost = s.corelost := rfl
@[simp] theorem setLaunch_aer (s : State) (n : Nat) (f : Launch → Launch) : (setLaunch s n f).aer = s.aer := rfl
@[simp] theorem setLaunch_sharedFail (s : State) (n : Nat) (f : Launch → Launch) : (setLaunch s n f).sharedFail = s.sharedFail := rfl
@[simp] theorem setLaunch_recovery (s : State) (n : Nat) (f : Launch → Launch) : (setLaunch s n f).recovery = s.recovery := rfl
@[simp] theorem setLaunch_dieErr (s : State) (n : Nat) (f : Launch → Launch) : (setLaunch s n f).dieErr = s.dieErr := rfl
@[simp] theorem setLaunch_clk (s : State) (n : Nat) (f : Launch → Launch) : (setLaunch s n f).clk = s.clk := rfl
@[simp] theorem setLaunch_hbeat (s : State) (n : Nat) (f : Launch → Launch) : (setLaunch s n f).hbeat = s.hbeat := rfl
@[simp] theorem setLaunch_timeU (s : State) (n : Nat) (f : Launch → Launch) : (setLaunch s n f).timeU = s.timeU := rfl
@[simp] theorem setLaunch_slew (s : State) (n : Nat) (f : Launch → Launch) : (setLaunch s n f).slew = s.slew := rfl
@[simp] theorem setLaunch_timeSrc (s : State) (n : Nat) (f : Launch → Launch) : (setLaunch s n f).timeSrc = s.timeSrc := rfl
@[simp] theorem setLaunch_timeLocked (s : State) (n : Nat) (f : Launch → Launch) : (setLaunch s n f).timeLocked = s.timeLocked := rfl
@[simp] theorem setLaunch_startup (s : State) (n : Nat) (f : Launch → Launch) : (setLaunch s n f).startup = s.startup := rfl
@[simp] theorem setLaunch_pfBusy (s : State) (n : Nat) (f : Launch → Launch) : (setLaunch s n f).pfBusy = s.pfBusy := rfl
@[simp] theorem setLaunch_pfStatus (s : State) (n : Nat) (f : Launch → Launch) : (setLaunch s n f).pfStatus = s.pfStatus := rfl
@[simp] theorem setLaunch_pfaddr (s : State) (n : Nat) (f : Launch → Launch) : (setLaunch s n f).pfaddr = s.pfaddr := rfl
@[simp] theorem setLaunch_pfdata (s : State) (n : Nat) (f : Launch → Launch) : (setLaunch s n f).pfdata = s.pfdata := rfl
@[simp] theorem setLaunch_pfShape (s : State) (n : Nat) (f : Launch → Launch) : (setLaunch s n f).pfShape = s.pfShape := rfl
@[simp] theorem setLaunch_keyCount (s : State) (n : Nat) (f : Launch → Launch) : (setLaunch s n f).keyCount = s.keyCount := rfl
@[simp] theorem setLaunch_linkKeys (s : State) (n : Nat) (f : Launch → Launch) : (setLaunch s n f).linkKeys = s.linkKeys := rfl
@[simp] theorem setLaunch_linkCount (s : State) (n : Nat) (f : Launch → Launch) : (setLaunch s n f).linkCount = s.linkCount := rfl
@[simp] theorem setLaunch_channels (s : State) (n : Nat) (f : Launch → Launch) : (setLaunch s n f).channels = s.channels := rfl
@[simp] theorem setLaunch_slices (s : State) (n : Nat) (f : Launch → Launch) : (setLaunch s n f).slices = s.slices := rfl
@[simp] theorem setLaunch_cores (s : State) (n : Nat) (f : Launch → Launch) : (setLaunch s n f).cores = s.cores := rfl
@[simp] theorem setLaunch_warps (s : State) (n : Nat) (f : Launch → Launch) : (setLaunch s n f).warps = s.warps := rfl
@[simp] theorem setLaunch_parts (s : State) (n : Nat) (f : Launch → Launch) : (setLaunch s n f).parts = s.parts := rfl
@[simp] theorem setLaunch_blocks (s : State) (n : Nat) (f : Launch → Launch) : (setLaunch s n f).blocks = s.blocks := rfl
@[simp] theorem setLaunch_mem (s : State) (n : Nat) (f : Launch → Launch) : (setLaunch s n f).mem = s.mem := rfl
@[simp] theorem setLaunch_hostMem (s : State) (n : Nat) (f : Launch → Launch) : (setLaunch s n f).hostMem = s.hostMem := rfl
@[simp] theorem setLaunch_peerMem (s : State) (n : Nat) (f : Launch → Launch) : (setLaunch s n f).peerMem = s.peerMem := rfl
@[simp] theorem setLaunch_flights (s : State) (n : Nat) (f : Launch → Launch) : (setLaunch s n f).flights = s.flights := rfl
@[simp] theorem setLaunch_loads (s : State) (n : Nat) (f : Launch → Launch) : (setLaunch s n f).loads = s.loads := rfl
@[simp] theorem setLaunch_ops (s : State) (n : Nat) (f : Launch → Launch) : (setLaunch s n f).ops = s.ops := rfl
@[simp] theorem setLaunch_nextId (s : State) (n : Nat) (f : Launch → Launch) : (setLaunch s n f).nextId = s.nextId := rfl
@[simp] theorem setLaunch_poison (s : State) (n : Nat) (f : Launch → Launch) : (setLaunch s n f).poison = s.poison := rfl
@[simp] theorem setLaunch_chipPoison (s : State) (n : Nat) (f : Launch → Launch) : (setLaunch s n f).chipPoison = s.chipPoison := rfl
@[simp] theorem setLaunch_dramErr (s : State) (n : Nat) (f : Launch → Launch) : (setLaunch s n f).dramErr = s.dramErr := rfl
@[simp] theorem setLaunch_lines (s : State) (n : Nat) (f : Launch → Launch) : (setLaunch s n f).lines = s.lines := rfl
@[simp] theorem setLaunch_activ (s : State) (n : Nat) (f : Launch → Launch) : (setLaunch s n f).activ = s.activ := rfl
@[simp] theorem setLaunch_sessions (s : State) (n : Nat) (f : Launch → Launch) : (setLaunch s n f).sessions = s.sessions := rfl
@[simp] theorem setLaunch_sessionCount (s : State) (n : Nat) (f : Launch → Launch) : (setLaunch s n f).sessionCount = s.sessionCount := rfl
@[simp] theorem setLaunch_images (s : State) (n : Nat) (f : Launch → Launch) : (setLaunch s n f).images = s.images := rfl
@[simp] theorem setLaunch_pfRegs (s : State) (n : Nat) (f : Launch → Launch) : (setLaunch s n f).pfRegs = s.pfRegs := rfl
@[simp] theorem setLaunch_msi (s : State) (n : Nat) (f : Launch → Launch) : (setLaunch s n f).msi = s.msi := rfl
@[simp] theorem setLaunch_sent (s : State) (n : Nat) (f : Launch → Launch) : (setLaunch s n f).sent = s.sent := rfl
@[simp] theorem setLaunch_formed (s : State) (n : Nat) (f : Launch → Launch) : (setLaunch s n f).formed = s.formed := rfl
@[simp] theorem setLaunch_inputs (s : State) (n : Nat) (f : Launch → Launch) : (setLaunch s n f).inputs = s.inputs := rfl
@[simp] theorem setLaunch_issuing (s : State) (n : Nat) (f : Launch → Launch) : (setLaunch s n f).issuing = s.issuing := rfl
@[simp] theorem setLaunch_agenda (s : State) (n : Nat) (f : Launch → Launch) : (setLaunch s n f).agenda = s.agenda := rfl
@[simp] theorem setLaunch_cur (s : State) (n : Nat) (f : Launch → Launch) : (setLaunch s n f).cur = s.cur := rfl
@[simp] theorem setLaunch_free (s : State) (n : Nat) (f : Launch → Launch) : (setLaunch s n f).free = s.free := rfl

/-! ### setChan -/

@[simp] theorem setChan_powered (s : State) (n : Nat) (f : Channel → Channel) : (setChan s n f).powered = s.powered := rfl
@[simp] theorem setChan_stage (s : State) (n : Nat) (f : Channel → Channel) : (setChan s n f).stage = s.stage := rfl
@[simp] theorem setChan_stepping (s : State) (n : Nat) (f : Channel → Channel) : (setChan s n f).stepping = s.stepping := rfl
@[simp] theorem setChan_scrubint (s : State) (n : Nat) (f : Channel → Channel) : (setChan s n f).scrubint = s.scrubint := rfl
@[simp] theorem setChan_replreq (s : State) (n : Nat) (f : Channel → Channel) : (setChan s n f).replreq = s.replreq := rfl
@[simp] theorem setChan_corelost (s : State) (n : Nat) (f : Channel → Channel) : (setChan s n f).corelost = s.corelost := rfl
@[simp] theorem setChan_aer (s : State) (n : Nat) (f : Channel → Channel) : (setChan s n f).aer = s.aer := rfl
@[simp] theorem setChan_sharedFail (s : State) (n : Nat) (f : Channel → Channel) : (setChan s n f).sharedFail = s.sharedFail := rfl
@[simp] theorem setChan_recovery (s : State) (n : Nat) (f : Channel → Channel) : (setChan s n f).recovery = s.recovery := rfl
@[simp] theorem setChan_dieErr (s : State) (n : Nat) (f : Channel → Channel) : (setChan s n f).dieErr = s.dieErr := rfl
@[simp] theorem setChan_clk (s : State) (n : Nat) (f : Channel → Channel) : (setChan s n f).clk = s.clk := rfl
@[simp] theorem setChan_hbeat (s : State) (n : Nat) (f : Channel → Channel) : (setChan s n f).hbeat = s.hbeat := rfl
@[simp] theorem setChan_timeU (s : State) (n : Nat) (f : Channel → Channel) : (setChan s n f).timeU = s.timeU := rfl
@[simp] theorem setChan_slew (s : State) (n : Nat) (f : Channel → Channel) : (setChan s n f).slew = s.slew := rfl
@[simp] theorem setChan_timeSrc (s : State) (n : Nat) (f : Channel → Channel) : (setChan s n f).timeSrc = s.timeSrc := rfl
@[simp] theorem setChan_timeLocked (s : State) (n : Nat) (f : Channel → Channel) : (setChan s n f).timeLocked = s.timeLocked := rfl
@[simp] theorem setChan_startup (s : State) (n : Nat) (f : Channel → Channel) : (setChan s n f).startup = s.startup := rfl
@[simp] theorem setChan_pfBusy (s : State) (n : Nat) (f : Channel → Channel) : (setChan s n f).pfBusy = s.pfBusy := rfl
@[simp] theorem setChan_pfStatus (s : State) (n : Nat) (f : Channel → Channel) : (setChan s n f).pfStatus = s.pfStatus := rfl
@[simp] theorem setChan_pfaddr (s : State) (n : Nat) (f : Channel → Channel) : (setChan s n f).pfaddr = s.pfaddr := rfl
@[simp] theorem setChan_pfdata (s : State) (n : Nat) (f : Channel → Channel) : (setChan s n f).pfdata = s.pfdata := rfl
@[simp] theorem setChan_pfShape (s : State) (n : Nat) (f : Channel → Channel) : (setChan s n f).pfShape = s.pfShape := rfl
@[simp] theorem setChan_keyCount (s : State) (n : Nat) (f : Channel → Channel) : (setChan s n f).keyCount = s.keyCount := rfl
@[simp] theorem setChan_linkKeys (s : State) (n : Nat) (f : Channel → Channel) : (setChan s n f).linkKeys = s.linkKeys := rfl
@[simp] theorem setChan_linkCount (s : State) (n : Nat) (f : Channel → Channel) : (setChan s n f).linkCount = s.linkCount := rfl
@[simp] theorem setChan_slices (s : State) (n : Nat) (f : Channel → Channel) : (setChan s n f).slices = s.slices := rfl
@[simp] theorem setChan_cores (s : State) (n : Nat) (f : Channel → Channel) : (setChan s n f).cores = s.cores := rfl
@[simp] theorem setChan_warps (s : State) (n : Nat) (f : Channel → Channel) : (setChan s n f).warps = s.warps := rfl
@[simp] theorem setChan_parts (s : State) (n : Nat) (f : Channel → Channel) : (setChan s n f).parts = s.parts := rfl
@[simp] theorem setChan_blocks (s : State) (n : Nat) (f : Channel → Channel) : (setChan s n f).blocks = s.blocks := rfl
@[simp] theorem setChan_launches (s : State) (n : Nat) (f : Channel → Channel) : (setChan s n f).launches = s.launches := rfl
@[simp] theorem setChan_mem (s : State) (n : Nat) (f : Channel → Channel) : (setChan s n f).mem = s.mem := rfl
@[simp] theorem setChan_hostMem (s : State) (n : Nat) (f : Channel → Channel) : (setChan s n f).hostMem = s.hostMem := rfl
@[simp] theorem setChan_peerMem (s : State) (n : Nat) (f : Channel → Channel) : (setChan s n f).peerMem = s.peerMem := rfl
@[simp] theorem setChan_flights (s : State) (n : Nat) (f : Channel → Channel) : (setChan s n f).flights = s.flights := rfl
@[simp] theorem setChan_loads (s : State) (n : Nat) (f : Channel → Channel) : (setChan s n f).loads = s.loads := rfl
@[simp] theorem setChan_ops (s : State) (n : Nat) (f : Channel → Channel) : (setChan s n f).ops = s.ops := rfl
@[simp] theorem setChan_nextId (s : State) (n : Nat) (f : Channel → Channel) : (setChan s n f).nextId = s.nextId := rfl
@[simp] theorem setChan_poison (s : State) (n : Nat) (f : Channel → Channel) : (setChan s n f).poison = s.poison := rfl
@[simp] theorem setChan_chipPoison (s : State) (n : Nat) (f : Channel → Channel) : (setChan s n f).chipPoison = s.chipPoison := rfl
@[simp] theorem setChan_dramErr (s : State) (n : Nat) (f : Channel → Channel) : (setChan s n f).dramErr = s.dramErr := rfl
@[simp] theorem setChan_lines (s : State) (n : Nat) (f : Channel → Channel) : (setChan s n f).lines = s.lines := rfl
@[simp] theorem setChan_activ (s : State) (n : Nat) (f : Channel → Channel) : (setChan s n f).activ = s.activ := rfl
@[simp] theorem setChan_sessions (s : State) (n : Nat) (f : Channel → Channel) : (setChan s n f).sessions = s.sessions := rfl
@[simp] theorem setChan_sessionCount (s : State) (n : Nat) (f : Channel → Channel) : (setChan s n f).sessionCount = s.sessionCount := rfl
@[simp] theorem setChan_images (s : State) (n : Nat) (f : Channel → Channel) : (setChan s n f).images = s.images := rfl
@[simp] theorem setChan_pfRegs (s : State) (n : Nat) (f : Channel → Channel) : (setChan s n f).pfRegs = s.pfRegs := rfl
@[simp] theorem setChan_msi (s : State) (n : Nat) (f : Channel → Channel) : (setChan s n f).msi = s.msi := rfl
@[simp] theorem setChan_sent (s : State) (n : Nat) (f : Channel → Channel) : (setChan s n f).sent = s.sent := rfl
@[simp] theorem setChan_formed (s : State) (n : Nat) (f : Channel → Channel) : (setChan s n f).formed = s.formed := rfl
@[simp] theorem setChan_inputs (s : State) (n : Nat) (f : Channel → Channel) : (setChan s n f).inputs = s.inputs := rfl
@[simp] theorem setChan_issuing (s : State) (n : Nat) (f : Channel → Channel) : (setChan s n f).issuing = s.issuing := rfl
@[simp] theorem setChan_agenda (s : State) (n : Nat) (f : Channel → Channel) : (setChan s n f).agenda = s.agenda := rfl
@[simp] theorem setChan_cur (s : State) (n : Nat) (f : Channel → Channel) : (setChan s n f).cur = s.cur := rfl
@[simp] theorem setChan_free (s : State) (n : Nat) (f : Channel → Channel) : (setChan s n f).free = s.free := rfl

/-! ### setThread -/

@[simp] theorem setThread_powered (s : State) (n l : Nat) (f : Thread → Thread) : (setThread s n l f).powered = s.powered := rfl
@[simp] theorem setThread_stage (s : State) (n l : Nat) (f : Thread → Thread) : (setThread s n l f).stage = s.stage := rfl
@[simp] theorem setThread_stepping (s : State) (n l : Nat) (f : Thread → Thread) : (setThread s n l f).stepping = s.stepping := rfl
@[simp] theorem setThread_scrubint (s : State) (n l : Nat) (f : Thread → Thread) : (setThread s n l f).scrubint = s.scrubint := rfl
@[simp] theorem setThread_replreq (s : State) (n l : Nat) (f : Thread → Thread) : (setThread s n l f).replreq = s.replreq := rfl
@[simp] theorem setThread_corelost (s : State) (n l : Nat) (f : Thread → Thread) : (setThread s n l f).corelost = s.corelost := rfl
@[simp] theorem setThread_aer (s : State) (n l : Nat) (f : Thread → Thread) : (setThread s n l f).aer = s.aer := rfl
@[simp] theorem setThread_sharedFail (s : State) (n l : Nat) (f : Thread → Thread) : (setThread s n l f).sharedFail = s.sharedFail := rfl
@[simp] theorem setThread_recovery (s : State) (n l : Nat) (f : Thread → Thread) : (setThread s n l f).recovery = s.recovery := rfl
@[simp] theorem setThread_dieErr (s : State) (n l : Nat) (f : Thread → Thread) : (setThread s n l f).dieErr = s.dieErr := rfl
@[simp] theorem setThread_clk (s : State) (n l : Nat) (f : Thread → Thread) : (setThread s n l f).clk = s.clk := rfl
@[simp] theorem setThread_hbeat (s : State) (n l : Nat) (f : Thread → Thread) : (setThread s n l f).hbeat = s.hbeat := rfl
@[simp] theorem setThread_timeU (s : State) (n l : Nat) (f : Thread → Thread) : (setThread s n l f).timeU = s.timeU := rfl
@[simp] theorem setThread_slew (s : State) (n l : Nat) (f : Thread → Thread) : (setThread s n l f).slew = s.slew := rfl
@[simp] theorem setThread_timeSrc (s : State) (n l : Nat) (f : Thread → Thread) : (setThread s n l f).timeSrc = s.timeSrc := rfl
@[simp] theorem setThread_timeLocked (s : State) (n l : Nat) (f : Thread → Thread) : (setThread s n l f).timeLocked = s.timeLocked := rfl
@[simp] theorem setThread_startup (s : State) (n l : Nat) (f : Thread → Thread) : (setThread s n l f).startup = s.startup := rfl
@[simp] theorem setThread_pfBusy (s : State) (n l : Nat) (f : Thread → Thread) : (setThread s n l f).pfBusy = s.pfBusy := rfl
@[simp] theorem setThread_pfStatus (s : State) (n l : Nat) (f : Thread → Thread) : (setThread s n l f).pfStatus = s.pfStatus := rfl
@[simp] theorem setThread_pfaddr (s : State) (n l : Nat) (f : Thread → Thread) : (setThread s n l f).pfaddr = s.pfaddr := rfl
@[simp] theorem setThread_pfdata (s : State) (n l : Nat) (f : Thread → Thread) : (setThread s n l f).pfdata = s.pfdata := rfl
@[simp] theorem setThread_pfShape (s : State) (n l : Nat) (f : Thread → Thread) : (setThread s n l f).pfShape = s.pfShape := rfl
@[simp] theorem setThread_keyCount (s : State) (n l : Nat) (f : Thread → Thread) : (setThread s n l f).keyCount = s.keyCount := rfl
@[simp] theorem setThread_linkKeys (s : State) (n l : Nat) (f : Thread → Thread) : (setThread s n l f).linkKeys = s.linkKeys := rfl
@[simp] theorem setThread_linkCount (s : State) (n l : Nat) (f : Thread → Thread) : (setThread s n l f).linkCount = s.linkCount := rfl
@[simp] theorem setThread_channels (s : State) (n l : Nat) (f : Thread → Thread) : (setThread s n l f).channels = s.channels := rfl
@[simp] theorem setThread_slices (s : State) (n l : Nat) (f : Thread → Thread) : (setThread s n l f).slices = s.slices := rfl
@[simp] theorem setThread_cores (s : State) (n l : Nat) (f : Thread → Thread) : (setThread s n l f).cores = s.cores := rfl
@[simp] theorem setThread_parts (s : State) (n l : Nat) (f : Thread → Thread) : (setThread s n l f).parts = s.parts := rfl
@[simp] theorem setThread_blocks (s : State) (n l : Nat) (f : Thread → Thread) : (setThread s n l f).blocks = s.blocks := rfl
@[simp] theorem setThread_launches (s : State) (n l : Nat) (f : Thread → Thread) : (setThread s n l f).launches = s.launches := rfl
@[simp] theorem setThread_mem (s : State) (n l : Nat) (f : Thread → Thread) : (setThread s n l f).mem = s.mem := rfl
@[simp] theorem setThread_hostMem (s : State) (n l : Nat) (f : Thread → Thread) : (setThread s n l f).hostMem = s.hostMem := rfl
@[simp] theorem setThread_peerMem (s : State) (n l : Nat) (f : Thread → Thread) : (setThread s n l f).peerMem = s.peerMem := rfl
@[simp] theorem setThread_flights (s : State) (n l : Nat) (f : Thread → Thread) : (setThread s n l f).flights = s.flights := rfl
@[simp] theorem setThread_loads (s : State) (n l : Nat) (f : Thread → Thread) : (setThread s n l f).loads = s.loads := rfl
@[simp] theorem setThread_ops (s : State) (n l : Nat) (f : Thread → Thread) : (setThread s n l f).ops = s.ops := rfl
@[simp] theorem setThread_nextId (s : State) (n l : Nat) (f : Thread → Thread) : (setThread s n l f).nextId = s.nextId := rfl
@[simp] theorem setThread_poison (s : State) (n l : Nat) (f : Thread → Thread) : (setThread s n l f).poison = s.poison := rfl
@[simp] theorem setThread_chipPoison (s : State) (n l : Nat) (f : Thread → Thread) : (setThread s n l f).chipPoison = s.chipPoison := rfl
@[simp] theorem setThread_dramErr (s : State) (n l : Nat) (f : Thread → Thread) : (setThread s n l f).dramErr = s.dramErr := rfl
@[simp] theorem setThread_lines (s : State) (n l : Nat) (f : Thread → Thread) : (setThread s n l f).lines = s.lines := rfl
@[simp] theorem setThread_activ (s : State) (n l : Nat) (f : Thread → Thread) : (setThread s n l f).activ = s.activ := rfl
@[simp] theorem setThread_sessions (s : State) (n l : Nat) (f : Thread → Thread) : (setThread s n l f).sessions = s.sessions := rfl
@[simp] theorem setThread_sessionCount (s : State) (n l : Nat) (f : Thread → Thread) : (setThread s n l f).sessionCount = s.sessionCount := rfl
@[simp] theorem setThread_images (s : State) (n l : Nat) (f : Thread → Thread) : (setThread s n l f).images = s.images := rfl
@[simp] theorem setThread_pfRegs (s : State) (n l : Nat) (f : Thread → Thread) : (setThread s n l f).pfRegs = s.pfRegs := rfl
@[simp] theorem setThread_msi (s : State) (n l : Nat) (f : Thread → Thread) : (setThread s n l f).msi = s.msi := rfl
@[simp] theorem setThread_sent (s : State) (n l : Nat) (f : Thread → Thread) : (setThread s n l f).sent = s.sent := rfl
@[simp] theorem setThread_formed (s : State) (n l : Nat) (f : Thread → Thread) : (setThread s n l f).formed = s.formed := rfl
@[simp] theorem setThread_inputs (s : State) (n l : Nat) (f : Thread → Thread) : (setThread s n l f).inputs = s.inputs := rfl
@[simp] theorem setThread_issuing (s : State) (n l : Nat) (f : Thread → Thread) : (setThread s n l f).issuing = s.issuing := rfl
@[simp] theorem setThread_agenda (s : State) (n l : Nat) (f : Thread → Thread) : (setThread s n l f).agenda = s.agenda := rfl
@[simp] theorem setThread_cur (s : State) (n l : Nat) (f : Thread → Thread) : (setThread s n l f).cur = s.cur := rfl
@[simp] theorem setThread_free (s : State) (n l : Nat) (f : Thread → Thread) : (setThread s n l f).free = s.free := rfl

/-! ### setThreads -/

@[simp] theorem setThreads_powered (s : State) (n : Nat) (m : Mask) (f : Nat → Thread → Thread) : (setThreads s n m f).powered = s.powered := rfl
@[simp] theorem setThreads_stage (s : State) (n : Nat) (m : Mask) (f : Nat → Thread → Thread) : (setThreads s n m f).stage = s.stage := rfl
@[simp] theorem setThreads_stepping (s : State) (n : Nat) (m : Mask) (f : Nat → Thread → Thread) : (setThreads s n m f).stepping = s.stepping := rfl
@[simp] theorem setThreads_scrubint (s : State) (n : Nat) (m : Mask) (f : Nat → Thread → Thread) : (setThreads s n m f).scrubint = s.scrubint := rfl
@[simp] theorem setThreads_replreq (s : State) (n : Nat) (m : Mask) (f : Nat → Thread → Thread) : (setThreads s n m f).replreq = s.replreq := rfl
@[simp] theorem setThreads_corelost (s : State) (n : Nat) (m : Mask) (f : Nat → Thread → Thread) : (setThreads s n m f).corelost = s.corelost := rfl
@[simp] theorem setThreads_aer (s : State) (n : Nat) (m : Mask) (f : Nat → Thread → Thread) : (setThreads s n m f).aer = s.aer := rfl
@[simp] theorem setThreads_sharedFail (s : State) (n : Nat) (m : Mask) (f : Nat → Thread → Thread) : (setThreads s n m f).sharedFail = s.sharedFail := rfl
@[simp] theorem setThreads_recovery (s : State) (n : Nat) (m : Mask) (f : Nat → Thread → Thread) : (setThreads s n m f).recovery = s.recovery := rfl
@[simp] theorem setThreads_dieErr (s : State) (n : Nat) (m : Mask) (f : Nat → Thread → Thread) : (setThreads s n m f).dieErr = s.dieErr := rfl
@[simp] theorem setThreads_clk (s : State) (n : Nat) (m : Mask) (f : Nat → Thread → Thread) : (setThreads s n m f).clk = s.clk := rfl
@[simp] theorem setThreads_hbeat (s : State) (n : Nat) (m : Mask) (f : Nat → Thread → Thread) : (setThreads s n m f).hbeat = s.hbeat := rfl
@[simp] theorem setThreads_timeU (s : State) (n : Nat) (m : Mask) (f : Nat → Thread → Thread) : (setThreads s n m f).timeU = s.timeU := rfl
@[simp] theorem setThreads_slew (s : State) (n : Nat) (m : Mask) (f : Nat → Thread → Thread) : (setThreads s n m f).slew = s.slew := rfl
@[simp] theorem setThreads_timeSrc (s : State) (n : Nat) (m : Mask) (f : Nat → Thread → Thread) : (setThreads s n m f).timeSrc = s.timeSrc := rfl
@[simp] theorem setThreads_timeLocked (s : State) (n : Nat) (m : Mask) (f : Nat → Thread → Thread) : (setThreads s n m f).timeLocked = s.timeLocked := rfl
@[simp] theorem setThreads_startup (s : State) (n : Nat) (m : Mask) (f : Nat → Thread → Thread) : (setThreads s n m f).startup = s.startup := rfl
@[simp] theorem setThreads_pfBusy (s : State) (n : Nat) (m : Mask) (f : Nat → Thread → Thread) : (setThreads s n m f).pfBusy = s.pfBusy := rfl
@[simp] theorem setThreads_pfStatus (s : State) (n : Nat) (m : Mask) (f : Nat → Thread → Thread) : (setThreads s n m f).pfStatus = s.pfStatus := rfl
@[simp] theorem setThreads_pfaddr (s : State) (n : Nat) (m : Mask) (f : Nat → Thread → Thread) : (setThreads s n m f).pfaddr = s.pfaddr := rfl
@[simp] theorem setThreads_pfdata (s : State) (n : Nat) (m : Mask) (f : Nat → Thread → Thread) : (setThreads s n m f).pfdata = s.pfdata := rfl
@[simp] theorem setThreads_pfShape (s : State) (n : Nat) (m : Mask) (f : Nat → Thread → Thread) : (setThreads s n m f).pfShape = s.pfShape := rfl
@[simp] theorem setThreads_keyCount (s : State) (n : Nat) (m : Mask) (f : Nat → Thread → Thread) : (setThreads s n m f).keyCount = s.keyCount := rfl
@[simp] theorem setThreads_linkKeys (s : State) (n : Nat) (m : Mask) (f : Nat → Thread → Thread) : (setThreads s n m f).linkKeys = s.linkKeys := rfl
@[simp] theorem setThreads_linkCount (s : State) (n : Nat) (m : Mask) (f : Nat → Thread → Thread) : (setThreads s n m f).linkCount = s.linkCount := rfl
@[simp] theorem setThreads_channels (s : State) (n : Nat) (m : Mask) (f : Nat → Thread → Thread) : (setThreads s n m f).channels = s.channels := rfl
@[simp] theorem setThreads_slices (s : State) (n : Nat) (m : Mask) (f : Nat → Thread → Thread) : (setThreads s n m f).slices = s.slices := rfl
@[simp] theorem setThreads_cores (s : State) (n : Nat) (m : Mask) (f : Nat → Thread → Thread) : (setThreads s n m f).cores = s.cores := rfl
@[simp] theorem setThreads_parts (s : State) (n : Nat) (m : Mask) (f : Nat → Thread → Thread) : (setThreads s n m f).parts = s.parts := rfl
@[simp] theorem setThreads_blocks (s : State) (n : Nat) (m : Mask) (f : Nat → Thread → Thread) : (setThreads s n m f).blocks = s.blocks := rfl
@[simp] theorem setThreads_launches (s : State) (n : Nat) (m : Mask) (f : Nat → Thread → Thread) : (setThreads s n m f).launches = s.launches := rfl
@[simp] theorem setThreads_mem (s : State) (n : Nat) (m : Mask) (f : Nat → Thread → Thread) : (setThreads s n m f).mem = s.mem := rfl
@[simp] theorem setThreads_hostMem (s : State) (n : Nat) (m : Mask) (f : Nat → Thread → Thread) : (setThreads s n m f).hostMem = s.hostMem := rfl
@[simp] theorem setThreads_peerMem (s : State) (n : Nat) (m : Mask) (f : Nat → Thread → Thread) : (setThreads s n m f).peerMem = s.peerMem := rfl
@[simp] theorem setThreads_flights (s : State) (n : Nat) (m : Mask) (f : Nat → Thread → Thread) : (setThreads s n m f).flights = s.flights := rfl
@[simp] theorem setThreads_loads (s : State) (n : Nat) (m : Mask) (f : Nat → Thread → Thread) : (setThreads s n m f).loads = s.loads := rfl
@[simp] theorem setThreads_ops (s : State) (n : Nat) (m : Mask) (f : Nat → Thread → Thread) : (setThreads s n m f).ops = s.ops := rfl
@[simp] theorem setThreads_nextId (s : State) (n : Nat) (m : Mask) (f : Nat → Thread → Thread) : (setThreads s n m f).nextId = s.nextId := rfl
@[simp] theorem setThreads_poison (s : State) (n : Nat) (m : Mask) (f : Nat → Thread → Thread) : (setThreads s n m f).poison = s.poison := rfl
@[simp] theorem setThreads_chipPoison (s : State) (n : Nat) (m : Mask) (f : Nat → Thread → Thread) : (setThreads s n m f).chipPoison = s.chipPoison := rfl
@[simp] theorem setThreads_dramErr (s : State) (n : Nat) (m : Mask) (f : Nat → Thread → Thread) : (setThreads s n m f).dramErr = s.dramErr := rfl
@[simp] theorem setThreads_lines (s : State) (n : Nat) (m : Mask) (f : Nat → Thread → Thread) : (setThreads s n m f).lines = s.lines := rfl
@[simp] theorem setThreads_activ (s : State) (n : Nat) (m : Mask) (f : Nat → Thread → Thread) : (setThreads s n m f).activ = s.activ := rfl
@[simp] theorem setThreads_sessions (s : State) (n : Nat) (m : Mask) (f : Nat → Thread → Thread) : (setThreads s n m f).sessions = s.sessions := rfl
@[simp] theorem setThreads_sessionCount (s : State) (n : Nat) (m : Mask) (f : Nat → Thread → Thread) : (setThreads s n m f).sessionCount = s.sessionCount := rfl
@[simp] theorem setThreads_images (s : State) (n : Nat) (m : Mask) (f : Nat → Thread → Thread) : (setThreads s n m f).images = s.images := rfl
@[simp] theorem setThreads_pfRegs (s : State) (n : Nat) (m : Mask) (f : Nat → Thread → Thread) : (setThreads s n m f).pfRegs = s.pfRegs := rfl
@[simp] theorem setThreads_msi (s : State) (n : Nat) (m : Mask) (f : Nat → Thread → Thread) : (setThreads s n m f).msi = s.msi := rfl
@[simp] theorem setThreads_sent (s : State) (n : Nat) (m : Mask) (f : Nat → Thread → Thread) : (setThreads s n m f).sent = s.sent := rfl
@[simp] theorem setThreads_formed (s : State) (n : Nat) (m : Mask) (f : Nat → Thread → Thread) : (setThreads s n m f).formed = s.formed := rfl
@[simp] theorem setThreads_inputs (s : State) (n : Nat) (m : Mask) (f : Nat → Thread → Thread) : (setThreads s n m f).inputs = s.inputs := rfl
@[simp] theorem setThreads_issuing (s : State) (n : Nat) (m : Mask) (f : Nat → Thread → Thread) : (setThreads s n m f).issuing = s.issuing := rfl
@[simp] theorem setThreads_agenda (s : State) (n : Nat) (m : Mask) (f : Nat → Thread → Thread) : (setThreads s n m f).agenda = s.agenda := rfl
@[simp] theorem setThreads_cur (s : State) (n : Nat) (m : Mask) (f : Nat → Thread → Thread) : (setThreads s n m f).cur = s.cur := rfl
@[simp] theorem setThreads_free (s : State) (n : Nat) (m : Mask) (f : Nat → Thread → Thread) : (setThreads s n m f).free = s.free := rfl

/-! ### setBundle -/

@[simp] theorem setBundle_powered (s : State) (n id : Nat) (f : Bundle → Bundle) : (setBundle s n id f).powered = s.powered := rfl
@[simp] theorem setBundle_stage (s : State) (n id : Nat) (f : Bundle → Bundle) : (setBundle s n id f).stage = s.stage := rfl
@[simp] theorem setBundle_stepping (s : State) (n id : Nat) (f : Bundle → Bundle) : (setBundle s n id f).stepping = s.stepping := rfl
@[simp] theorem setBundle_scrubint (s : State) (n id : Nat) (f : Bundle → Bundle) : (setBundle s n id f).scrubint = s.scrubint := rfl
@[simp] theorem setBundle_replreq (s : State) (n id : Nat) (f : Bundle → Bundle) : (setBundle s n id f).replreq = s.replreq := rfl
@[simp] theorem setBundle_corelost (s : State) (n id : Nat) (f : Bundle → Bundle) : (setBundle s n id f).corelost = s.corelost := rfl
@[simp] theorem setBundle_aer (s : State) (n id : Nat) (f : Bundle → Bundle) : (setBundle s n id f).aer = s.aer := rfl
@[simp] theorem setBundle_sharedFail (s : State) (n id : Nat) (f : Bundle → Bundle) : (setBundle s n id f).sharedFail = s.sharedFail := rfl
@[simp] theorem setBundle_recovery (s : State) (n id : Nat) (f : Bundle → Bundle) : (setBundle s n id f).recovery = s.recovery := rfl
@[simp] theorem setBundle_dieErr (s : State) (n id : Nat) (f : Bundle → Bundle) : (setBundle s n id f).dieErr = s.dieErr := rfl
@[simp] theorem setBundle_clk (s : State) (n id : Nat) (f : Bundle → Bundle) : (setBundle s n id f).clk = s.clk := rfl
@[simp] theorem setBundle_hbeat (s : State) (n id : Nat) (f : Bundle → Bundle) : (setBundle s n id f).hbeat = s.hbeat := rfl
@[simp] theorem setBundle_timeU (s : State) (n id : Nat) (f : Bundle → Bundle) : (setBundle s n id f).timeU = s.timeU := rfl
@[simp] theorem setBundle_slew (s : State) (n id : Nat) (f : Bundle → Bundle) : (setBundle s n id f).slew = s.slew := rfl
@[simp] theorem setBundle_timeSrc (s : State) (n id : Nat) (f : Bundle → Bundle) : (setBundle s n id f).timeSrc = s.timeSrc := rfl
@[simp] theorem setBundle_timeLocked (s : State) (n id : Nat) (f : Bundle → Bundle) : (setBundle s n id f).timeLocked = s.timeLocked := rfl
@[simp] theorem setBundle_startup (s : State) (n id : Nat) (f : Bundle → Bundle) : (setBundle s n id f).startup = s.startup := rfl
@[simp] theorem setBundle_pfBusy (s : State) (n id : Nat) (f : Bundle → Bundle) : (setBundle s n id f).pfBusy = s.pfBusy := rfl
@[simp] theorem setBundle_pfStatus (s : State) (n id : Nat) (f : Bundle → Bundle) : (setBundle s n id f).pfStatus = s.pfStatus := rfl
@[simp] theorem setBundle_pfaddr (s : State) (n id : Nat) (f : Bundle → Bundle) : (setBundle s n id f).pfaddr = s.pfaddr := rfl
@[simp] theorem setBundle_pfdata (s : State) (n id : Nat) (f : Bundle → Bundle) : (setBundle s n id f).pfdata = s.pfdata := rfl
@[simp] theorem setBundle_pfShape (s : State) (n id : Nat) (f : Bundle → Bundle) : (setBundle s n id f).pfShape = s.pfShape := rfl
@[simp] theorem setBundle_keyCount (s : State) (n id : Nat) (f : Bundle → Bundle) : (setBundle s n id f).keyCount = s.keyCount := rfl
@[simp] theorem setBundle_linkKeys (s : State) (n id : Nat) (f : Bundle → Bundle) : (setBundle s n id f).linkKeys = s.linkKeys := rfl
@[simp] theorem setBundle_linkCount (s : State) (n id : Nat) (f : Bundle → Bundle) : (setBundle s n id f).linkCount = s.linkCount := rfl
@[simp] theorem setBundle_channels (s : State) (n id : Nat) (f : Bundle → Bundle) : (setBundle s n id f).channels = s.channels := rfl
@[simp] theorem setBundle_slices (s : State) (n id : Nat) (f : Bundle → Bundle) : (setBundle s n id f).slices = s.slices := rfl
@[simp] theorem setBundle_cores (s : State) (n id : Nat) (f : Bundle → Bundle) : (setBundle s n id f).cores = s.cores := rfl
@[simp] theorem setBundle_parts (s : State) (n id : Nat) (f : Bundle → Bundle) : (setBundle s n id f).parts = s.parts := rfl
@[simp] theorem setBundle_blocks (s : State) (n id : Nat) (f : Bundle → Bundle) : (setBundle s n id f).blocks = s.blocks := rfl
@[simp] theorem setBundle_launches (s : State) (n id : Nat) (f : Bundle → Bundle) : (setBundle s n id f).launches = s.launches := rfl
@[simp] theorem setBundle_mem (s : State) (n id : Nat) (f : Bundle → Bundle) : (setBundle s n id f).mem = s.mem := rfl
@[simp] theorem setBundle_hostMem (s : State) (n id : Nat) (f : Bundle → Bundle) : (setBundle s n id f).hostMem = s.hostMem := rfl
@[simp] theorem setBundle_peerMem (s : State) (n id : Nat) (f : Bundle → Bundle) : (setBundle s n id f).peerMem = s.peerMem := rfl
@[simp] theorem setBundle_flights (s : State) (n id : Nat) (f : Bundle → Bundle) : (setBundle s n id f).flights = s.flights := rfl
@[simp] theorem setBundle_loads (s : State) (n id : Nat) (f : Bundle → Bundle) : (setBundle s n id f).loads = s.loads := rfl
@[simp] theorem setBundle_ops (s : State) (n id : Nat) (f : Bundle → Bundle) : (setBundle s n id f).ops = s.ops := rfl
@[simp] theorem setBundle_nextId (s : State) (n id : Nat) (f : Bundle → Bundle) : (setBundle s n id f).nextId = s.nextId := rfl
@[simp] theorem setBundle_poison (s : State) (n id : Nat) (f : Bundle → Bundle) : (setBundle s n id f).poison = s.poison := rfl
@[simp] theorem setBundle_chipPoison (s : State) (n id : Nat) (f : Bundle → Bundle) : (setBundle s n id f).chipPoison = s.chipPoison := rfl
@[simp] theorem setBundle_dramErr (s : State) (n id : Nat) (f : Bundle → Bundle) : (setBundle s n id f).dramErr = s.dramErr := rfl
@[simp] theorem setBundle_lines (s : State) (n id : Nat) (f : Bundle → Bundle) : (setBundle s n id f).lines = s.lines := rfl
@[simp] theorem setBundle_activ (s : State) (n id : Nat) (f : Bundle → Bundle) : (setBundle s n id f).activ = s.activ := rfl
@[simp] theorem setBundle_sessions (s : State) (n id : Nat) (f : Bundle → Bundle) : (setBundle s n id f).sessions = s.sessions := rfl
@[simp] theorem setBundle_sessionCount (s : State) (n id : Nat) (f : Bundle → Bundle) : (setBundle s n id f).sessionCount = s.sessionCount := rfl
@[simp] theorem setBundle_images (s : State) (n id : Nat) (f : Bundle → Bundle) : (setBundle s n id f).images = s.images := rfl
@[simp] theorem setBundle_pfRegs (s : State) (n id : Nat) (f : Bundle → Bundle) : (setBundle s n id f).pfRegs = s.pfRegs := rfl
@[simp] theorem setBundle_msi (s : State) (n id : Nat) (f : Bundle → Bundle) : (setBundle s n id f).msi = s.msi := rfl
@[simp] theorem setBundle_sent (s : State) (n id : Nat) (f : Bundle → Bundle) : (setBundle s n id f).sent = s.sent := rfl
@[simp] theorem setBundle_formed (s : State) (n id : Nat) (f : Bundle → Bundle) : (setBundle s n id f).formed = s.formed := rfl
@[simp] theorem setBundle_inputs (s : State) (n id : Nat) (f : Bundle → Bundle) : (setBundle s n id f).inputs = s.inputs := rfl
@[simp] theorem setBundle_issuing (s : State) (n id : Nat) (f : Bundle → Bundle) : (setBundle s n id f).issuing = s.issuing := rfl
@[simp] theorem setBundle_agenda (s : State) (n id : Nat) (f : Bundle → Bundle) : (setBundle s n id f).agenda = s.agenda := rfl
@[simp] theorem setBundle_cur (s : State) (n id : Nat) (f : Bundle → Bundle) : (setBundle s n id f).cur = s.cur := rfl
@[simp] theorem setBundle_free (s : State) (n id : Nat) (f : Bundle → Bundle) : (setBundle s n id f).free = s.free := rfl

/-! ### movePc -/

@[simp] theorem movePc_powered (s : State) (n id : Nat) (a b : Mask) (f : Nat → Thread → Addr) : (movePc s n id a b f).powered = s.powered := rfl
@[simp] theorem movePc_stage (s : State) (n id : Nat) (a b : Mask) (f : Nat → Thread → Addr) : (movePc s n id a b f).stage = s.stage := rfl
@[simp] theorem movePc_stepping (s : State) (n id : Nat) (a b : Mask) (f : Nat → Thread → Addr) : (movePc s n id a b f).stepping = s.stepping := rfl
@[simp] theorem movePc_scrubint (s : State) (n id : Nat) (a b : Mask) (f : Nat → Thread → Addr) : (movePc s n id a b f).scrubint = s.scrubint := rfl
@[simp] theorem movePc_replreq (s : State) (n id : Nat) (a b : Mask) (f : Nat → Thread → Addr) : (movePc s n id a b f).replreq = s.replreq := rfl
@[simp] theorem movePc_corelost (s : State) (n id : Nat) (a b : Mask) (f : Nat → Thread → Addr) : (movePc s n id a b f).corelost = s.corelost := rfl
@[simp] theorem movePc_aer (s : State) (n id : Nat) (a b : Mask) (f : Nat → Thread → Addr) : (movePc s n id a b f).aer = s.aer := rfl
@[simp] theorem movePc_sharedFail (s : State) (n id : Nat) (a b : Mask) (f : Nat → Thread → Addr) : (movePc s n id a b f).sharedFail = s.sharedFail := rfl
@[simp] theorem movePc_recovery (s : State) (n id : Nat) (a b : Mask) (f : Nat → Thread → Addr) : (movePc s n id a b f).recovery = s.recovery := rfl
@[simp] theorem movePc_dieErr (s : State) (n id : Nat) (a b : Mask) (f : Nat → Thread → Addr) : (movePc s n id a b f).dieErr = s.dieErr := rfl
@[simp] theorem movePc_clk (s : State) (n id : Nat) (a b : Mask) (f : Nat → Thread → Addr) : (movePc s n id a b f).clk = s.clk := rfl
@[simp] theorem movePc_hbeat (s : State) (n id : Nat) (a b : Mask) (f : Nat → Thread → Addr) : (movePc s n id a b f).hbeat = s.hbeat := rfl
@[simp] theorem movePc_timeU (s : State) (n id : Nat) (a b : Mask) (f : Nat → Thread → Addr) : (movePc s n id a b f).timeU = s.timeU := rfl
@[simp] theorem movePc_slew (s : State) (n id : Nat) (a b : Mask) (f : Nat → Thread → Addr) : (movePc s n id a b f).slew = s.slew := rfl
@[simp] theorem movePc_timeSrc (s : State) (n id : Nat) (a b : Mask) (f : Nat → Thread → Addr) : (movePc s n id a b f).timeSrc = s.timeSrc := rfl
@[simp] theorem movePc_timeLocked (s : State) (n id : Nat) (a b : Mask) (f : Nat → Thread → Addr) : (movePc s n id a b f).timeLocked = s.timeLocked := rfl
@[simp] theorem movePc_startup (s : State) (n id : Nat) (a b : Mask) (f : Nat → Thread → Addr) : (movePc s n id a b f).startup = s.startup := rfl
@[simp] theorem movePc_pfBusy (s : State) (n id : Nat) (a b : Mask) (f : Nat → Thread → Addr) : (movePc s n id a b f).pfBusy = s.pfBusy := rfl
@[simp] theorem movePc_pfStatus (s : State) (n id : Nat) (a b : Mask) (f : Nat → Thread → Addr) : (movePc s n id a b f).pfStatus = s.pfStatus := rfl
@[simp] theorem movePc_pfaddr (s : State) (n id : Nat) (a b : Mask) (f : Nat → Thread → Addr) : (movePc s n id a b f).pfaddr = s.pfaddr := rfl
@[simp] theorem movePc_pfdata (s : State) (n id : Nat) (a b : Mask) (f : Nat → Thread → Addr) : (movePc s n id a b f).pfdata = s.pfdata := rfl
@[simp] theorem movePc_pfShape (s : State) (n id : Nat) (a b : Mask) (f : Nat → Thread → Addr) : (movePc s n id a b f).pfShape = s.pfShape := rfl
@[simp] theorem movePc_keyCount (s : State) (n id : Nat) (a b : Mask) (f : Nat → Thread → Addr) : (movePc s n id a b f).keyCount = s.keyCount := rfl
@[simp] theorem movePc_linkKeys (s : State) (n id : Nat) (a b : Mask) (f : Nat → Thread → Addr) : (movePc s n id a b f).linkKeys = s.linkKeys := rfl
@[simp] theorem movePc_linkCount (s : State) (n id : Nat) (a b : Mask) (f : Nat → Thread → Addr) : (movePc s n id a b f).linkCount = s.linkCount := rfl
@[simp] theorem movePc_channels (s : State) (n id : Nat) (a b : Mask) (f : Nat → Thread → Addr) : (movePc s n id a b f).channels = s.channels := rfl
@[simp] theorem movePc_slices (s : State) (n id : Nat) (a b : Mask) (f : Nat → Thread → Addr) : (movePc s n id a b f).slices = s.slices := rfl
@[simp] theorem movePc_cores (s : State) (n id : Nat) (a b : Mask) (f : Nat → Thread → Addr) : (movePc s n id a b f).cores = s.cores := rfl
@[simp] theorem movePc_parts (s : State) (n id : Nat) (a b : Mask) (f : Nat → Thread → Addr) : (movePc s n id a b f).parts = s.parts := rfl
@[simp] theorem movePc_blocks (s : State) (n id : Nat) (a b : Mask) (f : Nat → Thread → Addr) : (movePc s n id a b f).blocks = s.blocks := rfl
@[simp] theorem movePc_launches (s : State) (n id : Nat) (a b : Mask) (f : Nat → Thread → Addr) : (movePc s n id a b f).launches = s.launches := rfl
@[simp] theorem movePc_mem (s : State) (n id : Nat) (a b : Mask) (f : Nat → Thread → Addr) : (movePc s n id a b f).mem = s.mem := rfl
@[simp] theorem movePc_hostMem (s : State) (n id : Nat) (a b : Mask) (f : Nat → Thread → Addr) : (movePc s n id a b f).hostMem = s.hostMem := rfl
@[simp] theorem movePc_peerMem (s : State) (n id : Nat) (a b : Mask) (f : Nat → Thread → Addr) : (movePc s n id a b f).peerMem = s.peerMem := rfl
@[simp] theorem movePc_flights (s : State) (n id : Nat) (a b : Mask) (f : Nat → Thread → Addr) : (movePc s n id a b f).flights = s.flights := rfl
@[simp] theorem movePc_loads (s : State) (n id : Nat) (a b : Mask) (f : Nat → Thread → Addr) : (movePc s n id a b f).loads = s.loads := rfl
@[simp] theorem movePc_ops (s : State) (n id : Nat) (a b : Mask) (f : Nat → Thread → Addr) : (movePc s n id a b f).ops = s.ops := rfl
@[simp] theorem movePc_nextId (s : State) (n id : Nat) (a b : Mask) (f : Nat → Thread → Addr) : (movePc s n id a b f).nextId = s.nextId := rfl
@[simp] theorem movePc_poison (s : State) (n id : Nat) (a b : Mask) (f : Nat → Thread → Addr) : (movePc s n id a b f).poison = s.poison := rfl
@[simp] theorem movePc_chipPoison (s : State) (n id : Nat) (a b : Mask) (f : Nat → Thread → Addr) : (movePc s n id a b f).chipPoison = s.chipPoison := rfl
@[simp] theorem movePc_dramErr (s : State) (n id : Nat) (a b : Mask) (f : Nat → Thread → Addr) : (movePc s n id a b f).dramErr = s.dramErr := rfl
@[simp] theorem movePc_lines (s : State) (n id : Nat) (a b : Mask) (f : Nat → Thread → Addr) : (movePc s n id a b f).lines = s.lines := rfl
@[simp] theorem movePc_activ (s : State) (n id : Nat) (a b : Mask) (f : Nat → Thread → Addr) : (movePc s n id a b f).activ = s.activ := rfl
@[simp] theorem movePc_sessions (s : State) (n id : Nat) (a b : Mask) (f : Nat → Thread → Addr) : (movePc s n id a b f).sessions = s.sessions := rfl
@[simp] theorem movePc_sessionCount (s : State) (n id : Nat) (a b : Mask) (f : Nat → Thread → Addr) : (movePc s n id a b f).sessionCount = s.sessionCount := rfl
@[simp] theorem movePc_images (s : State) (n id : Nat) (a b : Mask) (f : Nat → Thread → Addr) : (movePc s n id a b f).images = s.images := rfl
@[simp] theorem movePc_pfRegs (s : State) (n id : Nat) (a b : Mask) (f : Nat → Thread → Addr) : (movePc s n id a b f).pfRegs = s.pfRegs := rfl
@[simp] theorem movePc_msi (s : State) (n id : Nat) (a b : Mask) (f : Nat → Thread → Addr) : (movePc s n id a b f).msi = s.msi := rfl
@[simp] theorem movePc_sent (s : State) (n id : Nat) (a b : Mask) (f : Nat → Thread → Addr) : (movePc s n id a b f).sent = s.sent := rfl
@[simp] theorem movePc_formed (s : State) (n id : Nat) (a b : Mask) (f : Nat → Thread → Addr) : (movePc s n id a b f).formed = s.formed := rfl
@[simp] theorem movePc_inputs (s : State) (n id : Nat) (a b : Mask) (f : Nat → Thread → Addr) : (movePc s n id a b f).inputs = s.inputs := rfl
@[simp] theorem movePc_issuing (s : State) (n id : Nat) (a b : Mask) (f : Nat → Thread → Addr) : (movePc s n id a b f).issuing = s.issuing := rfl
@[simp] theorem movePc_agenda (s : State) (n id : Nat) (a b : Mask) (f : Nat → Thread → Addr) : (movePc s n id a b f).agenda = s.agenda := rfl
@[simp] theorem movePc_cur (s : State) (n id : Nat) (a b : Mask) (f : Nat → Thread → Addr) : (movePc s n id a b f).cur = s.cur := rfl
@[simp] theorem movePc_free (s : State) (n id : Nat) (a b : Mask) (f : Nat → Thread → Addr) : (movePc s n id a b f).free = s.free := rfl

/-! ### writeLanes -/

@[simp] theorem writeLanes_powered (s : State) (i : Iss) (f : Nat → Thread → LaneRes) : (writeLanes s i f).powered = s.powered := rfl
@[simp] theorem writeLanes_stage (s : State) (i : Iss) (f : Nat → Thread → LaneRes) : (writeLanes s i f).stage = s.stage := rfl
@[simp] theorem writeLanes_stepping (s : State) (i : Iss) (f : Nat → Thread → LaneRes) : (writeLanes s i f).stepping = s.stepping := rfl
@[simp] theorem writeLanes_scrubint (s : State) (i : Iss) (f : Nat → Thread → LaneRes) : (writeLanes s i f).scrubint = s.scrubint := rfl
@[simp] theorem writeLanes_replreq (s : State) (i : Iss) (f : Nat → Thread → LaneRes) : (writeLanes s i f).replreq = s.replreq := rfl
@[simp] theorem writeLanes_corelost (s : State) (i : Iss) (f : Nat → Thread → LaneRes) : (writeLanes s i f).corelost = s.corelost := rfl
@[simp] theorem writeLanes_aer (s : State) (i : Iss) (f : Nat → Thread → LaneRes) : (writeLanes s i f).aer = s.aer := rfl
@[simp] theorem writeLanes_sharedFail (s : State) (i : Iss) (f : Nat → Thread → LaneRes) : (writeLanes s i f).sharedFail = s.sharedFail := rfl
@[simp] theorem writeLanes_recovery (s : State) (i : Iss) (f : Nat → Thread → LaneRes) : (writeLanes s i f).recovery = s.recovery := rfl
@[simp] theorem writeLanes_dieErr (s : State) (i : Iss) (f : Nat → Thread → LaneRes) : (writeLanes s i f).dieErr = s.dieErr := rfl
@[simp] theorem writeLanes_clk (s : State) (i : Iss) (f : Nat → Thread → LaneRes) : (writeLanes s i f).clk = s.clk := rfl
@[simp] theorem writeLanes_hbeat (s : State) (i : Iss) (f : Nat → Thread → LaneRes) : (writeLanes s i f).hbeat = s.hbeat := rfl
@[simp] theorem writeLanes_timeU (s : State) (i : Iss) (f : Nat → Thread → LaneRes) : (writeLanes s i f).timeU = s.timeU := rfl
@[simp] theorem writeLanes_slew (s : State) (i : Iss) (f : Nat → Thread → LaneRes) : (writeLanes s i f).slew = s.slew := rfl
@[simp] theorem writeLanes_timeSrc (s : State) (i : Iss) (f : Nat → Thread → LaneRes) : (writeLanes s i f).timeSrc = s.timeSrc := rfl
@[simp] theorem writeLanes_timeLocked (s : State) (i : Iss) (f : Nat → Thread → LaneRes) : (writeLanes s i f).timeLocked = s.timeLocked := rfl
@[simp] theorem writeLanes_startup (s : State) (i : Iss) (f : Nat → Thread → LaneRes) : (writeLanes s i f).startup = s.startup := rfl
@[simp] theorem writeLanes_pfBusy (s : State) (i : Iss) (f : Nat → Thread → LaneRes) : (writeLanes s i f).pfBusy = s.pfBusy := rfl
@[simp] theorem writeLanes_pfStatus (s : State) (i : Iss) (f : Nat → Thread → LaneRes) : (writeLanes s i f).pfStatus = s.pfStatus := rfl
@[simp] theorem writeLanes_pfaddr (s : State) (i : Iss) (f : Nat → Thread → LaneRes) : (writeLanes s i f).pfaddr = s.pfaddr := rfl
@[simp] theorem writeLanes_pfdata (s : State) (i : Iss) (f : Nat → Thread → LaneRes) : (writeLanes s i f).pfdata = s.pfdata := rfl
@[simp] theorem writeLanes_pfShape (s : State) (i : Iss) (f : Nat → Thread → LaneRes) : (writeLanes s i f).pfShape = s.pfShape := rfl
@[simp] theorem writeLanes_keyCount (s : State) (i : Iss) (f : Nat → Thread → LaneRes) : (writeLanes s i f).keyCount = s.keyCount := rfl
@[simp] theorem writeLanes_linkKeys (s : State) (i : Iss) (f : Nat → Thread → LaneRes) : (writeLanes s i f).linkKeys = s.linkKeys := rfl
@[simp] theorem writeLanes_linkCount (s : State) (i : Iss) (f : Nat → Thread → LaneRes) : (writeLanes s i f).linkCount = s.linkCount := rfl
@[simp] theorem writeLanes_channels (s : State) (i : Iss) (f : Nat → Thread → LaneRes) : (writeLanes s i f).channels = s.channels := rfl
@[simp] theorem writeLanes_slices (s : State) (i : Iss) (f : Nat → Thread → LaneRes) : (writeLanes s i f).slices = s.slices := rfl
@[simp] theorem writeLanes_cores (s : State) (i : Iss) (f : Nat → Thread → LaneRes) : (writeLanes s i f).cores = s.cores := rfl
@[simp] theorem writeLanes_parts (s : State) (i : Iss) (f : Nat → Thread → LaneRes) : (writeLanes s i f).parts = s.parts := rfl
@[simp] theorem writeLanes_blocks (s : State) (i : Iss) (f : Nat → Thread → LaneRes) : (writeLanes s i f).blocks = s.blocks := rfl
@[simp] theorem writeLanes_launches (s : State) (i : Iss) (f : Nat → Thread → LaneRes) : (writeLanes s i f).launches = s.launches := rfl
@[simp] theorem writeLanes_mem (s : State) (i : Iss) (f : Nat → Thread → LaneRes) : (writeLanes s i f).mem = s.mem := rfl
@[simp] theorem writeLanes_hostMem (s : State) (i : Iss) (f : Nat → Thread → LaneRes) : (writeLanes s i f).hostMem = s.hostMem := rfl
@[simp] theorem writeLanes_peerMem (s : State) (i : Iss) (f : Nat → Thread → LaneRes) : (writeLanes s i f).peerMem = s.peerMem := rfl
@[simp] theorem writeLanes_flights (s : State) (i : Iss) (f : Nat → Thread → LaneRes) : (writeLanes s i f).flights = s.flights := rfl
@[simp] theorem writeLanes_loads (s : State) (i : Iss) (f : Nat → Thread → LaneRes) : (writeLanes s i f).loads = s.loads := rfl
@[simp] theorem writeLanes_ops (s : State) (i : Iss) (f : Nat → Thread → LaneRes) : (writeLanes s i f).ops = s.ops := rfl
@[simp] theorem writeLanes_nextId (s : State) (i : Iss) (f : Nat → Thread → LaneRes) : (writeLanes s i f).nextId = s.nextId := rfl
@[simp] theorem writeLanes_poison (s : State) (i : Iss) (f : Nat → Thread → LaneRes) : (writeLanes s i f).poison = s.poison := rfl
@[simp] theorem writeLanes_chipPoison (s : State) (i : Iss) (f : Nat → Thread → LaneRes) : (writeLanes s i f).chipPoison = s.chipPoison := rfl
@[simp] theorem writeLanes_dramErr (s : State) (i : Iss) (f : Nat → Thread → LaneRes) : (writeLanes s i f).dramErr = s.dramErr := rfl
@[simp] theorem writeLanes_lines (s : State) (i : Iss) (f : Nat → Thread → LaneRes) : (writeLanes s i f).lines = s.lines := rfl
@[simp] theorem writeLanes_activ (s : State) (i : Iss) (f : Nat → Thread → LaneRes) : (writeLanes s i f).activ = s.activ := rfl
@[simp] theorem writeLanes_sessions (s : State) (i : Iss) (f : Nat → Thread → LaneRes) : (writeLanes s i f).sessions = s.sessions := rfl
@[simp] theorem writeLanes_sessionCount (s : State) (i : Iss) (f : Nat → Thread → LaneRes) : (writeLanes s i f).sessionCount = s.sessionCount := rfl
@[simp] theorem writeLanes_images (s : State) (i : Iss) (f : Nat → Thread → LaneRes) : (writeLanes s i f).images = s.images := rfl
@[simp] theorem writeLanes_pfRegs (s : State) (i : Iss) (f : Nat → Thread → LaneRes) : (writeLanes s i f).pfRegs = s.pfRegs := rfl
@[simp] theorem writeLanes_msi (s : State) (i : Iss) (f : Nat → Thread → LaneRes) : (writeLanes s i f).msi = s.msi := rfl
@[simp] theorem writeLanes_sent (s : State) (i : Iss) (f : Nat → Thread → LaneRes) : (writeLanes s i f).sent = s.sent := rfl
@[simp] theorem writeLanes_formed (s : State) (i : Iss) (f : Nat → Thread → LaneRes) : (writeLanes s i f).formed = s.formed := rfl
@[simp] theorem writeLanes_inputs (s : State) (i : Iss) (f : Nat → Thread → LaneRes) : (writeLanes s i f).inputs = s.inputs := rfl
@[simp] theorem writeLanes_issuing (s : State) (i : Iss) (f : Nat → Thread → LaneRes) : (writeLanes s i f).issuing = s.issuing := rfl
@[simp] theorem writeLanes_agenda (s : State) (i : Iss) (f : Nat → Thread → LaneRes) : (writeLanes s i f).agenda = s.agenda := rfl
@[simp] theorem writeLanes_cur (s : State) (i : Iss) (f : Nat → Thread → LaneRes) : (writeLanes s i f).cur = s.cur := rfl
@[simp] theorem writeLanes_free (s : State) (i : Iss) (f : Nat → Thread → LaneRes) : (writeLanes s i f).free = s.free := rfl

/-! ### advance -/

@[simp] theorem advance_powered (s : State) (i : Iss) : (advance s i).powered = s.powered := rfl
@[simp] theorem advance_stage (s : State) (i : Iss) : (advance s i).stage = s.stage := rfl
@[simp] theorem advance_stepping (s : State) (i : Iss) : (advance s i).stepping = s.stepping := rfl
@[simp] theorem advance_scrubint (s : State) (i : Iss) : (advance s i).scrubint = s.scrubint := rfl
@[simp] theorem advance_replreq (s : State) (i : Iss) : (advance s i).replreq = s.replreq := rfl
@[simp] theorem advance_corelost (s : State) (i : Iss) : (advance s i).corelost = s.corelost := rfl
@[simp] theorem advance_aer (s : State) (i : Iss) : (advance s i).aer = s.aer := rfl
@[simp] theorem advance_sharedFail (s : State) (i : Iss) : (advance s i).sharedFail = s.sharedFail := rfl
@[simp] theorem advance_recovery (s : State) (i : Iss) : (advance s i).recovery = s.recovery := rfl
@[simp] theorem advance_dieErr (s : State) (i : Iss) : (advance s i).dieErr = s.dieErr := rfl
@[simp] theorem advance_clk (s : State) (i : Iss) : (advance s i).clk = s.clk := rfl
@[simp] theorem advance_hbeat (s : State) (i : Iss) : (advance s i).hbeat = s.hbeat := rfl
@[simp] theorem advance_timeU (s : State) (i : Iss) : (advance s i).timeU = s.timeU := rfl
@[simp] theorem advance_slew (s : State) (i : Iss) : (advance s i).slew = s.slew := rfl
@[simp] theorem advance_timeSrc (s : State) (i : Iss) : (advance s i).timeSrc = s.timeSrc := rfl
@[simp] theorem advance_timeLocked (s : State) (i : Iss) : (advance s i).timeLocked = s.timeLocked := rfl
@[simp] theorem advance_startup (s : State) (i : Iss) : (advance s i).startup = s.startup := rfl
@[simp] theorem advance_pfBusy (s : State) (i : Iss) : (advance s i).pfBusy = s.pfBusy := rfl
@[simp] theorem advance_pfStatus (s : State) (i : Iss) : (advance s i).pfStatus = s.pfStatus := rfl
@[simp] theorem advance_pfaddr (s : State) (i : Iss) : (advance s i).pfaddr = s.pfaddr := rfl
@[simp] theorem advance_pfdata (s : State) (i : Iss) : (advance s i).pfdata = s.pfdata := rfl
@[simp] theorem advance_pfShape (s : State) (i : Iss) : (advance s i).pfShape = s.pfShape := rfl
@[simp] theorem advance_keyCount (s : State) (i : Iss) : (advance s i).keyCount = s.keyCount := rfl
@[simp] theorem advance_linkKeys (s : State) (i : Iss) : (advance s i).linkKeys = s.linkKeys := rfl
@[simp] theorem advance_linkCount (s : State) (i : Iss) : (advance s i).linkCount = s.linkCount := rfl
@[simp] theorem advance_channels (s : State) (i : Iss) : (advance s i).channels = s.channels := rfl
@[simp] theorem advance_slices (s : State) (i : Iss) : (advance s i).slices = s.slices := rfl
@[simp] theorem advance_cores (s : State) (i : Iss) : (advance s i).cores = s.cores := rfl
@[simp] theorem advance_parts (s : State) (i : Iss) : (advance s i).parts = s.parts := rfl
@[simp] theorem advance_blocks (s : State) (i : Iss) : (advance s i).blocks = s.blocks := rfl
@[simp] theorem advance_launches (s : State) (i : Iss) : (advance s i).launches = s.launches := rfl
@[simp] theorem advance_mem (s : State) (i : Iss) : (advance s i).mem = s.mem := rfl
@[simp] theorem advance_hostMem (s : State) (i : Iss) : (advance s i).hostMem = s.hostMem := rfl
@[simp] theorem advance_peerMem (s : State) (i : Iss) : (advance s i).peerMem = s.peerMem := rfl
@[simp] theorem advance_flights (s : State) (i : Iss) : (advance s i).flights = s.flights := rfl
@[simp] theorem advance_loads (s : State) (i : Iss) : (advance s i).loads = s.loads := rfl
@[simp] theorem advance_ops (s : State) (i : Iss) : (advance s i).ops = s.ops := rfl
@[simp] theorem advance_nextId (s : State) (i : Iss) : (advance s i).nextId = s.nextId := rfl
@[simp] theorem advance_poison (s : State) (i : Iss) : (advance s i).poison = s.poison := rfl
@[simp] theorem advance_chipPoison (s : State) (i : Iss) : (advance s i).chipPoison = s.chipPoison := rfl
@[simp] theorem advance_dramErr (s : State) (i : Iss) : (advance s i).dramErr = s.dramErr := rfl
@[simp] theorem advance_lines (s : State) (i : Iss) : (advance s i).lines = s.lines := rfl
@[simp] theorem advance_activ (s : State) (i : Iss) : (advance s i).activ = s.activ := rfl
@[simp] theorem advance_sessions (s : State) (i : Iss) : (advance s i).sessions = s.sessions := rfl
@[simp] theorem advance_sessionCount (s : State) (i : Iss) : (advance s i).sessionCount = s.sessionCount := rfl
@[simp] theorem advance_images (s : State) (i : Iss) : (advance s i).images = s.images := rfl
@[simp] theorem advance_pfRegs (s : State) (i : Iss) : (advance s i).pfRegs = s.pfRegs := rfl
@[simp] theorem advance_msi (s : State) (i : Iss) : (advance s i).msi = s.msi := rfl
@[simp] theorem advance_sent (s : State) (i : Iss) : (advance s i).sent = s.sent := rfl
@[simp] theorem advance_formed (s : State) (i : Iss) : (advance s i).formed = s.formed := rfl
@[simp] theorem advance_inputs (s : State) (i : Iss) : (advance s i).inputs = s.inputs := rfl
@[simp] theorem advance_issuing (s : State) (i : Iss) : (advance s i).issuing = s.issuing := rfl
@[simp] theorem advance_agenda (s : State) (i : Iss) : (advance s i).agenda = s.agenda := rfl
@[simp] theorem advance_cur (s : State) (i : Iss) : (advance s i).cur = s.cur := rfl
@[simp] theorem advance_free (s : State) (i : Iss) : (advance s i).free = s.free := rfl

/-! ### addPend -/

@[simp] theorem addPend_powered (s : State) (i : Iss) (r : List Nat) (a : Nat) (d l : Option Nat) : (addPend s i r a d l).powered = s.powered := rfl
@[simp] theorem addPend_stage (s : State) (i : Iss) (r : List Nat) (a : Nat) (d l : Option Nat) : (addPend s i r a d l).stage = s.stage := rfl
@[simp] theorem addPend_stepping (s : State) (i : Iss) (r : List Nat) (a : Nat) (d l : Option Nat) : (addPend s i r a d l).stepping = s.stepping := rfl
@[simp] theorem addPend_scrubint (s : State) (i : Iss) (r : List Nat) (a : Nat) (d l : Option Nat) : (addPend s i r a d l).scrubint = s.scrubint := rfl
@[simp] theorem addPend_replreq (s : State) (i : Iss) (r : List Nat) (a : Nat) (d l : Option Nat) : (addPend s i r a d l).replreq = s.replreq := rfl
@[simp] theorem addPend_corelost (s : State) (i : Iss) (r : List Nat) (a : Nat) (d l : Option Nat) : (addPend s i r a d l).corelost = s.corelost := rfl
@[simp] theorem addPend_aer (s : State) (i : Iss) (r : List Nat) (a : Nat) (d l : Option Nat) : (addPend s i r a d l).aer = s.aer := rfl
@[simp] theorem addPend_sharedFail (s : State) (i : Iss) (r : List Nat) (a : Nat) (d l : Option Nat) : (addPend s i r a d l).sharedFail = s.sharedFail := rfl
@[simp] theorem addPend_recovery (s : State) (i : Iss) (r : List Nat) (a : Nat) (d l : Option Nat) : (addPend s i r a d l).recovery = s.recovery := rfl
@[simp] theorem addPend_dieErr (s : State) (i : Iss) (r : List Nat) (a : Nat) (d l : Option Nat) : (addPend s i r a d l).dieErr = s.dieErr := rfl
@[simp] theorem addPend_clk (s : State) (i : Iss) (r : List Nat) (a : Nat) (d l : Option Nat) : (addPend s i r a d l).clk = s.clk := rfl
@[simp] theorem addPend_hbeat (s : State) (i : Iss) (r : List Nat) (a : Nat) (d l : Option Nat) : (addPend s i r a d l).hbeat = s.hbeat := rfl
@[simp] theorem addPend_timeU (s : State) (i : Iss) (r : List Nat) (a : Nat) (d l : Option Nat) : (addPend s i r a d l).timeU = s.timeU := rfl
@[simp] theorem addPend_slew (s : State) (i : Iss) (r : List Nat) (a : Nat) (d l : Option Nat) : (addPend s i r a d l).slew = s.slew := rfl
@[simp] theorem addPend_timeSrc (s : State) (i : Iss) (r : List Nat) (a : Nat) (d l : Option Nat) : (addPend s i r a d l).timeSrc = s.timeSrc := rfl
@[simp] theorem addPend_timeLocked (s : State) (i : Iss) (r : List Nat) (a : Nat) (d l : Option Nat) : (addPend s i r a d l).timeLocked = s.timeLocked := rfl
@[simp] theorem addPend_startup (s : State) (i : Iss) (r : List Nat) (a : Nat) (d l : Option Nat) : (addPend s i r a d l).startup = s.startup := rfl
@[simp] theorem addPend_pfBusy (s : State) (i : Iss) (r : List Nat) (a : Nat) (d l : Option Nat) : (addPend s i r a d l).pfBusy = s.pfBusy := rfl
@[simp] theorem addPend_pfStatus (s : State) (i : Iss) (r : List Nat) (a : Nat) (d l : Option Nat) : (addPend s i r a d l).pfStatus = s.pfStatus := rfl
@[simp] theorem addPend_pfaddr (s : State) (i : Iss) (r : List Nat) (a : Nat) (d l : Option Nat) : (addPend s i r a d l).pfaddr = s.pfaddr := rfl
@[simp] theorem addPend_pfdata (s : State) (i : Iss) (r : List Nat) (a : Nat) (d l : Option Nat) : (addPend s i r a d l).pfdata = s.pfdata := rfl
@[simp] theorem addPend_pfShape (s : State) (i : Iss) (r : List Nat) (a : Nat) (d l : Option Nat) : (addPend s i r a d l).pfShape = s.pfShape := rfl
@[simp] theorem addPend_keyCount (s : State) (i : Iss) (r : List Nat) (a : Nat) (d l : Option Nat) : (addPend s i r a d l).keyCount = s.keyCount := rfl
@[simp] theorem addPend_linkKeys (s : State) (i : Iss) (r : List Nat) (a : Nat) (d l : Option Nat) : (addPend s i r a d l).linkKeys = s.linkKeys := rfl
@[simp] theorem addPend_linkCount (s : State) (i : Iss) (r : List Nat) (a : Nat) (d l : Option Nat) : (addPend s i r a d l).linkCount = s.linkCount := rfl
@[simp] theorem addPend_channels (s : State) (i : Iss) (r : List Nat) (a : Nat) (d l : Option Nat) : (addPend s i r a d l).channels = s.channels := rfl
@[simp] theorem addPend_slices (s : State) (i : Iss) (r : List Nat) (a : Nat) (d l : Option Nat) : (addPend s i r a d l).slices = s.slices := rfl
@[simp] theorem addPend_cores (s : State) (i : Iss) (r : List Nat) (a : Nat) (d l : Option Nat) : (addPend s i r a d l).cores = s.cores := rfl
@[simp] theorem addPend_parts (s : State) (i : Iss) (r : List Nat) (a : Nat) (d l : Option Nat) : (addPend s i r a d l).parts = s.parts := rfl
@[simp] theorem addPend_blocks (s : State) (i : Iss) (r : List Nat) (a : Nat) (d l : Option Nat) : (addPend s i r a d l).blocks = s.blocks := rfl
@[simp] theorem addPend_launches (s : State) (i : Iss) (r : List Nat) (a : Nat) (d l : Option Nat) : (addPend s i r a d l).launches = s.launches := rfl
@[simp] theorem addPend_mem (s : State) (i : Iss) (r : List Nat) (a : Nat) (d l : Option Nat) : (addPend s i r a d l).mem = s.mem := rfl
@[simp] theorem addPend_hostMem (s : State) (i : Iss) (r : List Nat) (a : Nat) (d l : Option Nat) : (addPend s i r a d l).hostMem = s.hostMem := rfl
@[simp] theorem addPend_peerMem (s : State) (i : Iss) (r : List Nat) (a : Nat) (d l : Option Nat) : (addPend s i r a d l).peerMem = s.peerMem := rfl
@[simp] theorem addPend_flights (s : State) (i : Iss) (r : List Nat) (a : Nat) (d l : Option Nat) : (addPend s i r a d l).flights = s.flights := rfl
@[simp] theorem addPend_loads (s : State) (i : Iss) (r : List Nat) (a : Nat) (d l : Option Nat) : (addPend s i r a d l).loads = s.loads := rfl
@[simp] theorem addPend_ops (s : State) (i : Iss) (r : List Nat) (a : Nat) (d l : Option Nat) : (addPend s i r a d l).ops = s.ops := rfl
@[simp] theorem addPend_nextId (s : State) (i : Iss) (r : List Nat) (a : Nat) (d l : Option Nat) : (addPend s i r a d l).nextId = s.nextId := rfl
@[simp] theorem addPend_poison (s : State) (i : Iss) (r : List Nat) (a : Nat) (d l : Option Nat) : (addPend s i r a d l).poison = s.poison := rfl
@[simp] theorem addPend_chipPoison (s : State) (i : Iss) (r : List Nat) (a : Nat) (d l : Option Nat) : (addPend s i r a d l).chipPoison = s.chipPoison := rfl
@[simp] theorem addPend_dramErr (s : State) (i : Iss) (r : List Nat) (a : Nat) (d l : Option Nat) : (addPend s i r a d l).dramErr = s.dramErr := rfl
@[simp] theorem addPend_lines (s : State) (i : Iss) (r : List Nat) (a : Nat) (d l : Option Nat) : (addPend s i r a d l).lines = s.lines := rfl
@[simp] theorem addPend_activ (s : State) (i : Iss) (r : List Nat) (a : Nat) (d l : Option Nat) : (addPend s i r a d l).activ = s.activ := rfl
@[simp] theorem addPend_sessions (s : State) (i : Iss) (r : List Nat) (a : Nat) (d l : Option Nat) : (addPend s i r a d l).sessions = s.sessions := rfl
@[simp] theorem addPend_sessionCount (s : State) (i : Iss) (r : List Nat) (a : Nat) (d l : Option Nat) : (addPend s i r a d l).sessionCount = s.sessionCount := rfl
@[simp] theorem addPend_images (s : State) (i : Iss) (r : List Nat) (a : Nat) (d l : Option Nat) : (addPend s i r a d l).images = s.images := rfl
@[simp] theorem addPend_pfRegs (s : State) (i : Iss) (r : List Nat) (a : Nat) (d l : Option Nat) : (addPend s i r a d l).pfRegs = s.pfRegs := rfl
@[simp] theorem addPend_msi (s : State) (i : Iss) (r : List Nat) (a : Nat) (d l : Option Nat) : (addPend s i r a d l).msi = s.msi := rfl
@[simp] theorem addPend_sent (s : State) (i : Iss) (r : List Nat) (a : Nat) (d l : Option Nat) : (addPend s i r a d l).sent = s.sent := rfl
@[simp] theorem addPend_formed (s : State) (i : Iss) (r : List Nat) (a : Nat) (d l : Option Nat) : (addPend s i r a d l).formed = s.formed := rfl
@[simp] theorem addPend_inputs (s : State) (i : Iss) (r : List Nat) (a : Nat) (d l : Option Nat) : (addPend s i r a d l).inputs = s.inputs := rfl
@[simp] theorem addPend_issuing (s : State) (i : Iss) (r : List Nat) (a : Nat) (d l : Option Nat) : (addPend s i r a d l).issuing = s.issuing := rfl
@[simp] theorem addPend_agenda (s : State) (i : Iss) (r : List Nat) (a : Nat) (d l : Option Nat) : (addPend s i r a d l).agenda = s.agenda := rfl
@[simp] theorem addPend_cur (s : State) (i : Iss) (r : List Nat) (a : Nat) (d l : Option Nat) : (addPend s i r a d l).cur = s.cur := rfl
@[simp] theorem addPend_free (s : State) (i : Iss) (r : List Nat) (a : Nat) (d l : Option Nat) : (addPend s i r a d l).free = s.free := rfl

/-! ### signal -/

@[simp] theorem signal_powered (s : State) (n v : Nat) : (signal s n v).powered = s.powered := rfl
@[simp] theorem signal_stage (s : State) (n v : Nat) : (signal s n v).stage = s.stage := rfl
@[simp] theorem signal_stepping (s : State) (n v : Nat) : (signal s n v).stepping = s.stepping := rfl
@[simp] theorem signal_scrubint (s : State) (n v : Nat) : (signal s n v).scrubint = s.scrubint := rfl
@[simp] theorem signal_replreq (s : State) (n v : Nat) : (signal s n v).replreq = s.replreq := rfl
@[simp] theorem signal_corelost (s : State) (n v : Nat) : (signal s n v).corelost = s.corelost := rfl
@[simp] theorem signal_aer (s : State) (n v : Nat) : (signal s n v).aer = s.aer := rfl
@[simp] theorem signal_sharedFail (s : State) (n v : Nat) : (signal s n v).sharedFail = s.sharedFail := rfl
@[simp] theorem signal_recovery (s : State) (n v : Nat) : (signal s n v).recovery = s.recovery := rfl
@[simp] theorem signal_dieErr (s : State) (n v : Nat) : (signal s n v).dieErr = s.dieErr := rfl
@[simp] theorem signal_clk (s : State) (n v : Nat) : (signal s n v).clk = s.clk := rfl
@[simp] theorem signal_hbeat (s : State) (n v : Nat) : (signal s n v).hbeat = s.hbeat := rfl
@[simp] theorem signal_timeU (s : State) (n v : Nat) : (signal s n v).timeU = s.timeU := rfl
@[simp] theorem signal_slew (s : State) (n v : Nat) : (signal s n v).slew = s.slew := rfl
@[simp] theorem signal_timeSrc (s : State) (n v : Nat) : (signal s n v).timeSrc = s.timeSrc := rfl
@[simp] theorem signal_timeLocked (s : State) (n v : Nat) : (signal s n v).timeLocked = s.timeLocked := rfl
@[simp] theorem signal_startup (s : State) (n v : Nat) : (signal s n v).startup = s.startup := rfl
@[simp] theorem signal_pfBusy (s : State) (n v : Nat) : (signal s n v).pfBusy = s.pfBusy := rfl
@[simp] theorem signal_pfStatus (s : State) (n v : Nat) : (signal s n v).pfStatus = s.pfStatus := rfl
@[simp] theorem signal_pfaddr (s : State) (n v : Nat) : (signal s n v).pfaddr = s.pfaddr := rfl
@[simp] theorem signal_pfdata (s : State) (n v : Nat) : (signal s n v).pfdata = s.pfdata := rfl
@[simp] theorem signal_pfShape (s : State) (n v : Nat) : (signal s n v).pfShape = s.pfShape := rfl
@[simp] theorem signal_keyCount (s : State) (n v : Nat) : (signal s n v).keyCount = s.keyCount := rfl
@[simp] theorem signal_linkKeys (s : State) (n v : Nat) : (signal s n v).linkKeys = s.linkKeys := rfl
@[simp] theorem signal_linkCount (s : State) (n v : Nat) : (signal s n v).linkCount = s.linkCount := rfl
@[simp] theorem signal_channels (s : State) (n v : Nat) : (signal s n v).channels = s.channels := rfl
@[simp] theorem signal_slices (s : State) (n v : Nat) : (signal s n v).slices = s.slices := rfl
@[simp] theorem signal_cores (s : State) (n v : Nat) : (signal s n v).cores = s.cores := rfl
@[simp] theorem signal_warps (s : State) (n v : Nat) : (signal s n v).warps = s.warps := rfl
@[simp] theorem signal_parts (s : State) (n v : Nat) : (signal s n v).parts = s.parts := rfl
@[simp] theorem signal_blocks (s : State) (n v : Nat) : (signal s n v).blocks = s.blocks := rfl
@[simp] theorem signal_launches (s : State) (n v : Nat) : (signal s n v).launches = s.launches := rfl
@[simp] theorem signal_mem (s : State) (n v : Nat) : (signal s n v).mem = s.mem := rfl
@[simp] theorem signal_hostMem (s : State) (n v : Nat) : (signal s n v).hostMem = s.hostMem := rfl
@[simp] theorem signal_peerMem (s : State) (n v : Nat) : (signal s n v).peerMem = s.peerMem := rfl
@[simp] theorem signal_flights (s : State) (n v : Nat) : (signal s n v).flights = s.flights := rfl
@[simp] theorem signal_loads (s : State) (n v : Nat) : (signal s n v).loads = s.loads := rfl
@[simp] theorem signal_ops (s : State) (n v : Nat) : (signal s n v).ops = s.ops := rfl
@[simp] theorem signal_nextId (s : State) (n v : Nat) : (signal s n v).nextId = s.nextId := rfl
@[simp] theorem signal_poison (s : State) (n v : Nat) : (signal s n v).poison = s.poison := rfl
@[simp] theorem signal_chipPoison (s : State) (n v : Nat) : (signal s n v).chipPoison = s.chipPoison := rfl
@[simp] theorem signal_dramErr (s : State) (n v : Nat) : (signal s n v).dramErr = s.dramErr := rfl
@[simp] theorem signal_lines (s : State) (n v : Nat) : (signal s n v).lines = s.lines := rfl
@[simp] theorem signal_activ (s : State) (n v : Nat) : (signal s n v).activ = s.activ := rfl
@[simp] theorem signal_sessions (s : State) (n v : Nat) : (signal s n v).sessions = s.sessions := rfl
@[simp] theorem signal_sessionCount (s : State) (n v : Nat) : (signal s n v).sessionCount = s.sessionCount := rfl
@[simp] theorem signal_images (s : State) (n v : Nat) : (signal s n v).images = s.images := rfl
@[simp] theorem signal_pfRegs (s : State) (n v : Nat) : (signal s n v).pfRegs = s.pfRegs := rfl
@[simp] theorem signal_sent (s : State) (n v : Nat) : (signal s n v).sent = s.sent := rfl
@[simp] theorem signal_formed (s : State) (n v : Nat) : (signal s n v).formed = s.formed := rfl
@[simp] theorem signal_inputs (s : State) (n v : Nat) : (signal s n v).inputs = s.inputs := rfl
@[simp] theorem signal_issuing (s : State) (n v : Nat) : (signal s n v).issuing = s.issuing := rfl
@[simp] theorem signal_agenda (s : State) (n v : Nat) : (signal s n v).agenda = s.agenda := rfl
@[simp] theorem signal_cur (s : State) (n v : Nat) : (signal s n v).cur = s.cur := rfl
@[simp] theorem signal_free (s : State) (n v : Nat) : (signal s n v).free = s.free := rfl

/-! ### choose -/

@[simp] theorem choose_powered (s : State) : (choose s).2.powered = s.powered := rfl
@[simp] theorem choose_stage (s : State) : (choose s).2.stage = s.stage := rfl
@[simp] theorem choose_stepping (s : State) : (choose s).2.stepping = s.stepping := rfl
@[simp] theorem choose_scrubint (s : State) : (choose s).2.scrubint = s.scrubint := rfl
@[simp] theorem choose_replreq (s : State) : (choose s).2.replreq = s.replreq := rfl
@[simp] theorem choose_corelost (s : State) : (choose s).2.corelost = s.corelost := rfl
@[simp] theorem choose_aer (s : State) : (choose s).2.aer = s.aer := rfl
@[simp] theorem choose_sharedFail (s : State) : (choose s).2.sharedFail = s.sharedFail := rfl
@[simp] theorem choose_recovery (s : State) : (choose s).2.recovery = s.recovery := rfl
@[simp] theorem choose_dieErr (s : State) : (choose s).2.dieErr = s.dieErr := rfl
@[simp] theorem choose_clk (s : State) : (choose s).2.clk = s.clk := rfl
@[simp] theorem choose_hbeat (s : State) : (choose s).2.hbeat = s.hbeat := rfl
@[simp] theorem choose_timeU (s : State) : (choose s).2.timeU = s.timeU := rfl
@[simp] theorem choose_slew (s : State) : (choose s).2.slew = s.slew := rfl
@[simp] theorem choose_timeSrc (s : State) : (choose s).2.timeSrc = s.timeSrc := rfl
@[simp] theorem choose_timeLocked (s : State) : (choose s).2.timeLocked = s.timeLocked := rfl
@[simp] theorem choose_startup (s : State) : (choose s).2.startup = s.startup := rfl
@[simp] theorem choose_pfBusy (s : State) : (choose s).2.pfBusy = s.pfBusy := rfl
@[simp] theorem choose_pfStatus (s : State) : (choose s).2.pfStatus = s.pfStatus := rfl
@[simp] theorem choose_pfaddr (s : State) : (choose s).2.pfaddr = s.pfaddr := rfl
@[simp] theorem choose_pfdata (s : State) : (choose s).2.pfdata = s.pfdata := rfl
@[simp] theorem choose_pfShape (s : State) : (choose s).2.pfShape = s.pfShape := rfl
@[simp] theorem choose_keyCount (s : State) : (choose s).2.keyCount = s.keyCount := rfl
@[simp] theorem choose_linkKeys (s : State) : (choose s).2.linkKeys = s.linkKeys := rfl
@[simp] theorem choose_linkCount (s : State) : (choose s).2.linkCount = s.linkCount := rfl
@[simp] theorem choose_channels (s : State) : (choose s).2.channels = s.channels := rfl
@[simp] theorem choose_slices (s : State) : (choose s).2.slices = s.slices := rfl
@[simp] theorem choose_cores (s : State) : (choose s).2.cores = s.cores := rfl
@[simp] theorem choose_warps (s : State) : (choose s).2.warps = s.warps := rfl
@[simp] theorem choose_parts (s : State) : (choose s).2.parts = s.parts := rfl
@[simp] theorem choose_blocks (s : State) : (choose s).2.blocks = s.blocks := rfl
@[simp] theorem choose_launches (s : State) : (choose s).2.launches = s.launches := rfl
@[simp] theorem choose_mem (s : State) : (choose s).2.mem = s.mem := rfl
@[simp] theorem choose_hostMem (s : State) : (choose s).2.hostMem = s.hostMem := rfl
@[simp] theorem choose_peerMem (s : State) : (choose s).2.peerMem = s.peerMem := rfl
@[simp] theorem choose_flights (s : State) : (choose s).2.flights = s.flights := rfl
@[simp] theorem choose_loads (s : State) : (choose s).2.loads = s.loads := rfl
@[simp] theorem choose_ops (s : State) : (choose s).2.ops = s.ops := rfl
@[simp] theorem choose_nextId (s : State) : (choose s).2.nextId = s.nextId := rfl
@[simp] theorem choose_poison (s : State) : (choose s).2.poison = s.poison := rfl
@[simp] theorem choose_chipPoison (s : State) : (choose s).2.chipPoison = s.chipPoison := rfl
@[simp] theorem choose_dramErr (s : State) : (choose s).2.dramErr = s.dramErr := rfl
@[simp] theorem choose_lines (s : State) : (choose s).2.lines = s.lines := rfl
@[simp] theorem choose_activ (s : State) : (choose s).2.activ = s.activ := rfl
@[simp] theorem choose_sessions (s : State) : (choose s).2.sessions = s.sessions := rfl
@[simp] theorem choose_sessionCount (s : State) : (choose s).2.sessionCount = s.sessionCount := rfl
@[simp] theorem choose_images (s : State) : (choose s).2.images = s.images := rfl
@[simp] theorem choose_pfRegs (s : State) : (choose s).2.pfRegs = s.pfRegs := rfl
@[simp] theorem choose_msi (s : State) : (choose s).2.msi = s.msi := rfl
@[simp] theorem choose_sent (s : State) : (choose s).2.sent = s.sent := rfl
@[simp] theorem choose_formed (s : State) : (choose s).2.formed = s.formed := rfl
@[simp] theorem choose_inputs (s : State) : (choose s).2.inputs = s.inputs := rfl
@[simp] theorem choose_issuing (s : State) : (choose s).2.issuing = s.issuing := rfl
@[simp] theorem choose_agenda (s : State) : (choose s).2.agenda = s.agenda := rfl
@[simp] theorem choose_cur (s : State) : (choose s).2.cur = s.cur := rfl

/-! ### fresh -/

@[simp] theorem fresh_powered (s : State) : (fresh s).2.powered = s.powered := rfl
@[simp] theorem fresh_stage (s : State) : (fresh s).2.stage = s.stage := rfl
@[simp] theorem fresh_stepping (s : State) : (fresh s).2.stepping = s.stepping := rfl
@[simp] theorem fresh_scrubint (s : State) : (fresh s).2.scrubint = s.scrubint := rfl
@[simp] theorem fresh_replreq (s : State) : (fresh s).2.replreq = s.replreq := rfl
@[simp] theorem fresh_corelost (s : State) : (fresh s).2.corelost = s.corelost := rfl
@[simp] theorem fresh_aer (s : State) : (fresh s).2.aer = s.aer := rfl
@[simp] theorem fresh_sharedFail (s : State) : (fresh s).2.sharedFail = s.sharedFail := rfl
@[simp] theorem fresh_recovery (s : State) : (fresh s).2.recovery = s.recovery := rfl
@[simp] theorem fresh_dieErr (s : State) : (fresh s).2.dieErr = s.dieErr := rfl
@[simp] theorem fresh_clk (s : State) : (fresh s).2.clk = s.clk := rfl
@[simp] theorem fresh_hbeat (s : State) : (fresh s).2.hbeat = s.hbeat := rfl
@[simp] theorem fresh_timeU (s : State) : (fresh s).2.timeU = s.timeU := rfl
@[simp] theorem fresh_slew (s : State) : (fresh s).2.slew = s.slew := rfl
@[simp] theorem fresh_timeSrc (s : State) : (fresh s).2.timeSrc = s.timeSrc := rfl
@[simp] theorem fresh_timeLocked (s : State) : (fresh s).2.timeLocked = s.timeLocked := rfl
@[simp] theorem fresh_startup (s : State) : (fresh s).2.startup = s.startup := rfl
@[simp] theorem fresh_pfBusy (s : State) : (fresh s).2.pfBusy = s.pfBusy := rfl
@[simp] theorem fresh_pfStatus (s : State) : (fresh s).2.pfStatus = s.pfStatus := rfl
@[simp] theorem fresh_pfaddr (s : State) : (fresh s).2.pfaddr = s.pfaddr := rfl
@[simp] theorem fresh_pfdata (s : State) : (fresh s).2.pfdata = s.pfdata := rfl
@[simp] theorem fresh_pfShape (s : State) : (fresh s).2.pfShape = s.pfShape := rfl
@[simp] theorem fresh_keyCount (s : State) : (fresh s).2.keyCount = s.keyCount := rfl
@[simp] theorem fresh_linkKeys (s : State) : (fresh s).2.linkKeys = s.linkKeys := rfl
@[simp] theorem fresh_linkCount (s : State) : (fresh s).2.linkCount = s.linkCount := rfl
@[simp] theorem fresh_channels (s : State) : (fresh s).2.channels = s.channels := rfl
@[simp] theorem fresh_slices (s : State) : (fresh s).2.slices = s.slices := rfl
@[simp] theorem fresh_cores (s : State) : (fresh s).2.cores = s.cores := rfl
@[simp] theorem fresh_warps (s : State) : (fresh s).2.warps = s.warps := rfl
@[simp] theorem fresh_parts (s : State) : (fresh s).2.parts = s.parts := rfl
@[simp] theorem fresh_blocks (s : State) : (fresh s).2.blocks = s.blocks := rfl
@[simp] theorem fresh_launches (s : State) : (fresh s).2.launches = s.launches := rfl
@[simp] theorem fresh_mem (s : State) : (fresh s).2.mem = s.mem := rfl
@[simp] theorem fresh_hostMem (s : State) : (fresh s).2.hostMem = s.hostMem := rfl
@[simp] theorem fresh_peerMem (s : State) : (fresh s).2.peerMem = s.peerMem := rfl
@[simp] theorem fresh_flights (s : State) : (fresh s).2.flights = s.flights := rfl
@[simp] theorem fresh_loads (s : State) : (fresh s).2.loads = s.loads := rfl
@[simp] theorem fresh_ops (s : State) : (fresh s).2.ops = s.ops := rfl
@[simp] theorem fresh_poison (s : State) : (fresh s).2.poison = s.poison := rfl
@[simp] theorem fresh_chipPoison (s : State) : (fresh s).2.chipPoison = s.chipPoison := rfl
@[simp] theorem fresh_dramErr (s : State) : (fresh s).2.dramErr = s.dramErr := rfl
@[simp] theorem fresh_lines (s : State) : (fresh s).2.lines = s.lines := rfl
@[simp] theorem fresh_activ (s : State) : (fresh s).2.activ = s.activ := rfl
@[simp] theorem fresh_sessions (s : State) : (fresh s).2.sessions = s.sessions := rfl
@[simp] theorem fresh_sessionCount (s : State) : (fresh s).2.sessionCount = s.sessionCount := rfl
@[simp] theorem fresh_images (s : State) : (fresh s).2.images = s.images := rfl
@[simp] theorem fresh_pfRegs (s : State) : (fresh s).2.pfRegs = s.pfRegs := rfl
@[simp] theorem fresh_msi (s : State) : (fresh s).2.msi = s.msi := rfl
@[simp] theorem fresh_sent (s : State) : (fresh s).2.sent = s.sent := rfl
@[simp] theorem fresh_formed (s : State) : (fresh s).2.formed = s.formed := rfl
@[simp] theorem fresh_inputs (s : State) : (fresh s).2.inputs = s.inputs := rfl
@[simp] theorem fresh_issuing (s : State) : (fresh s).2.issuing = s.issuing := rfl
@[simp] theorem fresh_agenda (s : State) : (fresh s).2.agenda = s.agenda := rfl
@[simp] theorem fresh_cur (s : State) : (fresh s).2.cur = s.cur := rfl
@[simp] theorem fresh_free (s : State) : (fresh s).2.free = s.free := rfl

end Sys2Proof.Machine
end

