-- ==== Sys2Proof/Laws/Blind.lean ====
section
/-! SUPPORT. What the memory system leaves as it was, said once for every field: a reading of the state that looks at
none of the fields of the memory system reads the same after each of its operations. -/

namespace Sys2Proof.Machine

/-- A reading of the state that looks at no field which translation, caches, memory, counters or interrupts change. -/
structure MemBlind {α : Type} (P : State → α) : Prop where
  memory : ∀ s m cs po de ls ac, P { s with mem := m, channels := cs, poison := po, dramErr := de, lines := ls, activ := ac } = P s
  links : ∀ s k ks n, P { s with keyCount := k, linkKeys := ks, linkCount := n } = P s
  free : ∀ s n, P { s with free := n } = P s
  outside : ∀ s h p, P { s with hostMem := h, peerMem := p } = P s
  slices : ∀ s x, P { s with slices := x } = P s
  msi : ∀ s x, P { s with msi := x } = P s
  cores : ∀ s x, P { s with cores := x } = P s

theorem memBlind_warps : MemBlind State.warps := by constructor <;> intros <;> rfl
theorem memBlind_blocks : MemBlind State.blocks := by constructor <;> intros <;> rfl
theorem memBlind_parts : MemBlind State.parts := by constructor <;> intros <;> rfl
theorem memBlind_launches : MemBlind State.launches := by constructor <;> intros <;> rfl
theorem memBlind_cur : MemBlind State.cur := by constructor <;> intros <;> rfl
theorem memBlind_clk : MemBlind State.clk := by constructor <;> intros <;> rfl

variable {α : Type} {P : State → α} (hP : MemBlind P)
include hP

omit hP in
theorem blind_foldl {β : Type} (f : State → β → State) (hf : ∀ s x, P (f s x) = P s) (l : List β) (s : State) :
    P (l.foldl f s) = P s := by
  induction l generalizing s with
  | nil => rfl
  | cons x xs ih => rw [List.foldl_cons, ih, hf]

omit hP in
/-- The state of an answer, taken out of its pair. -/
theorem blind_fst {β : Type} {p : State × β} {t : State} {x : β} {a : α} (h : p = (t, x)) (hp : P p.1 = a) : P t = a := by
  rw [h] at hp; exact hp

theorem blind_lines (s : State) (x : List CacheLine) : P { s with lines := x } = P s := hP.memory s _ _ _ _ x _
theorem blind_setSlice (s : State) (n : Nat) (f : Slice → Slice) : P (setSlice s n f) = P s := hP.slices s _
theorem blind_setCtx (s : State) (n c : Nat) (f : Ctx → Ctx) : P (setCtx s n c f) = P s := hP.slices s _
theorem blind_setCore (s : State) (n : Nat) (f : Core → Core) : P (setCore s n f) = P s := hP.cores s _
theorem blind_signal (s : State) (n v : Nat) : P (signal s n v) = P s := hP.msi s _

theorem blind_count (s : State) (vf c x i n : Nat) : P (count s vf c x i n) = P s := by
  unfold count; dsimp only; split
  · split
    · exact blind_setSlice hP _ _ _
    · rfl
  · split
    · exact blind_setCtx hP _ _ _ _
    · rfl

theorem blind_lockLog (s : State) (vf : Nat) (o : Word) (b : Byte) (d : Dword) : P (lockLog s vf o b d) = P s := by
  unfold lockLog; dsimp only
  rw [blind_signal hP, blind_signal hP, blind_setSlice hP]

theorem blind_setLine (s : State) (n : Nat) (f : CacheLine → CacheLine) : P (setLine s n f) = P s := by
  unfold setLine; dsimp only; split <;> exact blind_lines hP _ _

theorem blind_readCodeword (s : State) (cw : Nat) : P (readCodeword s cw) = P s := by
  unfold readCodeword; split
  · rfl
  · dsimp only
    split
    · exact hP.memory s _ _ _ _ s.lines s.activ
    · exact hP.memory s _ _ _ _ s.lines s.activ
    · exact hP.memory s _ _ _ _ s.lines s.activ
    · exact hP.memory s _ _ _ _ s.lines s.activ

theorem blind_activate (s : State) (n : Nat) : P (activate s n) = P s := by
  unfold activate refreshRows; dsimp only
  split <;> exact hP.memory s s.mem _ s.poison s.dramErr s.lines _

theorem blind_fetchDram (s : State) (n : Nat) : P (fetchDram s n) = P s := by
  unfold fetchDram; rw [blind_foldl _ (fun s x => blind_readCodeword hP _ _), blind_activate hP]

theorem blind_writeDram (s : State) (cws : List Nat) : P (writeDram s cws) = P s :=
  hP.memory s s.mem s.channels s.poison _ s.lines s.activ

theorem blind_linkUse (s : State) (n : Nat) : P (linkUse s n) = P s := by
  unfold linkUse rekeyLink; dsimp only
  split <;> exact hP.links s _ _ _

theorem blind_pruneLine (s : State) (n : Nat) : P (pruneLine s n) = P s := blind_lines hP s _

theorem blind_allocMsc (s : State) (n : Nat) : P (allocMsc s n) = P s := by
  unfold allocMsc; dsimp only; rw [blind_setLine hP]
  split
  · rfl
  · split
    · rw [blind_pruneLine hP, blind_setLine hP]; split
      · exact blind_writeDram hP _ _
      · rfl
    · rfl

theorem blind_evictL2 (s : State) (n : Nat) : P (evictL2 s n) = P s := by
  unfold evictL2; split
  · rfl
  · dsimp only; rw [blind_pruneLine hP, blind_setLine hP]; split
    · rfl
    · rw [blind_setLine hP]; split
      · exact blind_linkUse hP _ _
      · rw [blind_allocMsc hP, blind_linkUse hP]

theorem blind_allocL2 (s : State) (n : Nat) : P (allocL2 s n) = P s := by
  unfold allocL2; dsimp only; rw [blind_setLine hP]; split
  · exact blind_evictL2 hP _ _
  · rfl

theorem blind_useLine (s : State) (n : Nat) (h : CacheHint) : P (useLine s n h) = P s := by
  unfold useLine; split
  · rfl
  · exact blind_lines hP s _

theorem blind_keepLine (s : State) (n : Nat) : P (keepLine s n) = P s := by
  unfold keepLine; exact blind_setLine hP _ _ _

theorem blind_touchLine (s : State) (pa : Nat) (h : CacheHint) : P (touchLine s pa h) = P s := by
  unfold touchLine
  dsimp only
  have key : ∀ (l2 msc : Bool), P (if l2 then s else linkUse (if msc then s else allocMsc (fetchDram s (pa / 256)) (pa / 256)) (pa / 256)) = P s := by
    intro l2 msc; split
    · rfl
    · rw [blind_linkUse hP]; split
      · rfl
      · rw [blind_allocMsc hP, blind_fetchDram hP]
  have key2 : ∀ (t : State) (c : Bool), P t = P s → P (useLine (if c then t else allocL2 t (pa / 256)) (pa / 256) h) = P s := by
    intro t c ht; rw [blind_useLine hP]; split
    · exact ht
    · rw [blind_allocL2 hP, ht]
  split <;> (try rw [blind_keepLine hP]) <;> exact key2 _ _ (key _ _)

theorem blind_devWrite (s : State) (bs : List (Nat × Byte)) : P (devWrite s bs) = P s := by
  unfold devWrite; dsimp only
  rw [blind_foldl (P := P)]
  · exact hP.memory s _ s.channels _ s.dramErr s.lines s.activ
  · intro s k
    have h : ∀ (t : State) (c : Bool), P t = P s → P (if c then t else allocMsc t (k / 8)) = P s := by
      intro t c ht; split
      · exact ht
      · rw [blind_allocMsc hP, ht]
    rw [blind_setLine hP]
    refine h _ _ ?_
    split
    · rfl
    · exact blind_linkUse hP _ _

theorem blind_sliceMap (s : State) (vf c ia l : Nat) : P (sliceMap s vf c ia l).1 = P s := by
  unfold sliceMap; dsimp only; split
  · rfl
  · split
    · exact blind_lockLog hP _ _ _ _ _
    · rfl

theorem blind_reachHome (s : State) (vf c : Nat) (h : CacheHint) (pa : Nat) : P (reachHome s vf c h pa) = P s := by
  unfold reachHome countHome
  rw [blind_touchLine hP]
  generalize (match lineAt s (pa / 256) with | some l => (l.l2.isSome, l.msc) | none => (false, false)) = x
  dsimp only
  repeat' split
  all_goals simp only [blind_count hP]

theorem blind_countShared (s : State) (vf i n : Nat) : P (countShared s vf i n) = P s := by
  unfold countShared
  exact blind_foldl _ (fun s c => blind_count hP s vf c 4 i n) _ _
theorem blind_countIo (s : State) (vf i n : Nat) : P (countIo s vf i n) = P s := by
  unfold countIo; rw [blind_countShared hP, blind_countShared hP]

theorem blind_readPte (s : State) (vf c pa : Nat) : P (readPte s vf c pa).1 = P s := by
  unfold readPte; dsimp only; split <;> exact blind_reachHome hP s vf c .normal pa

theorem blind_walkFrom (vf c va left tab : Nat) (s : State) : P (walkFrom vf c va left tab s).1 = P s := by
  induction left generalizing tab s with
  | zero => rfl
  | succ n ih =>
    have hm := fun ia l => blind_sliceMap hP s vf c ia l
    unfold walkFrom
    dsimp only
    split
    · rename_i t e h; rw [← hm, h]
    · rename_i t pa h
      have ht : P t = P s := by rw [← hm, h]
      have hr := blind_readPte hP t vf c pa
      split
      · rename_i u h2; rw [← ht, ← hr, h2]
      · rename_i u e h2
        have hu : P u = P s := by rw [← ht, ← hr, h2]
        split
        · exact hu
        · split
          · exact hu
          · split
            · split
              · have hm2 := fun ia l => blind_sliceMap hP u vf c ia l
                split
                · rename_i v e h3; rw [← hu, ← hm2, h3]
                · rename_i v e h3; rw [← hu, ← hm2, h3]
              · exact hu
            · rw [ih, hu]

theorem blind_walk (s : State) (vf c va : Nat) : P (walk s vf c va).1 = P s := by
  unfold walk; rw [blind_walkFrom hP, blind_count hP]
  exact (blind_setSlice hP _ _ _).trans (hP.free s _)

theorem blind_translate (s : State) (core vf c va : Nat) (acc : Access) : P (translate s core vf c va acc).1 = P s := by
  unfold translate; split
  · rfl
  · have hw := blind_walk hP (count s vf c 2 6 1) vf c va
    rw [blind_count hP] at hw
    split
    · rename_i t e h; rw [← hw, h]
    · rename_i t e h
      have ht : P t = P s := by rw [← hw, h]
      split
      · exact (blind_setCore hP _ _ _).trans ht
      · exact ht

theorem blind_translateCp (s : State) (vf c va : Nat) (acc : Access) : P (translateCp s vf c va acc).1 = P s := by
  unfold translateCp
  have hw := blind_walk hP s vf c va
  split
  · rename_i t e h; rw [← hw, h]
  · rename_i t e h; rw [← hw, h]

theorem blind_setPeerMem (s : State) (p : Nat) (f : Memory → Memory) : P (setPeerMem s p f) = P s := by
  unfold setPeerMem; split <;> exact hP.outside s s.hostMem _

theorem blind_cpPlace (vf c : Nat) (acc : Access) (prev : Option Place) (va : Nat) (s : State) : P (cpPlace vf c acc prev va s).1 = P s := by
  unfold cpPlace
  split
  · split
    · exact blind_translateCp hP _ _ _ _ _
    · rfl
  · exact blind_translateCp hP _ _ _ _ _

theorem blind_outside (s : State) (p : Place) : P (outside s p).1 = P s := by
  unfold outside choose
  split
  · exact hP.free s _
  · exact hP.free s _
  · rfl

theorem blind_cpReach (vf c : Nat) (store : Bool) (prev : Option Place) (va : Nat) (pl : Place) (s : State) :
    P (cpReach vf c store prev va pl s).1 = P s := by
  unfold cpReach
  dsimp only
  split
  · split
    · simp only; exact blind_reachHome hP s vf c .normal _
    · rfl
  · split
    · rw [blind_outside hP, blind_countIo hP]
    · exact blind_countIo hP _ _ _ _
  · split
    · rw [blind_outside hP, blind_countIo hP]
    · exact blind_countIo hP _ _ _ _
  · rfl

theorem blind_cpReadFrom (vf c : Nat) (prev : Option Place) (va n : Nat) (s : State) : P (cpReadFrom vf c prev va n s).1 = P s := by
  induction n generalizing prev va s with
  | zero => rfl
  | succ n ih =>
    unfold cpReadFrom
    have ht := blind_cpPlace hP vf c .load prev va s
    split
    · rename_i t e h; rw [← ht, h]
    · rename_i t pl h
      rw [h] at ht
      have hd := (blind_cpReach hP vf c false prev va pl t).trans ht
      dsimp only
      split
      · exact hd
      · split <;> (rename_i v e h2; exact (blind_fst h2 (ih _ _ _)).trans hd)

theorem blind_cpRead (vf c va n : Nat) (s : State) : P (cpRead vf c va n s).1 = P s := blind_cpReadFrom hP vf c none va n s

theorem blind_cpPlaces (vf c va : Nat) (bs : List Byte) (s : State) : P (cpPlaces vf c va bs s).1 = P s := by
  suffices h : ∀ prev, P (cpPlacesFrom vf c prev va bs s).1 = P s from h none
  induction bs generalizing va s with
  | nil => intro prev; rfl
  | cons b bs ih =>
    intro prev
    unfold cpPlacesFrom
    have ht := blind_cpPlace hP vf c .store prev va s
    split
    · rename_i t e h; rw [← ht, h]
    · rename_i t pl h
      rw [h] at ht
      have hd := (blind_cpReach hP vf c true prev va pl t).trans ht
      dsimp only
      split
      · exact hd
      · split <;> (rename_i v e h2; exact (blind_fst h2 (ih _ _ _)).trans hd)

/-- Writes at homes, for a reading that looks at no scratchpad either. -/
theorem blind_homeWrite (hp : ∀ s x, P { s with parts := x } = P s) (s : State) (key : BitVec 84) (bs : List (Place × Byte)) :
    P (homeWrite s key bs) = P s := by
  unfold homeWrite
  dsimp only
  rw [blind_foldl (P := P)]
  · split
    · rfl
    · exact blind_devWrite hP _ _
  · rintro s ⟨pl, b⟩
    cases pl
    · exact hp _ _
    · rfl
    · exact hP.outside s _ s.peerMem
    · exact blind_setPeerMem hP _ _ _

theorem blind_cpWrite (hp : ∀ s x, P { s with parts := x } = P s) (s : State) (vf c va : Nat) (bs : List Byte) :
    P (cpWrite s vf c va bs).1 = P s := by
  unfold cpWrite
  have hc := blind_cpPlaces hP vf c va bs s
  split
  · rename_i t e h; rw [← hc, h]
  · rename_i t e h; exact (blind_homeWrite hP hp _ _ _).trans (blind_fst h hc)

end Sys2Proof.Machine
end

