-- ==== Sys2Proof/Laws/Lists.lean ====
section
/-! SUPPORT. Tables and lanes: an entry after a change, and the lanes of a set. -/

namespace Sys2Proof.Machine

@[simp] theorem modAt_length {α : Type} (l : List α) (i : Nat) (f : α → α) : (modAt l i f).length = l.length := by
  induction l generalizing i with
  | nil => rfl
  | cons x xs ih => cases i <;> simp [modAt, ih]

/-- An entry after a change of one. -/
theorem getElem?_modAt {α : Type} (l : List α) (i j : Nat) (f : α → α) :
    (modAt l i f)[j]? = if i = j then (l[j]?).map f else l[j]? := by
  induction l generalizing i j with
  | nil => simp [modAt]
  | cons x xs ih =>
    cases i with
    | zero => cases j <;> simp [modAt]
    | succ i => cases j with
      | zero => simp [modAt]
      | succ j => simp [modAt, ih]

theorem getD_modAt {α : Type} (l : List α) (i j : Nat) (f : α → α) (d : α) :
    (modAt l i f).getD j d = if i = j ∧ j < l.length then f (l.getD j d) else l.getD j d := by
  simp only [List.getD_eq_getElem?_getD, getElem?_modAt]
  by_cases h : i = j
  · by_cases hj : j < l.length
    · simp [h, hj]
    · simp [h, hj]
  · simp [h]

theorem getD_modAt_ne {α : Type} (l : List α) {i j : Nat} (f : α → α) (d : α) (h : i ≠ j) :
    (modAt l i f).getD j d = l.getD j d := by rw [getD_modAt, if_neg (fun hh => h hh.1)]

theorem getD_modAt_self {α : Type} (l : List α) {i : Nat} (f : α → α) (d : α) (h : i < l.length) :
    (modAt l i f).getD i d = f (l.getD i d) := by rw [getD_modAt, if_pos ⟨rfl, h⟩]

/-! ### Entries of the tables -/

theorem warpOf_setWarp_self (s : State) {w : Nat} (f : Warp → Warp) (h : w < s.warps.length) :
    warpOf (setWarp s w f) w = f (warpOf s w) := getD_modAt_self _ _ _ h
theorem warpOf_setWarp_ne (s : State) {w w' : Nat} (f : Warp → Warp) (h : w ≠ w') :
    warpOf (setWarp s w f) w' = warpOf s w' := getD_modAt_ne _ _ _ h
theorem blockOf_setBlock_self (s : State) {b : Nat} (f : Block → Block) (h : b < s.blocks.length) :
    blockOf (setBlock s b f) b = f (blockOf s b) := getD_modAt_self _ _ _ h
theorem blockOf_setBlock_ne (s : State) {b b' : Nat} (f : Block → Block) (h : b ≠ b') :
    blockOf (setBlock s b f) b' = blockOf s b' := getD_modAt_ne _ _ _ h
theorem partOf_setPart_self (s : State) {p : Nat} (f : Part → Part) (h : p < s.parts.length) :
    partOf (setPart s p f) p = f (partOf s p) := getD_modAt_self _ _ _ h
theorem partOf_setPart_ne (s : State) {p q : Nat} (f : Part → Part) (h : p ≠ q) :
    partOf (setPart s p f) q = partOf s q := getD_modAt_ne _ _ _ h
theorem coreOf_setCore_self (s : State) {c : Nat} (f : Core → Core) (h : c < s.cores.length) :
    coreOf (setCore s c f) c = f (coreOf s c) := getD_modAt_self _ _ _ h
theorem coreOf_setCore_ne (s : State) {c d : Nat} (f : Core → Core) (h : c ≠ d) :
    coreOf (setCore s c f) d = coreOf s d := getD_modAt_ne _ _ _ h
theorem sliceOf_setSlice_self (s : State) {n : Nat} (f : Slice → Slice) (h : n < s.slices.length) :
    sliceOf (setSlice s n f) n = f (sliceOf s n) := getD_modAt_self _ _ _ h
theorem sliceOf_setSlice_ne (s : State) {n m : Nat} (f : Slice → Slice) (h : n ≠ m) :
    sliceOf (setSlice s n f) m = sliceOf s m := getD_modAt_ne _ _ _ h

@[simp] theorem setWarp_warps_length (s : State) (w : Nat) (f : Warp → Warp) :
    (setWarp s w f).warps.length = s.warps.length := modAt_length _ _ _

/-- A number that names no warp reads as an empty one. -/
theorem warpOf_of_length_le (s : State) {w : Nat} (h : s.warps.length ≤ w) : warpOf s w = Warp.nil :=
  List.getD_eq_default _ _ h

/-- A bundle is only found in a warp of the table. -/
theorem lt_of_bundleOf {s : State} {w id : Nat} {b : Bundle} (h : bundleOf (warpOf s w) id = some b) : w < s.warps.length := by
  by_contra hw
  rw [warpOf_of_length_le s (Nat.le_of_not_lt hw)] at h
  simp [bundleOf, Warp.nil] at h

/-- The bundle found has the number asked for. -/
theorem id_of_bundleOf {w : Warp} {id : Nat} {b : Bundle} (h : bundleOf w id = some b) : b.id = id := by
  have := List.find?_some h
  simpa using this

/-! ### Sets of lanes -/

theorem mem_lanesOf {m : Mask} {l : Nat} : l ∈ lanesOf m ↔ l < 64 ∧ m.getLsbD l = true := by
  simp [lanesOf]

theorem getLsbD_lane (l x : Nat) : (1#64 <<< l).getLsbD x = decide (x < 64 ∧ x = l) := by
  rw [BitVec.getLsbD_shiftLeft]
  by_cases h : x < 64
  · by_cases hx : x < l
    · simp [h, hx]; omega
    · simp only [h, hx, decide_true, decide_false, Bool.not_false, Bool.true_and, true_and, BitVec.getLsbD_one]
      by_cases hxl : x = l
      · simp [hxl]
      · have : ¬ (x - l = 0) := by omega
        simp [hxl, this]
  · simp [h]

theorem getLsbD_foldl_lane (ls : List Nat) (m : Mask) (x : Nat) :
    (ls.foldl (fun m l => m ||| (1#64 <<< l)) m).getLsbD x = (m.getLsbD x || decide (x < 64 ∧ x ∈ ls)) := by
  induction ls generalizing m with
  | nil => simp
  | cons l ls ih =>
    rw [List.foldl_cons, ih, BitVec.getLsbD_or, getLsbD_lane]
    by_cases h : x < 64 <;> simp [h, Bool.or_assoc, Bool.decide_or]

/-- A lane belongs to the set made of a list exactly if the list holds it. -/
theorem getLsbD_maskOf (ls : List Nat) (x : Nat) : (maskOf ls).getLsbD x = decide (x < 64 ∧ x ∈ ls) := by
  simp [maskOf, getLsbD_foldl_lane]

/-- The lanes of a set whose guard is true. -/
theorem getLsbD_activeLanes (w : Warp) (m : Mask) (g : Thread → Bool) (l : Nat) :
    (activeLanes w m g).getLsbD l = (m.getLsbD l && g (threadOf w l)) := by
  rw [activeLanes, getLsbD_maskOf]
  by_cases h : l < 64
  · simp [h, mem_lanesOf]
  · simp [h, BitVec.getLsbD_of_ge m l (by omega)]

/-- A thread after a change of some lanes. -/
theorem getD_mapLanes (m : Mask) (f : Nat → Thread → Thread) (ts : List Thread) {l : Nat} (h : l < ts.length) :
    (mapLanes m f ts).getD l Thread.nil = if m.getLsbD l then f l (ts.getD l Thread.nil) else ts.getD l Thread.nil := by
  simp [mapLanes, List.getD_eq_getElem?_getD, h]

@[simp] theorem mapLanes_length (m : Mask) (f : Nat → Thread → Thread) (ts : List Thread) : (mapLanes m f ts).length = ts.length := by
  simp [mapLanes]

end Sys2Proof.Machine
end

