-- ==== Sys2Proof/Laws/Bundles.lean ====
section
/-! SUPPORT. Splits, merges and holds change how a warp's threads are grouped, and nothing else of the warp. -/

namespace Sys2Proof.Machine

/-- Two warps that differ in their bundles, the next bundle's number and the window alone, and in a checkpoint undone where one
was open. -/
def SameThreads (w v : Warp) : Prop :=
  v = { w with bundles := v.bundles, nextBundle := v.nextBundle, window := v.window, ckpt := v.ckpt, sig := v.sig } ∧
  (w.noCkpt → v.ckpt = w.ckpt ∧ v.sig = w.sig)

theorem SameThreads.refl (w : Warp) : SameThreads w w := ⟨rfl, fun _ => ⟨rfl, rfl⟩⟩
/-- Bundles, the next number and the window replaced. -/
theorem SameThreads.of (w : Warp) (bs : List Bundle) (n : Nat) (x : Option (Nat × Nat)) :
    SameThreads w { w with bundles := bs, nextBundle := n, window := x } := ⟨rfl, fun _ => ⟨rfl, rfl⟩⟩
theorem SameThreads.trans {a b c : Warp} (h : SameThreads a b) (k : SameThreads b c) : SameThreads a c := by
  refine ⟨?_, fun ha => ?_⟩
  · rw [k.1, h.1]
  · obtain ⟨h1, h2⟩ := h.2 ha
    have hb : b.noCkpt := by unfold Warp.noCkpt; rw [h1]; exact ha
    exact ⟨(k.2 hb).1.trans h1, (k.2 hb).2.trans h2⟩
theorem SameThreads.after {a b c : Warp} (k : SameThreads b c) (h : SameThreads a b) : SameThreads a c := h.trans k
/-- The fields that may differ replaced. -/
theorem SameThreads.with {a b : Warp} (h : SameThreads a b) (bs : List Bundle) (n : Nat) (x : Option (Nat × Nat)) :
    SameThreads a { b with bundles := bs, nextBundle := n, window := x } := h.trans (.of b bs n x)
/-- A checkpoint undone. -/
theorem sameThreads_undoCkpt (w : Warp) (a b : Nat) : SameThreads w (undoCkpt w a b) := by
  unfold undoCkpt; split
  · rename_i c hc
    split
    · rename_i h
      refine ⟨rfl, fun hn => ?_⟩
      rw [hn c hc] at h; simp at h
    · exact .refl w
  · exact .refl w
theorem SameThreads.threads {a b : Warp} (h : SameThreads a b) : b.threads = a.threads := by rw [h.1]

/-- A change made for each entry of a list in turn. -/
theorem sameThreads_foldl {α : Type} (f : Warp → α → Warp) (hf : ∀ w x, SameThreads w (f w x)) (l : List α) (w : Warp) :
    SameThreads w (l.foldl f w) := by
  induction l generalizing w with
  | nil => exact .refl w
  | cons x xs ih => exact (hf w x).trans (ih _)

theorem sameThreads_dropWindow (w : Warp) (k : Nat → Bool) : SameThreads w (dropWindow w k) := by
  unfold dropWindow; split
  · split
    · exact .refl w
    · exact .of w _ _ _
  · exact .refl w

theorem sameThreads_splitBundle (w : Warp) (b : Bundle) (key : Nat → Nat) : SameThreads w (splitBundle w b key) := by
  unfold splitBundle; simp only []; split; exacts [.refl w, .of w _ _ _]

theorem sameThreads_mergeInto (w : Warp) (a b : Nat) : SameThreads w (mergeInto w a b) := by
  unfold mergeInto; split
  · exact (sameThreads_dropWindow _ _).after ((sameThreads_undoCkpt w a b).with _ _ _)
  · exact .refl w

theorem sameThreads_splitHeld (w : Warp) : SameThreads w (splitHeld w) := by
  unfold splitHeld
  dsimp only
  exact (sameThreads_dropWindow _ _).after
    ((sameThreads_foldl _ (fun w b => sameThreads_splitBundle w b _) w.bundles w).with _ _ _)

theorem sameThreads_settle (w : Warp) (id : Nat) (taken : Mask) : SameThreads w (settle w id taken) := by
  unfold settle; split
  · exact sameThreads_splitHeld w
  · dsimp only
    split
    · exact ((sameThreads_splitHeld _).after (sameThreads_dropWindow _ _)).after ((SameThreads.refl w).with _ _ _)
    · refine ((sameThreads_splitHeld _).after (sameThreads_foldl _ ?_ _ _)).after
        ((sameThreads_splitBundle _ _ _).after ((SameThreads.refl w).with _ _ _))
      intro w x
      split
      · exact .refl w
      · exact sameThreads_foldl _ (fun w y => sameThreads_mergeInto w _ _) _ _

theorem sameThreads_regroup (w : Warp) : SameThreads w (regroup w) := by
  unfold regroup
  refine sameThreads_foldl _ ?_ _ _
  intro w b
  split
  · exact .refl w
  · split
    · exact .refl w
    · exact sameThreads_foldl _ (fun w y => sameThreads_mergeInto w _ _) _ _

@[simp] theorem settle_threads (w : Warp) (id : Nat) (m : Mask) : (settle w id m).threads = w.threads :=
  (sameThreads_settle w id m).threads

end Sys2Proof.Machine
end

