-- ==== Sys2Proof/Laws/Issue.lean ====
section
/-! SUPPORT. What an issue does around its instruction, said once: who issues, what the counts of an issue touch, and a
computation's next state. -/

namespace Sys2Proof.Machine
open Sys2Proof.Safety

/-- At an issue, the issuer is its warp, bundle and active threads. -/
theorem issuer_of_issuing {s : State} {w : Nat} {bn : Bundle} {len : Nat} (h : Issuing s w bn len) (g : Thread → Bool) :
    issuer s g = some (issueOf s w bn len g) := by
  simp [issuer, h.1, h.2, issueOf]

/-- An issue answers a next state: the effect where some thread is active, else its slot alone. -/
theorem issueWith_of_issuing {s : State} {w : Nat} {bn : Bundle} {len : Nat} (h : Issuing s w bn len) (g : Thread → Bool)
    (yh : Bool) (body : Iss → State) :
    issueWith s g yh body = .next (if (issueOf s w bn len g).act = 0 then finish s (issueOf s w bn len g) yh
      else body (issueOf s w bn len g)) := by
  simp [issueWith, issuer_of_issuing h g]

theorem issueH_of_issuing {s : State} {w : Nat} {bn : Bundle} {len : Nat} (h : Issuing s w bn len) (hd : Hdr)
    (body : Iss → State) :
    issueH s hd body = .next (if (issueOf s w bn len (hdrGuard hd)).act = 0 then finish s (issueOf s w bn len (hdrGuard hd)) hd.yh
      else body (issueOf s w bn len (hdrGuard hd))) := issueWith_of_issuing h _ _ _

/-- The slices after an event has been counted: the counts read and change the slices alone. -/
def countSlices (sls : List Slice) (vf c x i n : Nat) : List Slice :=
  let sl := sls.getD vf (Slice.none vf)
  if sl.hvforce.getLsbD 6 && (sl.hvforce.extractLsb' 0 6).toNat == c then
    if (sl.hvforce.extractLsb' 32 16).toNat == x then
      modAt sls vf fun sl => { sl with hvcounts := modAt sl.hvcounts i (satCount · n) }
    else sls
  else if (sl.ctxs.getD c (Ctx.none c)).cntSet.toNat == x then
    modAt sls vf fun sl => { sl with ctxs := modAt sl.ctxs c fun cx => { cx with counts16 := modAt cx.counts16 i (satCount · n) } }
  else sls

theorem count_eq (s : State) (vf c x i n : Nat) : count s vf c x i n = { s with slices := countSlices s.slices vf c x i n } := by
  unfold count countSlices bankHeld ctxOf sliceOf
  dsimp only
  split
  · split <;> rfl
  · split <;> rfl

/-- Whether an issue comes after the ck in which its block's halt began. -/
def lateIssue (s : State) (i : Iss) : Bool := match (i.block s).halt with | some h => h.ck < s.clk | none => false

/-- The blocks, cores and slices after the counts of an issue. -/
def noteBlocks (bs : List Block) (i : Iss) : List Block :=
  let bs := modAt bs i.wp.blk fun b =>
    { b with issued := true, idle := 0, idleRec := false,
             step := b.step.map fun st => { st with left := st.left.filter (· != (i.w, i.bn.id)) } }
  if i.lead then bs else
  let up (g : Group) : Group :=
    if g.members.getLsbD i.wp.idx then { g with retired := g.retired + BitVec.ofNat 64 (countBits (i.bn.lanes &&& ~~~i.bn.fenced)) } else g
  modAt bs i.wp.blk fun b => { b with groups := b.groups.map up }
def noteCores (cs : List Core) (i : Iss) : List Core :=
  if i.lead then modAt cs i.wp.core fun c => { c with leadSlot := some i.wp.slot } else cs
def noteSlices (sls : List Slice) (b : Block) : List Slice :=
  countSlices sls b.vf b.ctx 1 14 1

/-- ALL THAT THE COUNTS OF AN ISSUE DO: to its warp, its block, its core and the slices, and nothing else. -/
theorem noteIssue_eq (s : State) (i : Iss) (yh : Bool) :
    noteIssue s i yh = { s with
      warps := modAt s.warps i.w (issuedWarp i.bn.id i.bn.lanes yh (i.block s).halt.isNone (lateIssue s i))
      blocks := noteBlocks s.blocks i, cores := noteCores s.cores i, slices := noteSlices s.slices (i.block s) } := by
  unfold noteIssue noteBlocks noteCores noteSlices
  cases hl : i.lead with
  | true => simp only [retire, ↓reduceIte, count_eq]; rfl
  | false => simp only [retire, Bool.false_eq_true, ↓reduceIte, count_eq]; rfl

end Sys2Proof.Machine
end

