-- ==== Sys2Proof/Laws/Compute.lean ====
section
/-! SUPPORT. A computation's next state, said once for every instruction that is one. -/

namespace Sys2Proof.Machine
open Sys2Proof.Safety

theorem modAt_modAt {α : Type} (l : List α) (i : Nat) (f g : α → α) : modAt (modAt l i f) i g = modAt l i fun x => g (f x) := by
  induction l generalizing i with
  | nil => rfl
  | cons x xs ih => cases i <;> simp [modAt, ih]

/-- The warp after the counts of an issue and the step to the next instruction. -/
def finishedWarp (i : Iss) (yh run late : Bool) (w : Warp) : Warp :=
  let x := issuedWarp i.bn.id i.bn.lanes yh run late w
  settle { x with threads := mapLanes i.bn.lanes (fun _ t => { t with pc := t.pc + BitVec.ofNat 52 i.len }) x.threads } i.bn.id 0

/-- ALL THAT `finish` DOES. -/
theorem finish_eq (s : State) (i : Iss) (yh : Bool) :
    finish s i yh = { s with
      warps := modAt s.warps i.w (finishedWarp i yh (i.block s).halt.isNone (lateIssue s i))
      blocks := noteBlocks s.blocks i, cores := noteCores s.cores i, slices := noteSlices s.slices (i.block s) } := by
  unfold finish advance movePc setWarp
  rw [noteIssue_eq]
  dsimp only
  rw [modAt_modAt]
  rfl

/-- The warp that `finish` leaves differs from the one before in what an issue moves alone. -/
theorem finishedWarp_eq (i : Iss) (yh run late : Bool) (w : Warp) :
    finishedWarp i yh run late w = { w with
      threads := (finishedWarp i yh run late w).threads, bundles := (finishedWarp i yh run late w).bundles
      nextBundle := (finishedWarp i yh run late w).nextBundle, window := (finishedWarp i yh run late w).window
      pend := (finishedWarp i yh run late w).pend, issued := true, issuePc := (finishedWarp i yh run late w).issuePc
      halt := (finishedWarp i yh run late w).halt, ckpt := (finishedWarp i yh run late w).ckpt, sig := (finishedWarp i yh run late w).sig } := by
  unfold finishedWarp
  dsimp only
  rw [(sameThreads_settle _ i.bn.id 0).1]
  rfl

/-- Where no checkpoint is open, none is undone. -/
theorem finishedWarp_ckpt (i : Iss) (yh run late : Bool) (w : Warp) (h : w.noCkpt) :
    (finishedWarp i yh run late w).ckpt = w.ckpt ∧ (finishedWarp i yh run late w).sig = w.sig :=
  (sameThreads_settle _ i.bn.id 0).2 h

@[simp] theorem finishedWarp_threads (i : Iss) (yh run late : Bool) (w : Warp) :
    (finishedWarp i yh run late w).threads =
      mapLanes i.bn.lanes (fun _ t => { t with pc := t.pc + BitVec.ofNat 52 i.len }) w.threads := by
  simp [finishedWarp, issuedWarp]

/-- The states that differ from `s` in the warp of an issue, as an issue leaves it, meet its frame. -/
theorem onlyIssue_of_eq {s : State} {i : Iss} {yh : Bool} (f : Warp → Warp) (hw : i.w < s.warps.length)
    (hf : ∀ x, f x = { x with
      threads := (f x).threads, bundles := (f x).bundles, nextBundle := (f x).nextBundle, window := (f x).window
      pend := (f x).pend, issued := true, issuePc := (f x).issuePc, halt := (f x).halt, ckpt := (f x).ckpt, sig := (f x).sig })
    (hc : ∀ x, x.noCkpt → (f x).ckpt = x.ckpt ∧ (f x).sig = x.sig) :
    OnlyIssue s { s with
      warps := modAt s.warps i.w f, blocks := noteBlocks s.blocks i, cores := noteCores s.cores i
      slices := noteSlices s.slices (i.block s) } i yh := by
  have e : warpOf { s with
        warps := modAt s.warps i.w f, blocks := noteBlocks s.blocks i, cores := noteCores s.cores i
        slices := noteSlices s.slices (i.block s) } i.w = f (warpOf s i.w) := getD_modAt_self _ _ _ hw
  refine ⟨by simp only [noteIssue_eq], fun w' h => getD_modAt_ne _ _ _ (Ne.symm h), ?_, ?_, fun _ => rfl, rfl, rfl⟩
  · rw [e]; exact hf _
  · rw [e]; exact hc _

theorem mapLanes_none (f : Nat → Thread → Thread) (ts : List Thread) : mapLanes 0 f ts = ts := by
  apply List.ext_getElem?
  intro i
  simp [mapLanes]

/-- A change of a warp that leaves its threads leaves every thread. -/
theorem setWarp_threads (s : State) (w w' : Nat) (f : Warp → Warp) (hf : ∀ x, (f x).threads = x.threads) :
    (warpOf (setWarp s w f) w').threads = (warpOf s w').threads := by
  show ((modAt s.warps w f).getD w' Warp.nil).threads = _
  rw [getD_modAt]
  split
  · exact hf _
  · rfl

/-- `t` has the warps of `s`, each with the threads it had: what records, halts, logs and memory leave as it was. -/
def ThreadsKept (s t : State) : Prop :=
  t.warps.length = s.warps.length ∧ ∀ w, (warpOf t w).threads = (warpOf s w).threads

theorem ThreadsKept.refl (s : State) : ThreadsKept s s := ⟨rfl, fun _ => rfl⟩
theorem ThreadsKept.trans {s t u : State} (h : ThreadsKept s t) (k : ThreadsKept t u) : ThreadsKept s u :=
  ⟨k.1.trans h.1, fun w => (k.2 w).trans (h.2 w)⟩
theorem ThreadsKept.of_warps {s t : State} (h : t.warps = s.warps) : ThreadsKept s t := by
  simp [ThreadsKept, warpOf, h]
theorem ThreadsKept.setWarp (s : State) (w : Nat) (f : Warp → Warp) (hf : ∀ x, (f x).threads = x.threads) :
    ThreadsKept s (setWarp s w f) := ⟨modAt_length _ _ _, fun w' => setWarp_threads s w w' f hf⟩
theorem ThreadsKept.foldl {β : Type} (f : State → β → State) (hf : ∀ s x, ThreadsKept s (f s x)) (l : List β) (s : State) :
    ThreadsKept s (l.foldl f s) := by
  induction l generalizing s with
  | nil => exact .refl s
  | cons x xs ih => exact (hf s x).trans (ih _)

theorem formRec_warps (s : State) (blk key : Nat) (r : RecIn) (o : Owner) : (formRec s blk key r o).warps = s.warps := by
  unfold formRec formUnit; dsimp only; split <;> rfl

theorem stopWarp_kept (s : State) (w : Nat) : ThreadsKept s (stopWarp s w) := by
  unfold stopWarp
  dsimp only
  split
  · exact .setWarp _ _ _ fun _ => rfl
  · refine ThreadsKept.trans ?_ (.of_warps (formRec_warps _ _ _ _ _))
    exact .setWarp _ _ _ fun _ => rfl

theorem haltBlock_kept (s : State) (blk : Nat) (force : Bool) : ThreadsKept s (haltBlock s blk force) := by
  unfold haltBlock
  dsimp only
  split
  · split <;> exact .of_warps rfl
  · refine (ThreadsKept.of_warps (t := setBlock s blk _) rfl).trans (.foldl _ (fun t w => ?_) _ _)
    have k := ThreadsKept.setWarp t w (fun x => { x with window := none, skid := (0, 0) }) fun _ => rfl
    split
    · exact k
    · refine k.trans ?_
      unfold choose
      dsimp only
      split
      · exact (ThreadsKept.of_warps rfl).trans (stopWarp_kept _ _)
      · exact (ThreadsKept.of_warps rfl).trans (.setWarp _ _ _ fun _ => rfl)

theorem enterError_kept (s : State) (vf c cause addr : Nat) : ThreadsKept s (enterError s vf c cause addr) := by
  unfold enterError
  dsimp only
  split
  · exact .refl s
  · refine ThreadsKept.trans (t := List.foldl _ _ _) ?_ (.of_warps rfl)
    refine ThreadsKept.trans ⟨?_, fun w => ?_⟩ (.foldl _ (fun t b => ?_) _ _)
    · simp
    · simp only [warpOf, setSlice_warps]
      rw [List.getD_eq_getElem?_getD, List.getElem?_map, List.getD_eq_getElem?_getD]
      cases h : s.warps[w]? with
      | none => rfl
      | some x => simp only [Option.map_some, Option.getD_some]; split <;> rfl
    · split
      · exact haltBlock_kept _ _ _
      · exact .refl _

theorem walkPoison_kept (s : State) (vf c va : Nat) (e : XErr) : ThreadsKept s (walkPoison s vf c va e) := by
  unfold walkPoison
  split
  · exact enterError_kept _ _ _ _ _
  · exact .refl s

theorem alogAppend_kept (s : State) (vf c : Nat) (r : List Byte) : ThreadsKept s (alogAppend s vf c r) := by
  unfold alogAppend
  dsimp only
  split
  · exact .refl s
  · have hc := blind_cpWrite memBlind_warps (fun _ _ => rfl) s vf c ((ctxOf s vf c).desc.alog + 32 * ((ctxOf s vf c).alcnt.toNat % ((ctxOf s vf c).desc.alogsize / 32))) r
    split
    · rename_i t e h; exact (ThreadsKept.of_warps (t := t) (blind_fst h hc)).trans (.of_warps rfl)
    · rename_i t e h; exact (ThreadsKept.of_warps (t := t) (blind_fst h hc)).trans (walkPoison_kept _ _ _ _ _)

/-- Logging changes no thread, whatever becomes of the record. -/
theorem logArith_kept (s : State) (w : Nat) (pc : Addr) (cube : Bool) (fs : List (Nat × Flags)) :
    ThreadsKept s (logArith s w pc cube fs) := by
  unfold logArith
  dsimp only
  refine .foldl _ (fun t i => ?_) _ _
  split
  · exact .refl t
  · refine ThreadsKept.trans ?_ (alogAppend_kept _ _ _ _)
    exact .setWarp t w _ fun _ => rfl

/-- Threads after the counts of an issue and the step to the next instruction. -/
theorem finish_threads (s : State) (i : Iss) (yh : Bool) (hw : i.w < s.warps.length) :
    (warpOf (finish s i yh) i.w).threads =
      mapLanes i.bn.lanes (fun _ t => { t with pc := t.pc + BitVec.ofNat 52 i.len }) (warpOf s i.w).threads := by
  rw [finish_eq]
  show ((modAt s.warps i.w _).getD i.w Warp.nil).threads = _
  rw [getD_modAt_self _ _ _ hw, finishedWarp_threads]
  rfl

/-- COMPUTATIONS COMPLETE: whatever a computation's lanes give, its next state is as `Computes` says. -/
theorem computes_of_issuing {s : State} {w : Nat} {bn : Bundle} {len : Nat} (h : Issuing s w bn len) (g : Thread → Bool)
    (yh : Bool) (la lat : Nat) (dst : Iss → List Nat) (f : Iss → Nat → Thread → LaneRes) :
    Computes s w bn len g yh (f (issueOf s w bn len g))
      (issueWith s g yh fun i => computeBody s i yh la lat (dst i) (f i)) := by
  have hw : w < s.warps.length := lt_of_bundleOf h.2
  rw [issueWith_of_issuing h]
  generalize hi : issueOf s w bn len g = i
  have hiw : i.w = w := by rw [← hi]; rfl
  have hbn : i.bn = bn := by rw [← hi]; rfl
  have hlen : i.len = len := by rw [← hi]; rfl
  have hwp : i.wp = warpOf s w := by rw [← hi]; rfl
  have hact : ∀ l, i.act.getLsbD l = (bn.lanes.getLsbD l && g (threadOf (warpOf s w) l)) := fun l => by
    rw [← hi]; exact getLsbD_activeLanes _ _ _ _
  refine ⟨_, rfl, ?_, ?_⟩
  · intro l hl
    have key : ∀ t : State, t.warps.length = s.warps.length →
        (warpOf t w).threads = mapLanes i.act (fun l t => written i.wp.lead (f i l t) t) (warpOf s w).threads →
        threadOf (warpOf (finish t i yh) w) l = laneAfter (warpOf s w).lead bn len g (f i) l (threadOf (warpOf s w) l) := by
      intro t ht hth
      have e : (warpOf (finish t i yh) w).threads = mapLanes bn.lanes (fun _ t => { t with pc := t.pc + BitVec.ofNat 52 len })
          (mapLanes i.act (fun l t => written i.wp.lead (f i l t) t) (warpOf s w).threads) := by
        have := finish_threads t i yh (by omega)
        rw [hiw, hbn, hlen, hth] at this
        exact this
      simp only [threadOf, e]
      rw [getD_mapLanes _ _ _ (by simpa using hl), getD_mapLanes _ _ _ hl, hact l]
      simp only [laneAfter, hwp, threadOf]
    split
    · rename_i h0
      refine key s rfl ?_
      rw [h0, mapLanes_none]
    · unfold computeBody
      dsimp only
      have hs1 : (warpOf (writeLanes s i (f i)) w).threads =
          mapLanes i.act (fun l t => written i.wp.lead (f i l t) t) (warpOf s w).threads := by
        show ((modAt s.warps i.w _).getD w Warp.nil).threads = _
        rw [hiw, getD_modAt_self _ _ _ hw]; rfl
      have hl1 : (writeLanes s i (f i)).warps.length = s.warps.length := modAt_length _ _ _
      have hadd : ∀ t r a d x, threadOf (warpOf (addPend t i r a d x) w) l = threadOf (warpOf t w) l := fun t r a d x => by
        have := setWarp_threads t i.w w (fun y => { y with pend := y.pend ++ [{ lanes := i.act, regs := r, la := a, after := 0, due := d, load := x }] })
          fun _ => rfl
        simp only [threadOf]; exact congrArg (·.getD l Thread.nil) this
      rw [hadd]
      split
      · exact key _ hl1 hs1
      · exact key _ ((logArith_kept _ _ _ _ _).1.trans hl1) (((logArith_kept _ _ _ _ _).2 w).trans hs1)
  · intro hen
    rw [hi]
    split
    · rw [finish_eq]
      exact onlyIssue_of_eq _ (hiw ▸ hw) (finishedWarp_eq i yh _ _) (finishedWarp_ckpt i yh _ _)
    · unfold computeBody
      dsimp only
      rw [if_pos]
      · rw [finish_eq]
        have e : ∀ r a d x, addPend { writeLanes s i (f i) with
            warps := modAt (writeLanes s i (f i)).warps i.w (finishedWarp i yh (i.block (writeLanes s i (f i))).halt.isNone (lateIssue (writeLanes s i (f i)) i))
            blocks := noteBlocks (writeLanes s i (f i)).blocks i, cores := noteCores (writeLanes s i (f i)).cores i
            slices := noteSlices (writeLanes s i (f i)).slices (i.block (writeLanes s i (f i))) } i r a d x =
          { s with
            warps := modAt s.warps i.w fun y =>
              let z := finishedWarp i yh (i.block s).halt.isNone (lateIssue s i) { y with threads := mapLanes i.act (fun l t => written i.wp.lead (f i l t) t) y.threads }
              { z with pend := z.pend ++ [{ lanes := i.act, regs := r, la := a, after := 0, due := d, load := x }] }
            blocks := noteBlocks s.blocks i, cores := noteCores s.cores i, slices := noteSlices s.slices (i.block s) } := by
          intro r a d x
          show { s with
            warps := modAt (modAt (modAt s.warps i.w _) i.w _) i.w _
            blocks := noteBlocks s.blocks i, cores := noteCores s.cores i, slices := noteSlices s.slices (i.block s) } = _
          rw [modAt_modAt, modAt_modAt]
          rfl
        rw [e]
        refine onlyIssue_of_eq _ (hiw ▸ hw) (fun x => ?_) fun x hx => finishedWarp_ckpt i yh _ _ _ hx
        dsimp only
        rw [finishedWarp_eq]
      · simp only [List.all_eq_true, List.mem_map, mem_lanesOf]
        rintro ⟨l, fl⟩ ⟨k, ⟨hk, hka⟩, hkl⟩
        obtain ⟨rfl, rfl⟩ := Prod.mk.inj hkl
        rw [hact] at hka
        simp only [Bool.and_eq_true] at hka
        simp only [hwp, beq_iff_eq]
        by_cases hlt : k < (warpOf s w).threads.length
        · exact hen k ⟨hlt, hka.1, hka.2⟩
        · have : threadOf (warpOf s w) k = Thread.nil := List.getD_eq_default _ _ (by omega)
          rw [this]
          simp [enabled, Thread.nil]

end Sys2Proof.Machine
end

