-- ==== Sys2Proof/Laws/Memory.lean ====
section
/-! SUPPORT. The laws of memory: what a byte reads after a write, and that every operation keeps the canonical form. -/

namespace Sys2Proof.Machine

/-- Every listed address lies above `n`. -/
theorem memRead_of_memWfFrom {m : Memory} {n a : Nat} (h : memWfFrom (some n) m = true) (ha : a ≤ n) : memRead m a = 0 := by
  induction m generalizing n with
  | nil => rfl
  | cons c r ih =>
    obtain ⟨k, b⟩ := c
    simp only [memWfFrom, Bool.and_eq_true, decide_eq_true_eq] at h
    have hk : k ≠ a := by omega
    simp only [memRead, if_neg hk]
    exact ih h.2 (by omega)

/-- A bound below stays a bound when it is lowered. -/
theorem memWfFrom_mono {m : Memory} {n k : Nat} (h : memWfFrom (some n) m = true) (hk : k ≤ n) : memWfFrom (some k) m = true := by
  cases m with
  | nil => rfl
  | cons c r =>
    obtain ⟨a, b⟩ := c
    simp only [memWfFrom, Bool.and_eq_true, decide_eq_true_eq] at h ⊢
    exact ⟨⟨by omega, h.1.2⟩, h.2⟩

/-- No bound is needed for the whole list. -/
theorem memWfFrom_none {m : Memory} {o : Option Nat} (h : memWfFrom o m = true) : memWfFrom none m = true := by
  cases m with
  | nil => rfl
  | cons c r =>
    obtain ⟨a, b⟩ := c
    simp only [memWfFrom, Bool.and_eq_true] at h ⊢
    exact ⟨⟨trivial, h.1.2⟩, h.2⟩

/-- A write at or above a bound keeps the form from that bound. -/
theorem memWfFrom_memWrite {m : Memory} {o : Option Nat} {a : Nat} (b : Byte) (h : memWfFrom o m = true)
    (ho : ∀ n, o = some n → n < a) : memWfFrom o (memWrite m a b) = true := by
  induction m generalizing o with
  | nil =>
    by_cases hb : b = 0#8
    · simp [memWrite, hb, memWfFrom]
    · cases o with
      | none => simp [memWrite, hb, memWfFrom]
      | some n => simp [memWrite, hb, memWfFrom, ho n rfl]
  | cons c r ih =>
    obtain ⟨k, v⟩ := c
    have hr : memWfFrom (some k) r = true := by
      simp only [memWfFrom, Bool.and_eq_true] at h; exact h.2
    have hv : ¬v = 0#8 := by
      simp only [memWfFrom, Bool.and_eq_true] at h; simpa using h.1.2
    simp only [memWrite]
    by_cases h1 : a < k
    · simp only [if_pos h1]
      by_cases hb : b = 0#8
      · simpa [hb] using h
      · cases o with
        | none => simp [hb, memWfFrom, h1, hv, hr]
        | some n => simp [hb, memWfFrom, h1, hv, hr, ho n rfl]
    · simp only [if_neg h1]
      by_cases h2 : a = k
      · subst h2
        simp only [↓reduceIte]
        by_cases hb : b = 0#8
        · simp only [BitVec.ofNat_eq_ofNat, hb, ↓reduceIte]
          cases o with
          | none => exact memWfFrom_none hr
          | some n => exact memWfFrom_mono hr (Nat.le_of_lt (ho n rfl))
        · cases o with
          | none => simp [hb, memWfFrom, hr]
          | some n => simp [hb, memWfFrom, hr, ho n rfl]
      · simp only [if_neg h2]
        have hw : memWfFrom (some k) (memWrite r a b) = true :=
          ih hr fun n hn => by injection hn with hn; omega
        cases o with
        | none => simp [memWfFrom, hv, hw]
        | some n =>
          simp only [memWfFrom, Bool.and_eq_true, decide_eq_true_eq] at h
          simp [memWfFrom, hv, hw, h.1.1]

/-- A write keeps the canonical form. -/
theorem memWrite_wf {m : Memory} (a : Nat) (b : Byte) (h : m.wf = true) : (memWrite m a b).wf = true :=
  memWfFrom_memWrite b h (fun _ hn => by cases hn)

/-- What a byte reads after a write. -/
theorem memRead_memWrite {m : Memory} (h : m.wf = true) (a x : Nat) (b : Byte) :
    memRead (memWrite m a b) x = if x = a then b else memRead m x := by
  suffices H : ∀ (o : Option Nat), memWfFrom o m = true → memRead (memWrite m a b) x = if x = a then b else memRead m x from
    H none h
  clear h
  intro o h
  induction m generalizing o with
  | nil =>
    by_cases hb : b = 0#8
    · simp [memWrite, hb, memRead]
    · simp only [memWrite, BitVec.ofNat_eq_ofNat, hb, ↓reduceIte, memRead]
      by_cases hx : x = a
      · simp [hx]
      · simp [hx, Ne.symm hx]
  | cons c r ih =>
    obtain ⟨k, v⟩ := c
    have hr : memWfFrom (some k) r = true := by
      simp only [memWfFrom, Bool.and_eq_true] at h; exact h.2
    simp only [memWrite]
    by_cases h1 : a < k
    · simp only [if_pos h1]
      have ha : memRead ((k, v) :: r) a = 0 := by
        simp only [memRead, if_neg (show ¬k = a by omega)]
        exact memRead_of_memWfFrom hr (by omega)
      by_cases hb : b = 0#8
      · simp only [BitVec.ofNat_eq_ofNat, hb, ↓reduceIte]
        by_cases hx : x = a
        · simp [hx, ha]
        · simp [hx]
      · simp only [BitVec.ofNat_eq_ofNat, hb, ↓reduceIte]
        by_cases hx : x = a
        · simp [hx, memRead]
        · simp only [hx, ↓reduceIte]
          rw [memRead, if_neg (Ne.symm hx)]
    · simp only [if_neg h1]
      by_cases h2 : a = k
      · subst h2
        simp only [↓reduceIte]
        by_cases hb : b = 0#8
        · simp only [BitVec.ofNat_eq_ofNat, hb, ↓reduceIte]
          by_cases hx : x = a
          · simp only [hx, ↓reduceIte]; exact memRead_of_memWfFrom hr (Nat.le_refl _)
          · simp only [hx, ↓reduceIte]; rw [memRead, if_neg (Ne.symm hx)]
        · simp only [BitVec.ofNat_eq_ofNat, hb, ↓reduceIte]
          by_cases hx : x = a
          · simp [hx, memRead]
          · simp only [hx, ↓reduceIte]; rw [memRead, memRead, if_neg (Ne.symm hx), if_neg (Ne.symm hx)]
      · simp only [if_neg h2]
        by_cases hk : k = x
        · simp only [memRead, hk, ↓reduceIte]; rw [if_neg (by omega)]
        · simp only [memRead, if_neg hk]; exact ih (some k) hr

/-- Writing a run of bytes keeps the canonical form. -/
theorem memWriteN_wf {m : Memory} (a : Nat) (bs : List Byte) (h : m.wf = true) : (memWriteN m a bs).wf = true := by
  induction bs generalizing m a with
  | nil => exact h
  | cons b bs ih => exact ih (a + 1) (memWrite_wf a b h)

/-- What a byte reads after a run of bytes has been written. -/
theorem memRead_memWriteN {m : Memory} (h : m.wf = true) (a x : Nat) (bs : List Byte) :
    memRead (memWriteN m a bs) x = if a ≤ x ∧ x < a + bs.length then bs.getD (x - a) 0 else memRead m x := by
  induction bs generalizing m a with
  | nil => simp [memWriteN, show ¬(a ≤ x ∧ x < a) by omega]
  | cons b bs ih =>
    simp only [memWriteN, ih (memWrite_wf a b h), memRead_memWrite h, List.length_cons]
    by_cases hx : x = a
    · subst hx; simp
    · by_cases h1 : a + 1 ≤ x ∧ x < a + 1 + bs.length
      · rw [if_pos h1, if_pos (by omega)]
        obtain ⟨d, hd⟩ : ∃ d, x - a = d + 1 := ⟨x - a - 1, by omega⟩
        rw [hd, show x - (a + 1) = d by omega]; simp
      · rw [if_neg h1, if_neg hx, if_neg (by omega)]

/-- Clearing keeps the canonical form from any bound. -/
theorem memWfFrom_memClear {m : Memory} {o : Option Nat} (p : Nat → Bool) (h : memWfFrom o m = true) :
    memWfFrom o (memClear m p) = true := by
  induction m generalizing o with
  | nil => simp [memClear, memWfFrom]
  | cons c r ih =>
    obtain ⟨k, v⟩ := c
    have hr : memWfFrom (some k) r = true := by
      simp only [memWfFrom, Bool.and_eq_true] at h; exact h.2
    have hv : ¬v = 0#8 := by
      simp only [memWfFrom, Bool.and_eq_true] at h; simpa using h.1.2
    by_cases hp : p k = true
    · have e : memClear ((k, v) :: r) p = memClear r p := by simp [memClear, hp]
      rw [e]
      cases o with
      | none => exact memWfFrom_none (ih hr)
      | some n =>
        simp only [memWfFrom, Bool.and_eq_true, decide_eq_true_eq] at h
        exact memWfFrom_mono (ih hr) (Nat.le_of_lt h.1.1)
    · have e : memClear ((k, v) :: r) p = (k, v) :: memClear r p := by simp [memClear, hp]
      rw [e]
      cases o with
      | none => simp [memWfFrom, hv, ih hr]
      | some n =>
        simp only [memWfFrom, Bool.and_eq_true, decide_eq_true_eq] at h
        simp [memWfFrom, hv, h.1.1, ih hr]

/-- A sweep keeps the canonical form. -/
theorem memClear_wf {m : Memory} (p : Nat → Bool) (h : m.wf = true) : (memClear m p).wf = true := memWfFrom_memClear p h

/-- What a byte reads after a sweep. -/
theorem memRead_memClear (m : Memory) (p : Nat → Bool) (x : Nat) :
    memRead (memClear m p) x = if p x then 0 else memRead m x := by
  induction m with
  | nil => simp [memClear, memRead]
  | cons c r ih =>
    obtain ⟨k, v⟩ := c
    by_cases hp : p k = true
    · have e : memClear ((k, v) :: r) p = memClear r p := by simp [memClear, hp]
      rw [e, ih]
      by_cases hk : k = x
      · subst hk; simp [hp]
      · simp [memRead, hk]
    · have e : memClear ((k, v) :: r) p = (k, v) :: memClear r p := by simp [memClear, hp]
      rw [e]
      by_cases hk : k = x
      · subst hk; simp [memRead, hp]
      · simp only [memRead, if_neg hk]; exact ih

/-- Writing single bytes one after another keeps the canonical form. -/
theorem foldl_memWrite_wf {m : Memory} (bs : List (Nat × Byte)) (h : m.wf = true) :
    (bs.foldl (fun m x => memWrite m x.1 x.2) m).wf = true := by
  induction bs generalizing m with
  | nil => exact h
  | cons b bs ih => exact ih (memWrite_wf b.1 b.2 h)

end Sys2Proof.Machine
end

