-- ==== Sys2Proof/Laws/Images.lean ====
section
/-! SUPPORT. What EXPORT writes is what IMPORT finds (R292). -/

namespace Sys2Proof.Machine

/-- The bytes at PFADDR after an image has been written there are its own. -/
theorem standsThere_putImage {s : State} (h : s.hostMem.wf = true) (i : Image) {n : Nat} (hn : n ≤ i.size) :
    standsThere (putImage s i) n i = true := by
  simp only [standsThere, List.all_eq_true, List.mem_range, beq_iff_eq]
  intro k hk
  simp only [pfByte, putImage, hostPlace]
  rw [memRead_memWriteN h, if_pos (by simp only [List.length_map, List.length_range]; omega)]
  simp only [List.getD_eq_getElem?_getD, List.getElem?_map]
  rw [List.getElem?_range (by omega)]
  simp only [Option.map_some, Option.getD_some]
  congr 1
  omega

/-- The image that an EXPORT of this session has just written is the one that an IMPORT finds. -/
theorem imageThere_putImage {s : State} (h : s.hostMem.wf = true) {i : Image} (hi : i.session = s.sessionCount) :
    imageThere (putImage s i) = some i := by
  have hs := standsThere_putImage h i (Nat.le_refl _)
  have hm : ((putImage s i).images.filter (·.session == (putImage s i).sessionCount)) =
      i :: s.images.filter (·.session == s.sessionCount) := by
    simp [putImage, hi]
  simp only [imageThere, hm, List.find?_cons, hs]

/-- An IMPORT of the state takes a state image alone, and one of a granule that granule's alone. -/
theorem importable_putImage {s : State} (h : s.hostMem.wf = true) {i : Image} (hi : i.session = s.sessionCount) (arg : Word) :
    importable (putImage s i) arg =
      if (if arg == 0xFFFFFFFF then i.isState else !i.isState && i.index == arg.toNat) then some i else none := by
  simp only [importable, imageThere_putImage h hi, Option.bind_some]

end Sys2Proof.Machine
end

