-- ==== Sys2Proof/Tests/Slice0.lean ====
section
/-! SUPPORT. The model's own tests: words decoded bit by bit, terms that the checks refuse, single steps with results worked out
by hand from the rules, and for each statement with hypotheses states and operands that meet them. -/

namespace Sys2Proof.Tests
set_option Elab.async false
open Sys2Proof Sys2Proof.Machine Sys2Proof.Safety

/-! ### A small machine -/

/-- No guard, no window, no hint. -/
def H : Hdr := ⟨7, false, 0, false, false, .normal⟩
/-- Threads of lanes 0 and 1: registers 0 but for v8 to v13 of lane 1. -/
def T0 : Thread := { Thread.nil with pc := 0x1000, exited := false, v := List.replicate 40 0 }
def T1 : Thread := { T0 with v := [0, 0, 0, 0, 0, 0, 0, 0, 1, 0, 0x4000, 0, 0x40000000, 0] ++ List.replicate 26 0 }
def B0 : Bundle := { Bundle.nil with lanes := 3 }
def B1 : Bundle := { Bundle.nil with lanes := 1 }
/-- Warp 0 and, as warp 1, the lead of its part. -/
def W0 : Warp := { Warp.nil with present := true, retired := false, threads := [T0, T1], bundles := [B0], nextBundle := 1, fairt := 2048 }
def L0 : Warp :=
  { Warp.nil with lead := true, idx := 255, present := true, retired := false, issued := true, bundles := [B1], nextBundle := 1,
                  threads := [{ Thread.nil with pc := 0x2000, exited := false, s := List.replicate 32 0 }] }
def P0 : Part :=
  { Part.nil with kib := 16, tiles := List.replicate 4 (List.replicate 64 ⟨0, 0⟩), accs := List.replicate 4 (List.replicate 64 0), lead := 1,
                  released := false, freed := false }
/-- Group 0 has the warp as its member, group 1 has not. -/
def G0 : Group := { g := 0, members := 1, phase := 0, arrived := [], waiting := [], retired := 0, due := none }
def G1 : Group := { G0 with g := 1, members := 2 }
def K0 : Block := { Block.nil with vf := 1, nWarps := 1, firstLead := 1, nParts := 1, groups := [G0, G1], status := .resident }
def pkt : Packet :=
  { Packet.nil with code := 0x1000, nx := 1, ny := 1, nz := 1, threads := 2, vregs := 40, lregs := 32, tiles := 4, accs := 4, scratch := 16 }
def lau : Launch :=
  { Launch.nil with vf := 1, pkt, expmask := 1, next := 1, total := 1, discarded := false, alive := true, constAt := 0x3000, constSize := 64 }
/-- Slice VF 1 on quad 0 with context 0, whose VAs below 2^30 stand in the TLB of core 0; warp 0 stands at an issue. -/
def W : State :=
  let s := inService State.reset
  let s := setCore s 0 fun c => { c with tlb := [⟨1, 0, 0, 2 ^ 30, 0, 0, 0, true, true⟩] }
  let s := setCtx s 1 0 fun c => { c with desc := { c.desc with chain := 0x40000, chainsize := 0x40000 } }
  { s with warps := [W0, L0], parts := [P0], blocks := [K0], launches := [lau], cur := some ⟨0, 0, 8⟩, clk := 1000 }
/-- The same with the lead at the issue. -/
def L : State := { W with cur := some ⟨1, 0, 8⟩ }
/-- Block 0 and block 1 are a twin pair: warp 2 and lead 3 are those of the second copy. -/
def paired : State :=
  let k (o : Nat) (p : Bool) (b : Block) : Block := { b with twin := some (o, p) }
  let s : State := { W with blocks := [k 1 true K0, k 0 false { K0 with firstWarp := 2, firstLead := 3, firstPart := 1 }], parts := [P0, { P0 with blk := 1, lead := 3 }] }
  { s with warps := [W0, L0, { W0 with blk := 1, part := 1 }, { L0 with blk := 1, part := 1 }] }
/-- Warp 0 with every thread changed. -/
def threads (f : Thread → Thread) : State := setWarp W 0 fun w => { w with threads := w.threads.map f }

theorem issuing_warp : Issuing W 0 B0 8 := by unfold Issuing; decide +kernel
theorem issuing_lead : Issuing L 1 B1 8 := by unfold Issuing; decide +kernel
theorem clean : Clean W ∧ Clean L := by unfold Clean; decide +kernel
theorem placed : Placed W 0 ∧ Placed L 1 := by unfold Placed; decide +kernel
theorem memory_ok : MemOk W ∧ StoresOk W := by unfold StoresOk MemOk; decide +kernel
/-- What holds of the lanes below 64 that a mask names holds of every lane that it names. -/
theorem lanes_all {m : Mask} {P : Nat → Prop} (h : ∀ l, l < 64 → m.getLsbD l = true → P l) (l : Nat) (k : m.getLsbD l = true) : P l :=
  h l (BitVec.lt_of_getLsbD k) k
theorem active_all {s : State} {w : Nat} {b : Bundle} {g : Thread → Bool} {P : Nat → Prop}
    (h : ∀ l, l < 64 → b.lanes.getLsbD l = true → P l) (l : Nat) (k : Active s w b g l) : P l := h l (BitVec.lt_of_getLsbD k.2.1) k.2.1
/-- A translation has given a value. -/
def okIs {α : Type} [DecidableEq α] (x : Xl α) (v : α) : Bool := match x with | .ok a => a == v | .err _ => false
theorem ok_of_okIs {α : Type} [DecidableEq α] {x : Xl α} {v : α} (h : okIs x v = true) : x = .ok v := by
  cases x <;> simp_all [okIs]
/-- A result whose second part is a value that a translation has given. -/
theorem exists_ok {α : Type} [DecidableEq α] {x : State × Xl α} {v : α} (h : okIs x.2 v = true) : ∃ s, x = (s, .ok v) :=
  ⟨x.1, Prod.ext rfl (ok_of_okIs h)⟩

/-! ### Words written out from the encodings -/

/-- An M-form, field by field as Table 6-4 places them, unguarded and without hints. -/
def m (opc d a b c mod : Nat) : Nat := 2 + opc * 2 ^ 2 + 7 * 2 ^ 10 + d * 2 ^ 22 + a * 2 ^ 30 + b * 2 ^ 38 + c * 2 ^ 46 + mod * 2 ^ 54
/-- An L-form with its literal. -/
def l (opc d a b c mod lit : Nat) : Nat := m opc d a b c mod + 1 + lit * 2 ^ 64
/-- An S-form (Table 6-2). -/
def f (g sop d a b : Nat) : Nat := g + sop * 2 ^ 2 + d * 2 ^ 8 + a * 2 ^ 16 + b * 2 ^ 24
/-- The 12 bytes from a word on, the lowest first. -/
def image (w : Nat) : List Byte := (List.range 12).map fun k => BitVec.ofNat 8 (w / 256 ^ k)
/-- Each word is the instruction beside it, in warp or lead code of a B1 device that declares CSPMAC. -/
def reads (lead : Bool) (ws : List (Nat × Instr)) : Bool := ws.all fun x => (decode ⟨lead, true⟩ (image x.1)).1 == .ok x.2

/-- Integer types and SUB as Tables 7-1 to 7-3 code them; MOD is TY + 16·SAT + 32·SUB. -/
theorem test_decode_integer : reads false [
    (m 0x00 0 0 0 0 0, .nop H),
    (m 0x01 3 1 2 0 20, .iadd H ⟨.i16, true, 0, 3, 1, 2, 0, none⟩),
    (m 0x02 4 6 8 0 2, .isub H ⟨.i64, false, 0, 4, 6, 8, 0, none⟩),
    (m 0x03 4 6 8 5 3, .iaddc H ⟨.n64, false, 0, 4, 6, 8, 5, none⟩),
    (m 0x04 1 2 3 0 1, .isubb H ⟨.n32, false, 0, 1, 2, 3, 0, none⟩),
    (l 0x05 1 2 0 0 6 0xFFFFFFFF, .imul H ⟨.i8, false, 0, 1, 2, 0, 0, some 0xFFFFFFFF⟩),
    (m 0x06 1 2 3 0 0, .imulh H ⟨.i32, false, 0, 1, 2, 3, 0, none⟩),
    (m 0x07 1 2 3 4 23, .imad H ⟨.n8, true, 0, 1, 2, 3, 4, none⟩),
    (m 0x08 4 2 3 6 1, .imadw H ⟨.n32, false, 0, 4, 2, 3, 6, none⟩),
    (m 0x09 1 2 3 0 16, .idiv H ⟨.i32, true, 0, 1, 2, 3, 0, none⟩),
    (m 0x0A 1 2 3 0 1, .irem H ⟨.n32, false, 0, 1, 2, 3, 0, none⟩),
    (m 0x0B 1 2 0 0 4, .ineg H ⟨.i16, false, 0, 1, 2, 0, 0, none⟩),
    (m 0x0C 1 2 0 0 0, .iabs H ⟨.i32, false, 0, 1, 2, 0, 0, none⟩),
    (m 0x0D 1 2 255 0 5, .imin H ⟨.n16, false, 0, 1, 2, 255, 0, none⟩),
    (m 0x0E 255 2 3 0 0, .imax H ⟨.i32, false, 0, 255, 2, 3, 0, none⟩),
    (m 0x0F 1 2 3 4 7, .iclamp H ⟨.n8, false, 0, 1, 2, 3, 4, none⟩),
    (m 0x10 1 2 3 0 8, .and H ⟨.b32, false, 0, 1, 2, 3, 0, none⟩),
    (m 0x11 2 4 6 0 9, .or H ⟨.b64, false, 0, 2, 4, 6, 0, none⟩),
    (l 0x12 1 2 0 0 8 1, .xor H ⟨.b32, false, 0, 1, 2, 0, 0, some 1⟩),
    (m 0x13 1 2 0 0 8, .not H ⟨.b32, false, 0, 1, 2, 0, 0, none⟩),
    (m 0x14 2 4 6 8 (0xD8 + 256), .btab3 H ⟨0xD8, true, 2, 4, 6, 8, none⟩),
    (m 0x15 1 2 3 0 8, .shl H ⟨.b32, false, 0, 1, 2, 3, 0, none⟩),
    (m 0x16 2 4 3 0 9, .shr H ⟨.b64, false, 0, 2, 4, 3, 0, none⟩),
    (l 0x17 1 2 0 0 0 31, .sar H ⟨.i32, false, 0, 1, 2, 0, 0, some 31⟩),
    (m 0x18 1 2 3 4 (8 + 32), .shf H ⟨.b32, false, 1, 1, 2, 3, 4, none⟩),
    (m 0x19 1 2 3 0 8, .rotl H ⟨.b32, false, 0, 1, 2, 3, 0, none⟩),
    (m 0x1A 1 2 3 0 0, .bfe H ⟨.i32, false, 0, 1, 2, 3, 0, none⟩),
    (m 0x1B 1 2 3 4 1, .bfi H ⟨.n32, false, 0, 1, 2, 3, 4, none⟩),
    (m 0x1C 1 2 0 0 9, .popc H ⟨.b64, false, 0, 1, 2, 0, 0, none⟩),
    (m 0x1D 1 2 0 0 8, .clz H ⟨.b32, false, 0, 1, 2, 0, 0, none⟩),
    (m 0x1E 1 2 0 0 8, .ctz H ⟨.b32, false, 0, 1, 2, 0, 0, none⟩),
    (m 0x1F 1 2 0 0 8, .brev H ⟨.b32, false, 0, 1, 2, 0, 0, none⟩),
    (m 0x20 5 2 3 0 (4 * 32), .icmp H ⟨.i32, false, 4, 5, 2, 3, 0, none⟩),
    (m 0x21 5 2 3 0 (1 + 5 * 32), .iset H ⟨.n32, false, 5, 5, 2, 3, 0, none⟩),
    (m 0x22 1 2 3 6 8, .sel H ⟨.b32, false, 0, 1, 2, 3, 6, none⟩),
    (l 0x23 2 0 0 0 2 0x80000000, .mov H ⟨.i64, false, 0, 2, 0, 0, 0, some 0x80000000⟩),
    (l 0x24 2 0 0 0 32 7, .movi H ⟨.i32, false, 1, 2, 0, 0, 0, some 7⟩),
    (m 0x25 2 4 3 0 (2 + 3 * 32), .lea H ⟨.i64, false, 3, 2, 4, 3, 0, none⟩),
    (m 0x26 1 2 3 4 6, .idot4 H ⟨.i8, false, 0, 1, 2, 3, 4, none⟩),
    (m 0x27 1 2 3 4 (5 + 16), .idot2 H ⟨.n16, true, 0, 1, 2, 3, 4, none⟩),
    (m 0x28 0 9 0 0 32, .pmov H ⟨.i32, false, 1, 0, 9, 0, 0, none⟩),
    (m 0x29 1 2 3 4 0x96, .ptab3 H ⟨0x96, false, 1, 2, 3, 4, none⟩)] = true := by decide +kernel

/-- MOD of layout FP is HB + 2·RM + 16·SAT + 32·FTZ + 64·SUB, of CI RM + 8·FF + 64·TY, of CF RM + 8·SAT + 16·FD + 128·FS. -/
theorem test_decode_float : reads false [
    (m 0x30 1 2 3 0 (2 * 1 + 32), .fadd H ⟨false, .rz, false, true, 0, 1, 2, 3, 0, none⟩),
    (l 0x31 1 2 0 0 (2 * 2) 0x3F800000, .fsub H ⟨false, .rd, false, false, 0, 1, 2, 0, 0, some 0x3F800000⟩),
    (m 0x32 1 2 3 0 (2 * 3 + 16), .fmul H ⟨false, .ru, true, false, 0, 1, 2, 3, 0, none⟩),
    (m 0x33 1 2 3 4 0, .ffma H ⟨false, .rn, false, false, 0, 1, 2, 3, 4, none⟩),
    (m 0x34 1 2 3 0 32, .fmin H ⟨false, .rn, false, true, 0, 1, 2, 3, 0, none⟩),
    (m 0x35 1 2 3 0 0, .fmax H ⟨false, .rn, false, false, 0, 1, 2, 3, 0, none⟩),
    (m 0x36 1 2 3 0 (64 * 7), .fcmp H ⟨false, .rn, false, false, 7, 1, 2, 3, 0, none⟩),
    (m 0x37 1 2 3 0 (64 * 2 + 32), .fset H ⟨false, .rn, false, true, 2, 1, 2, 3, 0, none⟩),
    (m 0x38 1 2 0 0 0, .fclass H ⟨false, .rn, false, false, 0, 1, 2, 0, 0, none⟩),
    (m 0x39 1 2 0 0 4, .frnd H ⟨false, .rd, false, false, 0, 1, 2, 0, 0, none⟩),
    (m 0x3A 1 2 3 0 0, .fscale H ⟨false, .rn, false, false, 0, 1, 2, 3, 0, none⟩),
    (m 0x3B 1 2 0 0 0, .fexp H ⟨false, .rn, false, false, 0, 1, 2, 0, 0, none⟩),
    (m 0x3C 1 2 3 0 1, .hadd2 H ⟨true, .rn, false, false, 0, 1, 2, 3, 0, none⟩),
    (l 0x3D 1 2 0 0 0 0xFFFF, .hmul2 H ⟨false, .rn, false, false, 0, 1, 2, 0, 0, some 0xFFFF⟩),
    (m 0x3E 1 2 3 4 1, .hfma2 H ⟨true, .rn, false, false, 0, 1, 2, 3, 4, none⟩),
    (m 0x3F 1 2 3 0 64, .hmnx2 H ⟨false, .rn, false, false, 1, 1, 2, 3, 0, none⟩),
    (m 0x40 1 2 3 4 1, .fdot2 H ⟨true, .rn, false, false, 0, 1, 2, 3, 4, none⟩),
    (m 0x41 1 2 3 4 (1 + 16), .fdot4 H ⟨true, .rn, true, false, 0, 1, 2, 3, 4, none⟩),
    (m 0x42 1 2 0 0 (4 + 8 * 3 + 64 * 7), .cvti H ⟨.ra, .e4m3, .n8, 1, 2⟩),
    (m 0x43 1 2 0 0 (1 + 8 * 2 + 64 * 2), .cvtf H ⟨.rz, .bf16, .i64, 1, 2⟩),
    (m 0x44 1 2 0 0 (8 + 16 * 4 + 128 * 1), .cvtff H ⟨.rn, true, .e5m2, .f16, 1, 2⟩),
    (m 0x45 1 2 3 0 (3 + 16 * 3 + 128), .cvtpk H ⟨.ru, false, .e4m3, true, 1, 2, 3⟩),
    (m 0x46 1 2 0 0 2, .qnt H ⟨.lg4, 1, 2⟩),
    (m 0x47 1 2 0 0 0, .dqnt H ⟨1, 2⟩),
    (m 0x48 1 2 0 0 0, .ex2 H ⟨false, 1, 2⟩), (m 0x49 1 2 0 0 32, .lg2 H ⟨true, 1, 2⟩),
    (m 0x4A 1 2 0 0 0, .rcp H ⟨false, 1, 2⟩), (m 0x4B 1 2 0 0 0, .rsq H ⟨false, 1, 2⟩),
    (m 0x4C 1 2 0 0 0, .sqt H ⟨false, 1, 2⟩), (m 0x4D 1 2 0 0 0, .sin H ⟨false, 1, 2⟩),
    (m 0x4E 1 2 0 0 0, .cos H ⟨false, 1, 2⟩), (m 0x4F 1 2 0 0 0, .tanh H ⟨false, 1, 2⟩)] = true := by decide +kernel

/-- MOD of layout XL is SEG + 8·OP + 64·KT + 256·EXCL; BRA, CALL and MEET hold their offset at [53:22]. -/
theorem test_decode_lanes_and_control : reads false [
    (m 0x60 1 2 3 4 (6 + 8 * 3), .shfl H ⟨6, .xor, .i32, 1, 2, 3, 4, none⟩),
    (l 0x61 1 2 0 4 (8 * 2 + 64 * 2) 5, .rstep H ⟨.max, .f32, 1, 2, 0, 4, some 5⟩),
    (m 0x62 1 2 0 0 (8 * 5 + 64), .wred H ⟨.xor, .n32, false, 1, 2⟩),
    (m 0x63 1 2 0 0 (8 * 1 + 256), .scan H ⟨.min, .i32, true, 1, 2⟩),
    (m 0x64 2 3 0 0 0, .vote H ⟨.ballot, 2, 3⟩),
    (m 0x65 2 4 0 0 (64 * 3), .matchLanes H ⟨.b64, 2, 4⟩),
    (m 0x66 2 4 3 1 (64 * 3), .bcast H ⟨.b64, 2, 4, 3, 1, none⟩),
    (m 0x67 1 3 0 0 0, .first H ⟨1, 3⟩),
    (m 0x70 0 0 0 0 0 + 0xFFFFFFFF * 2 ^ 22, .bra H 0xFFFFFFFF),
    (m 0x71 0 2 0 0 0, .brx H 2),
    (m 0x72 0 0 0 0 0 + 0x12345678 * 2 ^ 22, .call H 0x12345678),
    (m 0x73 0 2 0 0 0, .callx H 2), (m 0x74 0 0 0 0 0, .ret H), (m 0x75 0 0 0 0 0, .exit H),
    (m 0x76 0 0 0 0 127 + 4 * 2 ^ 22, .meet H 127 4), (m 0x77 0 2 0 0 0, .mtres H 2),
    (m 0x78 0 0 0 0 0, .yieldHint H), (m 0x79 0 5 0 0 7, .xissue H 5 7),
    (m 0x7A 0 0 0 0 1023, .bkpt H 1023), (m 0x7B 0 0 0 0 1, .trap H 1),
    (l 0x7C 0 0 0 0 0 100, .sleep H 0 (some 100))] = true := by decide +kernel

/-- MOD of MM is SZ + 8·PART + 32·ORD + 128·SC, of AT AOP + 8·AK + 32·ORD + 128·SC; the skew selector is field C. -/
theorem test_decode_memory : reads false [
    (l 0x80 1 2 255 0 1 0xFFFFFFF8, .ld H ⟨.b64, 0, .plain, .core, 1, 2, 255, 0, some 0xFFFFFFF8⟩) ] = false ∧ reads false [
    (l 0x80 2 2 255 0 1 0xFFFFFFF8, .ld H ⟨.b64, 0, .plain, .core, 2, 2, 255, 0, some 0xFFFFFFF8⟩),
    (m 0x81 4 2 3 0 (2 + 32 * 2 + 128 * 4), .st H ⟨.b128, 0, .rel, .system, 4, 2, 3, 0, none⟩),
    (m 0x82 1 2 3 6 (5 + 32 * 1 + 128 * 1), .lds H ⟨.n16, 0, .acq, .block, 1, 2, 3, 6, none⟩),
    (m 0x83 1 2 3 0 3, .sts H ⟨.n8, 0, .plain, .core, 1, 2, 3, 0, none⟩),
    (m 0x84 1 2 3 0 (8 * 3), .ldsr H ⟨.b32, 3, .plain, .core, 1, 2, 3, 0, none⟩),
    (m 0x85 1 2 3 5 (8 * 1), .stsr H ⟨.b32, 1, .plain, .core, 1, 2, 3, 5, none⟩),
    (m 0x86 1 2 3 0 (6 + 8), .ldc H ⟨.i16, 1, .plain, .core, 1, 2, 3, 0, none⟩),
    (m 0x87 2 4 3 6 (2 + 8 * 3 + 32 * 3 + 128 * 2), .atom H ⟨.max, .i64, .ar, .slice, 2, 4, 3, 6, none⟩),
    (m 0x88 1 4 3 6 (0 + 8 * 2), .atoms H ⟨.add, .f32, .plain, .core, 1, 4, 3, 6, none⟩),
    (m 0x89 1 4 3 6 0, .acas H ⟨.add, .i32, .plain, .core, 1, 4, 3, 6, none⟩),
    (m 0x8A 2 4 3 8 (8 * 3), .acass H ⟨.add, .i64, .plain, .core, 2, 4, 3, 8, none⟩),
    (m 0x8B 0 4 3 6 (5 + 8), .redm H ⟨.xor, .n32, .plain, .core, 0, 4, 3, 6, none⟩),
    (m 0x8C 0 4 3 0 0, .pref H ⟨4, 3, none⟩), (l 0x8D 0 4 255 0 0 64, .ipref H ⟨4, 255, some 64⟩),
    (m 0x8E 0 0 0 0 (32 * 3 + 128 * 3), .fence H .ar .fabric), (m 0x8F 0 0 0 0 0, .fencesc H),
    (m 0x90 0 0 0 0 9, .bar H 9), (m 0x91 1 0 0 0 9, .bara H 9 1), (m 0x92 0 2 0 0 9, .barw H 9 2),
    (m 0x93 0 2 3 0 1, .swarm H true 2 3 none), (m 0x94 0 2 3 0 0, .syncw H 2 3), (m 0x95 0 2 0 0 2, .waitseq H .cpy1 2),
    (m 0x97 2 0 0 0 0, .dqtake H 2)] = true := by decide +kernel

/-- Cube framing as Table 9-3 codes it, tile and accumulator forms, copy commands and system instructions. -/
theorem test_decode_engines : reads false [
    (m 0xA0 0 0 0 0 2, .cacq H 2), (m 0xA1 0 0 0 0 0, .crel H),
    (l 0xA2 1 2 3 4 0 (2 + 1 * 4 + 3 * 16 + 2 * 128 + 2 * 512 + 6 * 4096 + 6 * 2 ^ 15 + 6 * 2 ^ 18 + 2 ^ 21 + 5 * 2 ^ 23 + 2 ^ 29),
      .tmac H ⟨true, ⟨.ck, ⟨.modN, 3⟩, ⟨.divN, 2⟩, .log, .log, .log, true, false, 5, true⟩, 1, 2, 3, 4⟩),
    (m 0xA3 1 2 3 0 0, .mmac H ⟨false, ⟨.cj, ⟨.identity, 0⟩, ⟨.identity, 0⟩, .e4m3, .e4m3, .e4m3, false, false, 0, false⟩, 1, 2, 3, 0⟩),
    (l 0xA4 2 4 8 12 1 (1 + 2 ^ 29), .tmacv H ⟨⟨.ci, ⟨.identity, 0⟩, ⟨.identity, 0⟩, .e4m3, .e4m3, .e4m3, false, false, 0, true⟩, 1, 2, 4, 8, 12⟩),
    (l 0xA5 2 4 8 0 3 0, .mmacv H ⟨⟨.cj, ⟨.identity, 0⟩, ⟨.identity, 0⟩, .e4m3, .e4m3, .e4m3, false, false, 0, false⟩, 3, 2, 4, 8, 0⟩),
    (m 0xA6 1 2 3 0 (255 + 256), .tld H ⟨255, true, 1, 2, 3⟩), (m 0xA7 1 2 3 0 1, .tst H ⟨1, false, 1, 2, 3⟩),
    (m 0xA8 1 2 0 0 (15 + 16), .twrv H ⟨.col, 15, 1, 2⟩), (m 0xA9 2 1 0 0 32, .trdv H ⟨.sc, 0, 2, 1⟩),
    (l 0xAA 1 0 0 0 0x81 9, .tfill H ⟨0x81, 1, 0, some 9⟩), (m 0xAB 1 0 0 0 0, .aclr H 1),
    (m 0xAC 1 2 3 0 4, .ald H ⟨4, 1, 2, 3⟩), (m 0xAD 1 2 3 0 4, .ast H ⟨4, 1, 2, 3⟩), (m 0xAE 2 1 0 0 31, .ardv H ⟨31, 2, 1⟩),
    (m 0xAF 1 2 0 0 31, .awrv H ⟨31, 1, 2⟩), (m 0xB0 1 2 0 0 1, .aqnt H ⟨.lg6, 1, 2⟩),
    (l 0xB1 1 2 0 0 3 0x40000000, .amap H ⟨.min, 1, 2, 0, some 0x40000000⟩),
    (m 0xC0 2 4 6 8 (1 + 2), .cpy H ⟨true, true, false, 0, 2, 4, 6, 8, none⟩),
    (m 0xC1 2 4 6 8 4, .cpy2 H ⟨false, false, true, 0, 2, 4, 6, 8, none⟩),
    (l 0xC2 2 4 6 8 2 0x11, .cpyg H ⟨false, true, false, 0, 2, 4, 6, 8, some 0x11⟩),
    (m 0xC3 2 4 6 8 0, .cpys H ⟨false, false, false, 0, 2, 4, 6, 8, none⟩),
    (m 0xC4 2 4 6 8 (2 + 16 * 0xD), .cpyb H ⟨false, true, false, 0xD, 2, 4, 6, 8, none⟩),
    (m 0xC5 2 4 6 8 (4 + 16 * 63), .cpyf H ⟨false, false, true, 63, 2, 4, 6, 8, none⟩),
    (m 0xC6 2 4 0 8 0, .cpyfl H ⟨false, false, false, 0, 2, 4, 0, 8, none⟩),
    (m 0xC7 2 4 6 8 (16 * 1), .cpyq H ⟨false, false, false, 1, 2, 4, 6, 8, none⟩),
    (m 0xC8 2 4 6 0 2, .chlink H ⟨.fab, 2, 4, 6⟩), (m 0xC9 2 4 0 0 (3 + 4), .chmark H ⟨.cube, true, 0, 2, 4, none⟩),
    (m 0xE0 1 0x16 0 0 0, .getsr H 1 0x16), (m 0xE1 0x1D 1 0 0 0, .setsr H 0x1D 1), (m 0xE2 0 1 0 0 7, .evt H 7 1 none),
    (m 0xE3 2 1 0 0 0, .cntrd H 2 1), (m 0xE4 2 1 0 0 0, .cntsel H 2 1),
    (l 0xF0 1 2 4 6 0 (1 * 4096 + 1 * 2 ^ 15),
      .cspmac H ⟨true, ⟨.cj, ⟨.identity, 0⟩, ⟨.identity, 0⟩, .e5m2, .e5m2, .e4m3, false, false, 0, false⟩, 1, 2, 4, 6⟩)] = true := by
  decide +kernel

/-- DQPOST and a load with its base register alone, in lead code; hints and a guard in their places. -/
theorem test_decode_lead_and_hints : reads true [
    (m 0x96 0 5 6 0 1, .dqpost H true 5 6), (l 0x80 1 2 0 0 1 16, .ld H ⟨.b64, 0, .plain, .core, 1, 2, 0, 0, some 16⟩)] = true ∧
    reads false [(2 + 0x8C * 4 + 2 * 2 ^ 10 + 2 ^ 13 + 15 * 2 ^ 14 + 2 ^ 18 + 2 ^ 19 + 2 * 2 ^ 20 + 4 * 2 ^ 30 + 3 * 2 ^ 38,
      .pref ⟨2, true, 15, true, true, .keep⟩ ⟨4, 3, none⟩)] = true := by decide +kernel

/-- Every S opcode of Table 6-3 with its code; the unary ones have B = 0. -/
theorem test_decode_short : reads false [
    (f 1 0x00 3 1 2, .iaddS true 3 1 2), (f 0 0x01 3 1 2, .isubS false 3 1 2), (f 0 0x02 3 1 2, .imulS false 3 1 2),
    (f 0 0x03 3 1 2, .iminS false 3 1 2), (f 0 0x04 3 1 2, .imaxS false 3 1 2), (f 0 0x05 3 1 2, .andS false 3 1 2),
    (f 0 0x06 3 1 2, .orS false 3 1 2), (f 0 0x07 3 1 2, .xorS false 3 1 2), (f 0 0x08 3 1 2, .shlS false 3 1 2),
    (f 0 0x09 3 1 2, .shrS false 3 1 2), (f 0 0x0A 3 1 2, .sarS false 3 1 2), (f 0 0x0B 3 1 2, .rotlS false 3 1 2),
    (f 0 0x0C 3 1 0, .movS false 3 1), (f 0 0x0D 3 1 0, .notS false 3 1), (f 0 0x0E 3 1 0, .inegS false 3 1),
    (f 0 0x0F 3 1 0, .popcS false 3 1), (f 0 0x10 3 1 0, .clzS false 3 1), (f 0 0x11 3 1 0, .brevS false 3 1),
    (f 0 0x12 3 1 2, .isetltS false 3 1 2), (f 0 0x13 3 1 2, .iseteqS false 3 1 2), (f 0 0x14 3 1 2, .nminS false 3 1 2),
    (f 0 0x15 3 1 2, .nmaxS false 3 1 2), (f 0 0x16 3 1 2, .faddS false 3 1 2), (f 0 0x17 3 1 2, .fsubS false 3 1 2),
    (f 0 0x18 3 1 2, .fmulS false 3 1 2), (f 0 0x19 3 1 2, .fminS false 3 1 2), (f 0 0x1A 3 1 2, .fmaxS false 3 1 2),
    (f 0 0x1B 3 1 2, .fsetltS false 3 1 2), (f 0 0x1C 3 1 0, .fnegS false 3 1), (f 0 0x1D 3 1 0, .fabsS false 3 1),
    (f 0 0x1E 3 1 2, .hadd2S false 3 1 2), (f 0 0x1F 3 1 2, .hmul2S false 3 1 2), (f 0 0x20 3 1 0, .cvtfS false 3 1),
    (f 0 0x21 3 1 0, .cvtiS false 3 1), (f 0 0x22 3 1 0, .ex2S false 3 1), (f 0 0x23 3 1 0, .lg2S false 3 1),
    (f 0 0x24 3 1 0, .rcpS false 3 1), (f 0 0x25 3 1 0, .rsqS false 3 1), (f 0 0x26 3 1 2, .ldsS false 3 1 2),
    (f 0 0x27 0 1 2, .stsS false 1 2), (f 0 0x3F 0 0 0, .nopS false)] = true := by decide +kernel

/-- Reserved encodings are refused with the cause of the first check that fails (Table 6-11). -/
theorem test_decode_refuses :
    let bad (lead exp : Bool) (w : Nat) (r : Reject) : Bool := (decode ⟨lead, exp⟩ (image w)).1 == .bad r
    (bad false true (m 0x2A 0 0 0 0 0) .opcode && bad false false (m 0xF0 1 2 4 6 0) .opcode && bad false true (f 0 0x28 0 0 0) .opcode &&
     bad false true (m 0x24 2 0 0 0 0) .form && bad true true (f 0 0x00 3 1 2) .form && bad false true (m 0x96 0 5 0 0 0) .form &&
     bad true true (m 0x30 1 2 3 0 0) .form && bad false true (l 0x75 0 0 0 0 0 0) .form && bad false true (m 0x01 3 1 2 0 10) .field &&
     bad false true (m 0x01 3 1 2 1 0) .field && bad false true (f 0 0x0C 3 1 2) .field && bad false true (m 0x20 8 1 2 0 0) .field &&
     bad false true (m 0x01 3 1 2 0 2) .operand && bad false true (m 0x01 254 2 4 0 2) .operand && bad true true (m 0x01 64 0 0 0 0) .operand)
      = true := by decide +kernel

/-! ### Terms that the checks refuse -/

def i0 : IOp := ⟨.i32, false, 0, 1, 2, 3, 0, none⟩
def f0 : FOp := ⟨false, .rn, false, false, 0, 1, 2, 3, 0, none⟩
def m0 : MemOp := ⟨.b32, 0, .plain, .core, 1, 2, 3, 0, none⟩
def a0 : AtomOp := ⟨.add, .i32, .plain, .core, 1, 2, 3, 6, none⟩
def c0 : CpyOp := ⟨false, false, false, 0, 2, 4, 6, 8, none⟩
def fr0 : Frame := ⟨.cj, ⟨.identity, 0⟩, ⟨.identity, 0⟩, .e4m3, .e4m3, .e4m3, false, false, 0, false⟩

/-- Check 3, entry by entry: a type, a modifier, a field or a literal that the entry does not take. -/
theorem test_ill_formed_fields : [
    Instr.iadd H { i0 with ty := .b32 }, .iadd H { i0 with sub := 1 }, .iadd H { i0 with c := 1 }, .iadd H { i0 with lit := some 1 },
    .iaddc H { i0 with ty := .i16 }, .isubb H { i0 with c := 8 }, .imulh H { i0 with sat := true }, .irem H { i0 with ty := .i8 },
    .idiv H { i0 with ty := .n16 }, .imad H { i0 with sub := 2 }, .imadw H { i0 with ty := .i64 }, .ineg H i0, .iabs H { i0 with b := 0, lit := some 0 },
    .imin H { i0 with sat := true }, .iclamp H { i0 with ty := .b64 }, .and H { i0 with ty := .i8 }, .not H i0, .btab3 H ⟨0, false, 1, 2, 3, 4, some 0⟩,
    .shl H { i0 with ty := .n8 }, .shf H { i0 with sub := 2 }, .bfe H { i0 with ty := .i64 }, .bfi H { i0 with ty := .b64 }, .popc H i0,
    .icmp H { i0 with sub := 6 }, .icmp H { i0 with d := 8 }, .iset H { i0 with sub := 7 }, .sel H { i0 with c := 9 }, .mov H { i0 with b := 0, lit := some 1 },
    .movi H { i0 with a := 0, b := 0 }, .lea H { i0 with sat := true }, .idot4 H i0, .idot2 H { i0 with ty := .i16, lit := some 0 },
    .pmov H { i0 with a := 0, b := 0, sub := 2 }, .ptab3 H ⟨0, true, 1, 2, 3, 4, none⟩, .fadd H { f0 with rm := .ra }, .fadd H { f0 with hb := true },
    .ffma H { f0 with sub := 1 }, .fmin H { f0 with sat := true }, .fcmp H { f0 with d := 8 }, .fset H { f0 with rm := .rz }, .fclass H f0,
    .frnd H { f0 with b := 0, sat := true }, .hadd2 H { f0 with b := 0, lit := some 0x10000 }, .hfma2 H { f0 with sub := 1 }, .hmnx2 H { f0 with sub := 2 },
    .fdot2 H { f0 with lit := some 0 }, .cvtf H ⟨.rn, .e4m3, .i32, 1, 2⟩, .cvti H ⟨.rn, .f32, .b32, 1, 2⟩, .cvtpk H ⟨.rn, false, .f16, true, 1, 2, 3⟩,
    .shfl H ⟨7, .idx, .i32, 1, 2, 3, 4, none⟩, .shfl H ⟨0, .idx, .n32, 1, 2, 3, 4, none⟩, .rstep H ⟨.and, .f32, 1, 2, 3, 4, none⟩,
    .wred H ⟨.add, .i32, true, 1, 2⟩, .scan H ⟨.add, .b64, false, 2, 4⟩, .vote H ⟨.any, 8, 1⟩, .matchLanes H ⟨.f32, 2, 4⟩,
    .bcast H ⟨.i32, 1, 2, 3, 8, none⟩, .first H ⟨1, 8⟩, .sleep H 1 (some 1), .ld H { m0 with part := 1 }, .ld H { m0 with ord := .rel }, .ld H { m0 with sc := .slice },
    .ld H { m0 with c := 1 }, .st H { m0 with sz := .i8 }, .lds H { m0 with c := 8 }, .sts H { m0 with ord := .acq }, .ldsr H { m0 with ord := .ar },
    .stsr H { m0 with sz := .i16 }, .ldc H { m0 with part := 2 }, .atom H { a0 with ak := .f32, aop := .and }, .acas H { a0 with aop := .exch },
    .redm H a0, .fence H .plain .core, .swarm H false 1 2 (some 0), .dqpost H false 1 2, .tmac H ⟨false, fr0, 1, 2, 3, 4⟩, .mmac H ⟨true, { fr0 with ori := .ci }, 1, 2, 3, 0⟩,
    .mmac H ⟨false, fr0, 64, 2, 3, 0⟩, .cspmac H ⟨true, { fr0 with bh := true }, 1, 2, 4, 6⟩, .tmacv H ⟨{ fr0 with af := .log }, 0, 2, 4, 8, 12⟩,
    .mmacv H ⟨fr0, 0, 2, 4, 8, 12⟩, .tld H ⟨0, false, 32, 2, 3⟩, .twrv H ⟨.sc, 1, 1, 2⟩, .trdv H ⟨.row, 0, 1, 32⟩, .tfill H ⟨0x80, 1, 2, none⟩, .aclr H 64,
    .ald H ⟨0, 64, 2, 3⟩, .ardv H ⟨0, 1, 64⟩, .awrv H ⟨0, 64, 1⟩, .aqnt H ⟨.lg7, 32, 1⟩, .amap H ⟨.mov, 1, 2, 3, none⟩, .cpy H { c0 with ext := 1 },
    .cpy H { c0 with lit := some 0x11 }, .cpyb H { c0 with ext := 1 }, .cpyf H { c0 with ds := true }, .cpyfl H c0, .cpyq H { c0 with ext := 3 },
    .chlink H ⟨.cube, 2, 4, 6⟩, .chmark H ⟨.cpy0, true, 1, 2, 4, none⟩, .evt H 0 1 (some 1)].all (fun i => !i.fieldOk false) = true := by decide +kernel

/-- Hints where none may stand, operands that no register has, registers beyond the allotment, opcodes in the wrong code, agents and
sites that do not exist. -/
theorem test_ill_formed_others :
    ([Instr.iadd { H with ch := .keep } i0].all (fun i => !i.hintOk false) &&
     [Instr.iadd { H with rh := true } i0, .iadd { H with yh := true } i0].all (fun i => !i.hintOk true) &&
     [Instr.iadd H { i0 with ty := .i64 }, .iadd H { i0 with ty := .i64, d := 254, a := 2, b := 4 }, .ld H { m0 with sz := .b128, d := 2, a := 4 },
      .acas H { a0 with ak := .i64, d := 2, c := 2 }, .xissue H 250 5, .getsr H 1 0x21, .setsr H 0 1, .brx H 1, .tmacv H ⟨fr0, 0, 2, 6, 8, 12⟩].all
        (fun i => !i.operandOk false) &&
     [Instr.iadd H { i0 with d := 64 }, .getsr H 1 0, .setsr H 0x16 1].all (fun i => !i.operandOk true) &&
     [Instr.iadd H { i0 with d := 40 }, .iadd H { i0 with ty := .i64, d := 39 }, .xissue H 38 2, .tld H ⟨0, false, 4, 2, 3⟩, .aqnt H ⟨.lg7, 1, 3⟩].all
        (fun i => !i.rangeOk false ⟨40, 32, 4, 4⟩) && !(Instr.iadd H { i0 with d := 32 }).rangeOk true ⟨40, 32, 4, 4⟩ &&
     !(Instr.fadd H f0).legal ⟨true, true⟩ && !(Instr.dqpost H false 1 0).legal ⟨false, true⟩ && !(Instr.cspmac H ⟨true, fr0, 1, 2, 4, 6⟩).legal ⟨false, false⟩ &&
     !(Instr.iaddS false 1 2 3).legal ⟨true, true⟩ &&
     [Instr.throttleWithhold 64, .pcSample 0 4 1 0, .vfFlr 0, .create 17 0, .lqDoorbell 1 64 0, .traceRecordWrite 1 4, .fabricRunClose 1 0, .ideKm 17,
      .midnightScrubEnd 384, .linkRekey 12, .codewordError 0 [], .softError (.coreCache 64) false, .registerWrite (.vf0 17) 0 0].all (fun i => !i.agentsOk) &&
     [Site.cacheTag (768 * 2 ^ 22) true, .register 0 64 0, .scratch 0 0xC0000, .tile 0 32 0 0, .tile 0 0 0 9, .accum 0 0 64 0, .accum 0 0 0 16, .dqueue 0 64, .squeue 0 16 0 0, .squeue 0 0 64 0, .squeue 0 0 0 16].all (fun x => !x.ok) &&
     !(Bar.vf2 0).ok) = true := by decide +kernel

/-! ### Single steps -/

/-- The state after an instruction. -/
def next (x : Instr) (s : State) : State := match exec x s with | .next t => t | _ => State.reset
/-- Register v`r` of lane `l` of warp 0, and that lane's ASTAT. -/
def reg (s : State) (l r : Nat) : Nat := ((threadOf (warpOf s 0) l).v.getD r 0).toNat
def astat (s : State) (l : Nat) : Nat := (threadOf (warpOf s 0) l).astat.toNat
/-- Warp 0 with v0, v1 and v2 set in both lanes. -/
def regs (a b c : Nat) : State :=
  threads fun t => { t with v := [BitVec.ofNat 32 a, BitVec.ofNat 32 b, BitVec.ofNat 32 c] ++ t.v.drop 3 }
/-- D = v2, A = v0, B = v1. -/
def i2 : IOp := ⟨.i32, false, 0, 2, 0, 1, 0, none⟩
def f2 : FOp := ⟨false, .rn, false, false, 0, 2, 0, 1, 0, none⟩

/-- R155: IADD wraps modulo 2^32; with .SAT it clamps and sets SA (R68, bit 5). The PC moves on by the length. -/
theorem test_iadd_wraps :
    let s := next (.iadd H i2) (regs 0x7FFFFFFF 1 0)
    let t := next (.iadd H { i2 with sat := true }) (regs 0x7FFFFFFF 1 0)
    reg s 0 2 = 0x80000000 ∧ astat s 0 = 0 ∧ reg t 1 2 = 0x7FFFFFFF ∧ astat t 1 = 2 ^ 5 ∧ (threadOf (warpOf s 0) 1).pc = 0x1008 := by
  decide +kernel
/-- R69, R319, R320: with NX enabled the sum of lane 1 is as before; the log is left out, and the warp keeps the flag for ASUM. -/
theorem test_enabled_flag :
    let s := next (.fadd H f2) (threads fun t => { t with v := [0x4B800000, 0x3F800000, 0] ++ t.v.drop 3, astat := 0x1000 })
    reg s 1 2 = 0x4B800000 ∧ astat s 1 = 0x1010 ∧ (warpOf s 0).alog = 2 ^ 4 ∧ (warpOf s 0).halt = .running := by decide +kernel
/-- R158: division by 0 sets DZ and gives the extreme value; IREM gives A; the quotient rounds toward zero. -/
theorem test_division :
    reg (next (.idiv H i2) (regs 0xFFFFFFF9 0 0)) 0 2 = 0x80000000 ∧ astat (next (.idiv H i2) (regs 0xFFFFFFF9 0 0)) 0 = 2 ^ 1 ∧
    reg (next (.idiv H i2) (regs 0xFFFFFFF9 2 0)) 0 2 = 0xFFFFFFFD ∧ reg (next (.irem H i2) (regs 0xFFFFFFF9 2 0)) 0 2 = 0xFFFFFFFF := by
  decide +kernel
/-- R157: a shift by the width or more leaves 0, an arithmetic one the sign. -/
theorem test_shifts :
    reg (next (.shl H { i2 with ty := .b32 }) (regs 1 32 7)) 0 2 = 0 ∧ reg (next (.sar H i2) (regs 0x80000000 99 7)) 0 2 = 0xFFFFFFFF ∧
    reg (next (.rotl H { i2 with ty := .b32 }) (regs 0x80000001 33 0)) 0 2 = 3 := by decide +kernel
/-- R51: 2^24 + 1 is halfway and goes to the even neighbour, with NX (bit 4). -/
theorem test_fadd_rounds :
    let s := next (.fadd H f2) (regs 0x4B800000 0x3F800000 0)
    reg s 0 2 = 0x4B800000 ∧ astat s 0 = 2 ^ 4 ∧ reg (next (.fadd H { f2 with rm := .ru }) (regs 0x4B800000 0x3F800000 0)) 0 2 = 0x4B800001 := by
  decide +kernel
/-- R51: 448 · 2 is beyond E4M3: its NaN without .SAT, 448 with it. -/
theorem test_cvtff_e4m3 :
    reg (next (.cvtff H ⟨.rn, false, .e4m3, .f32, 2, 0⟩) (regs 0x44600000 0 0)) 0 2 = 0x7F ∧
    reg (next (.cvtff H ⟨.rn, true, .e4m3, .f32, 2, 0⟩) (regs 0x44600000 0 0)) 0 2 = 0x7E := by decide +kernel
/-- R175: WRED adds over the active lanes; an integer sum of lanes 0 and 1. -/
theorem test_wred :
    reg (next (.wred H ⟨.add, .i32, false, 2, 8⟩) W) 0 2 = 1 ∧ reg (next (.scan H ⟨.add, .i32, true, 2, 8⟩) W) 1 2 = 0 := by decide +kernel
/-- R126: a lane whose guard is false keeps its register, and moves on. -/
theorem test_guard :
    let s := next (.iadd { H with gn := true } i2) (regs 1 1 5)
    reg s 0 2 = 5 ∧ (threadOf (warpOf s 0) 0).pc = 0x1008 := by decide +kernel
/-- R133: BRA −1 goes to PC − 4; CALL sets lk and counts the depth. -/
theorem test_transfers :
    (threadOf (warpOf (next (.bra H 0xFFFFFFFF) W) 0) 1).pc = 0xFFC ∧ (threadOf (warpOf (next (.call H 4) W) 0) 0).lk = 0x1008 ∧
    (threadOf (warpOf (next (.call H 4) W) 0) 0).cdepth = 1 := by decide +kernel
/-- R185, R317: TRAP halts the block and the warp, and PC stays. -/
theorem test_trap :
    let s := next (.trap H 5) W
    (warpOf s 0).halt = .trapped ∧ (blockOf s 0).halt.isSome = true ∧ (threadOf (warpOf s 0) 0).pc = 0x1000 := by decide +kernel
/-- R102, R104: a store stands in the queue and a load behind it reads it; no byte has been written. -/
theorem test_store_then_load :
    let s := next (.sts H ⟨.b32, 0, .plain, .core, 8, 8, 255, 0, some 3⟩) (setThread W 0 0 fun t => { t with v := modAt t.v 8 fun _ => 5 })
    (warpOf s 0).queue.length = 1 ∧ (partOf s 0).scratch = [] ∧
    ((next (.lds H ⟨.b32, 0, .plain, .core, 2, 8, 255, 0, some 3⟩) { s with cur := some ⟨0, 0, 8⟩ }).loads.map fun l => l.data.map (·.2.2.toNat)) = [[5, 1]] := by
  decide +kernel
/-- R72: a misaligned access traps with ADDRESS and stores nothing. -/
theorem test_misaligned :
    let s := next (.sts H ⟨.b32, 0, .plain, .core, 8, 8, 255, 0, none⟩) W
    (warpOf s 0).halt = .trapped ∧ (warpOf s 0).queue = [] := by decide +kernel
/-- R29, R46: a lead's registers are 64 bits wide. -/
theorem test_lead :
    let s := next (.mov H ⟨.b64, false, 0, 3, 0, 0, 0, some 0xFFFFFFFF⟩) L
    ((threadOf (warpOf s 1) 0).s.getD 3 0).toNat = 0xFFFFFFFF ∧ (threadOf (warpOf s 1) 0).pc = 0x2008 := by decide +kernel
/-- R204: the whole block's barrier with one warp: its arrival completes the phase 6 ck later. -/
theorem test_barrier :
    ((blockOf (next (.bar H 0) W) 0).groups.map (·.waiting.length)) = [1, 0] ∧
    (bundleOf (warpOf (next (.bar H 0) W) 0) 0).bind (·.hold) = some (.barrier 0 [0]) := by decide +kernel
/-- R230: ACLR clears the rows of active lanes alone. -/
theorem test_aclr :
    let s := next (.aclr H 1) (setPart W 0 fun p => { p with accs := modAt p.accs 1 fun _ => List.replicate 64 1 })
    accRow (partOf s 0) 1 1 = 0 ∧ accRow (partOf s 0) 1 2 = 1 := by decide +kernel
/-- Memory: a byte written is read back, and writing 0 leaves nothing listed. -/
theorem test_memory :
    memRead (memWriteN [] 0x100 [1, 0, 2]) 0x102 = 2 ∧ memWriteN (memWriteN [] 0x100 [1, 0, 2]) 0x100 [0, 0, 0] = [] := by decide +kernel
/-- R14, R383: after a cold start the machine reaches dawn stage, and warm reset returns it to stage 0. -/
theorem test_stages : (next .dawnStage State.reset).stage = 1 ∧ (next .warmReset (next .dawnStage State.reset)).stage = 0 := by decide +kernel
/-- R263, R264: a mailbox command before noon stage answers NOTREADY and signals vector 0. -/
theorem test_mailbox :
    let s := next (.assign 1 1) (next .dawnStage State.reset)
    s.pfStatus = 1 ∧ s.msi = [(0, 0)] := by decide +kernel
/-- The word of IADD v3, v1, v2 of Table 6-12, placed as the first instruction, runs in one step. -/
theorem test_first_step :
    (match step (State.reset.withFetchWord 64 0x00000080_40C01C06) with | .next t => (threadOf (warpOf t 0) 0).pc.toNat | _ => 0) = 0x10008 := by
  set_option maxRecDepth 100000 in decide +kernel
/-- Table 7-9: the tree and the two scans over lanes 0 to 3, and the word printed there. -/
theorem test_reduction_example :
    let vals : List (Option Nat) := [some 0x4B800000, some 0x3F800000, some 0x3F800000, some 0xCB800000] ++ List.replicate 60 none
    ((wredTree .add .f32 6 0 vals).1.take 4 = List.replicate 4 (some 0x3F800000) ∧ (wredTree .add .f32 6 0 vals).2 = fNX) ∧
    (scanVals .add .f32 false none vals).take 4 = [(0x4B800000, 0), (0x4B800000, fNX), (0x4B800000, fNX), (0, 0)] ∧
    (scanVals .add .f32 true none vals).take 4 = [(0, 0), (0x4B800000, fNX), (0x4B800000, fNX), (0x4B800000, 0)] ∧
    (decode ⟨false, true⟩ (image 0x20000001_01401D8A)).1 = .ok (.wred H ⟨.add, .f32, false, 5, 4⟩) := by decide +kernel

/-! ### What meets the hypotheses of the statements -/

/-- IntegerArithmetic, IntegerDivision, CompareSelectMove, FloatArithmetic, FloatCompareAndClass, SpecialFunctions, CrossLane: an issue
is all that they ask, of a warp or of a lead. -/
theorem witness_issue : Issuing W 0 B0 8 ∧ Issuing L 1 B1 8 := ⟨issuing_warp, issuing_lead⟩
/-- LogicAndShift: a type of 32 bits, and one of 64. -/
theorem witness_LogicAndShift : Issuing W 0 B0 8 ∧ IntTy.b32.isBits = true ∧ IntTy.b32.width = 32 ∧ IntTy.i64.isBits = true :=
  ⟨issuing_warp, by decide +kernel⟩
/-- MinMaxRule: two NaNs, one NaN, none, at the top of E5M2's encodings. -/
theorem witness_MinMaxRule :
    Fmt.e5m2 ∈ [Fmt.f32, .f16, .bf16, .e5m2, .e4m3] ∧ 0xFF < 2 ^ Fmt.e5m2.width ∧ (Fmt.e5m2.unpack 0xFF).isNan = true ∧
    0x7B < 2 ^ Fmt.e5m2.width ∧ (Fmt.e5m2.unpack 0x7B).isNan = false := by decide +kernel
theorem witness_RoundingKeepsValues : Fmt.f32 ∈ [Fmt.f32, .f16, .bf16, .e5m2, .e4m3] ∧ 0xFFFFFFFF < 2 ^ Fmt.f32.width := by decide +kernel
/-- Conversions: CVTPK into E5M2, and a zero block for DQNT. -/
theorem witness_Conversions : Issuing W 0 B0 8 ∧ FFmt.e5m2 ≠ .f32 ∧
    blockBad (BitVec.ofNat 512 (((List.range 64).map fun e => (vreg (threadOf (warpOf W 0) e) 2).toNat % 256 * 2 ^ (8 * e)).sum)) = none :=
  ⟨issuing_warp, by decide +kernel⟩
theorem witness_ScanRunsOverActiveLanes : (([none, some 5] : List (Option Nat)) ++ List.replicate 62 (some 1))[63]? = some (some 1) := by decide +kernel
/-- ReductionTree: F32 asks for a list of 64 lanes alone. -/
theorem witness_ReductionTree : let vals : List (Option Nat) := List.replicate 63 (some (2 ^ 32 - 1)) ++ [none]
    vals.length = 64 ∧ XlKind.i32 ≠ .f32 ∧ (∀ v ∈ vals, ∀ x, v = some x → x < 2 ^ 32) ∧ 63 < 64 := by
  refine ⟨by decide, by decide, ?_, by decide⟩
  intro v h x e
  rcases List.mem_append.1 h with h | h <;> simp_all
theorem witness_ShortForms : Issuing W 0 B0 8 ∧ (warpOf W 0).lead = false := ⟨issuing_warp, by decide +kernel⟩

/-- Warp 0 inside a call, one below the greatest depth. -/
def inCall : State := threads fun t => { t with cdepth := 0xFFFE }
/-- ControlTransfer: code addresses in v0 and v1, a depth that a call and a return admit, a warp without a twin. -/
theorem witness_ControlTransfer : Issuing inCall 0 B0 8 ∧ (∀ l, B0.lanes.getLsbD l = true → l < (warpOf inCall 0).threads.length) ∧
    (∀ l, Active inCall 0 B0 (hdrGuard H) l → (rdD false (threadOf (warpOf inCall 0) l) 0).toNat % 4 = 0 ∧
      (rdD false (threadOf (warpOf inCall 0) l) 0).toNat < 2 ^ 52) ∧
    (∀ l, Active inCall 0 B0 (hdrGuard H) l → (threadOf (warpOf inCall 0) l).cdepth ≠ 0xFFFF) ∧
    (∀ l, Active inCall 0 B0 (hdrGuard H) l → (threadOf (warpOf inCall 0) l).cdepth ≠ 0) ∧
    (blockOf inCall (warpOf inCall 0).blk).twin = none ∧ (issueOf inCall 0 B0 8 (hdrGuard H)).act ≠ 0 :=
  ⟨by unfold Issuing; decide +kernel, lanes_all (by decide +kernel), active_all (by decide +kernel), active_all (by decide +kernel),
   active_all (by decide +kernel), by decide +kernel⟩
/-- The bundle that YIELD flags: the warp's only one, its threads elsewhere than where they meet; EXIT and others in a twin pair. -/
theorem witness_ControlTransfer_yield : (warpOf W 0).bundles = [B0] ∧ B0.lanes ≠ 0 ∧ (∀ l, B0.lanes.getLsbD l = true →
    (threadOf (warpOf W 0) l).exited = false ∧ (threadOf (warpOf W 0) l).pc = 0x1000 ∧ (threadOf (warpOf W 0) l).mt ≠ 0x1000 + 8) :=
  ⟨by decide +kernel, by decide +kernel, lanes_all (by decide +kernel)⟩
theorem witness_twins : Issuing paired 0 B0 8 ∧ Clean paired ∧ MemOk paired ∧ (blockOf paired (warpOf paired 0).blk).twin.isSome = true ∧
    (warpOf paired 0).ckpt = none ∧ (warpOf paired 0).noPassed 0 ∧ unmatched paired 0 = [] ∧
    (issueOf paired 0 B0 8 (hdrGuard H)).act ≠ 0 ∧ Scope.slice ≠ .core := by
  refine ⟨by unfold Issuing; decide +kernel, by unfold Clean; decide +kernel, by unfold MemOk; decide +kernel, by decide +kernel, rfl, fun c h => ?_, by decide +kernel⟩
  cases (h : (none : Option Ckpt) = some c)
/-- Lane 1 at the greatest depth, lane 0 above depth 0. -/
def deep : State := setThread (setThread W 0 0 fun t => { t with cdepth := 1 }) 0 1 fun t => { t with cdepth := 0xFFFF }
def shallow : State := setThread W 0 0 fun t => { t with cdepth := 1 }
/-- ControlTraps: lane 1 fails first, with a target of 1 in v8, at the greatest depth, at depth 0; TRAP in lane 0. -/
theorem witness_ControlTraps : Issuing W 0 B0 8 ∧ Placed W 0 ∧ Active W 0 B0 (hdrGuard H) 1 ∧
    (rdD false (threadOf (warpOf W 0) 1) 8).toNat % 4 ≠ 0 ∧ (∀ k, k < 1 → (rdD false (threadOf (warpOf W 0) k) 8).toNat % 4 = 0) ∧
    (∀ k, k < 1 → (threadOf (warpOf W 0) k).cdepth ≠ 0xFFFF) ∧ (∀ k, k < 2 → (rdD false (threadOf (warpOf deep 0) k) 0).toNat = 0) ∧
    Issuing deep 0 B0 8 ∧ Placed deep 0 ∧ Active deep 0 B0 (hdrGuard H) 1 ∧ (threadOf (warpOf deep 0) 1).cdepth = 0xFFFF ∧
    (∀ k, k < 1 → (threadOf (warpOf deep 0) k).cdepth ≠ 0xFFFF) ∧
    Issuing shallow 0 B0 8 ∧ Placed shallow 0 ∧ Active shallow 0 B0 (hdrGuard H) 1 ∧ (threadOf (warpOf shallow 0) 1).cdepth = 0 ∧
    (∀ k, k < 1 → (threadOf (warpOf shallow 0) k).cdepth ≠ 0) ∧ Active W 0 B0 (hdrGuard H) 0 := by
  unfold Issuing Placed Active; decide +kernel

/-! #### Scratchpad and memory -/

/-- The issue of warp 0, unguarded. -/
def I : Iss := issueOf W 0 B0 8 (hdrGuard H)
def IL : Iss := issueOf L 1 B1 8 (hdrGuard H)
/-- Offsets A + LIT with A = v0 (0 in every lane): the last word of the part; the first of a window. -/
def top : MemOp := ⟨.b32, 0, .acq, .slice, 2, 0, 255, 0, some 0x3FFC⟩
def skew : MemOp := { top with c := 4, lit := some 0x1FC }
/-- A window of one line at line 31. -/
def windowed : State := setPart W 0 fun p => { p with swin := [0x0001001F, 0, 0, 0] }
theorem witness_ScratchpadLoads : Issuing W 0 B0 8 ∧ Clean W ∧ I.act ≠ 0 ∧
    (∀ l ∈ lanesOf I.act, OffsetOk (partOf W 0).kib (partOf W 0).swin top.c top.sz.bytes (addrLocal false (threadOf (warpOf W 0) l) top.a top.b top.lit)) ∧
    Issuing windowed 0 B0 8 ∧ Clean windowed ∧
    (∀ l ∈ lanesOf I.act, OffsetOk (partOf windowed 0).kib (partOf windowed 0).swin skew.c skew.sz.bytes
      (addrLocal false (threadOf (warpOf windowed 0) l) skew.a skew.b skew.lit)) ∧
    top.part.toNat < (blockOf W (warpOf W 0).blk).nParts ∧ 0 = (blockOf W (warpOf W 0).blk).firstPart + top.part.toNat ∧
    (warpOf W 0).lead = false ∧ (issueOf W 0 B0 8 (sGuard false)).act ≠ 0 ∧
    (∀ l ∈ lanesOf (issueOf W 0 B0 8 (sGuard false)).act, OffsetOk (partOf W 0).kib (partOf W 0).swin 0 4
      (vreg (threadOf (warpOf W 0) l) 0 + 4 * vreg (threadOf (warpOf W 0) l) 8)) ∧
    Issuing L 1 B1 8 ∧ Clean L ∧ IL.act ≠ 0 ∧
    (∀ l ∈ lanesOf IL.act, OffsetOk 16 (partOf L 0).swin top.c top.sz.bytes (addrLocal true (threadOf (warpOf L 1) l) top.a 0 top.lit)) := by
  unfold Issuing Clean OffsetOk; decide +kernel
/-- ScratchpadStores and ScratchpadAtomics: the same offsets, the sync word at the top of the part, rows of a tile and of an accumulator. -/
theorem witness_ScratchpadStores : Issuing W 0 B0 8 ∧ Clean W ∧ I.act ≠ 0 ∧
    (∀ l ∈ lanesOf I.act, OffsetOk (partOf W 0).kib (partOf W 0).swin 0 4 (addrLocal false (threadOf (warpOf W 0) l) 0 255 (some 0x3FFC))) ∧
    (∀ l ∈ lanesOf I.act, (rdV I.lead (threadOf (warpOf W 0) l) 0).toNat % 2 ^ 32 % 16 = 0 ∧
      (rdV I.lead (threadOf (warpOf W 0) l) 0).toNat % 2 ^ 32 + 16 ≤ (partOf W 0).kib * 1024) ∧
    (∀ l ∈ lanesOf I.act, (vreg (threadOf (warpOf W 0) 0) 0 + vreg (threadOf (warpOf W 0) 0) 0).toNat % 128 = 0 ∧
      (vreg (threadOf (warpOf W 0) 0) 0 + vreg (threadOf (warpOf W 0) 0) 0).toNat + l * (128 * (100 + 1)) + 128 ≤ (partOf W 0).kib * 1024) ∧
    (∀ l ∈ lanesOf I.act, (addrLocal false (threadOf (warpOf W 0) l) 0 255 (some 0x3FF8)).toNat % 8 = 0 ∧
      (addrLocal false (threadOf (warpOf W 0) l) 0 255 (some 0x3FF8)).toNat + 8 ≤ (partOf W 0).kib * 1024) := by
  unfold Issuing Clean OffsetOk; decide +kernel

/-- Global addresses 0x100000 in every lane, which the TLB of core 0 maps to device memory; to host memory; to a peer. -/
def far : Option Word := some 0x100000
def errIs {α : Type} (x : Xl α) (e : XErr) : Bool := match x with | .err y => y == e | .ok _ => false
def vas (a : Nat) : List (Nat × Nat) := (lanesOf I.act).map fun l => (l, a)
def hosted : State := setCore W 0 fun c => { c with tlb := [⟨1, 0, 0, 2 ^ 30, 0, 1, 0, true, true⟩] }
/-- GlobalLoads, GlobalStores: aligned addresses that translate, to device and to host memory; a constant at the end of its bank. -/
theorem witness_GlobalAccess : Issuing W 0 B0 8 ∧ Clean W ∧ I.act ≠ 0 ∧
    (∀ l ∈ lanesOf I.act, (addrGlobal false (threadOf (warpOf W 0) l) 0 255 far).toNat % 4 = 0 ∧
      (addrGlobal false (threadOf (warpOf W 0) l) 0 255 far).toNat < 2 ^ 52) ∧
    ((lanesOf I.act).map fun l => (l, (addrGlobal false (threadOf (warpOf W 0) l) 0 255 far).toNat)) = vas 0x100000 ∧
    okIs (translateAll 0 1 0 .load (vas 0x100000) W).2.1 [.dev 0x100000, .dev 0x100000] = true ∧
    okIs (translateAll 0 1 0 .store (vas 0x100000) W).2.1 [.dev 0x100000, .dev 0x100000] = true ∧
    okIs (translateAll 0 1 0 .load (vas 0x100000) hosted).2.1 [.host (hostPlace 1 0x100000), .host (hostPlace 1 0x100000)] = true ∧
    (blockOf W (warpOf W 0).blk).twin = none ∧
    (∀ l ∈ lanesOf I.act, (addrLocal false (threadOf (warpOf W 0) l) 0 255 (some 60)).toNat % 4 = 0 ∧
      (addrLocal false (threadOf (warpOf W 0) l) 0 255 (some 60)).toNat + 4 ≤ (launchOf W (blockOf W (warpOf W 0).blk).launch).constSize) ∧
    (match (constAll I 4 (vas 0x303C) W).2.1 with
      | .ok xs => xs.map (fun x => (x.1, x.2.2.headD (.dev 0))) == [(0, .dev 0x303C), (1, .dev 0x303C)] | .err _ => false) = true := by
  unfold Issuing Clean; decide +kernel
/-- LDC in a lead: PARAM is 0x300000, which s0 holds, as the listing of R305 has it; the offset is 0. -/
def paramLead : State := { setThread L 1 0 (fun t => { t with s := modAt t.s 0 fun _ => 0x300000 }) with
  launches := [{ lau with pkt := { pkt with param := 0x300000 } }] }
theorem witness_GlobalLoads_lead : let i := issueOf paramLead 1 B1 8 (hdrGuard H)
    let o : MemOp := ⟨.b64, 0, .plain, .core, 3, 0, 0, 0, none⟩
    Issuing paramLead 1 B1 8 ∧ Clean paramLead ∧ i.act ≠ 0 ∧
    (∀ l ∈ lanesOf i.act, constOff paramLead i o (threadOf (warpOf paramLead 1) l) = 0) ∧ 0 % 8 = 0 ∧ 0 + 8 ≤ 2 ^ 16 ∧
    (match (constAll i 8 [(0, 0x300000)] paramLead).2.1 with
      | .ok xs => xs.map (fun x => (x.1, x.2.2.headD (.dev 0))) == [(0, .dev 0x300000)] | .err _ => false) = true := by
  unfold Issuing Clean; decide +kernel
/-- In a twin pair: addresses on fabric peer 63, which a route reaches; 256 stores held that none has matched. -/
def peered (s : State) : State :=
  let s := setCore s 0 fun c => { c with tlb := [⟨1, 0, 0, 2 ^ 25, 63 * 2 ^ 46, 2, 0, true, true⟩] }
  setSlice s 1 fun sl => { sl with peers := modAt sl.peers 63 fun p => { p with entry := 0x4402 }, routes := modAt sl.routes 0 fun _ => (0x402, 1) }
def far0 : QEntry := mkEntry 0 I 0 .store [⟨0, 0, 4, 0, 0, .dev 0⟩] .plain .core .normal
def owing (n : Nat) : State := setWarp paired 0 fun w => { w with held := List.replicate n ⟨far0, 0⟩ }
theorem witness_GlobalAccess_twins : Issuing (peered paired) 0 B0 8 ∧ Clean (peered paired) ∧ (blockOf (peered paired) 0).twin.isSome = true ∧
    (warpOf (peered paired) 0).ckpt = none ∧ okIs (translateAll 0 1 0 .load (vas 0x100000) (peered paired)).2.1 [.peer 0x402 0x100000, .peer 0x402 0x100000] = true ∧
    okIs (translateAll 0 1 0 .store (vas 0x100000) (peered W)).2.1 [.peer 0x402 0x100000, .peer 0x402 0x100000] = true ∧
    Issuing (owing 256) 0 B0 8 ∧ Clean (owing 256) ∧ (warpOf (owing 256) 0).ckpt = none ∧ (unmatched (owing 256) 0).length = 256 := by
  unfold Issuing Clean; decide +kernel
theorem witness_Prefetches : Issuing W 0 B0 8 ∧ Clean W := ⟨issuing_warp, clean.1⟩

/-! #### Synchronisation -/

/-- The sync word at offset 0 with generation 1, so that v0 = 0 names an earlier one. -/
def synced : State := setPart W 0 fun p => { p with scratch := memWriteN [] (scratchPlace ((ctxOf W 1 0).bankKey) p.swin 8) [1] }
def debugging : State := setCtx W 1 0 fun c => { c with desc := { c.desc with dbg := true } }
def armed : State := setWarp debugging 0 fun w => { w with bundles := [{ B0 with skipBp := true }] }
/-- FencesAndWaits: no twin; sync words in the part whose generation is 0, as v0 names it, and another; WAITSEQ for 0 and for 1 in lane 1;
SLEEP of 0 and of 1; BKPT with and without a debugger, and once more after a stop. -/
theorem witness_FencesAndWaits : Issuing W 0 B0 8 ∧ Clean W ∧ I.act ≠ 0 ∧ (blockOf W (warpOf W 0).blk).twin = none ∧
    (∀ l ∈ lanesOf I.act, (rdV false (threadOf (warpOf W 0) l) 0).toNat % 2 ^ 32 % 16 = 0 ∧
      (rdV false (threadOf (warpOf W 0) l) 0).toNat % 2 ^ 32 + 16 ≤ (partOf W (warpOf W 0).part).kib * 1024) ∧
    leBytes ((List.range 4).map fun k => homeByte W (I.key W) (.scratch 0 (0 + 8 + k))) = 0 ∧
    leBytes ((List.range 4).map fun k => homeByte synced (I.key W) (.scratch 0 (0 + 8 + k))) = 1 ∧
    (chainOf (ctxOf W 1 0) (logicalCore W 1 0) .cube).comp = 0 ∧
    (lanesOf I.act).foldl (fun m l => max m (rdD false (threadOf (warpOf W 0) l) 8).toNat) 0 = 1 ∧
    (srcB32 false (some 0) 0 (threadOf (warpOf W 0) (lowest I.act))).toNat = 0 ∧
    (srcB32 false (some 1) 0 (threadOf (warpOf W 0) (lowest I.act))).toNat ≠ 0 ∧
    (ctxOf W 1 0).desc.dbg = false ∧ Issuing debugging 0 B0 8 ∧ Clean debugging ∧ (ctxOf debugging 1 0).desc.dbg = true ∧ B0.skipBp = false ∧
    Issuing armed 0 { B0 with skipBp := true } 8 ∧ Clean armed := by
  unfold Issuing Clean; decide +kernel
/-- Barriers: group 0, of which warp 0 is a member; the present phase, and a past one in v12. -/
theorem witness_Barriers : Issuing W 0 B0 8 ∧ I.act ≠ 0 ∧ groupOf (blockOf W (warpOf W 0).blk) (0 : Byte).toNat = some G0 ∧
    G0.members.getLsbD (warpOf W 0).idx = true ∧ (blockOf W (warpOf W 0).blk).twin = none ∧
    G0.phase ∈ (lanesOf I.act).map (fun l => ((rdV false (threadOf (warpOf W 0) l) 0).extractLsb' 0 32 : Word)) ∧
    G0.phase ∉ (lanesOf I.act).map (fun l => ((rdV false (threadOf (warpOf W 0) l) 0).extractLsb' 0 32 : Word) + 1) := by
  unfold Issuing; decide +kernel
/-- Queues of 63 and of 64 entries tagged for warp 0; the newest has waited for nothing. -/
def queued (n : Nat) (tag : Option Nat) (s : State) : State := setPart s 0 fun p => { p with dq := List.replicate n ⟨tag, 5, [], false⟩ }
def gone : State := setWarp L 0 fun w => { w with retired := true }
/-- DecisionQueue: a tag of the lead's own part, its warp retired or not; room for one more, and none; an entry that the warp may take,
none while the lead runs, and one held back by a store of the lead's. -/
theorem witness_DecisionQueue : Issuing (queued 63 (some 0) L) 1 B1 8 ∧ Clean (queued 63 (some 0) L) ∧ IL.act ≠ 0 ∧
    (warpOf L 1).part < L.parts.length ∧ 0 / ((blockOf L 0).nWarps / (blockOf L 0).nParts) = (partOf L 0).log ∧ 0 < (blockOf L 0).nWarps ∧
    (partOf (queued 63 (some 0) L) 0).dq.length < 64 ∧ Issuing (queued 64 (some 0) L) 1 B1 8 ∧ 64 ≤ (partOf (queued 64 (some 0) L) 0).dq.length ∧
    Issuing gone 1 B1 8 ∧ (warpOf gone ((blockOf gone 0).firstWarp + 0)).retired = true ∧ (warpOf L ((blockOf L 0).firstWarp + 0)).retired = false ∧
    Issuing (queued 1 (some 0) W) 0 B0 8 ∧ (warpOf W 0).lead = false ∧ (partOf (queued 1 (some 0) W) 0).dq[0]? = some ⟨some 0, 5, [], false⟩ ∧
    (warpOf W (partOf W 0).lead).queue = [] ∧ (partOf W 0).dq = [] ∧ (warpOf W (partOf W 0).lead).retired = false := by
  unfold Issuing Clean; decide +kernel
def owning : State := setCore W 0 fun c => { c with owner := some 0 }
def waiting : State := setCore W 0 fun c => { c with owner := some 5, cubeq := [⟨0, 3⟩] }
/-- CubeOwnership: the owner, a warp in the queue, and one that is neither. -/
theorem witness_CubeOwnership : Issuing W 0 B0 8 ∧ I.act ≠ 0 ∧ (warpOf W 0).core < W.cores.length ∧ (coreOf W 0).owner = none ∧ (coreOf W 0).cubeq = [] ∧
    Issuing owning 0 B0 8 ∧ (coreOf owning 0).owner = some 0 ∧ Issuing waiting 0 B0 8 ∧ (coreOf waiting 0).owner ≠ some 0 ∧
    (∃ x ∈ (coreOf waiting 0).cubeq, x.warp = 0) := by
  unfold Issuing; decide +kernel
/-- StatusRead: the last register of Table 8-10; a sequence register while the warp has no twin; the second copy of a pair. -/
theorem witness_StatusRead : Issuing W 0 B0 8 ∧ 0x20 ≤ 0x20 ∧ I.act ≠ 0 ∧ (blockOf W (warpOf W 0).blk).twin = none ∧ 0x20 ∉ [0x0B, 0x11, 0x12, 0x13, 0x18, 0x19, 0x1A, 0x1B] ∧
    (blockOf paired (warpOf paired 2).blk).twin = some (0, false) ∧ counterpart paired 2 = some 0 := by
  unfold Issuing; decide +kernel
/-- StatusWrite: SWIN3 with a window of one line that ends where the part does. -/
theorem witness_StatusWrite : let s := regs 0x0001001F 0 0
    Issuing s 0 B0 8 ∧ (issueOf s 0 B0 8 (hdrGuard H)).act ≠ 0 ∧ 3 < 4 ∧
    (let x := ((rdV false (threadOf (warpOf s 0) (highest I.act)) 0).extractLsb' 0 32 : Word)
     x.extractLsb' 11 5 = 0 ∧ x.extractLsb' 27 5 = 0 ∧ (x.extractLsb' 0 11).toNat + (x.extractLsb' 16 11).toNat ≤ 2 * (partOf s 0).kib) := by
  unfold Issuing; decide +kernel
/-- Enabled flags: NX is raised in both lanes, with no log and with a log of two slots that the page tables map. -/
def flagged (size : Nat) : State :=
  let s := setCtx W 1 0 fun c => { c with desc := { c.desc with alog := 0x8000, alogsize := size } }
  setSlice (setWarp { s with mem := memWriteN (memWriteN [] 0 [1, 0x10]) 0x1000 [0xF] } 0 fun w => { w with threads := w.threads.map fun t =>
    { t with v := [0x4B800000, 0x3F800000, 0] ++ t.v.drop 3, astat := 0x1000 } }) 1 fun sl => { sl with slicemap := modAt sl.slicemap 0 fun _ => 0x8000 }
theorem witness_StatusWrite_flags : ∀ n ∈ [0, 64], let s := flagged n
    s.cur = some ⟨0, 0, 8⟩ ∧ bundleOf (warpOf s 0) 0 = some B0 ∧ (issueOf s 0 B0 8 (hdrGuard H)).act ≠ 0 ∧ (sliceOf s 1).ifst ≠ .error ∧
    (ctxOf s 1 0).desc.alogsize / 32 = n / 32 ∧ 1 < s.slices.length ∧ 0 < (sliceOf s 1).ctxs.length ∧
    (∀ l ∈ [0, 1], enabled (threadOf (warpOf s 0) l) (Fmt.f32.finish .rn false false
      ((Fmt.f32.unpack (vreg (threadOf (warpOf s 0) l) 0).toNat).add .rn (Fmt.f32.unpack (vreg (threadOf (warpOf s 0) l) 1).toNat)).1 0).2 = fNX) ∧
    okIs (cpWrite s 1 0 0x8000 (List.replicate 32 0)).2 () = true ∧ errIs (cpWrite { s with mem := [] } 1 0 0x8000 (List.replicate 32 0)).2 (.page 0) = true ∧
    errIs (cpWrite { s with poison := [0] } 1 0 0x8000 (List.replicate 32 0)).2 (.poison 0) = true := by decide +kernel
def bankHeldState : State := setSlice W 1 fun sl => { sl with hvforce := 0x40 }
/-- TraceAndCounters: a valid group; a bank that the hypervisor holds, and one that it does not; sets 4 and 5. -/
theorem witness_TraceAndCounters : Issuing W 0 B0 8 ∧ I.act ≠ 0 ∧ groupOf (blockOf W 0) (0 : Byte).toNat = some G0 ∧ (sliceOf W 1).hvforce.getLsbD 6 = false ∧
    Issuing bankHeldState 0 B0 8 ∧ (sliceOf bankHeldState 1).hvforce.getLsbD 6 = true ∧ ((sliceOf bankHeldState 1).hvforce.extractLsb' 0 6).toNat = (blockOf W 0).ctx ∧
    (rdV false (threadOf (warpOf (regs 4 0 0) 0) 0) 0).toNat % 2 ^ 16 ≤ 4 ∧ Issuing (regs 5 0 0) 0 B0 8 ∧ 4 < (rdV false (threadOf (warpOf (regs 5 0 0) 0) 0) 0).toNat % 2 ^ 16 := by
  unfold Issuing; decide +kernel

/-! #### Tiles, the cube, the copy engines, XISSUE -/

/-- TileInstructions, AccumulatorInstructions: rows from offset 0 on, with the greatest stride that fits; every row is a zero block. -/
theorem witness_TileInstructions : Issuing W 0 B0 8 ∧ Clean W ∧ I.act ≠ 0 ∧
    (∀ l ∈ lanesOf I.act, (vreg (threadOf (warpOf W 0) 0) 0 + vreg (threadOf (warpOf W 0) 0) 0).toNat % 64 = 0 ∧
      (vreg (threadOf (warpOf W 0) 0) 0 + vreg (threadOf (warpOf W 0) 0) 0).toNat + l * (64 * (254 + 1)) + 64 ≤ (partOf W 0).kib * 1024 ∧
      blockBad (BitVec.ofNat 512 (ownNat W I (l * (64 * (254 + 1))) 64)) = none) := by
  unfold Issuing Clean; decide +kernel
theorem witness_AccumulatorInstructions : Issuing W 0 B0 8 ∧ Clean W ∧ I.act ≠ 0 ∧
    (∀ l ∈ lanesOf I.act, (vreg (threadOf (warpOf W 0) 0) 0 + vreg (threadOf (warpOf W 0) 0) 0).toNat % 128 = 0 ∧
      (vreg (threadOf (warpOf W 0) 0) 0 + vreg (threadOf (warpOf W 0) 0) 0).toNat + l * (128 * (126 + 1)) + 128 ≤ (partOf W 0).kib * 1024) := by
  unfold Issuing Clean; decide +kernel
/-- The slots of the rings of core 0 translate to device memory, and none holds a record. -/
theorem slot_cube : SlotAt owning (issueOf owning 0 B0 8 (hdrGuard H)) .cube (.dev 0x40000) :=
  ⟨by decide +kernel, by decide +kernel, by decide +kernel, by decide +kernel, exists_ok (by decide +kernel)⟩
theorem slot_copy : SlotAt W I .cpy0 (.dev 0x44000) ∧ SlotAt W I .cpy1 (.dev 0x48000) ∧ SlotAt W I .fab (.dev 0x4C000) :=
  ⟨⟨by decide +kernel, by decide +kernel, by decide +kernel, by decide +kernel, exists_ok (by decide +kernel)⟩,
   ⟨by decide +kernel, by decide +kernel, by decide +kernel, by decide +kernel, exists_ok (by decide +kernel)⟩,
   ⟨by decide +kernel, by decide +kernel, by decide +kernel, by decide +kernel, exists_ok (by decide +kernel)⟩⟩
/-- v0 to v15 of every lane hold three operand records: FP8 rows from offset 0 on, 64 of A, 32 of B and of C. -/
def shaped : State :=
  setCore (threads fun t => { t with v := [0, 0, 64, 0x00080040, 0, 0, 64, 0x00080020, 0, 0, 64, 0x00080020, 64, 1, 64, 64] ++ t.v.drop 16 }) 0
    fun c => { c with owner := some 0 }
def quad (s : State) (r : Nat) : OpRec :=
  let v := fun k => (vreg (threadOf (warpOf s 0) 0) (r + k)).toNat
  OpRec.ofNat (v 0 + 2 ^ 32 * v 1 + 2 ^ 64 * v 2 + 2 ^ 96 * v 3)
/-- CubeOperations: the owner, a free slot, one class of formats, maps of kind 0 with LN 0, and three legal records. -/
theorem witness_CubeOperations : Issuing owning 0 B0 8 ∧ Clean owning ∧ MemOk owning ∧ (issueOf owning 0 B0 8 (hdrGuard H)).act ≠ 0 ∧
    (coreOf owning (warpOf owning 0).core).owner = some 0 ∧ SlotAt owning (issueOf owning 0 B0 8 (hdrGuard H)) .cube (.dev 0x40000) ∧
    (fr0.beta.kind = .identity ∧ fr0.beta.ln = 0 ∧ fr0.kappa.kind = .identity ∧ fr0.kappa.ln = 0) ∧ fr0.af = fr0.bf ∧ fr0.bf = fr0.cf :=
  ⟨by unfold Issuing; decide +kernel, by unfold Clean; decide +kernel, by unfold MemOk; decide +kernel, by decide +kernel, by decide +kernel,
   slot_cube, by decide +kernel, by decide +kernel, by decide +kernel⟩
theorem witness_CubeOperations_records : Issuing shaped 0 B0 8 ∧ (coreOf shaped 0).owner = some 0 ∧
    SlotAt shaped (issueOf shaped 0 B0 8 (hdrGuard H)) .cube (.dev 0x40000) ∧
    vLegal fr0 (partOf shaped 0).kib (quad shaped 0) (quad shaped 4) none = none ∧
    vLegal fr0 (partOf shaped 0).kib (quad shaped 0) (quad shaped 4) (some (quad shaped 8)) = none :=
  ⟨by unfold Issuing; decide +kernel, by decide +kernel,
   ⟨by decide +kernel, by decide +kernel, by decide +kernel, by decide +kernel, exists_ok (by decide +kernel)⟩, by decide +kernel, by decide +kernel⟩
/-- CopyCommands: a CPY of 64 bytes from the pair v12 (64 + 2^32) to address 0, a segment of one record at address 0, a marker at 0; no twin. -/
theorem witness_CopyCommands : Issuing W 0 B0 8 ∧ Clean W ∧ MemOk W ∧ I.act ≠ 0 ∧ (blockOf W 0).twin = none ∧
    SlotAt W I .cpy0 (.dev 0x44000) ∧ SlotAt W I .cpy1 (.dev 0x48000) ∧ SlotAt W I .fab (.dev 0x4C000) ∧
    (⟨1, 0, 0, 0, 0, 0x100000000, 0, 64, 0, 0⟩ : CopyRec).check (sliceOf W 1) (partOf W 0).kib 1 = none ∧
    (⟨5, 1, 1, 0, 0, 0x3FC0, 0, 64, 0, 0⟩ : CopyRec).check (sliceOf W 1) (partOf W 0).kib 1 = none ∧
    (⟨0x0A, 0, 0, 0, 0, 8, 0, 0, 0, 0⟩ : CopyRec).check (sliceOf W 1) (partOf W 0).kib 1 = none ∧ 64 % 64 = 0 ∧ 64 < 2 ^ 52 ∧ 1 ≤ 256 ∧ 256 ≤ 256 :=
  ⟨issuing_warp, clean.1, memory_ok.1, by decide +kernel, by decide +kernel, slot_copy.1, slot_copy.2.1, slot_copy.2.2, by decide +kernel⟩
/-- Every register of warp 0 holds the word of IADD.S v3, v1, v2. -/
def selfIssued : State := threads fun t => { t with v := List.replicate 40 0x02010300 }
/-- In lane 1, the word of ISUB.S v3, v1, v2; a word whose opcode is reserved. -/
def mixed (x : Word) : State := setThread selfIssued 0 1 fun t => { t with v := List.replicate 40 x }
/-- The threads of the bundle whose words in v5 are legal. -/
def legalOf (s : State) : List Nat := (lanesOf (issueOf s 0 B0 8 (hdrGuard H)).act).filter fun l => (wordInstr ⟨40, 32, 4, 4⟩ (vreg (threadOf (warpOf s 0) l) 5)).isSome
/-- XISSUE: any issue completes, also with no active thread. Its first group: both lanes with one word, two legal words, a legal and an
illegal one. -/
theorem witness_Xissue : Issuing W 0 B0 8 ∧ (issueOf W 0 B0 8 (hdrGuard { H with gn := true })).act = 0 ∧
    (∀ s ∈ [selfIssued, mixed 0x02010304, mixed 0xA0], s.cur = some ⟨0, 0, 8⟩ ∧ bundleOf (warpOf s 0) 0 = some B0 ∧ (warpOf s 0).lead = false ∧
      (warpOf s 0).pend = [] ∧ (warpOf s 0).halt ≠ .trapped ∧ (coreOf s 0).sfuHeld.getD (warpOf s 0).sched 0 ≤ s.clk ∧ s.chipPoison = [] ∧
      (∀ l, l < 64 → B0.lanes.getLsbD l = true → l < (warpOf s 0).threads.length) ∧ (legalOf s).head? = some 0 ∧
      wordInstr ⟨40, 32, 4, 4⟩ (vreg (threadOf (warpOf s 0) 0) 5) = some (.iaddS false 3 1 2)) ∧
    legalOf selfIssued = [0, 1] ∧ legalOf (mixed 0x02010304) = [0, 1] ∧ legalOf (mixed 0xA0) = [0] ∧
    ∃ u, exec (.iaddS false 3 1 2) { setBundle selfIssued 0 0 (fun x => { x with lanes := maskOf [0, 1] }) with cur := some ⟨0, 0, 8⟩ } = .next u :=
  ⟨issuing_warp, by decide +kernel, by decide +kernel, by decide +kernel, by decide +kernel, by decide +kernel, _, rfl⟩

/-! #### Traps -/

/-- A window of one line at line 0, and lane 1 at its end. -/
def windowEnd : State := setThread (setPart W 0 fun p => { p with swin := [0x00010000, 0, 0, 0] }) 0 1 fun t => { t with v := modAt t.v 10 fun _ => 512 }
/-- AddressTraps: lane 1 is the lowest that fails, v8 being 1 there and v10 0x4000; a window of one line, within the allocation and beyond
it; part 1 of one; a constant beyond its bank. -/
theorem witness_AddressTraps : Issuing W 0 B0 8 ∧ Placed W 0 ∧ 1 ∈ lanesOf I.act ∧
    (let g := fun j => (addrGlobal false (threadOf (warpOf W 0) j) 8 255 none).toNat
     (g 1 % 4 ≠ 0 ∨ 2 ^ 52 ≤ g 1) ∧ ∀ j ∈ lanesOf I.act, j < 1 → ¬(g j % 4 ≠ 0 ∨ 2 ^ 52 ≤ g j)) ∧
    (let a := fun j => (addrLocal false (threadOf (warpOf W 0) j) 10 255 none).toNat
     (a 1 % 4 ≠ 0 ∨ 16 * 1024 < a 1 + 4) ∧ (∀ j ∈ lanesOf I.act, j < 1 → ¬(a j % 4 ≠ 0 ∨ 16 * 1024 < a j + 4)) ∧
     (∀ j ∈ lanesOf I.act, a j % 4 = 0) ∧ 64 < a 1 + 4 ∧ ∀ j ∈ lanesOf I.act, j < 1 → ¬(64 < a j + 4)) ∧
    Issuing windowed 0 B0 8 ∧ Placed windowed 0 ∧ (4 : Byte).getLsbD 2 = true ∧
    (let a := fun j => (addrLocal false (threadOf (warpOf windowed 0) j) 10 255 none).toNat
     16 * 1024 < 512 * (((partOf windowed 0).swin.getD 0 0).extractLsb' 0 11).toNat + a 1 + 4 ∧
     ∀ j ∈ lanesOf I.act, j < 1 → a j % 4 = 0 ∧ 512 * (((partOf windowed 0).swin.getD 0 0).extractLsb' 0 11).toNat + a j + 4 ≤ 16 * 1024) ∧
    Issuing windowEnd 0 B0 8 ∧ Placed windowEnd 0 ∧
    (let a := fun j => (addrLocal false (threadOf (warpOf windowEnd 0) j) 10 255 none).toNat
     (∀ j ∈ lanesOf I.act, a j % 4 = 0 ∧ 512 * (((partOf windowEnd 0).swin.getD 0 0).extractLsb' 0 11).toNat + a j + 4 ≤ 16 * 1024) ∧
     512 * (((partOf windowEnd 0).swin.getD 0 0).extractLsb' 16 11).toNat ≤ a 1 ∧
     ∀ j ∈ lanesOf I.act, j < 1 → ¬(512 * (((partOf windowEnd 0).swin.getD 0 0).extractLsb' 16 11).toNat ≤ a j)) ∧
    (0 : BitVec 2).toNat < (blockOf W 0).nParts ∧ (blockOf W 0).nParts ≤ (1 : BitVec 2).toNat ∧ 0 ∈ lanesOf I.act := by
  unfold Issuing Placed; decide +kernel
/-- The slice map's first entry is granule 0, and the TLB holds nothing; the first page-table entry is malformed. -/
def unmapped : State := setSlice (setCore W 0 fun c => { c with tlb := [] }) 1 fun sl => { sl with slicemap := modAt sl.slicemap 0 fun _ => 0x8000 }
def malformed : State := { unmapped with mem := memWriteN [] 0 [1, 0, 0, 0, 0, 0, 0, 0x80] }
def noGranule : State := setCore W 0 fun c => { c with tlb := [] }
def readOnly : State := setCore W 0 fun c => { c with tlb := [⟨1, 0, 0, 2 ^ 16, 0, 0, 0, false, false⟩] }
def noPeer : State := setCore W 0 fun c => { c with tlb := [⟨1, 0, 0, 2 ^ 25, 63 * 2 ^ 46, 2, 0, true, true⟩] }
/-- TranslationFaults: each cause, at levels 0 to 3, for lane 0. -/
theorem witness_TranslationFaults :
    (∀ s ∈ [unmapped, malformed, noGranule, readOnly, noPeer], s.cur = some ⟨0, 0, 8⟩ ∧ bundleOf (warpOf s 0) 0 = some B0 ∧
      (warpOf s 0).blk < s.blocks.length ∧ (warpOf s 0).part < s.parts.length ∧ (warpOf s 0).core < s.cores.length ∧
      (issueOf s 0 B0 8 (hdrGuard H)).act ≠ 0 ∧ ∀ l ∈ lanesOf (issueOf s 0 B0 8 (hdrGuard H)).act,
        (addrGlobal false (threadOf (warpOf s 0) l) 0 255 none).toNat % 4 = 0 ∧ (addrGlobal false (threadOf (warpOf s 0) l) 0 255 none).toNat < 2 ^ 52) ∧
    errIs (translateAll 0 1 0 .load (vas 0) unmapped).2.1 (.page 0) = true ∧ errIs (translateAll 0 1 0 .load (vas 0) malformed).2.1 (.malformed 0) = true ∧
    errIs (translateAll 0 1 0 .store (vas 0) noGranule).2.1 (.slicemap 0) = true ∧ errIs (translateAll 0 1 0 .store (vas 0) readOnly).2.1 (.perm 3) = true ∧
    errIs (translateAll 0 1 0 .load (vas 0) noPeer).2.1 (.peer 2) = true ∧ (blockOf unmapped 0).twin = none ∧ (sliceOf unmapped 1).ifst ≠ .error := by
  decide +kernel
/-- A poisoned page table; fetch and constants without a page; an engine's operation of the resident block 0. -/
theorem witness_TranslationFaults_agents :
    errIs (translateAll 0 1 0 .load (vas 0) { malformed with poison := [0] }).2.1 (.poison 0) = true ∧ (sliceOf malformed 1).resetting = none ∧ 1 < malformed.slices.length ∧
    (∀ l ∈ lanesOf I.act, constOff unmapped I m0 (threadOf (warpOf W 0) l) % 4 = 0) ∧ errIs (constAll I 4 (vas 0x3000) unmapped).2.1 (.page 0) = true ∧
    (coreOf unmapped 0).fills.any (·.1 == constKey (blockOf unmapped 0) 0x1000) = false ∧ errIs (translate unmapped 0 1 0 (0x1000 / 128 * 128) .fetch).2 (.page 0) = true ∧
    (blockOf unmapped 0).status = .resident ∧ 0 < unmapped.blocks.length := by decide +kernel
/-- Poison at home, and in the bank, of lane 0. -/
def spoilt : State := { W with poison := [0x100000 / 32], chipPoison := [.scratch 0 0] }
theorem witness_TranslationFaults_poison : Issuing spoilt 0 B0 8 ∧ (sliceOf spoilt 1).ifst ≠ .error ∧ (sliceOf spoilt 1).resetting = none ∧ (warpOf spoilt 0).queue = [] ∧
    okIs (translateAll 0 1 0 .load (vas 0x100000) spoilt).2.1 [.dev 0x100000, .dev 0x100000] = true ∧ (blockOf spoilt 0).twin = none ∧ spoilt.flights = [] ∧
    (coreOf spoilt 0).l1 = [] ∧ spoilt.dramErr = [] ∧ (∀ x ∈ blockWarps (blockOf spoilt 0), (warpOf spoilt x).held = []) ∧ 0 ∈ lanesOf I.act ∧
    (0x100000 + 0) / 32 ∈ spoilt.poison ∧ .scratch 0 ((0 + 0) / 8 * 8) ∈ spoilt.chipPoison := by
  unfold Issuing; decide +kernel
/-- The lead with s1 = 1, a tag beyond its one warp; the lead retired; a row of lane 1 with a reserved format code. -/
def tagged : State := setThread L 1 0 fun t => { t with s := modAt t.s 1 fun _ => 1 }
def leadGone : State := setWarp W 1 fun w => { w with retired := true }
def reservedRow : State := setPart W 0 fun p => { p with scratch := memWriteN [] (scratchPlace (ctxOf W 1 0).bankKey p.swin 64) [9] }
theorem witness_SynchronisationTraps : Issuing W 0 B0 8 ∧ Placed W 0 ∧ Clean W ∧ I.act ≠ 0 ∧ groupOf (blockOf W 0) (2 : Byte).toNat = none ∧
    groupOf (blockOf W 0) (1 : Byte).toNat = some G1 ∧ G1.members.getLsbD (warpOf W 0).idx = false ∧
    Issuing tagged 1 B1 8 ∧ Placed tagged 1 ∧ Clean tagged ∧ (blockOf tagged 0).nWarps ≤ (rdV true (threadOf (warpOf tagged 1) 0) 1).toNat % 256 ∧
    Issuing leadGone 0 B0 8 ∧ Placed leadGone 0 ∧ Clean leadGone ∧ (warpOf leadGone (partOf leadGone 0).lead).retired = true ∧ (partOf leadGone 0).dq = [] ∧
    Issuing reservedRow 0 B0 8 ∧ Placed reservedRow 0 ∧ Clean reservedRow := by
  unfold Issuing Placed Clean; decide +kernel
theorem witness_SynchronisationTraps_values :
    Issuing (regs 0x800 0 0) 0 B0 8 ∧ ((rdV false (threadOf (warpOf (regs 0x800 0 0) 0) (highest I.act)) 0).extractLsb' 0 32 : Word).extractLsb' 11 5 ≠ 0 ∧
    (coreOf W 0).owner ≠ some 0 ∧ (warpOf W 0).owned = none ∧ Issuing owning 0 B0 8 ∧ Placed owning 0 ∧ Clean owning ∧ fmtClass .e4m3 ≠ fmtClass .log ∧
    (∀ j ∈ lanesOf (issueOf reservedRow 0 B0 8 (hdrGuard H)).act, 0 % 64 = 0 ∧ 0 + j * (64 * (0 + 1)) + 64 ≤ (partOf reservedRow 0).kib * 1024) ∧
    1 ∈ lanesOf (issueOf reservedRow 0 B0 8 (hdrGuard H)).act ∧
    blockBad (BitVec.ofNat 512 (ownNat reservedRow (issueOf reservedRow 0 B0 8 (hdrGuard H)) 0 64)) = none ∧
    (blockBad (BitVec.ofNat 512 (ownNat reservedRow (issueOf reservedRow 0 B0 8 (hdrGuard H)) 64 64))).isSome = true ∧
    (rdV false (threadOf (warpOf W 0) (lowest I.act)) 0).toNat % 2 ^ 32 = 0 := by
  unfold Issuing Placed Clean; decide +kernel
/-- Maps of kind 0 with LN 1; records whose rows lie beyond the part; lane 1 with a word at offset 1 or rows at 16 KiB; a source that is no
line's; a block with a reserved format code. -/
theorem witness_SynchronisationTraps_operands :
    fmtClass fr0.af = fmtClass fr0.bf ∧ fmtClass fr0.bf = fmtClass fr0.cf ∧ fmtClass fr0.af < 3 ∧
    ¬(({ fr0 with beta := ⟨.identity, 1⟩ } : Frame).beta.kind = .identity ↔ ({ fr0 with beta := ⟨.identity, 1⟩ } : Frame).beta.ln = 0) ∧
    (vLegal fr0 1 (quad shaped 0) (quad shaped 4) (some (quad shaped 8))).isSome = true ∧ (vLegal fr0 1 (quad shaped 0) (quad shaped 4) none).isSome = true ∧
    (let word := fun (j : Nat) => (rdV false (threadOf (warpOf W 0) j) 8).toNat % 2 ^ 32
     word 0 % 16 = 0 ∧ word 0 + 16 ≤ 16 * 1024 ∧ word 1 % 16 ≠ 0) ∧ 0 + 1 * (64 * (255 + 1)) + 64 > 16 * 1024 ∧ 0 + 1 * (128 * (127 + 1)) + 128 > 16 * 1024 ∧
    (∀ r ∈ [cpyRec (issueOf (regs 1 0 64) 0 B0 8 (hdrGuard H)) 1 0 ⟨false, false, false, 0, 0, 0, 4, 2, none⟩,
            cpyRec (issueOf (regs 1 0 64) 0 B0 8 (hdrGuard H)) 6 1 ⟨false, false, false, 1, 0, 0, 4, 2, none⟩,
            ⟨0x0A, 0, 0, 0, 0, 1, 0, 0, 0, 0⟩], ((r : CopyRec).check (sliceOf W 1) 16 1).isSome = true) ∧
    (blockBad (BitVec.ofNat 512 (bitsNat 512 fun x => (vreg (threadOf (warpOf (regs 9 0 0) 0) (x / 8)) 0).getLsbD (x % 8)))).isSome = true := by
  decide +kernel

/-! #### Encoding and the step -/

/-- DecodeEncode, EncodeDecode: an L-form whose literal is −8, in warp code. -/
theorem witness_DecodeEncode : let i : Instr := .ld H ⟨.b64, 0, .plain, .core, 2, 2, 255, 0, some 0xFFFFFFF8⟩
    i.wellFormed false = true ∧ i.legal ⟨false, true⟩ = true ∧ (decode ⟨false, true⟩ (encode i ++ [7])) = (.ok i, [7]) ∧
    formLength (BitVec.ofNat 96 (leBytes ((encode i ++ [7]).take 12))) ≤ (encode i ++ [7]).length := by decide +kernel
/-- IADD v3, v1, v2 placed as the first instruction; a reserved opcode; a load into v252 to v255, one register too far. -/
def placedWord : State := State.reset.withFetchWord 64 0x00000080_40C01C06
def reservedWord : State := State.reset.withFetchWord 64 (m 0x2A 0 0 0 0 0)
def rangeWord : State := State.reset.withFetchWord 64 (m 0x80 252 0 255 0 2)
def firstBundle (s : State) : Bundle := (bundleOf (warpOf s 0) 0).getD Bundle.nil
/-- StepRunsInstruction: the placed word's bytes. -/
theorem witness_StepRunsInstruction :
    let s := placedWord
    let b := firstBundle s
    let bs := (image 0x00000080_40C01C06).take 8
    let at' := fun (n : Nat) => ((pcOf (warpOf s 0) b).toNat + n) % 2 ^ 52
    (s.inputs = [] ∧ s.issuing = [⟨0, 0, 0⟩] ∧ bundleOf (warpOf s 0) 0 = some b ∧ bs.length = formLength (BitVec.ofNat 96 (leBytes (bs.take 4)))) ∧
    (∀ n, n < bs.length → l0Place s (warpOf s 0).core (constKey (blockOf s 0) (at' n)) = some (.dev 0x10000) ∧
      bs.getD n 0 = homeByte s 0 ((Place.dev 0x10000).plus (at' n % 128))) ∧
    s.agenda = [] ∧
    mayIssue { s with issuing := [] } 0 b = true ∧ b.hold = none ∧
    (let ins : Instr := .iadd H ⟨.i32, false, 0, 3, 1, 2, 0, none⟩
     poisonedLane s 0 (warpOf s 0) (activeLanes (warpOf s 0) b.lanes (guardOf ins)) ins = none) ∧
    decode ⟨false, s.stepping == 0x11 && (launchOf s 0).expmask.getLsbD 0⟩ bs = (.ok (.iadd H ⟨.i32, false, 0, 3, 1, 2, 0, none⟩), []) ∧
    (Instr.iadd H ⟨.i32, false, 0, 3, 1, 2, 0, none⟩).rangeOk false ⟨255, 64, 32, 64⟩ = true ∧
    issueStall { s with issuing := [] } 0 b (.iadd H ⟨.i32, false, 0, 3, 1, 2, 0, none⟩) 8 = none ∧
    breakpointAt s (blockOf s 0) (pcOf (warpOf s 0) b) = false := by
  set_option maxRecDepth 100000 in decide +kernel
/-- IllegalInstruction: what the fetch gives at a reserved opcode, and at an operand beyond the allotment. -/
theorem witness_IllegalInstruction :
    ∀ x ∈ [(reservedWord, 0), (rangeWord, 1)], let s : State := x.1
      let b := firstBundle s
      (s.agenda = [] ∧ s.inputs = [] ∧ s.issuing = [⟨0, 0, 0⟩] ∧ bundleOf (warpOf s 0) 0 = some b ∧ (warpOf s 0).blk < s.blocks.length ∧
        (warpOf s 0).part < s.parts.length ∧ (warpOf s 0).core < s.cores.length) ∧ mayIssue { s with issuing := [] } 0 b = true ∧ b.hold = none ∧
      windowStall { s with issuing := [] } (warpOf s 0) b.lanes = false ∧
      (match fetched { s with issuing := [] } (warpOf s 0) (pcOf (warpOf s 0) b) with
        | .bytes bs => (match decode ⟨false, true⟩ bs with
          | (.bad .opcode, _) => x.2 == 0
          | (.ok i, _) => x.2 == 1 && !i.rangeOk false ⟨255, 64, 32, 64⟩
          | _ => false)
        | _ => false) = true := by
  set_option maxRecDepth 100000 in decide +kernel
theorem witness_GuardFalse : Issuing W 0 B0 8 ∧ (Instr.trap { H with gn := true } 0).toRaw.isSome ∧
    (∀ l, l < 64 → B0.lanes.getLsbD l = true → guardOf (.trap { H with gn := true } 0) (threadOf (warpOf W 0) l) = false) :=
  ⟨issuing_warp, by decide +kernel⟩
/-- NothingIsRefused: an instruction without an issue faults; no instruction stands on the agenda after reset. -/
theorem witness_NothingIsRefused : exec (.nop H) { W with cur := none } = .fault .noIssuer ∧
    ∀ i ∈ State.reset.agenda, i.toRaw = none ∧ i.toSRaw = none := ⟨rfl, by decide +kernel⟩
theorem witness_StepKeepsMemOk : MemOk State.reset ∧ ∃ t, step State.reset = .next t := ⟨by unfold MemOk; decide +kernel, _, rfl⟩
/-- RegisterFile: the last register that VREGS 40 allots, the last pair, p6, and the last register of the lead. -/
theorem witness_RegisterFile : (39 : Byte) ≠ 255 ∧ (39 : Byte).toNat < T0.v.length ∧ (38 : Byte).toNat + 1 < T0.v.length ∧ (38 : Byte).toNat + 1 < 255 ∧
    (0 : Byte) ≠ 39 ∧ (31 : Byte).toNat < (threadOf L0 0).s.length ∧ 6 < 7 := by decide +kernel
/-- ScratchpadPlaces, ColumnsWithoutConflict: an offset and itself; a window of 64 lines from line 0 on, and no other. -/
theorem witness_Scratchpad : scratchPlace 0 [0x00400000, 0, 0, 0] 5 = scratchPlace 0 [0x00400000, 0, 0, 0] 5 ∧ 63 < 64 ∧
    (∃ w ∈ ([0x00400000, 0, 0, 0] : List Word), (swinOf w).1 = 0 ∧ (swinOf w).2 = 64) ∧
    (∀ w ∈ ([0x00400000, 0, 0, 0] : List Word), (swinOf w).1 = 0 ∨ (swinOf w).2 = 0) :=
  ⟨rfl, by decide, ⟨0x00400000, by decide, by decide⟩, fun w h => by
    have : w = 0x00400000 ∨ w = 0 := by simpa using h
    rcases this with h | h <;> subst h <;> decide⟩

/-! #### Stores, loads and requests -/

/-- In the ck after an issue. -/
def after (x : Instr) (s : State) : State := { next x s with cur := none, clk := 1001 }
def laneZero : State := setWarp W 0 fun w => { w with bundles := [{ B0 with lanes := 1 }] }
/-- A store, a release fence and an atomic at the head of warp 0's queue. -/
def storing : State := after (.sts H ⟨.b32, 0, .plain, .core, 8, 0, 255, 0, some 0x3FFC⟩) W
def farStore : State := after (.st H ⟨.b32, 0, .plain, .core, 8, 0, 255, 0, far⟩) laneZero
def fenced : State := after (.fence H .rel .slice) W
def adding : State := after (.redm H ⟨.add, .i32, .plain, .core, 0, 0, 255, 12, far⟩) laneZero
def headOf (s : State) : QEntry := ((warpOf s 0).queue.head?).getD (mkEntry 0 I 0 .store [] .plain .core .normal)
/-- The same on their way, before and at their time. -/
def flying (s : State) (clk : Nat) : State := { next (.storeCoreVisible 0) s with clk }
def flightOf (s : State) : Flight := (s.flights.head?).getD ⟨0, 0, 0, 0, 0, none, headOf s, 0, 0, false, none⟩
/-- A release behind a store that is on its way. -/
def fenceHeld : State := { fenced with flights := (flying farStore 1001).flights, nextId := fenced.nextId + 2 }
/-- A store of one copy of a twin pair; one held there that a checkpoint has matched. -/
def twinStore : State := after (.st H ⟨.b32, 0, .plain, .core, 8, 0, 255, 0, far⟩) (setWarp paired 0 fun w => { w with bundles := [{ B0 with lanes := 1 }] })
def matchedStore : State := setWarp twinStore 0 fun w => { w with held := w.queue.map fun e => ⟨e, 5⟩, queue := [], matched := twinStore.nextId }
theorem witness_StoresReachTheirHomes_twin : (∀ s ∈ [twinStore, matchedStore], Clean s ∧ StoresOk s ∧ 0 < s.warps.length ∧ redmOpen s 0 = false) ∧
    (warpOf twinStore 0).queue = [headOf twinStore] ∧ (headOf twinStore).sent = false ∧ (headOf twinStore).bad = [] ∧ (warpOf twinStore 0).held = [] ∧
    (headOf twinStore).kind = .store ∧ (blockOf twinStore (warpOf twinStore 0).blk).twin.isSome = true ∧ (warpOf twinStore 0).matched ≤ (headOf twinStore).id ∧
    (headOf twinStore).at' + (headOf twinStore).passes < twinStore.clk ∧ behindLoad twinStore 0 (headOf twinStore) = false ∧
    (headOf twinStore).accs.map (fun a => isGlobal a) = [true] ∧ (warpOf matchedStore 0).queue = [] ∧ (warpOf matchedStore 0).held = [⟨headOf twinStore, 5⟩] ∧
    (headOf twinStore).id < (warpOf matchedStore 0).matched ∧ releaseHolds matchedStore 0 (headOf twinStore) 5 = true := by
  unfold Clean StoresOk MemOk; decide +kernel
theorem witness_StoresReachTheirHomes :
    (∀ s ∈ [storing, farStore, fenced, fenceHeld], Clean s ∧ StoresOk s ∧ 0 < s.warps.length ∧ (warpOf s 0).queue = headOf s :: [] ∧
      (headOf s).sent = false ∧ (headOf s).bad = [] ∧ (warpOf s 0).lead = false ∧ (blockOf s (warpOf s 0).blk).twin = none ∧ (warpOf s 0).held = [] ∧
      redmOpen s 0 = false) ∧
    (∀ s ∈ [storing, farStore], (headOf s).kind = .store ∧ releaseHolds s 0 (headOf s) s.nextId = true ∧ (headOf s).at' + (headOf s).passes < s.clk ∧
      behindLoad s 0 (headOf s) = false ∧ { s with clk := 1000 }.clk ≤ (headOf s).at' + (headOf s).passes) ∧
    (headOf storing).accs.map (·.home) = [.scratch 0 0x3FFC, .scratch 0 0x3FFC] ∧ 0 < storing.parts.length ∧ (partOf storing 0).core = (warpOf storing 0).core ∧
    (headOf farStore).accs = [((headOf farStore).accs.head?).getD ⟨0, 0, 0, 0, 0, .dev 0⟩] ∧
    isLocal farStore (warpOf farStore 0).core (((headOf farStore).accs.head?).getD ⟨0, 0, 0, 0, 0, .dev 0⟩) = false ∧
    (headOf fenceHeld).rel = true ∧ releaseHolds fenceHeld 0 (headOf fenceHeld) fenceHeld.nextId = false ∧
    (headOf fenced).kind = .fence ∧ (headOf fenced).rel = true ∧ (headOf fenced).acq = false ∧ cubeDone fenced 0 (headOf fenced).cube = true ∧
    noneAhead fenced 0 (headOf fenced).scope fenced.nextId = true ∧ fenced.loads = [] := by
  unfold Clean StoresOk MemOk; decide +kernel
theorem witness_StoresReachTheirHomes_flights :
    (∀ s ∈ [flying farStore 1001, flying farStore 100000, flying adding 100000], Clean s ∧ StoresOk s ∧ s.flights.length = 1 ∧
      (∀ a ∈ (flightOf s).entry.accs, isPeer a.home = false) ∧ (flightOf s).host = false ∧ (flightOf s).arrive = none ∧ (flightOf s).entry.bad = [] ∧ onFabric s (flightOf s).vf (flightOf s).id = false ∧ (flightOf s).entry.accs.map (·.home) = [.dev 0x100000]) ∧
    (flying farStore 1001).clk < (flightOf (flying farStore 1001)).due ∧ (flightOf (flying farStore 100000)).due ≤ 100000 ∧
    (flightOf (flying farStore 100000)).entry.kind = .store ∧ (flightOf (flying adding 100000)).entry.kind = .atomic .add .i32 none ∧
    (flightOf (flying adding 100000)).entry.accs.map (·.size) = [4] ∧ (warpOf (flying adding 100000) 0).lead = false := by
  unfold Clean StoresOk MemOk; decide +kernel
/-- The slice map's last granule of 1 GiB of quad 0 for the first GiB of IA; peer 63 with keys and no run held; VF 2 holds no slice. -/
def mapped : State := setSlice W 1 fun sl => { sl with slicemap := modAt sl.slicemap 0 fun _ => 0x802F, peers := modAt sl.peers 63 fun p => { p with keys := true } }
theorem witness_StoresReachTheirHomes_requests : (∀ l ∈ W.loads, l.id ≠ 5) ∧ (∀ f ∈ W.flights, f.entry.id ≠ 5) ∧ W.stage = 2 ∧ Serves W 1 ∧
    (∀ k, k < 4 → quadOf (47 * 2 ^ 30 + 0x3FFFFFFC + k) ∈ (sliceOf W 1).quads) ∧ Serves mapped 1 ∧
    GranuleAt mapped 1 0x3FFFFFFC 4 (47 * 2 ^ 30 + 0x3FFFFFFC) ∧ 63 < (sliceOf mapped 1).peers.length ∧ (peerOf mapped 1 63).keys = true ∧
    (peerOf mapped 1 63).rxHeld = [] ∧ ¬Serves W 2 ∧ 2 < W.slices.length := by
  unfold Serves GranuleAt; decide +kernel
/-- Loads on their way: of scratchpad, of another part, of host memory. -/
def load0 : LoadOp := { loadOf W I .b32 [(0, 2, 7)] (some 1000) false none [] with id := 0 }
def loadHost : LoadOp := { load0 with data := [(0, 2, 0)], due := none, hosts := [(0, 0x100000)] }
def loadFar : LoadOp := { load0 with data := [(0, 2, 0x3FFC)], remote := true, part := some (0, 1000) }
/-- Its bytes read; a load that a peer has refused. -/
def loadRead : LoadOp := { loadFar with part := none }
def loadRefused : LoadOp := { load0 with refused := some (0, 0x100000, true) }
def loading (l : LoadOp) : State := setWarp { W with loads := [l] } 0 fun w => { w with bundles := [{ B0 with hold := some (.remote 0), holdLen := 8 }] }
theorem witness_LoadsReturn :
    (∀ l ∈ [load0, loadHost, loadFar, loadRead, loadRefused], let s := loading l
      Clean s ∧ (s.loads.filter fun x => x.id == l.id) = [l] ∧ l.warp < s.warps.length ∧
      (blockOf s (warpOf s l.warp).blk).twin = none ∧ onFabric s l.vf l.id = false) ∧ (sliceOf W 1).resetting = none ∧
    load0.remote = false ∧ load0.due = some 1000 ∧ 1000 ≤ (loading load0).clk ∧ { loading load0 with clk := 999 }.clk < 1000 ∧
    load0.refused = none ∧ loadRefused.remote = false ∧ loadRefused.due = some 1000 ∧ loadRefused.refused = some (0, 0x100000, true) ∧
    loadFar.remote = true ∧ loadFar.part = some (0, 1000) ∧ 1000 ≤ (loading loadFar).clk ∧ mayReturn (loading loadFar) 0 = true ∧
    loadRead.remote = true ∧ loadRead.part = none ∧ loadRead.due = some 1000 ∧ mayReturn (loading loadRead) 0 = true ∧
    ((warpOf (loading loadRead) 0).bundles.filter fun b => b.hold == some (.remote 0)) = [{ B0 with hold := some (.remote 0), holdLen := 8 }] ∧
    bundleOf (warpOf (loading loadRead) 0) 0 = some { B0 with hold := some (.remote 0), holdLen := 8 } ∧
    loadHost.due = none ∧ loadHost.data = [(0, 2, 0)] ∧ loadHost.hosts = [(0, 0x100000)] ∧ loadHost.late = [] := by unfold Clean; decide +kernel
/-- A TLB entry, a page table of one 512 GiB page, none; TLBINV by range; a line that has arrived. -/
def paged : State := { unmapped with mem := memWriteN [] 0 [1, 0x10, 0, 0, 0, 0, 0, 0] ++ memWriteN [] 0x1000 [3, 0, 0, 0, 0, 0, 0, 0] }
def filling : State := setCore W 0 fun c => { c with fills := [(5, 1000, .dev 0)] }
theorem witness_LoadsReturn_requests : 0 < W.cores.length ∧ (tlbHit W 0 1 0 (0 : Dword).toNat).isSome = true ∧
    (tlbHit paged 0 1 0 (0 : Dword).toNat) = none ∧ (match (walk (count paged 1 0 2 6 1) 1 0 0).2 with | .ok e => e.size == 2 ^ 30 | .err _ => false) = true ∧
    (tlbHit unmapped 0 1 0 (0 : Dword).toNat) = none ∧ errIs (walk (count unmapped 1 0 2 6 1) 1 0 0).2 (.page 0) = true ∧
    W.stage ≠ 0 ∧ (sliceOf W 1).used = true ∧ ((0x40 : Dword).extractLsb' 6 2).toNat < 2 ∧
    ((coreOf filling 0).fills.filter fun f => f.1 == 5) = [(5, 1000, .dev 0)] ∧ 1000 ≤ filling.clk := by decide +kernel

/-! #### Waits, selection, clocks -/

/-- Warp 0 with some bundles; with its barrier completing in this ck, or in the next. -/
def bundled (bs : List Bundle) : State := setWarp W 0 fun w => { w with bundles := bs, nextBundle := 2 }
def completing (ck : Nat) : State := setBlock W 0 fun b => { b with groups := [{ G0 with due := some (ck, 0) }, G1] }
/-- An owner queue in which warp 5 (which may not run) stands before warp 0, at the same level. -/
def granting : State := setCore W 0 fun c => { c with cubeq := [⟨5, 3⟩, ⟨0, 3⟩], ownerFrom := 1000 }
/-- Warp 0 has been given the cube, and waits at its CACQ until it can use it. -/
def granted (ck : Nat) : State := setCore (bundled [{ B0 with hold := some .cacq, holdLen := 8 }]) 0 fun c => { c with owner := some 0, ownerFrom := ck }
theorem witness_Waits :
    0 < (completing 1000).blocks.length ∧ groupOf (blockOf (completing 1000) 0) 0 = some { G0 with due := some (1000, 0) } ∧ 1000 ≤ (completing 1000).clk ∧
    (blockOf (completing 1000) 0).replMode = 0 ∧ 1 < (completing 1000).slices.length ∧ 0 < (sliceOf (completing 1000) 1).ctxs.length ∧
    (∀ k, k < (blockOf (completing 1000) 0).nWarps → (warpOf (completing 1000) ((blockOf (completing 1000) 0).firstWarp + k)).blk = 0) ∧ groupOf (blockOf (completing 1001) 0) 0 = some { G0 with due := some (1001, 0) } ∧ (completing 1001).clk < 1001 ∧
    bundleOf (warpOf (bundled [{ B0 with hold := some (.sleep 0), holdLen := 8 }]) 0) 0 = some { B0 with hold := some (.sleep 0), holdLen := 8 } ∧
    mayRun (bundled [{ B0 with hold := some (.sleep 0), holdLen := 8 }]) 0 = true ∧
    0 < granting.cores.length ∧ (coreOf granting 0).owner = none ∧ (coreOf granting 0).ownerFrom ≤ granting.clk ∧
    (∀ y ∈ (coreOf granting 0).cubeq, y.level < 4) ∧ (coreOf granting 0).cubeq = [⟨5, 3⟩] ++ ⟨0, 3⟩ :: [] ∧ mayEnd granting 0 = true ∧ mayEnd granting 5 = false ∧
    (∀ s ∈ [granted 1000, granted 1001], (coreOf s 0).owner = some 0 ∧ mayEnd s 0 = true ∧ (warpOf s 0).bundles = [{ B0 with hold := some .cacq, holdLen := 8 }]) ∧
    (coreOf (granted 1000) 0).ownerFrom ≤ (granted 1000).clk ∧ (granted 1001).clk < (coreOf (granted 1001) 0).ownerFrom := by
  decide +kernel
/-- Two bundles, the first of which has waited for the whole of FAIRT; two at one PC; the placed word with its lead away. -/
def fair : State := bundled [{ B1 with wait := 2048 }, { B1 with id := 1, lanes := 2, wait := 2047 }]
def split : State := bundled [B1, { B1 with id := 1, lanes := 2 }]
def alone : State := setWarp { placedWord with issuing := [] } 1 fun w => { w with present := false }
theorem witness_Selection :
    0 < fair.warps.length ∧ { B1 with wait := 2048 } ∈ (warpOf fair 0).bundles ∧ (launchOf fair (blockOf fair 0).launch).pkt.attr.testBit 0 = false ∧
    (warpOf fair 0).window = none ∧ (warpOf fair 0).lead = false ∧ countsRun fair 0 = true ∧ (warpOf fair 0).fairt ≤ 2048 ∧
    bundleHeld (warpOf fair 0) { B1 with wait := 2048 } = false ∧
    (∀ x ∈ (warpOf fair 0).bundles, x ≠ { B1 with wait := 2048 } → bundleHeld (warpOf fair 0) x = false → x.wait < 2048) ∧
    0 ∈ residents split 0 false ∧ (warpOf split 0).bundles = [B1, { B1 with id := 1, lanes := 2 }] ∧ mergeable (warpOf split 0) B1 = true ∧
    mergeable (warpOf split 0) { B1 with id := 1, lanes := 2 } = true ∧ pcOf (warpOf split 0) B1 = pcOf (warpOf split 0) { B1 with id := 1, lanes := 2 } ∧
    bundleHeld (warpOf split 0) B1 = bundleHeld (warpOf split 0) { B1 with id := 1, lanes := 2 } ∧ (blockOf split 0).stop = none ∧ (blockOf split 0).step = none ∧
    (warpOf split 0).halt = .running := by
  decide +kernel
theorem witness_SchedulerSelection :
    0 < alone.cores.length ∧ residents alone 0 false = [0] ∧ residents alone 0 true = [] ∧ (warpOf alone 0).bundles = [firstBundle alone] ∧
    (firstBundle alone).xi = none ∧ mayIssue alone 0 (firstBundle alone) = true ∧ stallOf alone 0 (firstBundle alone) = none ∧ (warpOf alone 0).sched < 4 ∧
    (coreOf alone 0).withheld = false ∧ (coreOf (setCore W 63 fun c => { c with withheld := true }) 63).withheld = true ∧ 63 < W.cores.length := by
  set_option maxRecDepth 100000 in decide +kernel
/-- The bundle and the block have counted 64 · 1024 ck, which is the limit at reset. -/
def starving : State := setBlock (bundled [{ B0 with starve := 65536 }]) 0 fun b => { b with idle := 65536 }
theorem witness_Monitor :
    residents W 0 false = [0] ∧ (warpOf W 0).bundles = [B0] ∧ (warpOf W 0).slot < 12 ∧ (warpOf W 0).sched < (coreOf W 0).sampled.length ∧ (blockOf W 0).vf = 1 ∧
    1 < W.slices.length ∧ 3 < (sliceOf W 1).trace.length ∧ (sliceOf W 1).trchold.getLsbD 3 = false ∧
    (((sliceOf W 1).trace.getD 3 TraceUnit.reset).ctl.extractLsb' 1 6).toNat = (blockOf W 0).ctx ∧ ((sliceOf W 1).trace.getD 3 TraceUnit.reset).waiting.length < 64 ∧
    bundleOf (warpOf starving 0) 0 = some { B0 with starve := 65536 } ∧ (ctxOf starving 1 0).monctl.getLsbD 0 = true ∧ (ctxOf starving 1 0).monctl.getLsbD 1 = false ∧
    (({ B0 with starve := 65536 } : Bundle).starved) = false ∧ 1024 * ((ctxOf starving 1 0).monctl.extractLsb' 16 16).toNat ≤ 65536 ∧ (warpOf starving 0).halt = .running ∧
    (sliceOf starving 1).ifst ≠ .error ∧ liveWarps starving (blockOf starving 0) = [0, 1] ∧ lowestBundle (warpOf starving 0) = some { B0 with starve := 65536 } ∧
    (blockOf starving 0).idleRec = false ∧ 1024 * ((ctxOf starving 1 0).monctl.extractLsb' 16 16).toNat ≤ (blockOf starving 0).idle ∧
    (blockOf starving 0).status = .resident := by decide +kernel
/-- An XISSUE in the first of two steps, both lanes holding the word of IADD.S v3, v1, v2. -/
def x0 : Xi := ⟨4, 2, 0, 3, 3, [(0, 0x02010300), (1, 0x02010300)], [], true, 0, 3, 0⟩
/-- The scheduler's choice stands on it. -/
def grouping : State := setCore (bundled [{ B0 with xi := some x0 }]) 0 fun c => { c with xiHold := [some (0, 0), none, none, none] }
theorem witness_XissueGroupIssue : (coreOf grouping (warpOf grouping 0).core).xiHold.getD (warpOf grouping 0).sched none = some (0, 0) ∧ grouping.chipPoison = [] ∧
    (warpOf grouping 0).bundles = [{ B0 with xi := some x0 }] ∧ x0.started = true ∧ x0.left ≠ 0 ∧ x0.remaining ≠ 0 ∧ x0.step + 1 < x0.n ∧
    (blockOf grouping 0).step = none ∧ (warpOf grouping 0).halt ≠ .trapped ∧ (∀ l ∈ lanesOf x0.left, xiWord x0 l = 0x02010300) ∧
    wordInstr (allotOfWarp grouping (warpOf grouping 0)) 0x02010300 = some (.iaddS false 3 1 2) ∧
    ∃ d lat f, sWork (.iaddS false 3 1 2) = some (false, .comp d lat false f) ∧
      groupHeld grouping 0 (warpOf grouping 0) { B0 with xi := some x0 } x0.left (.iaddS false 3 1 2) (.comp d lat false f) = false ∧
      (∀ l ∈ lanesOf x0.left, enabled (threadOf (warpOf grouping 0) l) (f (threadOf (warpOf grouping 0) l)).2 = 0) :=
  by iterate 11 refine ⟨by decide +kernel, ?_⟩
     exact ⟨_, _, _, rfl, by decide +kernel, by decide +kernel⟩
/-- FENCESC in warp 0 that awaits tick 1; a halted block's warp that has issued 8 times, or whose 96 ck are over. -/
def ticking : State := bundled [{ B0 with hold := some (.fencesc [] 0 (some 1)), holdLen := 8 }]
def halted (n : Nat) : State := setBlock (setWarp W 0 fun w => { w with halt := .skid n }) 0 fun b => { b with halt := some ⟨904, false, []⟩ }
theorem witness_Clocks : (ticking.hbeat.toNat + 1) * 136 ≤ ticking.clk ∧ ticking.hbeat.toNat + 1 < 2 ^ 64 ∧ 0 < ticking.warps.length ∧
    (warpOf ticking 0).bundles = [{ B0 with hold := some (.fencesc [] 0 (some 1)), holdLen := 8 }] ∧ 1 ≤ ticking.hbeat.toNat + 1 ∧ mayComplete ticking 0 = true ∧
    1 < W.slices.length ∧ (sliceOf W 1).used = true ∧ W.stage ≠ 0 ∧ (warpOf (halted 8) 0).halt = .skid 8 ∧ (blockOf (halted 8) 0).halt = some ⟨904, false, []⟩ ∧
    (warpOf (halted 0) 0).halt = .skid 0 ∧ 904 + 96 ≤ (halted 0).clk := by decide +kernel
/-- A twin pair: warp 0 of block 0 and warp 2 of block 1 at checkpoints; the second copy's signature, its PC, the atomic that it skips. -/
def twins (x : Dword) (pc : Addr) (skip : Option (Nat × List Nat × Nat)) : State :=
  let k (o : Nat) (p : Bool) (b : Block) : Block := { b with twin := some (o, p) }
  let a (c : Ckpt) (blk : Nat) (w : Warp) : Warp := { w with blk, part := blk, ckpt := some c }
  { W with blocks := [k 1 true K0, k 0 false { K0 with firstWarp := 2, firstLead := 3, firstPart := 1 }], parts := [P0, { P0 with blk := 1, lead := 3 }],
           warps := [a ⟨0x1000, 5, 0, false, 0, none⟩ 0 W0, L0, a ⟨pc, x, 0, false, 0, skip⟩ 1 W0, { L0 with blk := 1, part := 1 }] }
/-- Equal, of unequal signature, at another PC, at an atomic that the second copy leaves out. -/
theorem witness_TwinCheckpointCompare : ∀ x ∈ [((5 : Dword), (0x1000 : Addr), none), (6, 0x1000, none), (5, 0x1008, none), (5, 0x1000, some (8, [2], 0))],
    let s := twins x.1 x.2.1 x.2.2
    0 < s.warps.length ∧ 2 < s.warps.length ∧ counterpart s 0 = some 2 ∧ isPrimary s (warpOf s 0).blk = true ∧
    (warpOf s 0).ckpt = some ⟨0x1000, 5, 0, false, 0, none⟩ ∧ (warpOf s 2).ckpt = some ⟨x.2.1, x.1, 0, false, 0, x.2.2⟩ ∧ mayEnd s 0 = true ∧ mayEnd s 2 = true ∧ 0 < s.blocks.length ∧
    1 < s.blocks.length ∧ bundleOf (warpOf s 2) 0 = some B0 := by
  decide +kernel

/-! #### Engines -/

/-- v12 holds 64: the shape of a copy of 64 bytes from address 0 to address 0. The record is in the ring, then taken up. -/
def copying : State := next (.cpy H ⟨false, false, false, 0, 16, 0, 2, 12, none⟩) (threads fun t => { t with v := modAt t.v 12 fun _ => 64 })
/-- Warp 0 at its issue again. -/
def again (s : State) : State := { setWarp s 0 fun w => { w with pend := [] } with cur := some ⟨0, 0, 8⟩ }
def startedOn (e : Engine) (s : State) : State := next (.engineRecordStart 0 e) { s with cur := none, clk := 2000 }
def op0 (s : State) : EngOp := (s.ops.head?).getD ⟨0, 0, .cube, 0, 0, 0, 0, 0, 0, 0, 0, 0, [], none, 0, 0, none, false, 0, false, false, [], [], false⟩
/-- A marker at address 0x100000, or as an arrival at peer 63; a segment of two records at 0x200000; an MMAC; an MMACV. -/
def marking : State := next (.chmark H ⟨.cpy0, false, 0, 16, 2, none⟩) (threads fun t => { t with v := modAt t.v 2 fun _ => 0x100000 })
def sending : State :=
  let s := setSlice (threads fun t => { t with v := modAt t.v 2 fun _ => 0x100000 }) 1 fun sl =>
    { sl with peers := modAt sl.peers 63 fun p => { p with entry := 0x4000, keys := true }, routes := modAt sl.routes 0 fun _ => (0x0400, 1), credit := 640 }
  startedOn .fab (next (.chmark H ⟨.fab, false, 63, 16, 2, none⟩) s)
def linking : State :=
  let s := threads fun t => { t with v := modAt (modAt t.v 2 fun _ => 0x200000) 6 fun _ => 2 }
  let s := { s with mem := memWriteN [] 0x200000 (⟨1, 0, 0, 0, 0, 0x100000, 0, 64, 0, 0x200040⟩ : CopyRec).bytes }
  startedOn .cpy0 (next (.chlink H ⟨.cpy0, 16, 2, 6⟩) s)
def squaring : State := startedOn .cube (next (.mmac H ⟨false, fr0, 1, 0, 1, 0⟩) owning)
def chunked : State := startedOn .cube (next (.mmacv H ⟨fr0, 1, 16, 0, 4, 0⟩) shaped)
def openPeer : State :=
  setSlice W 1 fun sl => { sl with peers := modAt sl.peers 63 fun p => { p with keys := true, counter := 2 ^ 62 }, runs := [⟨63, 0, 0, 0, 0, 1, [(0x100000, [1, 2], 9)], 3, false, 0, 744⟩] }
def sentPeer (n : Nat) : State := setSlice openPeer 1 fun sl => { sl with runs := sl.runs.map fun r => { r with closed := true, attempts := n } }
/-- A run asked for again, beside the next one; a flit of an access that waits at core 0. -/
def resending : State :=
  setSlice openPeer 1 fun sl => { sl with peers := modAt sl.peers 63 fun p => { p with counter := 1 }, credit := 640,
                                          runs := (sl.runs.map fun r => { r with closed := true, again := 1 }) ++ sl.runs.map fun r => { r with seq := 1, closed := true } }
def asking : State :=
  setSlice openPeer 1 fun sl => { sl with peers := modAt sl.peers 63 fun p => { p with counter := 1 }, credit := 640, runs := [], fabOut := [⟨0, 63, 9⟩] }
theorem exists_inl {α β : Type} {x : State × (α ⊕ β)} (h : x.2.isLeft = true) : ∃ s a, x = (s, .inl a) := by
  rcases x with ⟨s, a | b⟩
  · exact ⟨s, a, rfl⟩
  · simp at h
/-- The first part of a result is given, and what is made of it. -/
def bothGiven {α β γ : Type} (x : State × (α ⊕ β)) (f : α → State → State × Xl γ) : Bool :=
  match x.2 with
  | .inl a => (match (f a x.1).2 with | .ok _ => true | .err _ => false)
  | .inr _ => false
theorem both_given {α β γ : Type} {x : State × (α ⊕ β)} {f : α → State → State × Xl γ} (h : bothGiven x f = true) :
    ∃ s1 a, x = (s1, .inl a) ∧ ∃ s2 c, f a s1 = (s2, .ok c) := by
  rcases x with ⟨s, a | b⟩
  · refine ⟨s, a, rfl, ?_⟩
    rcases e : f a s with ⟨t, c | c⟩
    · exact ⟨t, c, rfl⟩
    · simp [bothGiven, e] at h
  · simp [bothGiven] at h
/-- EnginesAndFabric: a record to take up, one whose form the copy engine refuses (type 0x7F). -/
def idle : State := { copying with cur := none, clk := 2000 }
def misformed : State := { idle with mem := memWriteN idle.mem 0x44000 [0x7F] }
theorem witness_EngineRecordStart : ∀ s ∈ [idle, misformed], Clean s ∧ s.ops = [] ∧
    ((startable s 0 .cpy0).map fun x => (x.1, x.2.1, x.2.2.1, x.2.2.2.slot, x.2.2.2.blk)) = [(1, 0, 0, 0, 0)] ∧ 1 < s.slices.length ∧ 0 < (sliceOf s 1).ctxs.length ∧
    tlbHit s 0 1 0 (ringSlot (ctxOf s 1 0) 0 .cpy0 0) = some ⟨1, 0, 0, 2 ^ 30, 0, 0, 0, true, true⟩ ∧
    okIs (placeOf s 1 .load (ringSlot (ctxOf s 1 0) 0 .cpy0 0) ⟨1, 0, 0, 2 ^ 30, 0, 0, 0, true, true⟩) (.dev 0x44000) = true ∧
    0 < s.blocks.length ∧ (blockOf s 0).status = .resident := by unfold Clean; decide +kernel
theorem witness_EngineRecordStart_forms : ringFormBad .cpy0 (memReadN idle.mem 0x44000 64) = false ∧ (memReadN idle.mem 0x44000 64).getD 0 0 ≠ 9 ∧
    ringFormBad .cpy0 (memReadN misformed.mem 0x44000 64) = true := by decide +kernel
/-- A segment walk at its first of two records. -/
theorem witness_SegmentRecordRead : let s := { linking with dramErr := [] }
    let bs := memReadN s.mem 0x200000 64
    (s.ops.filter fun o => o.core == 0 && o.eng == .cpy0).length = 1 ∧ (∀ o ∈ s.ops, o.id < s.nextId) ∧ (op0 s).walk = some (2, 0x200000) ∧ (op0 s).dead = false ∧ (op0 s).parked = none ∧
    mayStart s (op0 s).vf (op0 s).ctx 0 = true ∧ (sliceOf s (op0 s).vf).ifst ≠ .error ∧ (op0 s).issued = true ∧ (nextStart s 0 .cpy0).isNone = true ∧
    tlbHit s 0 1 0 0x200000 = some ⟨1, 0, 0, 2 ^ 30, 0, 0, 0, true, true⟩ ∧ copyFormBad .cpy0 bs = false ∧ (CopyRec.ofBytes bs).next = 0x200040 ∧
    (CopyRec.ofBytes bs).check (sliceOf s 1) (partOf s (op0 s).part).kib (blockOf s (op0 s).blk).nParts = none := by decide +kernel
/-- A copy of one unit on its way. -/
def unitOnItsWay : State := startedOn .cpy0 copying
theorem witness_CopyUnitTransfer : let s := unitOnItsWay
    (movingOp s 0 .cpy0).map (·.id) = some (op0 s).id ∧ (op0 s).type ≠ 7 ∧ (op0 s).twin = false ∧
    ∃ s1 ps, piecesAt (op0 s) (op0 s).copyRec ((op0 s).copyRec.unitBytes (op0 s).unit) s = (s1, .inl ps) ∧
      ∃ s2 data, readPieces (op0 s) (op0 s).copyRec ps s1 = (s2, .ok data) := by
  exact ⟨by decide +kernel, by decide +kernel, by decide +kernel, both_given (by decide +kernel)⟩
/-- A marker whose turn has come. -/
theorem witness_ChainMarkerWrite : let s := startedOn .cpy0 marking
    (s.ops.filter fun o => o.core == 0 && o.eng == .cpy0).length = 1 ∧ (op0 s).issued = false ∧ (op0 s).parked = none ∧ (op0 s).bytes ≠ [] ∧ (op0 s).type = 0x0A ∧
    (op0 s).copyRec.arg = 0 ∧ (op0 s).twin = false ∧ markerTurn s (op0 s) = true ∧ (sliceOf s 1).ifst ≠ .error ∧
    (engPlace s (op0 s) (op0 s).copyRec.ds (op0 s).copyRec.dst 8 .store).2.isLeft = true := by decide +kernel
/-- A tile form and an operation with records at the cube; a result due. -/
def resulting : State := setCore { squaring with clk := 3000 } 0 fun c => { c with cubeRes := [⟨(op0 squaring).id, 0, 1, 3, List.replicate 64 5, List.replicate 64 0, 3000⟩] }
theorem witness_CubeTileOperation : let s := squaring
    0 < s.cores.length ∧ (movingOp s 0 .cube).map (·.id) = some (op0 s).id ∧ (op0 s).core = 0 ∧ (coreOf s 0).cubeFree ≤ s.clk ∧ (op0 s).type ≠ 0x12 ∧ (op0 s).type ≠ 0x13 ∧
    (TileArgs.ofBytes (op0 s).bytes).isSome = true ∧ ((TileArgs.ofBytes (op0 s).bytes).bind fun a => a.fault (partOf s (op0 s).part)) = none ∧
    (coreOf resulting 0).cubeRes.length = 1 ∧ (opOf resulting (op0 squaring).id).isSome = true := by decide +kernel
theorem witness_CubeChunk : let s := chunked
    (movingOp s 0 .cube).map (·.id) = some (op0 s).id ∧ (op0 s).core = 0 ∧ (coreOf s 0).cubeFree ≤ s.clk ∧ (op0 s).type = 0x13 ∧
    mayStart s (op0 s).vf (op0 s).ctx 0 = true ∧ (op0 s).parked = none ∧ ((VArgs.ofBytes (op0 s).bytes).any fun v =>
      (match readRows (op0 s) v (v.reads (op0 s).unit) (setWarp (clearOthers s (op0 s)) (op0 s).warp fun w => { w with rowprog := BitVec.ofNat 32 (op0 s).unit }) with | (_, .inl rows) => rows.all fun x => (v.operand x.1).cubeFmt != .log | _ => false)) = true := by
  decide +kernel
/-- An operation whose work is done. -/
def finishing : State := { squaring with ops := squaring.ops.map fun o => { o with issued := true } }
/-- A copy of which a peer has refused a write. -/
def turnedAway : State := { unitOnItsWay with ops := unitOnItsWay.ops.map fun o => { o with issued := true, refused := true } }
theorem witness_EngineOperationComplete :
    (finishing.ops.find? fun o => o.core == 0 && o.eng == .cube && opQuiet finishing o && !(heldByFault o)).map (·.id) = some (op0 finishing).id ∧ finishing.ops.length = 1 ∧
    (opRec finishing (op0 finishing)).any (fun r => r.seq == (op0 finishing).seq && 1 ≤ r.count) = true ∧ (op0 finishing).refused = false ∧ (op0 finishing).flags.length ≤ 64 ∧
    1 < finishing.slices.length ∧ 0 < (sliceOf finishing 1).ctxs.length ∧ (∀ f ∈ (op0 finishing).flags, f = 0) ∧
    (chainOf (ctxOf finishing 1 0) (op0 finishing).lcore .cube).comp + 1 = (op0 finishing).seq ∧
    ((turnedAway.ops.find? fun o => o.core == 0 && o.eng == .cpy0 && opQuiet turnedAway o && !(heldByFault o)).map fun o => (o.refused, o.dead, o.blk)) = some (true, false, 0) ∧
    0 < turnedAway.blocks.length ∧ (blockOf turnedAway 0).status = .resident := by decide +kernel
/-- A marker for peer 63 with credit for one flit, and with a byte less; the pair's open run, at its fifth attempt, its nonces used up. -/
theorem witness_Fabric : let s := sending
    sliceOfCore s 0 = some 1 ∧ (sliceOf s 1).runs = [] ∧ (sliceOf s 1).fabOut = [] ∧ (fabOp s 0).map (·.id) = some (op0 s).id ∧ (op0 s).twin = false ∧ (op0 s).vf < s.slices.length ∧
    (op0 s).copyRec.arg.toNat = 63 ∧ roomToSend (sliceOf s 1) 63 = true ∧ 640 ≤ (sliceOf s 1).credit ∧ (op0 s).type = 0x0A ∧ 63 < (sliceOf s 1).peers.length ∧
    (openRun (sliceOf s 1) 63).isNone = true ∧ (sliceOf (setSlice s 1 fun sl => { sl with credit := 639 }) 1).credit < 640 ∧
    (openRun (sliceOf openPeer 1) 63).isSome = true ∧ (sentRun (sentPeer 3) 1 63 0).map (·.attempts) = some 3 ∧ (sentRun (sentPeer 4) 1 63 0).map (·.attempts) = some 4 ∧
    (sliceOf (sentPeer 4) 1).resetting = none ∧ (peerOf openPeer 1 63).keys = true ∧ 2 ^ 62 ≤ (peerOf openPeer 1 63).counter ∧ 1 < W.slices.length := by decide +kernel
theorem witness_Fabric_again : sliceOfCore resending 0 = some 1 ∧ (sliceOf resending 1).ifst ≠ .error ∧
    (runAgain (sliceOf resending 1)).map (fun r => (r.peer, r.again, r.flits)) = some (63, 1, 1) ∧ (peerOf resending 1 63).keys = true ∧
    (peerOf resending 1 63).counter < 2 ^ 62 ∧ 640 ≤ (sliceOf resending 1).credit ∧ ((sliceOf resending 1).runs.find? fun x => x.peer == 63).map (·.seq) = some 0 ∧
    (sentRun resending 1 63 1).map (·.seq) = some 1 ∧ sliceOfCore asking 0 = some 1 ∧ (runAgain (sliceOf asking 1)).isNone = true ∧
    ((sliceOf asking 1).fabOut.find? fun q => q.core == 0) = some ⟨0, 63, 9⟩ ∧ roomToSend (sliceOf asking 1) 63 = true ∧ (openRun (sliceOf asking 1) 63).isNone = true ∧
    63 < (sliceOf asking 1).peers.length ∧ 640 ≤ (sliceOf asking 1).credit := by decide +kernel

/-! #### Launches, blocks, replication -/

/-- VAs below 2^30 mapped to the same PAs by a page of 16 GiB; the context's areas lie there. -/
def vm : State :=
  let s := { unmapped with mem := memWriteN (memWriteN [] 0 [1, 0x10]) 0x1000 [0xF] }
  setCtx s 1 0 fun c => { c with desc := { c.desc with lqbase := 0x8000, savesize := 2 ^ 28 }, codes := [⟨0x1000, 0x80, 0x100, 0, 0, 1⟩], tail := 1 }
/-- A packet of 64 threads at offset 0x80 of the object at 0x1000, with a grid of some width and some replicas. -/
def pkb (nx repl : Nat) : List Byte :=
  bytesOf 8 0x1000 ++ bytesOf 4 0x80 ++ bytesOf 4 0xFFFFFFFF ++ List.replicate 16 0 ++ bytesOf 4 nx ++ bytesOf 4 1 ++ bytesOf 4 1 ++ bytesOf 2 64 ++
  [1, 3, 40, 32, 4, 4] ++ bytesOf 2 16 ++ List.replicate 6 0 ++ [BitVec.ofNat 8 repl] ++ List.replicate 67 0
def queue (nx : Nat) : State := { vm with mem := memWriteN vm.mem 0x8000 (pkb nx 1) }
def lastRead (s : State) (c : Nat) : State := setSlice s 1 fun sl => { sl with lastCtx := c }
def succeeds {α : Type} (x : Xl α) : Bool := match x with | .ok _ => true | .err _ => false
def givenBytes (x : State × Xl (List Byte)) (f : State → List Byte → Bool) : Bool := match x with | (s, .ok bs) => f s bs | _ => false
/-- Of LaunchesAndBlocks: doorbells up to the ring's size and beyond; a packet that cannot be read, one with an empty grid, a good one. -/
theorem witness_Launches : HasCtx W 1 0 ∧ (sliceOf W 1).ifst ≠ .error ∧ (ctxOf W 1 0).exists' = true ∧
    ((8 : Word) - (ctxOf W 1 0).head).toNat ≤ 2 ^ (ctxOf W 1 0).desc.lqlog2 ∧ 2 ^ (ctxOf W 1 0).desc.lqlog2 < ((9 : Word) - (ctxOf W 1 0).head).toNat ∧
    (∀ s ∈ [queue 0, queue 1, { queue 1 with mem := [] }], HasCtx s 1 0 ∧ sliceWorks s 1 = true ∧ (launchTable s 1).length < 256 ∧ nextQueue (sliceOf s 1) = some 0) ∧
    errIs (cpRead 1 0 0x8000 128 (lastRead { queue 1 with mem := [] } 0)).2 (.page 0) = true ∧
    givenBytes (cpRead 1 0 0x8000 128 (lastRead (queue 0) 0)) (fun s bs => match (validate s 1 0 bs).2 with | .inl cause => cause == 0x40 | _ => false) = true ∧
    givenBytes (cpRead 1 0 0x8000 128 (lastRead (queue 1) 0)) (fun s bs =>
      match (validate s 1 0 bs).2 with | .inr (gs, _) => gs == [] && (Packet.ofBytes bs).repl == 1 | _ => false) = true := by
  unfold HasCtx; decide +kernel
/-- A packet for two devices goes out before it is checked: one with an empty grid, and a good one. -/
def queue2 (nx : Nat) : State := { vm with mem := memWriteN vm.mem 0x8000 (pkb nx 2) }
def checkedAfter (s : State) (bs : List Byte) (ok : Bool) : Bool :=
  match (validate (replicate s 1 (Packet.ofBytes bs) bs).1 1 0 bs).2 with
  | .inl cause => !ok && cause == 0x40
  | .inr (gs, _) => ok && gs == []
/-- The number that it takes is above the last that the slice took up, or not. -/
theorem witness_Launches_replicated : (sliceOf (queue2 1) 1).lastGen.toNat < ((sliceOf (queue2 1) 1).gen + 1).toNat ∧
    (let s := setSlice (queue2 1) 1 fun sl => { sl with lastGen := 5 }
     ((sliceOf s 1).gen + 1).toNat ≤ (sliceOf s 1).lastGen.toNat) ∧
    (∀ s ∈ [queue2 0, queue2 1], HasCtx s 1 0 ∧ sliceWorks s 1 = true ∧ (launchTable s 1).length < 256 ∧ nextQueue (sliceOf s 1) = some 0) ∧
    givenBytes (cpRead 1 0 0x8000 128 (lastRead (queue2 0) 0)) (fun s bs => (Packet.ofBytes bs).repl == 2 &&
      checkedAfter s bs false) = true ∧
    givenBytes (cpRead 1 0 0x8000 128 (lastRead (queue2 1) 0)) (fun s bs => (Packet.ofBytes bs).repl == 2 &&
      checkedAfter s bs true) = true := by
  unfold HasCtx; decide +kernel
/-- A launch that waits for its first block: it fits beside block 0; it needs four cores with 32 tiles. -/
def awaiting (k : Packet) : State := { W with launches := [lau, { lau with pkt := k, next := 0, order := 1, failSince := some 0 }], clk := 34000 }
def pk1 : Packet := Packet.ofBytes (pkb 1 1)
def pk4 : Packet := { pk1 with threads := 256, parts := 4, tiles := 32 }
theorem witness_Placement : (∀ k ∈ [pk1, pk4], let s := awaiting k
      sliceWorks s 1 = true ∧ (sliceOf s 1).quiesce = none ∧ examined s 1 = [1] ∧ pending s 1 = [1] ∧ 1 < s.launches.length) ∧
    fits (awaiting pk1) (sliceOf W 1) 1 pk1 = some ([0], []) ∧ (launchOf (awaiting pk1) 1).saved = [] ∧ (launchOf (awaiting pk1) 1).repl = none ∧
    pk1.rangesOk = true ∧ pk1.shapeOk = true ∧ 0 < pk1.parts ∧ 0 < pk1.warps ∧ fitsNext (awaiting pk4) (sliceOf W 1) 1 = none ∧
    (launchOf (awaiting pk4) 1).failSince = some 0 ∧ 0 + 34000 ≤ (awaiting pk4).clk ∧ (sliceOf (awaiting pk4) 1).victimQuad = none ∧
    (sliceOf (awaiting pk4) 1).quads = [0] ∧ lowerBlocks (awaiting pk4) 1 0 pk4.prio = [0] ∧ fewest (awaiting pk4) (sliceOf W 1) 1 [0] = some 1 := by
  decide +kernel
/-- Block 0 as a victim at a barrier; with every warp retired; in a halt that discards. -/
def everyWarp (s : State) (f : Warp → Warp) : State := { s with warps := s.warps.map f }
def victim : State := setBlock (everyWarp W fun w => { w with bundles := w.bundles.map fun b => { b with hold := some (.barrier 0 [0]), holdLen := 4 } }) 0 fun b => { b with victim := true }
def retired : State := everyWarp W fun w => { w with retired := true }
def discarding : State := setBlock (everyWarp W fun w => { w with halt := .stopped }) 0 fun b => { b with halt := some ⟨904, true, []⟩ }
theorem witness_BlockEnds :
    (∀ s ∈ [victim, retired, discarding], 0 < s.blocks.length ∧ (blockOf s 0).launch < s.launches.length ∧ (blockOf s 0).status = .resident ∧ (blockOf s 0).twin = none ∧
      (blockOf s 0).stop = none ∧ (blockOf s 0).replMode = 0 ∧ enginesOpen s 0 = false ∧ s.dramErr = [] ∧ blockWarps (blockOf s 0) = [0, 1] ∧
      (∀ w ∈ blockWarps (blockOf s 0), issuedDone s w = true ∧ drained s w = true ∧ (warpOf s w).held = [])) ∧
    recordWaits discarding 0 = false ∧
    (blockOf victim 0).victim = true ∧ blockAtPoint victim 0 = true ∧ blockQuiet victim 0 = true ∧ (blockOf retired 0).halt = none ∧
    (∀ w ∈ blockWarps (blockOf retired 0), (warpOf retired w).retired = true) ∧ (blockOf discarding 0).halt = some ⟨904, true, []⟩ ∧ blockStopped discarding 0 = true := by
  decide +kernel
/-- A launch on two devices that waits for its start. -/
def replicated (t0 : Option Dword) (ready : List (Nat × Dword)) : State :=
  { W with launches := [{ lau with pkt := { pkt with repl := 2 }, repl := some ⟨0, 5, ready, 1000, t0, false⟩ }], blocks := [{ K0 with status := .reserved }] }
theorem witness_Replication :
    (∀ s ∈ [replicated (some 0) [], replicated (some 1) [], replicated none [], replicated none [(0, 5)]],
      0 < s.launches.length ∧ (launchOf s 0).alive = true ∧ ((launchOf s 0).repl.map fun r => (r.dev, r.started)) = some (0, false)) ∧
    (0 : Dword).toNat ≤ timeNs (replicated (some 0) []) ∧ timeNs (replicated (some 1) []) < (1 : Dword).toNat ∧
    ((launchOf (replicated none []) 0).repl.map fun r => (r.t0, r.deadline)) = some (none, 1000) ∧ 1000 ≤ (replicated none []).clk ∧
    1 < (launchOf (replicated none []) 0).pkt.repl ∧ (([(1, (7 : Dword))].map (·.1)).eraseDups).length < 2 ∧
    2 ≤ (([(1, (7 : Dword)), (0, 5)].map (·.1)).eraseDups).length ∧ (∀ y ∈ [(1, (7 : Dword)), (0, 5)], y.2.toNat < 2 ^ 63) ∧
    HasCtx vm 1 0 ∧ sliceWorks vm 1 = true ∧ (ctxOf vm 1 0).exists' = true ∧ (launchTable vm 1).length < 256 ∧
    (match (validate vm 1 0 (pkb 0 2)).2 with | .inl c => c == 0x40 | _ => false) = true ∧
    (match (validate vm 1 0 (pkb 1 2)).2 with | .inr _ => true | _ => false) = true ∧ (sliceOf vm 1).lastGen.toNat < (1 : Dword).toNat ∧
    (0 : Dword).toNat ≤ (sliceOf vm 1).lastGen.toNat := by
  iterate 8 refine ⟨by decide +kernel, ?_⟩
  refine ⟨fun y h => ?_, by unfold HasCtx; decide +kernel⟩
  have : y = (1, 7) ∨ y = (0, 5) := by simpa using h
  rcases this with h | h <;> subst h <;> decide

/-- A context that only DESTROY leaves: it takes no replicated packet, and its launches do not start. -/
def stoppedCtx (s : State) : State := setCtx s 1 0 fun c => { c with stopped := true }
theorem witness_Replication_stopped : sliceWorks (stoppedCtx vm) 1 = true ∧ (ctxOf (stoppedCtx vm) 1 0).stopped = true ∧ (ctxOf vm 1 0).stopped = false ∧
    (ctxOf (replicated (some 0) []) (launchOf (replicated (some 0) []) 0).vf (launchOf (replicated (some 0) []) 0).ctx).stopped = false ∧
    (sliceOf (replicated none []) (launchOf (replicated none []) 0).vf).ifst ≠ .error ∧
    sliceWorks (replicated (some 0) []) 1 = true ∧ sliceWorks (setSlice (replicated (some 0) []) 1 fun sl => { sl with ifst := .error }) 1 = false := by decide +kernel

/-! #### Records and debug -/

def rec0 : List Byte := 0x55 :: List.replicate 63 0
def recording (n : Word) (s : State) : State := setCtx s 1 0 fun c => { c with fqPend := [([rec0], .none)], fqCount := n }
def unit0 : TraceUnit := { TraceUnit.reset with ctl := 1, waiting := [List.replicate 32 0x77], buf := 0x200000, lostFlag := true }
def tracing : State := setSlice vm 1 fun sl => { sl with trace := modAt sl.trace 3 fun _ => unit0 }
def claimed : State := setSlice W 1 fun sl => { sl with trchold := 8, hvheld := [(3, List.replicate 32 0x77)], hvbuf := 0x200001 }
theorem witness_Records : HasCtx (recording 0 vm) 1 0 ∧ HasCtx (recording 0 unmapped) 1 0 ∧
    (∀ s ∈ [recording 0 vm, recording 1024 vm, recording 0 unmapped], (ctxOf s 1 0).fqPend = ([rec0], .none) :: []) ∧
    1024 ≤ ((ctxOf (recording 1024 vm) 1 0).fqCount - (ctxOf vm 1 0).fqRead).toNat ∧ ((ctxOf (recording 0 vm) 1 0).fqCount - (ctxOf vm 1 0).fqRead).toNat < 1024 ∧
    succeeds (cpWrite (tellOwner (setCtx (recording 0 vm) 1 0 fun x => { x with fqPend := [] }) 0 .none) 1 0 (2 ^ 28 - 65536) rec0).2 = true ∧
    succeeds (cpWrite (tellOwner (setCtx (recording 0 unmapped) 1 0 fun x => { x with fqPend := [] }) 0 .none) 1 0 (0 + 0 - 65536) rec0).2 = false ∧
    1 < tracing.slices.length ∧ 3 < (sliceOf tracing 1).trace.length ∧ (sliceOf tracing 1).trchold.getLsbD 3 = false ∧
    ((sliceOf tracing 1).trace.getD 3 TraceUnit.reset).waiting = List.replicate 32 0x77 :: [] ∧
    succeeds (cpWrite tracing 1 0 0x200000 (0x77 :: 0x77 :: List.replicate 30 0x77)).2 = true ∧
    (sliceOf claimed 1).trchold.getLsbD 3 = true ∧ (sliceOf claimed 1).hvheld = (3, List.replicate 32 0x77) :: [] ∧ claimed.hostMem.wf = true := by
  unfold HasCtx; decide +kernel
/-- A park on record 6 of the context's fault queue, of a bundle and of a copy. -/
def parkedAt : State :=
  { bundled [{ B0 with hold := some (.page 6 false false), holdLen := 8 }] with ops := [{ op0 (startedOn .cpy0 copying) with parked := some (6, false) }] }
theorem witness_ContextRegisters : HasCtx W 1 0 ∧ ((ctxOf W 1 0).fqCount - (0 : Word)).toNat ≤ 1024 ∧ bankHeld bankHeldState 1 0 = true ∧ bankHeld W 1 0 = false ∧
    4 < ((5 : Dword).extractLsb' 0 16).toNat ∧ ((4 : Dword).extractLsb' 0 16).toNat ≤ 4 ∧ (ctxOf parkedAt 1 0).run ≠ .suspended ∧
    (blockOf parkedAt (warpOf parkedAt 0).blk).vf = 1 ∧ (blockOf parkedAt (warpOf parkedAt 0).blk).ctx = 0 ∧ (blockOf parkedAt (warpOf parkedAt 0).blk).twin = none ∧
    0 ∈ blockWarps (blockOf parkedAt (warpOf parkedAt 0).blk) ∧ (warpOf parkedAt 0).blk < parkedAt.blocks.length ∧
    bundleOf (warpOf parkedAt 0) 0 = some { B0 with hold := some (.page 6 false false), holdLen := 8 } ∧ counterpart parkedAt 0 = none ∧
    (parkedAt.ops.map fun o => (o.vf, o.ctx, o.parked)) = [(1, 0, some (6, false))] ∧ 6 < ((7 : Dword).extractLsb' 0 32 : Word).toNat ∧
    (let s := setCtx parkedAt 1 0 fun c => { c with run := .stopping }
     (ctxOf s 1 0).run = .stopping ∧ (blockOf s 0).status = .resident ∧ replayPcs (warpOf s 0) ((7 : Dword).extractLsb' 0 32 : Word).toNat ≠ []) ∧
    (ctxOf (setCtx W 1 0 fun c => { c with run := .suspended }) 1 0).run = .suspended := by unfold HasCtx; decide +kernel
theorem witness_ContextRegisters_counterpart : ∀ x, counterpart parkedAt x ≠ some 0 := by
  intro x
  have : ∀ b ∈ parkedAt.blocks, b.twin = none := by decide +kernel
  unfold counterpart
  have h : (blockOf parkedAt (warpOf parkedAt x).blk).twin = none := by
    unfold blockOf
    rw [List.getD_eq_getElem?_getD]
    rcases h : parkedAt.blocks[(warpOf parkedAt x).blk]? with _ | b
    · rfl
    · exact this b (List.mem_of_getElem? h)
  simp [h]
/-- A debugger's breakpoint at the PC of warp 0; block 0 stopped, dumped or not, or with a result on its way; stepped. -/
def broken : State := setCtx debugging 1 0 fun c => { c with dbgbp := [0, 0, 0, 0x8000000000001000] }
def stopped (dumped : Bool) (s : State) : State := setBlock s 0 fun b => { b with stop := some ⟨0, [], dumped⟩ }
def busyWarp : State := setWarp debugging 0 fun w => { w with pend := [⟨1, [0], 0, 0, some 1001, none⟩] }
def stepping : State := setBlock (everyWarp debugging fun w => { w with bundles := w.bundles.map fun b => { b with hold := some (.barrier 0 [0]) } }) 0 fun b =>
  { b with step := some ⟨[(0, 0)], [(0, 0)]⟩ }
def haltedAs (st : Option Stop) : State :=
  setBlock (everyWarp debugging fun w => { w with halt := .stopped }) 0 fun b => { b with halt := some ⟨904, false, [(0, 0)]⟩, stop := st }
theorem witness_Debug_halts :
    (∀ s ∈ [haltedAs none, haltedAs (some ⟨2, [], false⟩), haltedAs (some ⟨4, [], false⟩)], 0 < s.blocks.length ∧ (blockOf s 0).status = .resident ∧
      (ctxOf s (blockOf s 0).vf (blockOf s 0).ctx).desc.dbg = true ∧ (sliceOf s (blockOf s 0).vf).ifst ≠ .error ∧ blockStopped s 0 = true ∧ blockDone s 0 = true ∧
      (blockOf s 0).halt = some ⟨904, false, [(0, 0)]⟩) ∧
    (∀ w ∈ blockWarps (blockOf (stopped true debugging) 0), ∀ x ∈ (warpOf (stopped true debugging) w).bundles, dqWait x = false) ∧
    (ctxOf (stopped true debugging) 1 0).stopped = false ∧ (ctxOf (stoppedCtx debugging) 1 0).stopped = true := by decide +kernel
theorem witness_Debug :
    (∀ s ∈ [broken, stopped false debugging, stopped true debugging, stopped false busyWarp, stepping, debugging], 0 < s.blocks.length ∧ (blockOf s 0).vf = 1 ∧
      (blockOf s 0).ctx = 0 ∧ (blockOf s 0).status = .resident ∧ (blockOf s 0).twin = none ∧ (blockOf s 0).halt = none ∧ (ctxOf s 1 0).desc.dbg = true ∧ (warpOf s 0).blk = 0) ∧
    bundleOf (warpOf broken 0) 0 = some B0 ∧ (blockOf broken 0).stop = none ∧
    ((ctxOf broken 1 0).dbgbp.any fun r => r.getLsbD 63 && r.extractLsb' 2 50 == (pcOf (warpOf broken 0) B0).extractLsb' 2 50) = true ∧
    (blockOf (stopped false debugging) 0).stop = some ⟨0, [], false⟩ ∧ blockDone (stopped false debugging) 0 = true ∧ HasCtx (stopped false debugging) 1 0 ∧
    blockDone (stopped false busyWarp) 0 = false ∧ (blockOf stepping 0).step = some ⟨[(0, 0)], [(0, 0)]⟩ ∧ stepIdle stepping (0, 0) = true ∧ blockDone stepping 0 = true ∧
    freeToGo (stopped true debugging) 1 0 = [0] ∧ freeToGo debugging 1 0 = [] ∧ (blockOf (stopped true debugging) 0).stop = some ⟨0, [], true⟩ ∧ (ctxOf W 1 0).desc.dbg = false := by
  unfold HasCtx; decide +kernel

/-! #### The mailbox and slices -/

/-- Every channel swept; VF 1 suspended, with quads, with an IMAGE session of its own; VF 2 holds quad 1. -/
def swept : State := { W with channels := W.channels.map fun c => { c with pend := false } }
def suspendedOn (quads : List Nat) : State := setSlice (setCtx W 1 0 fun c => { c with run := .suspended }) 1 fun sl => { sl with quads }
def beside : State := setSlice (suspendedOn [0]) 2 fun sl => { sl with used := true, quads := [1] }
def sealing : State :=
  let s := setSlice (suspendedOn [0]) 1 fun sl => { sl with slpolicy := 0x0601FFFF, slicemap := modAt sl.slicemap 1023 fun _ => 0x802F }
  { s with sessions := modAt s.sessions 0 fun x => { x with secured := true } }
/-- The image of granule 1023, and one of the state with a context; after a cleared slice, written at PFADDR. -/
def img : Image := ⟨7, 16384, false, 1023, [(0x3FFFFFFF, 5)], [], [], [], [], [], [], [], [], [], [], [], 0, sliceCounts (sliceOf W 1), sealing.sessionCount⟩
def stateImg (n : Counts) : Image := { img with isState := true, counts := n, ctxs := [{ ctxOf W 1 0 with counts := n }] }
def noCtx : State := setCtx sealing 1 0 fun c => { c with exists' := false }
def fewer : Counts := sliceCounts (sliceOf W 1)
def more : Counts := { fewer with cores := 5 }
def lockedSlice (st : IfSt) : State := setSlice W 1 fun sl => { sl with ifst := st }
theorem witness_Mailbox :
    (∀ s ∈ [W, { W with pfBusy := true }, { W with stage := 1 }, swept, suspendedOn [0], beside, suspendedOn [0, 1], sealing, lockedSlice .run],
      s.slices.length = 17 ∧ s.channels.length = 384) ∧ W.stage = 2 ∧ W.pfBusy = false ∧ (sliceOf W 2).used = false ∧
    (List.range 16).filter (2 : Half).getLsbD = [1] ∧ (∀ sl ∈ swept.slices, sl.used = true → 1 ∉ sl.quads) ∧ (∀ c ∈ quadChans 1, (chanReg swept c).pend = false) ∧
    (sliceOf W 1).used = true ∧ (sliceOf W 1).resetting = none ∧ W.sharedFail = false ∧ (∀ k ∈ (sliceOf W 1).quads, k < 16) ∧
    ({ W with sharedFail := true }).sharedFail = true ∧ (sliceOf (lockedSlice .error) 1).used = true ∧ (sliceOf (lockedSlice .error) 1).ifst = .error ∧
    HasCtx W 1 0 ∧ Serves W 1 ∧ (sliceOf W 1).quiesce = none ∧ (ctxOf W 1 0).exists' = true ∧ (ctxOf W 1 0).run = .running ∧
    HasCtx (suspendedOn [0]) 1 0 ∧ Serves (suspendedOn [0]) 1 ∧ (ctxOf (suspendedOn [0]) 1 0).run = .suspended ∧ (sliceOf (suspendedOn [0]) 1).quiesce = none ∧
    offers (sliceOf W 1) fewer = true ∧ offers (sliceOf W 1) more = false := by
  unfold HasCtx Serves; decide +kernel
theorem witness_Mailbox_shapes :
    Serves beside 1 ∧ (sliceOf beside 2).used = true ∧ (sliceOf beside 2).ifst = .unlocked ∧ (sliceOf beside 2).resetting = none ∧
    (∀ c ∈ (sliceOf beside 2).ctxs, c.exists' = false) ∧ suspended (sliceOf beside 1) = true ∧ (sliceOf beside 1).quiesce = none ∧ (sliceOf beside 2).quiesce = none ∧
    policyAdmits (sliceOf beside 1) [0, 1] = true ∧ Serves (suspendedOn [0, 1]) 1 ∧ (sliceOf (suspendedOn [0, 1]) 2).used = false ∧
    suspended (sliceOf (suspendedOn [0, 1]) 1) = true ∧ (suspendedOn [0, 1]).ops = [] ∧ (sliceOf (suspendedOn [0, 1]) 1).quads = [0, 1] ∧
    ((sliceOf (suspendedOn [0, 1]) 1).slicemap.any fun e => e.getLsbD 15) = false ∧ policyAdmits (sliceOf (suspendedOn [0, 1]) 1) [0] = true ∧
    Serves sealing 1 ∧ suspended (sliceOf sealing 1) = true ∧ migrating sealing = true ∧ (sliceOf sealing 1).slpolicy.getLsbD 26 = true ∧
    granuleBase (sliceOf sealing 1) 1023 = some (47 * 2 ^ 30) ∧
    img.granule.wf = true ∧ (∀ c ∈ img.granule, c.1 < 2 ^ 30) ∧ sealing.mem.wf = true ∧ sealing.hostMem.wf = true ∧
    Serves (lockedSlice .run) 1 ∧ (sliceOf (lockedSlice .run) 1).ifst = .run ∧ (sliceOf W 1).ifst = .unlocked ∧ suspended (sliceOf W 1) = false ∧
    ((W.slices.filter fun sl => sl.vf != 1).map (·.allow)).sum + 256 ≤ 256 ∧ 0 < W.slices.length := by
  unfold Serves; decide +kernel
/-- An IMPORT that finds a granule, one that finds the state, and one that finds the other of the two. -/
theorem witness_Mailbox_imports :
    importable (putImage sealing img) 1023 = some img ∧ importable (putImage noCtx img) 0xFFFFFFFF = none ∧
    (∀ n, importable (putImage noCtx (stateImg n)) 0xFFFFFFFF = some (stateImg n)) ∧ importable (putImage sealing (stateImg more)) 1023 = none := by
  refine ⟨?_, ?_, fun n => ?_, ?_⟩ <;> rw [importable_putImage (by decide +kernel) (by rfl)] <;> rfl
theorem witness_Mailbox_images :
    (∀ s ∈ [putImage sealing img, putImage noCtx img, putImage noCtx (stateImg fewer), putImage sealing (stateImg more)],
      Serves s 1 ∧ suspended (sliceOf s 1) = true ∧ migrating s = true ∧ (sliceOf s 1).slpolicy.getLsbD 26 = true ∧ s.mem.wf = true ∧
      granuleBase (sliceOf s 1) 1023 = some (47 * 2 ^ 30)) ∧ liveCtxs (sliceOf (putImage noCtx (stateImg fewer)) 1) = [] ∧ liveCtxs (sliceOf sealing 1) ≠ [] ∧
    (∀ c ∈ (stateImg fewer).ctxs, offers (sliceOf (putImage noCtx (stateImg fewer)) 1) c.counts = true ∧ HasCtx (putImage noCtx (stateImg fewer)) 1 c.n) ∧
    ((stateImg fewer).ctxs.map (·.n)).Nodup ∧ offers (sliceOf (putImage noCtx (stateImg more)) 1) (stateImg more).counts = false ∧
    offers (sliceOf (putImage noCtx (stateImg fewer)) 1) (stateImg fewer).counts = true := by
  unfold Serves HasCtx; decide +kernel
/-- A RELEASE of VF 1, and a MERGE of VF 2 into VF 1, whose last channel's sweep has ended. -/
def lastSweep (s : State) (q : Nat) : State := setChan s ((quadChans q).headD 0) fun c => { c with pend := true, sweep := some 1000 }
def releasing : State := setSlice (lastSweep swept 0) 1 fun sl => { sl with resetting := some true }
def merging : State := { setSlice (lastSweep { beside with channels := swept.channels.map fun c => { c with sweep := none } } 1) 2 fun sl => { sl with resetting := some true } with pfShape := some (.merge 1 2) }
theorem witness_Mailbox_ends :
    (∀ s ∈ [releasing, merging], s.slices.length = 17 ∧ s.channels.length = 384) ∧
    (chanReg releasing ((quadChans 0).headD 0)).sweep = some 1000 ∧ 1000 ≤ releasing.clk ∧ (sliceOf releasing 1).resetting = some true ∧ releasing.pfShape = none ∧
    (∀ k ∈ (sliceOf releasing 1).quads, ∀ c ∈ quadChans k, c ≠ (quadChans 0).headD 0 → (chanReg releasing c).pend = false) ∧
    (chanReg merging ((quadChans 1).headD 0)).sweep = some 1000 ∧ 1000 ≤ merging.clk ∧ merging.pfShape = some (.merge 1 2) ∧ (sliceOf merging 1).resetting = none ∧
    ∀ k ∈ (sliceOf merging 2).quads, k < 16 ∧ ∀ c ∈ quadChans k, c ≠ (quadChans 1).headD 0 → (chanReg merging c).sweep = none := by decide +kernel
/-- A SPLIT of quad 0 to VF 2 whose scrub is over, is not, or whose slice is in ERROR as its operations end. -/
def splitting (s : State) (scrub : Bool) : State := { s with pfShape := some (.split 1 1 2 scrub), pfBusy := true }
theorem witness_Mailbox_split : (∀ s ∈ [splitting swept true, splitting W true, splitting (lockedSlice .error) false],
      s.slices.length = 17 ∧ s.channels.length = 384 ∧ (sliceOf s 2).used = false ∧ ∀ v, v < 17 → (sliceOf s v).vf = v) ∧
    (List.range 16).filter (1 : Half).getLsbD = [0] ∧ (∀ c ∈ quadChans 0, (chanReg (splitting swept true) c).pend = false) ∧
    (∃ c ∈ quadChans 0, (chanReg (splitting W true) c).pend = true) ∧ (sliceOf (splitting (lockedSlice .error) false) 1).ifst = .error := by decide +kernel
/-- Arguments of SETALLOW, SETROUTE, SETMAP, SETPEER and SETRUN at the ends of their ranges; another slice that holds one unit. -/
theorem witness_Mailbox_arguments : ((256 : Word).extractLsb' 0 9).toNat = 256 ∧ (0x1FFFF : Word).toNat < 2 ^ 17 ∧ (0xFFFFFF : Dword).toNat < 2 ^ 24 ∧
    ((0x003F4000 : Word).extractLsb' 16 6).toNat = 63 ∧ (0x003F4000 : Word).getLsbD 15 = false ∧ (0x003F4000 : Word).toNat < 2 ^ 22 ∧
    63 < (sliceOf (suspendedOn [0]) 1).peers.length ∧ ((64 : Word).extractLsb' 0 7).toNat ≤ 64 ∧
    (let s := setSlice W 2 fun sl => { sl with allow := 1 }
     256 < (((s.slices.filter fun sl => sl.vf != 1).map (·.allow)).sum) + ((256 : Word).extractLsb' 0 9).toNat) := by decide +kernel
/-- A quiesce of context 0: still to be waited for, at its deadline, with everything at rest. -/
def quiescing (r : RunSt) (s : State) : State :=
  setSlice (setCtx s 1 0 fun c => { c with run := r, dusk := true }) 1 fun sl => { sl with quiesce := some ⟨[0], true, 1000, none⟩ }
theorem witness_Mailbox_quiesce :
    (∀ s ∈ [quiescing .quiescing victim, quiescing .stopping victim], HasCtx s 1 0 ∧ (sliceOf s 1).ifst ≠ .error ∧ (sliceOf s 1).quiesce = some ⟨[0], true, 1000, none⟩ ∧
      (ctxOf s 1 0).exists' = true ∧ s.ops = [] ∧ residentOf s 1 [0] = [0] ∧ blockAtPoint s 0 = true ∧ blockQuiet s 0 = true) ∧
    (ctxOf (quiescing .quiescing victim) 1 0).run = .quiescing ∧ (ctxOf (quiescing .stopping victim) 1 0).run = .stopping ∧
    1000 ≤ (quiescing .quiescing victim).clk ∧ { quiescing .quiescing victim with clk := 999 }.clk < 1000 := by unfold HasCtx; decide +kernel

/-! #### Requests of the host, and the security processor -/

/-- A context to be made from the descriptor at IA 0x8000; an object at VA 0x8000. -/
def descriptor (lqlog2 : Byte) : List Byte :=
  List.replicate 16 0 ++ [lqlog2] ++ List.replicate 7 0 ++ bytesOf 8 (2 ^ 22) ++ bytesOf 8 (2 ^ 22) ++ bytesOf 8 0 ++ bytesOf 8 (2 ^ 28) ++ bytesOf 8 0 ++ bytesOf 8 4096 ++
  List.replicate 56 0
def making (lqlog2 : Byte) : State :=
  let s := setCtx { vm with mem := memWriteN vm.mem 0x8000 (descriptor lqlog2) } 1 0 fun c => { c with exists' := false }
  setSlice s 1 fun sl => { sl with ctxdesc := 0x8000 }
def object (abi : Byte) : List Byte :=
  bytesOf 4 0x36534B5A ++ [1, abi, 0xFF, 0] ++ bytesOf 2 0 ++ bytesOf 2 1 ++ bytesOf 4 256 ++ bytesOf 4 128 ++ bytesOf 4 64 ++ bytesOf 8 0 ++ bytesOf 4 192 ++
  List.replicate 92 0 ++ List.replicate 64 0 ++ (bytesOf 4 128 ++ bytesOf 4 0xFFFFFFFF ++ bytesOf 4 0 ++ bytesOf 2 64 ++ [1, 40, 32, 0, 4, 0] ++ bytesOf 2 16 ++ List.replicate 10 0) ++
  List.replicate 32 0
def loadable (abi : Byte) : State :=
  setSlice { vm with mem := memWriteN vm.mem 0x8000 (object abi) } 1 fun sl => { sl with loadaddr := 0x8000 }
def descIs (x : State × Option (List Byte)) (ok : Bool) : Bool := match x with | (_, some bs) => descOk bs == ok | _ => false
theorem witness_Contexts :
    (∀ s ∈ [W, making 16, making 17, loadable 2, loadable 3], s.stage = 2 ∧ HasCtx s 1 0 ∧ Serves s 1) ∧ (ctxOf W 1 0).exists' = true ∧
    (ctxOf (making 16) 1 0).exists' = false ∧ descIs (readDesc (making 16) 1 0) true = true ∧ descIs (readDesc (making 17) 1 0) false = true := by
  unfold HasCtx Serves; decide +kernel
theorem witness_CodeLoad : (ctxOf (loadable 2) 1 0).exists' = true ∧ 0x8000 % 256 = 0 ∧
    givenBytes (cpRead 1 0 0x8000 128 (loadable 2)) (fun s h => headerStatus 0x11 h == 0 &&
      givenBytes (cpRead 1 0 0x8000 (fieldOf h 0x0C 4) s) fun _ bs => objectStatus bs == 0) = true ∧
    givenBytes (cpRead 1 0 0x8000 128 (loadable 3)) (fun _ h => headerStatus 0x11 h == 2) = true := by decide +kernel
theorem witness_HostAndSecurity : State.reset.stage = 0 ∧ W.stage = 2 ∧ (sliceOf W 1).used = true ∧ 63 < 64 ∧ (sliceOf W 1).ifst = .unlocked ∧
    (sliceOf (lockedSlice .run) 1).ifst = .run ∧ (sliceOf (lockedSlice .run) 1).locklog.length < 16 ∧ 1 < W.slices.length ∧
    ({ W with pfRegs := [(0x10, 7)] }.pfRegs.find? (·.1 == 0x10)) = some (0x10, 7) ∧
    1 < W.sessions.length ∧ (sliceOf W 1).resetting = none ∧ (sliceOf (lockedSlice .locked) 1).ifst = .locked ∧
    (sliceOf (setSlice (lockedSlice .locked) 1 fun sl => { sl with ide := true }) 1).ide = true ∧ (sliceOf W 1).ide = false ∧ (∀ k ∈ (sliceOf W 1).quads, k < 16) ∧
    W.channels.length = 384 ∧ W.sharedFail = false ∧ (W.sessions.getD 1 Session.none) = Session.none ∧ Session.none.version = false ∧ Session.none.caps = false ∧
    Session.none.algs = false ∧ Session.none.secured = false ∧ Session.none.pendingKex = false := by decide +kernel
def talking : State := { W with sessions := modAt W.sessions 1 fun _ => ⟨true, true, true, true, true⟩ }
theorem witness_Security : let z := talking.sessions.getD 1 Session.none
    z.version = true ∧ z.caps = true ∧ z.algs = true ∧ z.secured = true ∧ z.pendingKex = true ∧ (ctxOf talking 1 0).exists' = true := by decide +kernel

/-! #### Power, resets and errors -/

def off : State := { W with powered := false }
def sweeping (t : Nat) : State := { W with channels := modAt W.channels 0 fun c => { c with sweep := some t } }
def leaving : State := setSlice W 1 fun sl => { sl with lcores := [] }
theorem witness_Power : off.powered = false ∧ W.powered = true ∧ State.reset.powered = true ∧ State.reset.stage = 0 ∧
    (let s := { swept with stage := 1 }
     s.powered = true ∧ s.stage = 1 ∧ s.recovery = false ∧ ∀ c ∈ s.channels, c.pend = false) ∧ (∃ c ∈ W.channels, c.pend = true) ∧
    1 < W.slices.length ∧ (sliceOf W 1).used = true ∧ (sliceOf W 1).resetting = none ∧ (sliceOf W 1).ifst = .unlocked ∧ (sliceOf (lockedSlice .locked) 1).ifst = .locked ∧
    (chanReg (sweeping 1000) 0).sweep = some 1000 ∧ 1000 ≤ (sweeping 1000).clk ∧ (chanReg (sweeping 1001) 0).sweep = some 1001 ∧ (sweeping 1001).clk < 1001 ∧
    Serves W 1 ∧ (∀ k, k < 32 → quadOf (0 + k) ∈ (sliceOf W 1).quads) ∧ W.dramErr = [] ∧ (coreOf leaving 63).inService = true ∧ 63 < leaving.cores.length ∧
    (∀ sl ∈ leaving.slices, sl.used = true → 63 ∉ sl.lcores) ∧ leaving.stage ≠ 0 ∧ (warpOf W 0).core < W.cores.length ∧ (W.clk :: (coreOf W (warpOf W 0).core).recent.filter fun x => decide (W.clk < x + 1700000000)).length ≤ 1000 ∧
    W.cores.length = 64 ∧ (∀ c, c < 64 → (coreOf W c).n = c) ∧ (∃ sl ∈ { releasing with pfBusy := true }.slices, sl.resetting = some true) ∧
    0 < 768 * 2 ^ 24 := by unfold Serves; decide +kernel
/-- HBM training or a core's self-test still under way, and over. -/
def training (t : Nat) : State := { swept with stage := 1, startup := [1000, t] }
/-- A core that has corrected 1,000 errors in the second before, and serves no slice; a line in L2 and one in the memory-side cache, with
and without something to write back. -/
def worn : State := setCore leaving 0 fun c => { c with recent := List.replicate 1000 0 }
def heldLine (l2 dirt : Bool) : State :=
  { W with lines := [⟨128, if l2 then some 0 else none, if l2 && dirt then 2 else 0, false, !l2, !l2 && dirt, false⟩] }
theorem witness_Errors :
    (training 1000).powered = true ∧ (training 1000).stage = 1 ∧ (training 1000).recovery = false ∧ (∀ c ∈ (training 1000).channels, c.pend = false) ∧
    (∀ x ∈ (training 1000).startup, x ≤ (training 1000).clk) ∧ (∃ x ∈ (training 1001).startup, (training 1001).clk < x) ∧
    (warpOf worn 0).core < worn.cores.length ∧ 1000 < (worn.clk :: (coreOf worn (warpOf worn 0).core).recent.filter fun x => decide (worn.clk < x + 1700000000)).length ∧ (coreOf worn (warpOf worn 0).core).inService = true ∧
    (∀ sl ∈ worn.slices, sl.used = true → (warpOf worn 0).core ∉ sl.lcores) ∧ worn.stage ≠ 0 ∧ W.lines = [] ∧
    (∀ l2 ∈ [true, false], ∀ dirt ∈ [true, false], heldIn (heldLine l2 dirt) 128 l2 = true ∧ heldIn (heldLine l2 dirt) 128 (!l2) = false ∧
      dirtyIn (heldLine l2 dirt) 128 l2 none = dirt ∧ dirtyIn (heldLine l2 dirt) (1025 / 8) l2 (some (1025 % 8)) = dirt ∧
      ((heldLine l2 dirt).slices.find? fun sl => sl.used && sl.quads.contains (quadOf (128 * 256))) = some (sliceOf (heldLine l2 dirt) 1)) ∧
    1 < W.slices.length ∧ (sliceOf W 1).ifst ≠ .error ∧ (sliceOf W 1).resetting = none ∧ (sliceOf W 1).vf = 1 ∧
    rowCount { W with activ := [(383, 0, 5, 1024)] } 383 0 5 = 1024 ∧ rowCount { W with activ := [(383, 0, 5, 1023)] } 383 0 5 = 1023 ∧
    (State.reset.pfRegs.find? (·.1 == 8)) = none ∧ W.stage ≠ 0 := by decide +kernel
/-- Errors of the first codeword of line 0: in one symbol, and in forty. -/
def faulty (n : Nat) : State := { W with dramErr := [(4 * 0, List.replicate n 0x55 ++ List.replicate (80 - n) 0)] }
theorem witness_Patrol : (∀ n ∈ [1, 40], (faulty n).stage = 2 ∧ (List.replicate n (0x55 : Byte) ++ List.replicate (80 - n) 0).length = 80 ∧ chanOf (0 * 256) < (faulty n).channels.length) ∧
    (match eccDecode (List.replicate 1 0x55 ++ List.replicate 79 0) with | .corrected _ _ => true | _ => false) = true ∧
    (match eccDecode (List.replicate 40 0x55 ++ List.replicate 40 0) with | .uncorrectable => true | _ => false) = true ∧
    383 < W.channels.length ∧ { W with activ := [(383, 0, 5, 1024)] }.activ = [(383, 0, 5, 1024)] ∧ 1024 ≤ 1024 ∧ 1023 < 1024 := by decide +kernel
end Sys2Proof.Tests
end

section
/-! PROOF. Integer arithmetic, division, logic and shifts (R155 to R160), and the cross-lane instructions (R172 to R177): each gives
every active lane the results of its entry. -/

namespace Sys2Proof.Machine
open Sys2Proof.Safety

/-! ### What the dispatch runs -/

section
variable (h : Hdr) (o : IOp) (s : State)
theorem exec_nop : exec (.nop h) s = execNop h s := rfl
theorem exec_iadd : exec (.iadd h o) s = execIadd h o s := rfl
theorem exec_isub : exec (.isub h o) s = execIsub h o s := rfl
theorem exec_imul : exec (.imul h o) s = execImul h o s := rfl
theorem exec_imulh : exec (.imulh h o) s = execImulh h o s := rfl
theorem exec_imad : exec (.imad h o) s = execImad h o s := rfl
theorem exec_imadw : exec (.imadw h o) s = execImadw h o s := rfl
theorem exec_idiv : exec (.idiv h o) s = execIdiv h o s := rfl
theorem exec_irem : exec (.irem h o) s = execIrem h o s := rfl
theorem exec_ineg : exec (.ineg h o) s = execIneg h o s := rfl
theorem exec_iabs : exec (.iabs h o) s = execIabs h o s := rfl
theorem exec_imin : exec (.imin h o) s = execImin h o s := rfl
theorem exec_imax : exec (.imax h o) s = execImax h o s := rfl
theorem exec_iclamp : exec (.iclamp h o) s = execIclamp h o s := rfl
theorem exec_lea : exec (.lea h o) s = execLea h o s := rfl
theorem exec_idot4 : exec (.idot4 h o) s = dotRes h o 4 8 s := rfl
theorem exec_idot2 : exec (.idot2 h o) s = dotRes h o 2 16 s := rfl
theorem exec_and : exec (.and h o) s = execAnd h o s := rfl
theorem exec_or : exec (.or h o) s = execOr h o s := rfl
theorem exec_xor : exec (.xor h o) s = execXor h o s := rfl
theorem exec_not : exec (.not h o) s = execNot h o s := rfl
theorem exec_shl : exec (.shl h o) s = execShl h o s := rfl
theorem exec_shr : exec (.shr h o) s = execShr h o s := rfl
theorem exec_sar : exec (.sar h o) s = execSar h o s := rfl
theorem exec_shf : exec (.shf h o) s = execShf h o s := rfl
theorem exec_rotl : exec (.rotl h o) s = execRotl h o s := rfl
theorem exec_bfe : exec (.bfe h o) s = execBfe h o s := rfl
theorem exec_bfi : exec (.bfi h o) s = execBfi h o s := rfl
theorem exec_popc : exec (.popc h o) s = execPopc h o s := rfl
theorem exec_clz : exec (.clz h o) s = execClz h o s := rfl
theorem exec_ctz : exec (.ctz h o) s = execCtz h o s := rfl
theorem exec_brev : exec (.brev h o) s = execBrev h o s := rfl
theorem exec_btab3 (k : TabOp) : exec (.btab3 h k) s = execBtab3 h k s := rfl
theorem exec_shfl (o : ShflOp) : exec (.shfl h o) s = execShfl h o s := rfl
theorem exec_rstep (o : RstepOp) : exec (.rstep h o) s = execRstep h o s := rfl
theorem exec_vote (o : VoteLaneOp) : exec (.vote h o) s = execVote h o s := rfl
theorem exec_matchLanes (o : MatchOp) : exec (.matchLanes h o) s = execMatchLanes h o s := rfl
theorem exec_bcast (o : BcastOp) : exec (.bcast h o) s = execBcast h o s := rfl
theorem exec_first (o : DaOp) : exec (.first h o) s = execFirst h o s := rfl
theorem exec_wred (o : RedLaneOp) : exec (.wred h o) s = execWred h o s := rfl
theorem exec_scan (o : RedLaneOp) : exec (.scan h o) s = execScan h o s := rfl
end

/-- A computation that gives each active lane the results of a rule does what the rule says. -/
theorem does_of_compute {s : State} {w : Nat} {bn : Bundle} {len : Nat} (h : Issuing s w bn len) (hd : Hdr) {i : Instr}
    {lat : Nat} {dst : Bool → List Nat} {F : Bool → Thread → LaneRes} {f : Thread → LaneRes}
    (hi : exec i s = compute s hd lat dst F) (hF : ∀ t, F (warpOf s w).lead t = f t) : Does s w bn len hd i f := by
  obtain rfl : F (warpOf s w).lead = f := funext hF
  unfold Does
  rw [hi]
  exact computes_of_issuing h (hdrGuard hd) hd.yh hd.la.toNat lat (fun i => dst i.lead) fun i _ t => F i.lead t

/-! ### Integer results -/

theorem intTy_width_pos (ty : IntTy) : 0 < ty.width := by cases ty <;> decide
theorem intTy_width_le (ty : IntTy) : ty.width ≤ 64 := by cases ty <;> decide

/-- A remainder of 2^(k+1) read in two's complement. -/
theorem bmod_two_pow_succ (x : Int) (k : Nat) :
    Int.bmod x (2 ^ (k + 1)) = if 2 ^ k ≤ x % 2 ^ (k + 1) then x % 2 ^ (k + 1) - 2 ^ (k + 1) else x % 2 ^ (k + 1) := by
  have half : (((2 ^ (k + 1) : Nat) : Int) + 1) / 2 = 2 ^ k := by push_cast; omega
  rw [Int.bmod_def, half]
  push_cast
  split <;> split <;> omega

/-- A number below 2^w read in two's complement. -/
theorem bmod_natCast_of_lt {w u : Nat} (hw : 0 < w) (h : u < 2 ^ w) :
    Int.bmod u (2 ^ w) = if 2 ^ (w - 1) ≤ u then (u : Int) - 2 ^ w else u := by
  obtain ⟨k, rfl⟩ := Nat.exists_eq_succ_of_ne_zero hw.ne'
  have hu : (u : Int) % 2 ^ (k + 1) = u := by exact_mod_cast Nat.mod_eq_of_lt h
  rw [Nat.succ_eq_add_one, bmod_two_pow_succ, hu, Nat.add_sub_cancel]
  norm_cast

theorem tyRes_eq_inType (ty : IntTy) (x : Int) : tyRes ty x = inType ty x := by
  have hw := intTy_width_pos ty
  have h0 : 0 ≤ x % 2 ^ ty.width := Int.emod_nonneg x (by positivity)
  have hlt : x % 2 ^ ty.width < 2 ^ ty.width := Int.emod_lt_of_pos x (by positivity)
  obtain ⟨m, hm⟩ := Int.eq_ofNat_of_zero_le h0
  have hmod : Int.bmod x (2 ^ ty.width) = Int.bmod m (2 ^ ty.width) := by
    rw [← hm]; exact_mod_cast (Int.emod_bmod x (2 ^ ty.width)).symm
  have hmlt : m < 2 ^ ty.width := by rw [hm] at hlt; exact_mod_cast hlt
  simp only [tyRes, inType, hmod, bmod_natCast_of_lt hw hmlt, hm, Int.toNat_natCast]
  cases ty.signed
  · simp
  · by_cases h : 2 ^ (ty.width - 1) ≤ m <;> simp [h]

/-- A result in the type depends on its residue alone. -/
theorem inType_congr {ty : IntTy} {x y : Int} (h : x % 2 ^ ty.width = y % 2 ^ ty.width) : inType ty x = inType ty y := by
  rw [← tyRes_eq_inType, ← tyRes_eq_inType, tyRes, tyRes, h]

/-- The model's exact results are those of R155, saturated or wrapped. -/
theorem arithI_eq_exactly (o : IOp) (x : Int) : arithI o x = exactly o x := by
  have hlo : tyLo o.ty ≤ tyHi o.ty := by cases o.ty <;> decide
  have hrule : exactly o x = ([.v o.d o.ty.wide (inType o.ty (if o.sat then max (tyLo o.ty) (min x (tyHi o.ty)) else x))],
      if o.sat && (x < tyLo o.ty || tyHi o.ty < x) then fSA else 0) := rfl
  rw [hrule, arithI, arith]
  cases o.sat with
  | false => simp [tyRes_eq_inType]
  | true =>
    simp only [tySat, tyRes_eq_inType, if_true, Bool.true_and, Bool.or_eq_true, decide_eq_true_eq]
    split
    · next hhi => simp [hhi, min_eq_right hhi.le, hlo]
    · next hhi =>
      split
      · next hlt => simp [hlt, min_eq_left (not_lt.mp hhi), hlt.le]
      · next hlt => simp [hlt, hhi, min_eq_left (not_lt.mp hhi), not_lt.mp hlt]

/-- A result that wraps without a flag. -/
theorem resI_eq_inD (o : IOp) (x : Int) : (([resI o x], 0) : LaneRes) = inD o x := by
  rw [inD, resI, tyRes_eq_inType]

theorem clamp_eq_ite (a b c : Int) : min (max a b) c = if b > c then c else min (max a b) c := by
  split <;> omega

/-- An exact result in another type than the operands'. -/
theorem arith_res (o : IOp) (ty : IntTy) {wide : Bool} (hw : ty.wide = wide) (x : Int) :
    (([.v o.d wide (arith ty o.sat x).1], (arith ty o.sat x).2) : LaneRes) = exactly { o with ty } x := by
  subst hw
  exact arithI_eq_exactly { o with ty } x

/-! ### Dot products (R160) -/

/-- Bits that lie below the end of a truncation are not touched by it. -/
theorem mod_two_pow_div_mod {i n m : Nat} (h : i + n ≤ m) (x : Nat) : x % 2 ^ m / 2 ^ i % 2 ^ n = x / 2 ^ i % 2 ^ n := by
  apply Nat.eq_of_testBit_eq
  intro j
  simp only [Nat.testBit_mod_two_pow, Nat.testBit_div_two_pow]
  by_cases hj : j < n
  · simp [show j + i < m by omega]
  · simp [hj]

/-- Element `i` of `w` bits of a register, read with a sign or without. -/
def packedElem (signed : Bool) (w i x : Nat) : Int :=
  let u := x / 2 ^ (w * i) % 2 ^ w
  if signed then Int.bmod u (2 ^ w) else u

theorem packedElem_eq_ite (signed : Bool) {w : Nat} (hw : 0 < w) (i x : Nat) :
    packedElem signed w i x =
      let u := x / 2 ^ (w * i) % 2 ^ w
      if signed && 2 ^ (w - 1) ≤ u then (u : Int) - 2 ^ w else u := by
  rw [packedElem, bmod_natCast_of_lt hw (Nat.mod_lt _ (by positivity))]
  cases signed <;> simp

/-- The elements of a packed register lie in its low 32 bits. -/
theorem packedElem_mod (signed : Bool) {n w i : Nat} (hn : w * n ≤ 32) (hi : i < n) (x : Nat) :
    packedElem signed w i (x % 2 ^ 32) = packedElem signed w i x := by
  have hle : w * i + w ≤ 32 := (Nat.mul_le_mul_left w hi).trans hn
  rw [packedElem, packedElem, mod_two_pow_div_mod hle]

theorem dotInt_eq_sum (signed : Bool) {n w : Nat} (hw : 0 < w) (hn : w * n ≤ 32) (a b : Nat) :
    dotInt signed n w (a % 2 ^ 32) (b % 2 ^ 32) =
      ((List.range n).map fun i => packedElem signed w i a * packedElem signed w i b).sum := by
  rw [List.sum_eq_foldl, List.foldl_map]
  refine List.foldl_ext _ _ _ fun x i hi => ?_
  have hi := List.mem_range.mp hi
  rw [← packedElem_mod signed hn hi a, ← packedElem_mod signed hn hi b, packedElem_eq_ite signed hw, packedElem_eq_ite signed hw]

/-- IDOT4 and IDOT2 in a lane: C and D are 32-bit, and the sum is one exact result. -/
theorem dot_res (o : IOp) {n w : Nat} (hw : 0 < w) (hn : w * n ≤ 32) (a b c : Dword) :
    let ty : IntTy := if o.ty.signed then .i32 else .n32
    let r := arith ty o.sat (tyVal ty c + dotInt o.ty.signed n w (tyBits .b32 a) (tyBits .b32 b))
    (([.v o.d false r.1], r.2) : LaneRes) = exactly { o with ty } (tyVal ty c +
      ((List.range n).map fun i => packedElem o.ty.signed w i a.toNat * packedElem o.ty.signed w i b.toNat).sum) := by
  refine (arith_res o _ (by split <;> rfl) _).trans ?_
  rw [tyBits, tyBits, IntTy.width, dotInt_eq_sum o.ty.signed hw hn]

/-- Settles O1: the model's result of each entry is the exact value under R155, in the entry's own type; ICLAMP's order of tests and the
elements of the dot products are put into the entry's words. -/
theorem integerArithmetic : Obligations.IntegerArithmetic := by
  intro s w bn len hd o h
  refine ⟨does_of_compute h hd (exec_nop hd s) fun t => rfl,
    does_of_compute h hd (exec_iadd hd o s) fun t => arithI_eq_exactly o _,
    does_of_compute h hd (exec_isub hd o s) fun t => arithI_eq_exactly o _,
    does_of_compute h hd (exec_imul hd o s) fun t => arithI_eq_exactly o _,
    does_of_compute h hd (exec_imulh hd o s) fun t => resI_eq_inD o _,
    does_of_compute h hd (exec_imad hd o s) fun t => arithI_eq_exactly o _,
    does_of_compute h hd (exec_imadw hd o s) fun t => ?imadw,
    does_of_compute h hd (exec_ineg hd o s) fun t => arithI_eq_exactly o _,
    does_of_compute h hd (exec_iabs hd o s) fun t => ?iabs,
    does_of_compute h hd (exec_imin hd o s) fun t => resI_eq_inD o _,
    does_of_compute h hd (exec_imax hd o s) fun t => resI_eq_inD o _,
    does_of_compute h hd (exec_iclamp hd o s) fun t => ?iclamp,
    does_of_compute h hd (exec_idot4 hd o s) fun t => dot_res o (by decide) (by decide) _ _ _,
    does_of_compute h hd (exec_idot2 hd o s) fun t => dot_res o (by decide) (by decide) _ _ _,
    does_of_compute h hd (exec_lea hd o s) fun t => resI_eq_inD o _⟩
  case imadw =>
    simp only [beq_iff_eq]
    exact arith_res o _ (by split <;> rfl) _
  case iabs => rw [arithI_eq_exactly, Int.natCast_natAbs]; rfl
  case iclamp => rw [resI_eq_inD, clamp_eq_ite]; rfl

/-! ### Division -/

/-- Division toward zero, by sign and magnitude. -/
theorem tdiv_eq_sign_mul (a b : Int) : a.tdiv b = a.sign * b.sign * ((a.natAbs / b.natAbs : Nat) : Int) := by
  have hq : (a.tdiv b).natAbs = a.natAbs / b.natAbs := Int.natAbs_tdiv a b
  rw [← Int.sign_mul_natAbs (a.tdiv b), Int.sign_tdiv, hq]
  split
  · next h => simp [Nat.div_eq_of_lt h]
  · rfl

/-- The remainder of a division toward zero has the sign of the dividend. -/
theorem tmod_eq_sign_mul (a b : Int) : a.tmod b = a.sign * ((a.natAbs % b.natAbs : Nat) : Int) := by
  rw [← Int.sign_mul_natAbs (a.tmod b), Int.sign_tmod, Int.natAbs_tmod]
  split
  · next h => simp [Nat.mod_eq_zero_of_dvd (Int.natAbs_dvd_natAbs.mpr h)]
  · rfl

/-- IDIV in a lane (R158). -/
theorem divide_res (o : IOp) (a b : Int) :
    (([.v o.d o.ty.wide (divide o.ty o.sat a b).1], (divide o.ty o.sat a b).2) : LaneRes) =
      if b = 0 then
        ((inD o (if o.ty.signed then (if a < 0 then -(2 ^ (o.ty.width - 1)) else 2 ^ (o.ty.width - 1) - 1) else 2 ^ o.ty.width - 1)).1, fDZ)
      else exactly o (a.sign * b.sign * ((a.natAbs / b.natAbs : Nat) : Int)) := by
  rw [← tdiv_eq_sign_mul, ← arithI_eq_exactly, divide]
  split
  · rw [inD, tyRes_eq_inType]
    cases o.ty.signed
    · rfl
    · by_cases ha : a < 0
      · simp [ha, not_le.mpr ha]
      · simp [ha, not_lt.mp ha]
  · rfl

/-- IREM in a lane (R158). -/
theorem remainder_res (o : IOp) (a b : Int) :
    (([.v o.d o.ty.wide (remainder o.ty a b).1], (remainder o.ty a b).2) : LaneRes) =
      if b = 0 then ((inD o a).1, fDZ) else inD o (a.sign * ((a.natAbs % b.natAbs : Nat) : Int)) := by
  rw [← tmod_eq_sign_mul, remainder]
  split <;> simp only [inD, tyRes_eq_inType]

/-- Settles O2: division toward zero is that of the magnitudes with the sign of the operands, and the exact quotient then wraps or
saturates as every exact result does. -/
theorem integerDivision : Obligations.IntegerDivision := fun _ _ _ _ hd o h =>
  ⟨does_of_compute h hd (exec_idiv hd o _) fun _ => divide_res o _ _,
    does_of_compute h hd (exec_irem hd o _) fun _ => remainder_res o _ _⟩

/-! ### Numbers by their bits -/

theorem bitsNat_succ (n : Nat) (f : Nat → Bool) : bitsNat (n + 1) f = bitsNat n f + if f n then 2 ^ n else 0 := by
  simp [bitsNat, List.range_succ]

theorem bitsNat_lt (n : Nat) (f : Nat → Bool) : bitsNat n f < 2 ^ n := by
  induction n with
  | zero => simp [bitsNat]
  | succ n ih => rw [bitsNat_succ, pow_succ]; split <;> omega

theorem testBit_bitsNat (n : Nat) (f : Nat → Bool) (j : Nat) : (bitsNat n f).testBit j = (decide (j < n) && f j) := by
  induction n with
  | zero => simp [bitsNat]
  | succ n ih =>
    have hsum : bitsNat (n + 1) f = 2 ^ n * (f n).toNat + bitsNat n f := by
      rw [bitsNat_succ]; cases f n <;> simp [Nat.add_comm]
    rw [hsum, Nat.testBit_two_pow_mul_add _ (bitsNat_lt n f)]
    split
    · next h => rw [ih]; simp [h, Nat.lt_succ_of_lt h]
    · next h =>
      by_cases hj : j = n
      · subst hj; cases f j <;> simp
      · simp [Nat.testBit_bool_toNat, show ¬ j - n = 0 by omega, show ¬ j < n + 1 by omega]

/-- A number whose low bits are given is that number, up to what lies above. -/
theorem mod_eq_bitsNat {n x : Nat} {f : Nat → Bool} (h : ∀ j, j < n → x.testBit j = f j) : x % 2 ^ n = bitsNat n f := by
  apply Nat.eq_of_testBit_eq
  intro j
  rw [Nat.testBit_mod_two_pow, testBit_bitsNat]
  by_cases hj : j < n <;> simp [hj, h j]

/-- A bit pattern in D is the number that it encodes. -/
theorem bitsI_eq_inD (o : IOp) (x : Nat) : bitsI o x = inD o x := by rw [bitsI, inD, tyRes_eq_inType]

theorem bitsI_eq_bits (o : IOp) {x : Nat} {f : Nat → Bool} (h : ∀ j, j < o.ty.width → x.testBit j = f j) :
    bitsI o x = inD o (bitsNat o.ty.width f) := by
  have hmod : (x : Int) % 2 ^ o.ty.width = (bitsNat o.ty.width f : Int) % 2 ^ o.ty.width := by
    rw [← mod_eq_bitsNat h]; push_cast; exact (Int.emod_emod _ _).symm
  rw [bitsI_eq_inD, inD, inD, inType_congr hmod]

/-! ### Shifts and rotates -/

theorem shiftLeft_eq (w a n : Nat) : shiftLeft w a n = a * 2 ^ n % 2 ^ w := by
  unfold shiftLeft
  split
  · next h => exact (Nat.mod_eq_zero_of_dvd ((pow_dvd_pow 2 h).mul_left a)).symm
  · rfl

theorem shiftRight_eq {w a : Nat} (ha : a < 2 ^ w) (n : Nat) : shiftRight w a n = a / 2 ^ n := by
  unfold shiftRight
  split
  · next h => exact (Nat.div_eq_of_lt (ha.trans_le (Nat.pow_le_pow_right (by decide) h))).symm
  · rfl

/-- A shift by the width or more leaves copies of the sign. -/
theorem ediv_two_pow_min {w : Nat} {v : Int} (hlo : -(2 ^ w) ≤ v) (hhi : v < 2 ^ w) (n : Nat) :
    v / 2 ^ min n w = v / 2 ^ n := by
  rcases Nat.le_total n w with h | h
  · rw [Nat.min_eq_left h]
  · have hp : (2 : Int) ^ w ≤ 2 ^ n := pow_le_pow_right₀ (by decide) h
    have hq : ∀ m : Int, 2 ^ w ≤ m → v / m = if 0 ≤ v then 0 else -1 := by
      intro m hm
      split
      · next h0 => exact Int.ediv_eq_zero_of_lt h0 (hhi.trans_le hm)
      · next h0 => exact (Int.ediv_eq_iff_of_pos (by omega)).mpr ⟨by omega, by omega⟩
    rw [Nat.min_eq_right h, hq _ le_rfl, hq _ hp]

theorem shiftArith_eq {w a : Nat} (hw : 0 < w) (ha : a < 2 ^ w) (n : Nat) :
    (shiftArith w a n : Int) = Int.bmod a (2 ^ w) / 2 ^ n % 2 ^ w := by
  have hv := bmod_natCast_of_lt hw ha
  have ha' : (a : Int) < 2 ^ w := by exact_mod_cast ha
  have hlo : -(2 ^ w) ≤ Int.bmod a (2 ^ w) := by rw [hv]; split <;> omega
  have hhi : Int.bmod a (2 ^ w) < 2 ^ w := by rw [hv]; split <;> omega
  rw [shiftArith, ← ediv_two_pow_min hlo hhi, ← hv, Int.toNat_of_nonneg (Int.emod_nonneg _ (by positivity))]

/-- Bits shifted out at the top come in at the bottom. -/
theorem testBit_rotLeft {w a : Nat} (hw : 0 < w) (ha : a < 2 ^ w) (n : Nat) {j : Nat} (hj : j < w) :
    (rotLeft w a n).testBit j = a.testBit ((j + w - n % w) % w) := by
  have hk : n % w < w := Nat.mod_lt _ hw
  unfold rotLeft
  dsimp only
  generalize n % w = k at hk
  have hlow : a / 2 ^ (w - k) < 2 ^ k := by
    rw [Nat.div_lt_iff_lt_mul (by positivity), ← pow_add, Nat.add_sub_cancel' hk.le]; exact ha
  have hhigh : a * 2 ^ k % 2 ^ w = 2 ^ k * (a % 2 ^ (w - k)) := by
    rw [← Nat.mul_mod_mul_left, ← pow_add, Nat.add_sub_cancel' hk.le, Nat.mul_comm]
  rw [hhigh, Nat.testBit_two_pow_mul_add _ hlow]
  split
  · next h => rw [Nat.testBit_div_two_pow, Nat.mod_eq_of_lt (by omega)]; congr 1; omega
  · next h =>
    have : j + w - k = j - k + w := by omega
    rw [Nat.testBit_mod_two_pow, this, Nat.add_mod_right, Nat.mod_eq_of_lt (by omega)]
    simp [show j - k < w - k by omega]

/-! ### Bit fields -/

/-- A number with every bit from `len` up to `m` set. -/
theorem testBit_add_ones {f len m j : Nat} (hf : f < 2 ^ len) (hm : len ≤ m) (hj : j < m) :
    (f + (2 ^ m - 2 ^ len)).testBit j = if j < len then f.testBit j else true := by
  have hsplit : f + (2 ^ m - 2 ^ len) = 2 ^ len * (2 ^ (m - len) - 1) + f := by
    rw [Nat.mul_sub, ← pow_add, Nat.add_sub_cancel' hm, Nat.mul_one, Nat.add_comm]
  rw [hsplit, Nat.testBit_two_pow_mul_add _ hf, Nat.testBit_two_pow_sub_one]
  by_cases h : j < len
  · rw [if_pos h, if_pos h]
  · rw [if_neg h, if_neg h, decide_eq_true (by omega)]

/-- BFE reads a field of the register extended upward by its sign or by zeros (R159). -/
theorem testBit_bitField (signed : Bool) {a : Nat} (ha : a < 2 ^ 32) (b : Nat) {j : Nat} (hj : j < 32) :
    (bitField signed a b).testBit j =
      let pos := b % 256
      let len := min (b / 256 % 256) 32
      let src (p : Nat) : Bool := if p < 32 then a.testBit p else signed && a.testBit 31
      if len = 0 then false else if j < len then src (pos + j) else signed && src (pos + len - 1) := by
  have hpos : b % 256 < 256 := Nat.mod_lt _ (by decide)
  have hlen : min (b / 256 % 256) 32 ≤ 32 := Nat.min_le_right _ _
  unfold bitField
  dsimp only
  generalize b % 256 = pos at hpos
  generalize min (b / 256 % 256) 32 = len at hlen
  generalize htop : (signed && a.testBit 31) = top
  have hext : ∀ p, p < 300 → (a + if top then 2 ^ 300 - 2 ^ 32 else 0).testBit p = if p < 32 then a.testBit p else top := by
    intro p hp
    cases top with
    | true => exact testBit_add_ones ha (by decide) hp
    | false =>
      rw [if_neg Bool.false_ne_true, Nat.add_zero]
      split
      · rfl
      · exact Nat.testBit_lt_two_pow (ha.trans_le (Nat.pow_le_pow_right (by decide) (by omega)))
  generalize (a + if top then 2 ^ 300 - 2 ^ 32 else 0) = ext at hext
  have hf : ∀ i, i < len → (ext / 2 ^ pos % 2 ^ len).testBit i = if pos + i < 32 then a.testBit (pos + i) else top := by
    intro i hi
    rw [Nat.testBit_mod_two_pow, Nat.testBit_div_two_pow, Nat.add_comm i, hext _ (by omega)]
    simp [hi]
  have hflt : ext / 2 ^ pos % 2 ^ len < 2 ^ len := Nat.mod_lt _ (by positivity)
  generalize ext / 2 ^ pos % 2 ^ len = f at hf hflt
  split
  · simp
  · next h0 =>
    have hsign := hf (len - 1) (by omega)
    rw [← Nat.add_sub_assoc (by omega)] at hsign
    rw [← hsign]
    cases hs : signed && f.testBit (len - 1) with
    | true =>
      rw [if_pos rfl, testBit_add_ones hflt hlen hj]
      split
      · next hjl => exact hf j hjl
      · rfl
    | false =>
      rw [if_neg Bool.false_ne_true]
      split
      · next hjl => exact hf j hjl
      · exact Nat.testBit_lt_two_pow (hflt.trans_le (Nat.pow_le_pow_right (by decide) (by omega)))

/-- A field of `c` from bit `pos` up to bit `top` replaced by the low bits of `a`. -/
theorem testBit_replace {pos top : Nat} (h : pos ≤ top) (a c j : Nat) :
    (c - c / 2 ^ pos % 2 ^ (top - pos) * 2 ^ pos + a * 2 ^ pos % 2 ^ top).testBit j =
      if pos ≤ j && j < top then a.testBit (j - pos) else c.testBit j := by
  have hpt : 2 ^ top = 2 ^ pos * 2 ^ (top - pos) := by rw [← pow_add, Nat.add_sub_cancel' h]
  have hc : c = 2 ^ top * (c / 2 ^ top) + (2 ^ pos * (c / 2 ^ pos % 2 ^ (top - pos)) + c % 2 ^ pos) := by
    have := Nat.div_add_mod (c / 2 ^ pos) (2 ^ (top - pos))
    rw [Nat.div_div_eq_div_mul, ← hpt] at this
    have h2 := Nat.div_add_mod c (2 ^ pos)
    rw [← this, Nat.mul_add, ← Nat.mul_assoc, ← hpt, Nat.add_assoc] at h2
    exact h2.symm
  have hlo : c % 2 ^ pos < 2 ^ pos := Nat.mod_lt _ (by positivity)
  have hmid : 2 ^ pos * (a % 2 ^ (top - pos)) + c % 2 ^ pos < 2 ^ top := by
    have : a % 2 ^ (top - pos) + 1 ≤ 2 ^ (top - pos) := Nat.mod_lt _ (by positivity)
    calc _ < 2 ^ pos * (a % 2 ^ (top - pos) + 1) := by rw [Nat.mul_add]; omega
      _ ≤ _ := by rw [hpt]; exact Nat.mul_le_mul_left _ this
  have hnew : c - c / 2 ^ pos % 2 ^ (top - pos) * 2 ^ pos + a * 2 ^ pos % 2 ^ top =
      2 ^ top * (c / 2 ^ top) + (2 ^ pos * (a % 2 ^ (top - pos)) + c % 2 ^ pos) := by
    have ha : a * 2 ^ pos % 2 ^ top = 2 ^ pos * (a % 2 ^ (top - pos)) := by
      rw [hpt, Nat.mul_comm, Nat.mul_mod_mul_left]
    rw [ha, Nat.mul_comm (c / 2 ^ pos % 2 ^ (top - pos))]
    omega
  rw [hnew, Nat.testBit_two_pow_mul_add _ hmid, Nat.testBit_two_pow_mul_add _ hlo]
  by_cases h1 : j < pos
  · simp [h1, show j < top by omega, show ¬ pos ≤ j by omega, Nat.testBit_mod_two_pow]
  · by_cases h2 : j < top
    · simp [h1, h2, not_lt.mp h1, Nat.testBit_mod_two_pow, show j - pos < top - pos by omega]
    · simp [h2, Nat.testBit_div_two_pow, Nat.sub_add_cancel (not_lt.mp h2)]

theorem testBit_bitInsert (a b c : Nat) {j : Nat} (hj : j < 32) :
    (bitInsert a b c).testBit j =
      let pos := b % 256
      let len := min (b / 256 % 256) 32
      if pos ≤ j && j < min (pos + len) 32 then a.testBit (j - pos) else c.testBit j := by
  unfold bitInsert
  dsimp only
  split
  · next h =>
    simp only [Bool.or_eq_true, decide_eq_true_eq] at h
    rw [if_neg]
    simp only [Bool.and_eq_true, decide_eq_true_eq]
    omega
  · next h =>
    simp only [Bool.or_eq_true, decide_eq_true_eq] at h
    exact testBit_replace (by omega) a c j

/-! ### Bit counts -/

theorem popCount_eq (w a : Nat) : popCount w a = ((List.range w).filter a.testBit).length := List.countP_eq_length_filter

theorem leadZeros_eq {w a : Nat} (ha : a < 2 ^ w) :
    leadZeros w a = ((List.range w).find? fun j => a.testBit (w - 1 - j)).getD w := by
  unfold leadZeros
  split
  · next h =>
    have : (List.range w).find? (fun j => a.testBit (w - 1 - j)) = none := List.find?_range_eq_none.mpr fun i _ => by simp [h]
    rw [this]; rfl
  · next h =>
    have hlog : a.log2 < w := (Nat.log2_lt h).mpr ha
    have : (List.range w).find? (fun j => a.testBit (w - 1 - j)) = some (w - 1 - a.log2) := by
      refine List.find?_range_eq_some.mpr ⟨?_, List.mem_range.mpr (by omega), fun j hj => ?_⟩
      · rw [show w - 1 - (w - 1 - a.log2) = a.log2 by omega]; exact Nat.testBit_log2 h
      · have : a < 2 ^ (w - 1 - j) := (Nat.log2_lt h).mp (by omega)
        simp [Nat.testBit_lt_two_pow this]
    rw [this]; rfl

theorem foldl_add_eq_sum (f : Nat → Nat) (n : Nat) : (List.range n).foldl (fun x j => x + f j) 0 = ∑ j ∈ Finset.range n, f j := by
  induction n with
  | zero => rfl
  | succ n ih => rw [List.range_succ, List.foldl_append, ih, Finset.sum_range_succ]; rfl

theorem bitReverse_eq (w a : Nat) : bitReverse w a = bitsNat w fun j => a.testBit (w - 1 - j) := by
  rw [bitReverse, bitsNat, foldl_add_eq_sum, foldl_add_eq_sum, ← Finset.sum_range_reflect]
  refine Finset.sum_congr rfl fun j hj => ?_
  have : w - 1 - (w - 1 - j) = j := by have := Finset.mem_range.mp hj; omega
  rw [this]

/-- A bit of a pattern, taken in its register. -/
theorem testBit_tyBits {ty : IntTy} {j : Nat} (hj : j < ty.width) (x : Dword) : (tyBits ty x).testBit j = x.getLsbD j := by
  rw [tyBits, Nat.testBit_mod_two_pow, decide_eq_true hj, Bool.true_and]; rfl

theorem word32_eq_num32 (d : Byte) {x : Nat} (h : x < 2 ^ 32) : word32 d x = num32 d x := by
  rw [word32, num32, Nat.mod_eq_of_lt h]

theorem find?_range_getD_le (n : Nat) (p : Nat → Bool) : ((List.range n).find? p).getD n ≤ n := by
  cases h : (List.range n).find? p with
  | none => exact le_rfl
  | some i => exact (List.mem_range.mp (List.mem_of_find?_eq_some h)).le

/-- BTAB3 in a lane (R157). -/
theorem btab3_res (k : TabOp) (lead : Bool) (t : Thread) :
    tyRes (tabTy k) (table3 (tabTy k).width k.tab (tabSrc lead k t k.a) (tabB lead k t) (tabSrc lead k t k.c)) =
      BitVec.ofNat 64 (tabRule (tabTy k).width k.tab (tabSrc lead k t k.a) (tabB lead k t) (tabSrc lead k t k.c)) := by
  have hlt := bitsNat_lt (tabTy k).width fun j => k.tab.getLsbD (((tabSrc lead k t k.a).testBit j).toNat +
    2 * ((tabB lead k t).testBit j).toNat + 4 * ((tabSrc lead k t k.c).testBit j).toNat)
  have hs : (tabTy k).signed = false := by unfold tabTy; split <;> rfl
  rw [tyRes, hs, if_neg (by simp)]
  exact congrArg _ (Nat.mod_eq_of_lt hlt)

/-- SHF in a lane (R159). -/
theorem funnel_res (o : IOp) (c a n : Nat) :
    bitsI o (funnel (o.sub == 1) c a n) =
      let x := c * 2 ^ 32 + a
      inD o (if o.sub = 1 then (x * 2 ^ (n % 32) / 2 ^ 32 % 2 ^ 32 : Nat) else (x / 2 ^ (n % 32) % 2 ^ 32 : Nat)) := by
  rw [bitsI_eq_inD, funnel]
  by_cases h : o.sub = 1 <;> simp [h]

/-- Settles O3: a result given by its bits is compared with the model's bit by bit, a shift or a count as the number that it is. -/
theorem logicAndShift : Obligations.LogicAndShift := by
  intro s w bn len hd o k h _ lead n a b cnt a32 c32 tabIn
  have hn : n < 2 ^ 32 := (intTy_width_le o.ty).trans_lt (by decide)
  have ha : ∀ t, a t < 2 ^ n := fun t => Nat.mod_lt _ (by positivity)
  refine ⟨
    does_of_compute h hd (exec_and hd o s) fun t => bitsI_eq_bits o fun j hj => ?and,
    does_of_compute h hd (exec_or hd o s) fun t => bitsI_eq_bits o fun j hj => ?or,
    does_of_compute h hd (exec_xor hd o s) fun t => bitsI_eq_bits o fun j hj => ?xor,
    does_of_compute h hd (exec_not hd o s) fun t => bitsI_eq_bits o fun j hj => ?not,
    does_of_compute h hd (exec_btab3 hd s k) fun t => ?btab3,
    does_of_compute h hd (exec_shl hd o s) fun t => ?shl,
    does_of_compute h hd (exec_shr hd o s) fun t => ?shr,
    does_of_compute h hd (exec_sar hd o s) fun t => ?sar,
    does_of_compute h hd (exec_rotl hd o s) fun t => bitsI_eq_bits o fun j hj =>
      testBit_rotLeft (intTy_width_pos o.ty) (ha t) (cnt t) hj,
    fun hw => ⟨does_of_compute h hd (exec_shf hd o s) fun t => ?shf,
      does_of_compute h hd (exec_bfe hd o s) fun t => ?bfe,
      does_of_compute h hd (exec_bfi hd o s) fun t => ?bfi⟩,
    does_of_compute h hd (exec_popc hd o s) fun t => ?popc,
    does_of_compute h hd (exec_clz hd o s) fun t => ?clz,
    does_of_compute h hd (exec_ctz hd o s) fun t => ?ctz,
    does_of_compute h hd (exec_brev hd o s) fun t => ?brev⟩
  case and => rw [testBit_tyBits hj, testBit_tyBits hj]; exact BitVec.getLsbD_and
  case or => rw [testBit_tyBits hj, testBit_tyBits hj]; exact BitVec.getLsbD_or
  case xor => rw [testBit_tyBits hj, testBit_tyBits hj]; exact BitVec.getLsbD_xor
  case not =>
    have h64 : j < 64 := hj.trans_le (intTy_width_le o.ty)
    rw [testBit_tyBits hj, BitVec.testBit_toNat, BitVec.getLsbD_not, decide_eq_true h64, Bool.true_and]
  case btab3 =>
    dsimp only
    rw [btab3_res]
    simp only [tabIn, tabB, tabSrc, tyBits, tabTy]
    cases k.wide <;> rfl
  case shl => rw [shiftLeft_eq, bitsI_eq_inD]; rfl
  case shr => rw [shiftRight_eq (ha t), bitsI_eq_inD]; rfl
  case sar =>
    rw [bitsI_eq_inD]
    refine congrArg (fun r => (([.v o.d o.ty.wide r], 0) : LaneRes)) (inType_congr ?_)
    rw [shiftArith_eq (intTy_width_pos o.ty) (ha t), Int.emod_emod]
    rfl
  case brev => rw [bitReverse_eq, bitsI_eq_inD]
  case shf => exact funnel_res o _ _ _
  case bfe =>
    refine (bitsI_eq_bits o fun j hj => testBit_bitField _ (Nat.mod_lt _ (by decide)) _ (hw ▸ hj)).trans ?_
    rw [hw]
    rfl
  case bfi =>
    refine (bitsI_eq_bits o fun j hj => testBit_bitInsert _ _ _ (hw ▸ hj)).trans ?_
    rw [hw]
    rfl
  case popc =>
    rw [popCount_eq]
    exact word32_eq_num32 _ ((List.length_filter_le _ _).trans_lt (by rwa [List.length_range]))
  case clz =>
    rw [leadZeros_eq (ha t)]
    exact word32_eq_num32 _ ((find?_range_getD_le _ _).trans_lt hn)
  case ctz => exact word32_eq_num32 _ ((find?_range_getD_le _ _).trans_lt hn)

/-! ### Lanes that read one another -/

/-- A computation's outcome depends on what it gives each lane's own thread alone. -/
theorem computes_congr {s : State} {w : Nat} {bn : Bundle} {len : Nat} {g : Thread → Bool} {yh : Bool}
    {f f' : Nat → Thread → LaneRes} {out : Out} (hc : Computes s w bn len g yh f out)
    (hf : ∀ l, f l (threadOf (warpOf s w) l) = f' l (threadOf (warpOf s w) l)) : Computes s w bn len g yh f' out := by
  obtain ⟨t, ht, hthr, hframe⟩ := hc
  refine ⟨t, ht, fun l hl => ?_, fun hen => hframe fun l hl => by rw [hf l]; exact hen l hl⟩
  rw [hthr l hl, laneAfter, laneAfter, hf l]

/-- A cross-lane instruction that gives each active lane the results of a rule does what the rule says. -/
theorem computes_of_issueH {s : State} {w : Nat} {bn : Bundle} {len : Nat} (h : Issuing s w bn len) (hd : Hdr) {i : Instr}
    {lat : Nat} {dst : Iss → List Nat} {F : Iss → Nat → Thread → LaneRes} {f : Nat → Thread → LaneRes}
    (hi : exec i s = issueH s hd fun j => computeBody s j hd.yh hd.la.toNat lat (dst j) (F j))
    (hF : ∀ l, F (issueOf s w bn len (hdrGuard hd)) l (threadOf (warpOf s w) l) = f l (threadOf (warpOf s w) l)) :
    Computes s w bn len (hdrGuard hd) hd.yh f (exec i s) := by
  rw [hi]
  exact computes_congr (computes_of_issuing h (hdrGuard hd) hd.yh hd.la.toNat lat dst F) hF

theorem lanesOf_activeLanes (w : Warp) (m : Mask) (g : Thread → Bool) :
    lanesOf (activeLanes w m g) = (lanesOf m).filter fun l => g (threadOf w l) := by
  rw [lanesOf, lanesOf, List.filter_filter]
  exact List.filter_congr fun l _ => by rw [getLsbD_activeLanes, Bool.and_comm]

theorem lanesOf_inj {m n : Mask} : lanesOf m = lanesOf n ↔ m = n := by
  refine ⟨fun h => BitVec.eq_of_getLsbD_eq fun l hl => ?_, congrArg _⟩
  have := congrArg (l ∈ ·) h
  simpa only [mem_lanesOf, hl, true_and, eq_iff_iff, Bool.coe_iff_coe] using this

theorem lanesOf_eq_nil {m : Mask} : lanesOf m = [] ↔ m = 0 := lanesOf_inj (n := 0)

/-- The lowest lane of a set, if it has one. -/
theorem head?_lanesOf (m : Mask) : (lanesOf m).head? = if m = 0 then none else some (lowest m) := by
  rw [lowest, ← List.head?_filter, ← lanesOf]
  cases h : lanesOf m with
  | nil => rw [if_pos (lanesOf_eq_nil.mp h)]; rfl
  | cons x xs => rw [if_neg (mt lanesOf_eq_nil.mpr (by simp [h]))]; rfl

/-- R173, R177: D takes A of a valid source, else the lane's own A. -/
theorem takeFrom_eq (i : Iss) (wide : Bool) (d a c : Byte) (l : Nat) (src : Option Nat) :
    takeFrom i wide d a c l src = match src.filter (validLane i) with
      | some m => ([.v d wide (laneA i wide a m), .p c.toNat true], 0)
      | none => ([.v d wide (laneA i wide a l), .p c.toNat false], 0) := by
  cases src with
  | none => rfl
  | some m => cases hv : validLane i m <;> simp [takeFrom, Option.filter, hv]

/-- The source lane of SHFL, in segments of S lanes (R173). -/
theorem shflSource_eq (mode : ShflMode) (seg l b : Nat) :
    shflSource mode seg l b =
      let S := 64 / 2 ^ seg
      match mode with
      | .idx => some (l / S * S + b % S)
      | .up => if b ≤ l % S then some (l - b) else none
      | .down => if l % S + b < S then some (l + b) else none
      | .xor => some (l / S * S + Nat.xor (l % S) (b % S)) := by
  have hbase : l - l % (64 / 2 ^ seg) = l / (64 / 2 ^ seg) * (64 / 2 ^ seg) := by
    rw [Nat.sub_eq_iff_eq_add (Nat.mod_le _ _), Nat.div_add_mod']
  cases mode <;> simp only [shflSource, hbase]

/-! ### Votes -/

/-- The valid lanes whose predicate is true, as R177 lists them. -/
theorem lanesOf_trueLanes (i : Iss) (a : Byte) :
    lanesOf (trueLanes i a) = (lanesOf i.act).filter fun l => rdP (threadOf i.wp l) a.toNat := lanesOf_activeLanes _ _ _

theorem beq_eq_decide_lanesOf (m n : Mask) : (m == n) = decide (lanesOf m = lanesOf n) := by
  rw [Bool.eq_iff_iff, beq_iff_eq, decide_eq_true_eq, lanesOf_inj]

theorem beq_zero_eq_decide_lanesOf (m : Mask) : (m == 0) = decide (lanesOf m = []) := beq_eq_decide_lanesOf m 0

/-- FIRST's lane: the lowest of a vote, if there is one. -/
theorem find?_lanesOf (i : Iss) (a : Byte) :
    (lanesOf i.act).find? (fun l => rdP (threadOf i.wp l) a.toNat) =
      if trueLanes i a = 0 then none else some (lowest (trueLanes i a)) := by
  rw [← head?_lanesOf, lanesOf_trueLanes, List.head?_filter]

/-- Settles O12: all lanes read the threads as the issue found them, so each instruction comes down to its source lane and that lane's
test, or to the list of the active lanes that a vote counts. -/
theorem crossLane : Obligations.CrossLane := by
  intro s w bn len hd sh rs rl vo ma bc fi h g act thr valid reg word take votes vals does
  let i := issueOf s w bn len g
  refine ⟨computes_of_issueH h hd (exec_shfl hd s sh) fun l => ?shfl,
    computes_of_issueH h hd (exec_rstep hd s rs) fun l => ?rstep,
    computes_of_issueH h hd (exec_vote hd s vo) fun l => ?vote,
    computes_of_issueH h hd (exec_matchLanes hd s ma) fun l => ?matchLanes,
    computes_of_issueH h hd (exec_bcast hd s bc) fun l => takeFrom_eq i bc.kt.wide bc.d bc.a bc.c l _,
    computes_of_issueH h hd (exec_first hd s fi) fun l => ?first,
    computes_of_issueH h hd (exec_wred hd s rl) fun l => rfl,
    computes_of_issueH h hd (exec_scan hd s rl) fun l => rfl⟩
  case shfl =>
    rw [shflSource_eq]
    exact takeFrom_eq i sh.kt.wide sh.d sh.a sh.c l _
  case rstep =>
    simp only [wordB]
    by_cases hb : (srcB32 false rs.lit rs.b (threadOf (warpOf s w) l)).toNat ≤ 5
    · simp only [hb, decide_true, Bool.true_and, true_and, Nat.min_eq_left (hb.trans (by decide : 5 ≤ 6))]
      rfl
    · simp only [hb, decide_false, Bool.false_and, false_and, Bool.false_eq_true, if_false]
      rfl
  case vote =>
    have hvotes : lanesOf (trueLanes i vo.a) = votes := lanesOf_trueLanes i vo.a
    refine congrArg (fun r : RegW => ([r], 0)) ?_
    generalize vo.op = op
    cases op with
    | ballot => rfl
    | any => exact congrArg (RegW.p _) (by rw [bne, beq_zero_eq_decide_lanesOf, hvotes]; exact (decide_not ..).symm)
    | all => exact congrArg (RegW.p _) (by rw [beq_eq_decide_lanesOf, hvotes]; rfl)
    | uni => exact congrArg (RegW.p _) (by rw [beq_zero_eq_decide_lanesOf, beq_eq_decide_lanesOf, hvotes, Bool.decide_or]; rfl)
  case matchLanes => rfl
  case first =>
    have hfind := find?_lanesOf i fi.a
    refine congrArg (fun x => (([.v fi.d false (BitVec.ofNat 64 x)], 0) : LaneRes)) ?_
    change _ = ((lanesOf i.act).find? fun l => rdP (threadOf i.wp l) fi.a.toNat).getD _
    rw [hfind]
    split <;> rfl

end Sys2Proof.Machine
end
